-- ==== Sys2Proof/Word.lean ====
section
/-! DEFINITION. The words of the part: bytes and two-byte fields of the link, the tick counter, and the sets of
lanes and inputs, each of which is one byte of a frame (R189) whose bit i stands for member i. -/

namespace Sys2Proof

/-- One byte of a frame (R188). -/
abbrev Byte := BitVec 8

/-- A field of two bytes, sent most significant byte first (R189). -/
abbrev Word16 := BitVec 16

/-- A value of the tick counter, which wraps from 4294967295 to 0 (R2). -/
abbrev Tick := BitVec 32

/-- A set of lanes 0 to 5: bit i stands for lane i (R189). -/
abbrev LaneSet := BitVec 6

/-- A set of trigger inputs or of fault inputs 0 to 3: bit i stands for input i (R189). -/
abbrev InputSet := BitVec 4

/-- A set of sense inputs 0 to 2. -/
abbrev SenseSet := BitVec 3

/-- The lanes in ascending number. -/
abbrev allLanes : List (Fin 6) := [0, 1, 2, 3, 4, 5]

/-- The pairs in ascending number. -/
abbrev allPairs : List (Fin 3) := [0, 1, 2]

/-- Trigger inputs, fault inputs and barriers in ascending number. -/
abbrev allFour : List (Fin 4) := [0, 1, 2, 3]

/-- The pattern descriptors in ascending number. -/
abbrev allPatterns : List (Fin 8) := [0, 1, 2, 3, 4, 5, 6, 7]

/-- The region descriptors in ascending number. -/
abbrev allRegions : List (Fin 16) := [0, 1, 2, 3, 4, 5, 6, 7, 8, 9, 10, 11, 12, 13, 14, 15]

end Sys2Proof
end

