-- ==== Sys2Proof/Config.lean ====
section
/-! DEFINITION. The constants the manual fixes for the part. No value is left free: nowhere does the manual call a
result undefined (INVENTORY.md). -/

namespace Sys2Proof.Config

/-- Slots of the segment store (R35). -/
abbrev slots : Nat := 2048

/-- Entries the notification queue holds at most (R172). -/
abbrev queueCapacity : Nat := 32

/-- Entries that may be IN_FLIGHT (R175). -/
abbrev window : Nat := 4

/-- Frames the request buffer holds at most (R158). -/
abbrev requestBufferCapacity : Nat := 2

/-- Core clocks of CLKIN in a millisecond, at 80 MHz (R1). -/
abbrev clocksPerMs : Nat := 80000

/-- Core clocks of the inter-byte gap, 2 ms (R155). -/
abbrev gapClocks : Nat := 160000

/-- Core clocks a requested reset lasts (R169). -/
abbrev resetClocks : Nat := 1024

/-- Ticks in one unit of a barrier timeout (R128). -/
abbrev timeoutUnit : Nat := 1024

/-- Highest value of the lost tally's count (R173). -/
abbrev lostCountMax : Nat := 65535

/-- Family code in the reply to SYNC (R195). -/
abbrev familyCode : Word16 := 0x7306

/-- Revision code in the reply to SYNC (R195). -/
abbrev revisionCode : Byte := 0x01

/-- A bound on the segments one event can process, above what 2048 slots, six lanes and one pass over two plays of
a pattern allow. DESIGN CHOICE (Log 15): it makes join processing a structural recursion. -/
abbrev joinFuel : Nat := 65536

end Sys2Proof.Config
end

