-- ==== Sys2Proof/Syntax.lean ====
section
/-! DEFINITION. The commands of the part: one constructor of `Instr` for each row of spec/opcode_table.json.

A request command carries the SEQ byte of its frame and the fields of its payload in the order and at the widths of
R192, as raw bytes, so that every value the host can send is an operand. An event command names the lane, input,
barrier or line it concerns. -/

namespace Sys2Proof

/-- An electrical level of a pin. -/
inductive Level where
  | low
  | high
deriving DecidableEq, Repr

/-- The samples of the trigger, fault and sense inputs at one tick (R1): bit i is set where input i is HIGH. -/
structure Pins where
  trg : InputSet
  flt : InputSet
  sns : SenseSet
deriving DecidableEq, Repr

/-- The levels of BAUD1 and BAUD0 at the end of a reset (R152). -/
structure Straps where
  baud1 : Level
  baud0 : Level
deriving DecidableEq, Repr

/-- Whether a start bit falls on RXD in the tick that ends (R152, R155), and whether the line was HIGH for one bit time
before it (Log 8). -/
inductive StartBit where
  | none
  | begins (idleBefore : Bool)
deriving DecidableEq, Repr

/-- What the pins bring to a TICK: the samples of the tick it begins (R1), and the start bit, if any, of the tick it
ends (Log 8). -/
structure TickInputs where
  samples : Pins
  start   : StartBit
deriving DecidableEq, Repr

/-- A segment as it stands in APPEND or PATTERN_DATA: twelve bytes (R191). -/
abbrev RawSegment := Vector Byte 12

/-- The commands. Requests first, in the order of the opcode table, then the events. -/
inductive Instr where
  | sync (seq : Byte)
  | reset (seq : Byte)
  | getStatus (seq : Byte)
  | getLinkStats (seq clear : Byte)
  | setLinkTiming (seq interval limit : Byte)
  | setTimebase (seq prescale : Byte)
  | setPair (seq pair mode deadA deadB topPolarity bottomPolarity topSafe bottomSafe : Byte)
  | defineRegion (seq region : Byte) (start size : Word16)
  | deleteRegion (seq region : Byte)
  | bindRegion (seq region kind target : Byte)
  | unbindRegion (seq region : Byte)
  | clearRegion (seq region : Byte)
  | getRegions (seq : Byte)
  | append (seq lane : Byte) (segments : List RawSegment)
  | start (seq lanes source : Byte)
  | stop (seq lanes kind : Byte)
  | setLane (seq lane policy : Byte) (mark : Word16) (linkLoss : Byte)
  | getLane (seq lane : Byte)
  | trim (seq lane altFlag : Byte) (onTime alternate : Word16)
  | patternBegin (seq pattern : Byte)
  | patternData (seq pattern : Byte) (segments : List RawSegment)
  | patternEnd (seq pattern : Byte)
  | patternDiscard (seq pattern : Byte)
  | getPatterns (seq : Byte)
  | setTrigger (seq input edges capture : Byte)
  | fireTrigger (seq input : Byte)
  | getTriggers (seq : Byte)
  | setBarrier (seq barrier members mode trigger : Byte) (timeout : Word16) (action : Byte)
  | releaseBarrier (seq barrier : Byte)
  | getBarrier (seq barrier : Byte)
  | setFault (seq input activeLevel filter mode lanes : Byte)
  | clearFault (seq inputs : Byte)
  | getFaults (seq : Byte)
  | unknownRequest (seq code : Byte) (payload : List Byte)
  | frameComplete
  | lengthError
  | gapTimeout
  | frameSent
  | powerOnReset
  | pinReset
  | resetEnd (straps : Straps) (first : Pins)
  | triggerEdge (input : Fin 4)
  | faultQualifyActive (input : Fin 4)
  | faultQualifyInactive (input : Fin 4)
  | periodBoundary (lane : Fin 6)
  | join (lane : Fin 6)
  | heldBoundary (lane : Fin 6)
  | softStopComplete (lane : Fin 6)
  | barrierTimeout (barrier : Fin 4)
  | retransmitTimeout
  | byteReceived (data : Byte) (stopBit : Level) (idleBefore : Bool)
  | tick (inputs : TickInputs)
  | delayedActivation (line : Fin 6)
deriving DecidableEq, Repr

end Sys2Proof
end

