-- ==== Sys2Proof/Decode.lean ====
section
/-! DEFINITION. The request codes of R192, and `decodeTableWord`. spec/opcode_table.json gives no row any bits, so no
word spells a command (Log 26). -/

namespace Sys2Proof

/-- The thirty-three requests. -/
inductive RequestKind where
  | sync | reset | getStatus | getLinkStats | setLinkTiming
  | setTimebase | setPair
  | defineRegion | deleteRegion | bindRegion | unbindRegion | clearRegion | getRegions
  | append | start | stop | setLane | getLane | trim
  | patternBegin | patternData | patternEnd | patternDiscard | getPatterns
  | setTrigger | fireTrigger | getTriggers
  | setBarrier | releaseBarrier | getBarrier
  | setFault | clearFault | getFaults
deriving DecidableEq, Repr

/-- The code of a request (R192). -/
def requestCode : RequestKind → Byte
  | .sync => 0x01
  | .reset => 0x02
  | .getStatus => 0x03
  | .getLinkStats => 0x04
  | .setLinkTiming => 0x05
  | .setTimebase => 0x10
  | .setPair => 0x11
  | .defineRegion => 0x20
  | .deleteRegion => 0x21
  | .bindRegion => 0x22
  | .unbindRegion => 0x23
  | .clearRegion => 0x24
  | .getRegions => 0x25
  | .append => 0x30
  | .start => 0x31
  | .stop => 0x32
  | .setLane => 0x33
  | .getLane => 0x34
  | .trim => 0x35
  | .patternBegin => 0x40
  | .patternData => 0x41
  | .patternEnd => 0x42
  | .patternDiscard => 0x43
  | .getPatterns => 0x44
  | .setTrigger => 0x50
  | .fireTrigger => 0x51
  | .getTriggers => 0x52
  | .setBarrier => 0x60
  | .releaseBarrier => 0x61
  | .getBarrier => 0x62
  | .setFault => 0x70
  | .clearFault => 0x71
  | .getFaults => 0x72

/-- The request a CODE byte names, if it names one (R192: "A CODE that is in none of the table's rows" names no
request). -/
def requestKind (code : Byte) : Option RequestKind :=
  match code.toNat with
  | 0x01 => some .sync
  | 0x02 => some .reset
  | 0x03 => some .getStatus
  | 0x04 => some .getLinkStats
  | 0x05 => some .setLinkTiming
  | 0x10 => some .setTimebase
  | 0x11 => some .setPair
  | 0x20 => some .defineRegion
  | 0x21 => some .deleteRegion
  | 0x22 => some .bindRegion
  | 0x23 => some .unbindRegion
  | 0x24 => some .clearRegion
  | 0x25 => some .getRegions
  | 0x30 => some .append
  | 0x31 => some .start
  | 0x32 => some .stop
  | 0x33 => some .setLane
  | 0x34 => some .getLane
  | 0x35 => some .trim
  | 0x40 => some .patternBegin
  | 0x41 => some .patternData
  | 0x42 => some .patternEnd
  | 0x43 => some .patternDiscard
  | 0x44 => some .getPatterns
  | 0x50 => some .setTrigger
  | 0x51 => some .fireTrigger
  | 0x52 => some .getTriggers
  | 0x60 => some .setBarrier
  | 0x61 => some .releaseBarrier
  | 0x62 => some .getBarrier
  | 0x70 => some .setFault
  | 0x71 => some .clearFault
  | 0x72 => some .getFaults
  | _ => none

/-- The command that a word of the opcode table spells. The table gives no row bits, so none does. -/
def decodeTableWord (_nbits _w : Nat) : Option Instr :=
  none

end Sys2Proof
end

