-- ==== Sys2Proof/Machine/State.lean ====
section
/-! DEFINITION. The state of the part, block by block (00, Functional Overview), as plain data; the machine state,
which is the part and the queue of waiting commands; and the state right after reset.

A value that two names share is stored once: a lane's region and a pattern's region and loaded length are found in
the region table, a lane's current segment from its state and period, a fault input's live state from its levels
(Log 11). -/

namespace Sys2Proof.Machine

/-! ## Timebase -/

/-- The prescale setting (R1). -/
inductive Prescale where
  | by1
  | by2
  | by4
  | by8
deriving DecidableEq, Repr

/-- The timebase (R1, R2). `tickLength` is the length of the tick in progress, which a SET_TIMEBASE leaves as it
is (R3). -/
structure Timebase where
  prescale   : Prescale
  tickLength : Prescale
  count      : Tick
deriving DecidableEq, Repr

/-! ## Output stages -/

/-- Pair mode (R7, R8). -/
inductive PairMode where
  | independent
  | complementary
deriving DecidableEq, Repr

/-- Polarity of a line (R7). -/
inductive Polarity where
  | activeHigh
  | activeLow
deriving DecidableEq, Repr

/-- One line of a pair (R7 to R12). `wasRequested` and `since` are those of the previous tick: the requested level,
and the ticks since the last requested activation. `requested`, `active` and `level` are those of this tick.
`activationTaken` says that this tick's DELAYED_ACTIVATION has been taken (Log 19). -/
structure Line where
  polarity        : Polarity
  safeLevel       : Level
  wasRequested    : Bool
  since           : Option Nat
  requested       : Bool
  activationTaken : Bool
  active          : Bool
  level           : Level
deriving DecidableEq, Repr

/-- The output stage of one pair; deadtime A belongs to the top line, deadtime B to the bottom line. -/
structure Pair where
  mode   : PairMode
  deadA  : Byte
  deadB  : Byte
  top    : Line
  bottom : Line
deriving DecidableEq, Repr

/-! ## Segments, the segment store and the region table -/

/-- Alignment of a PULSE (R5). -/
inductive Alignment where
  | edge
  | center
deriving DecidableEq, Repr

/-- Level code 0, 1 or 2 of a LEVEL (R21). -/
inductive LevelCode where
  | zero
  | one
  | two
deriving DecidableEq, Repr

/-- The fields of a segment's kind (R19 to R24). -/
inductive SegmentBody where
  | pulse (period onTime : Nat) (alternate : Option Nat) (alignment : Alignment) (repeats : Nat)
  | level (code : LevelCode) (unit repeats : Nat)
  | barrier (id : Fin 4)
  | call (pattern : Fin 8) (plays : Nat)
  | mark
deriving DecidableEq, Repr

/-- A stored segment (R18): its kind's fields and its optional tag (R25). -/
structure Segment where
  tag  : Option Byte
  body : SegmentBody
deriving DecidableEq, Repr

/-- The segment store (R35): the slots that hold a segment, with it, slots strictly rising; an unlisted slot holds
no segment. -/
abbrev Store := List (Nat × Segment)

/-- The binding of a region (R36). -/
inductive Binding where
  | none
  | lane (l : Fin 6)
  | pattern (k : Fin 8)
deriving DecidableEq, Repr

/-- A region descriptor (R36, R47, R48). -/
structure Region where
  defined : Bool
  start   : Nat
  size    : Nat
  binding : Binding
  head    : Nat
  count   : Nat
  loaded  : Nat
deriving DecidableEq, Repr

/-! ## Lanes -/

/-- Lane state (R56). -/
inductive LaneState where
  | unbound
  | merged
  | stopped
  | armed
  | running
  | waiting
  | starved
  | stopping
  | halted
deriving DecidableEq, Repr

/-- Where in a pattern a lane is (R56, R107). -/
structure CallPosition where
  pattern   : Fin 8
  plays     : Nat
  index     : Nat
  remaining : Nat
deriving DecidableEq, Repr

/-- A staged trim (R90). -/
structure Trim where
  onTime    : Nat
  alternate : Option Nat
deriving DecidableEq, Repr

/-- The held-period record, when not empty (R56). -/
inductive HeldRecord where
  | pulse (period : Nat) (alignment : Alignment) (primary : Nat) (alternate : Option Nat)
  | level (unit : Nat) (code : LevelCode)
deriving DecidableEq, Repr

/-- The shape of a period or unit: its length and what it asks of the lines (R5, R6). -/
inductive Shape where
  | pulse (period : Nat) (alignment : Alignment)
  | level (unit : Nat) (code : LevelCode)
deriving DecidableEq, Repr

/-- The period or unit in progress: its shape, the on-time played, which is fixed at its first tick (R5), the ticks
of it that have passed, and whether it is a held period (R68, R70). When `phase` equals the length, the tick in
progress is the tick after the period's last. -/
structure Period where
  shape  : Shape
  onTime : Nat
  phase  : Nat
  held   : Bool
deriving DecidableEq, Repr

/-- Starve behaviour (R66). -/
inductive StarveBehaviour where
  | safe
  | hold
deriving DecidableEq, Repr

/-- Underrun policy (R84). -/
inductive UnderrunPolicy where
  | safe
  | holdLast
deriving DecidableEq, Repr

/-- Link-loss policy (R81, R84). -/
inductive LinkLossPolicy where
  | continue
  | stop
deriving DecidableEq, Repr

/-- Stop cause of a STOPPING lane and of LANE_STOPPED (R80, R193). -/
inductive StopCause where
  | none
  | softStop
  | linkLoss
  | barrierTimeout
deriving DecidableEq, Repr

/-- A lane (R56). `primary` and `alternate` are the on-time in effect (R87). -/
structure Lane where
  state       : LaneState
  remaining   : Nat
  call        : Option CallPosition
  primary     : Nat
  alternate   : Option Nat
  trim        : Option Trim
  record      : Option HeldRecord
  period      : Option Period
  starve      : StarveBehaviour
  armed       : Option (Fin 4)
  stopCause   : StopCause
  suppressed  : Bool
  sense       : Level
  haltSources : InputSet
  policy      : UnderrunPolicy
  lowWater    : Nat
  linkLoss    : LinkLossPolicy
deriving DecidableEq, Repr

/-! ## Pattern library -/

/-- Pattern state (R100). -/
inductive PatternState where
  | unassigned
  | empty
  | loading
  | ready
deriving DecidableEq, Repr

/-- A pattern descriptor (R100); its region and loaded length stand in the region table. -/
structure Pattern where
  state    : PatternState
  useCount : Nat
deriving DecidableEq, Repr

/-! ## Trigger unit -/

/-- Edge selection (R115). -/
inductive EdgeSelection where
  | none
  | rise
  | fall
  | both
deriving DecidableEq, Repr

/-- Direction of an edge (R114). -/
inductive Direction where
  | rise
  | fall
deriving DecidableEq, Repr

/-- A trigger input (R114): `sample` is this tick's sample, `previous` the sample of the tick before. -/
structure TriggerInput where
  edges     : EdgeSelection
  capture   : Bool
  qualified : Level
  previous  : Level
  sample    : Level
deriving DecidableEq, Repr

/-! ## Barrier table -/

/-- Release mode (R126, R127). -/
inductive ReleaseMode where
  | all
  | trigger
  | allThenTrigger
deriving DecidableEq, Repr

/-- Timeout action (R129). -/
inductive TimeoutAction where
  | release
  | stop
deriving DecidableEq, Repr

/-- A barrier descriptor; `counter` holds the tick of the first arrival while the timeout counter runs (R128). -/
structure Barrier where
  members : LaneSet
  arrived : LaneSet
  mode    : ReleaseMode
  trigger : Fin 4
  timeout : Nat
  action  : TimeoutAction
  counter : Option Tick
deriving DecidableEq, Repr

/-! ## Fault monitor -/

/-- Fault mode (R136). -/
inductive FaultMode where
  | off
  | cycle
  | latch
deriving DecidableEq, Repr

/-- A fault input (R135, R138). `sample` is this tick's sample; `due` says that it completed the filter and that the
qualification has not been taken yet (R135; its place beside a SET_FAULT of the same tick is Log 17). -/
structure FaultInput where
  activeLevel : Level
  filter      : Nat
  mode        : FaultMode
  lanes       : LaneSet
  qualified   : Level
  run         : Nat
  sample      : Level
  due         : Bool
  sticky      : Bool
deriving DecidableEq, Repr

/-- The first-fault record, when present (R138). -/
structure FirstFault where
  input : Fin 4
  stamp : Tick
deriving DecidableEq, Repr

/-! ## Notification unit -/

/-- How a segment ended (R64). -/
inductive Retirement where
  | completed
  | abandoned
  | missed
deriving DecidableEq, Repr

/-- Cause of a barrier's release (R125). -/
inductive ReleaseCause where
  | all
  | trigger
  | request
  | timeout
  | timeoutStop
deriving DecidableEq, Repr

/-- The twelve kinds of notification with subject and fields (R186). A from-pattern flag and its pattern id are one
option. -/
inductive Notification where
  | segmentTag (lane : Fin 6) (tag : Byte) (outcome : Retirement) (fromPattern : Option (Fin 8))
  | markReached (lane : Fin 6) (tag : Byte) (fromPattern : Option (Fin 8))
  | underrun (lane : Fin 6) (behaviour : StarveBehaviour)
  | watermark (lane : Fin 6) (count : Nat)
  | laneStopped (lane : Fin 6) (cause : StopCause) (count : Nat)
  | fault (input : Fin 4) (mode : FaultMode) (lanes : LaneSet)
  | barrierReleased (barrier : Fin 4) (cause : ReleaseCause) (lanes : LaneSet)
  | barrierPass (lane : Fin 6) (barrier : Fin 4)
  | trimDropped (lane : Fin 6)
  | capture (input : Fin 4) (direction : Direction) (synthetic : Bool)
  | patternMissing (lane : Fin 6) (pattern : Fin 8)
  | lost (count : Nat) (kinds : Word16)
deriving DecidableEq, Repr

/-- State of an entry (R171): PENDING, or IN_FLIGHT with its sequence number and resend mark. -/
inductive EntryStatus where
  | pending
  | inFlight (number : Byte) (resend : Bool)
deriving DecidableEq, Repr

/-- An entry of the notification queue (R171). -/
structure Entry where
  what   : Notification
  stamp  : Tick
  status : EntryStatus
deriving DecidableEq, Repr

/-- Channel state (R183). -/
inductive ChannelState where
  | running
  | stalled
deriving DecidableEq, Repr

/-- The notification unit; `timer` holds the core clocks left while the retransmit timer runs (R180). `lostKinds`
has bit c - 1 for the kind of code c (R196). -/
structure NotificationUnit where
  queue      : List Entry
  lostCount  : Nat
  lostKinds  : Word16
  nextNumber : Byte
  timer      : Option Nat
  expiries   : Nat
  channel    : ChannelState
deriving DecidableEq, Repr

/-! ## Link framer, dispatcher and transmitter -/

/-- Receive state (R153): HUNTING, or IN_FRAME with the bytes received after SOF. -/
inductive RxState where
  | hunting
  | inFrame (bytes : List Byte)
deriving DecidableEq, Repr

/-- A request frame in the buffer (R158, R188): the CRC is its CRC field. -/
structure RequestFrame where
  seq     : Byte
  code    : Byte
  payload : List Byte
  crc     : Word16
deriving DecidableEq, Repr

/-- The sixteen statuses of a reply (R163). -/
inductive Status where
  | ok
  | accepted
  | unknownRequest
  | badLength
  | badValue
  | wrongState
  | noRoom
  | overlap
  | notBound
  | unavailable
  | inUse
  | queueEmpty
  | faultLatched
  | stillActive
  | notSynced
  | seqReused
deriving DecidableEq, Repr

/-- What a request is answered: status, detail and reply payload (R160, R194). -/
structure Answer where
  status : Status
  detail : Byte
  body   : List Byte
deriving DecidableEq, Repr

/-- A reply: the answer with the SEQ and CODE of its request (R194). `resets` marks the reply of an executed RESET,
at whose end the part resets (R168). -/
structure Reply where
  seq    : Byte
  code   : Byte
  answer : Answer
  resets : Bool
deriving DecidableEq, Repr

/-- An entry of the reply cache (R162). -/
structure CacheEntry where
  seq   : Byte
  crc   : Word16
  reply : Reply
deriving DecidableEq, Repr

/-- The frame the transmitter is sending (R164). -/
structure TxFrame where
  bytes  : List Byte
  resets : Bool
deriving DecidableEq, Repr

/-- The seven link error counters (R159). -/
structure Counters where
  crc        : Byte
  length     : Byte
  gap        : Byte
  type       : Byte
  overrun    : Byte
  strayAck   : Byte
  retransmit : Byte
deriving DecidableEq, Repr

/-- The cause of the last reset (R169). -/
inductive ResetCause where
  | powerOn
  | pin
  | request
deriving DecidableEq, Repr

/-- The link framer, the dispatcher and the transmitter. `gap` holds the core clocks since the last byte while the
gap timer runs, and `receiving` says that the start bit of a byte not yet delivered has been accepted (R155, Log 8);
`interval` is the retransmit interval in ms and `stallLimit` the stall limit (R166);
`dispatchStopped` holds from a RESET to its reset (R168). -/
structure Link where
  rx              : RxState
  awaitsIdle      : Bool
  receiving       : Bool
  gap             : Option Nat
  buffer          : List RequestFrame
  slot            : Option Reply
  dispatchStopped : Bool
  tx              : Option TxFrame
  synced          : Bool
  cache           : Option CacheEntry
  counters        : Counters
  interval        : Nat
  stallLimit      : Nat
  straps          : Straps
  resetCause      : ResetCause
deriving DecidableEq, Repr

/-- Whether a reset is in progress, with the core clocks that a requested reset still lasts (R169). -/
inductive ResetPhase where
  | ended
  | held (clocksLeft : Nat)
deriving DecidableEq, Repr

/-! ## The part and the machine -/

/-- The whole part: its eleven blocks, the sense pins, and the reset in progress. -/
structure Part where
  timebase   : Timebase
  pairs      : Vector Pair 3
  store      : Store
  regions    : Vector Region 16
  lanes      : Vector Lane 6
  patterns   : Vector Pattern 8
  triggers   : Vector TriggerInput 4
  barriers   : Vector Barrier 4
  faults     : Vector FaultInput 4
  firstFault : Option FirstFault
  sensePins  : SenseSet
  notif      : NotificationUnit
  link       : Link
  resetPhase : ResetPhase
  resetPin   : Level
deriving DecidableEq, Repr

/-- The machine: the part, and the commands that wait to be taken, first in, first out. -/
structure State where
  part    : Part
  pending : List Instr
deriving DecidableEq, Repr

/-- No command faults: the manual names nothing that stops the part, and answers or counts every error (R160, R159).
So no constructor exists and nothing raises one, which is safe (Log 24). -/
inductive Fault where
deriving DecidableEq, Repr

/-- Why a command has no meaning. -/
inductive Refusal where
  /-- Raised by `exec` alone, for a command whose meaning is not written; safe. No arm raises it now. -/
  | notModelled (mnemonic : String)
deriving DecidableEq, Repr

/-! ## Reset values -/

/-- A line after reset (R17). -/
def Line.reset : Line :=
  { polarity := .activeHigh, safeLevel := .low, wasRequested := false, since := none, requested := false,
    activationTaken := false, active := false, level := .low }

/-- An output stage after reset (R17). -/
def Pair.reset : Pair :=
  { mode := .independent, deadA := 0, deadB := 0, top := Line.reset, bottom := Line.reset }

/-- A region descriptor after reset (R55). -/
def Region.reset : Region :=
  { defined := false, start := 0, size := 0, binding := .none, head := 0, count := 0, loaded := 0 }

/-- A lane after reset (R86). -/
def Lane.reset : Lane :=
  { state := .unbound, remaining := 0, call := none, primary := 0, alternate := none, trim := none,
    record := none, period := none, starve := .safe, armed := none, stopCause := .none, suppressed := false,
    sense := .low, haltSources := 0, policy := .safe, lowWater := 0, linkLoss := .continue }

/-- A pattern descriptor after reset (R113). -/
def Pattern.reset : Pattern :=
  { state := .unassigned, useCount := 0 }

/-- A trigger input after reset (R122), its first sample being `sample`. -/
def TriggerInput.reset (sample : Level) : TriggerInput :=
  { edges := .none, capture := false, qualified := sample, previous := sample, sample := sample }

/-- A barrier after reset (R134). -/
def Barrier.reset : Barrier :=
  { members := 0, arrived := 0, mode := .all, trigger := 0, timeout := 0, action := .release, counter := none }

/-- A fault input after reset (R151), its first sample being `sample`. -/
def FaultInput.reset (sample : Level) : FaultInput :=
  { activeLevel := .high, filter := 3, mode := .off, lanes := 0, qualified := sample, run := 0, sample := sample,
    due := false, sticky := false }

/-- The notification unit after reset (R187). -/
def NotificationUnit.reset : NotificationUnit :=
  { queue := [], lostCount := 0, lostKinds := 0, nextNumber := 0, timer := none, expiries := 0,
    channel := .running }

/-- The link error counters at 0 (R159). -/
def Counters.zero : Counters :=
  { crc := 0, length := 0, gap := 0, type := 0, overrun := 0, strayAck := 0, retransmit := 0 }

/-- The link framer and the dispatcher after reset (R170). -/
def Link.reset (cause : ResetCause) (straps : Straps) : Link :=
  { rx := .hunting, awaitsIdle := true, receiving := false, gap := none, buffer := [], slot := none,
    dispatchStopped := false, tx := none, synced := false, cache := none, counters := Counters.zero, interval := 20,
    stallLimit := 8, straps := straps, resetCause := cause }

/-- The level of pin `i` in a sample set. -/
def pinLevel {n : Nat} (pins : BitVec n) (i : Fin n) : Level :=
  if pins.getLsbD i then .high else .low

/-- The part with every block at its reset values (R17, R55, R86, R113, R122, R134, R151, R170, R187): the reset of
the given cause, the straps and first samples as given, in the given phase of the reset. -/
def Part.atReset (cause : ResetCause) (straps : Straps) (first : Pins) (phase : ResetPhase) (pin : Level) : Part :=
  { timebase := { prescale := .by1, tickLength := .by1, count := 0 }
    pairs := #v[Pair.reset, Pair.reset, Pair.reset]
    store := []
    regions := .replicate 16 Region.reset
    lanes := .replicate 6 Lane.reset
    patterns := .replicate 8 Pattern.reset
    triggers := #v[TriggerInput.reset (pinLevel first.trg 0), TriggerInput.reset (pinLevel first.trg 1),
                   TriggerInput.reset (pinLevel first.trg 2), TriggerInput.reset (pinLevel first.trg 3)]
    barriers := .replicate 4 Barrier.reset
    faults := #v[FaultInput.reset (pinLevel first.flt 0), FaultInput.reset (pinLevel first.flt 1),
                 FaultInput.reset (pinLevel first.flt 2), FaultInput.reset (pinLevel first.flt 3)]
    firstFault := none
    sensePins := first.sns
    notif := NotificationUnit.reset
    link := Link.reset cause straps
    resetPhase := phase
    resetPin := pin }

/-- All inputs LOW. DESIGN CHOICE (Log 5): the manual gives the input pins no level. -/
def Pins.allLow : Pins := { trg := 0, flt := 0, sns := 0 }

/-- Both straps LOW. DESIGN CHOICE (Log 5). -/
def Straps.bothLow : Straps := { baud1 := .low, baud0 := .low }

/-- The machine right after a power-on reset has ended, at its first tick, with every input pin and strap LOW
(Log 5), and no command waiting. -/
def State.reset : State :=
  { part := Part.atReset .powerOn Straps.bothLow Pins.allLow .ended .high, pending := [] }

end Sys2Proof.Machine
end

