-- ==== Sys2Proof/Machine/Operands.lean ====
section
/-! DEFINITION. The operands on the link: fields of two and four bytes (R189), the codes of named choices (R193),
sets, the segment encoding and its checks (R26, R191), the CRC (R190) and the frame (R188). -/

namespace Sys2Proof.Machine

/-! ## Fields of more than one byte (R189) -/

/-- A two-byte field from its bytes, most significant first. -/
def word16 (high low : Byte) : Word16 := high ++ low

/-- The value of a two-byte field. -/
def field16 (high low : Byte) : Nat := (word16 high low).toNat

/-- The bytes of a two-byte field, most significant first. -/
def bytes16 (w : Word16) : List Byte := [w.extractLsb' 8 8, w.extractLsb' 0 8]

/-- The bytes of a four-byte field, most significant first. -/
def bytes32 (w : Tick) : List Byte :=
  [w.extractLsb' 24 8, w.extractLsb' 16 8, w.extractLsb' 8 8, w.extractLsb' 0 8]

/-- A number as a one-byte field. -/
def byteOf (n : Nat) : Byte := BitVec.ofNat 8 n

/-- A number as a two-byte field. -/
def natBytes16 (n : Nat) : List Byte := bytes16 (BitVec.ofNat 16 n)

/-- A number as a four-byte field. -/
def natBytes32 (n : Nat) : List Byte := bytes32 (BitVec.ofNat 32 n)

/-- A flag: 0x00 clear, 0x01 set (R193). -/
def flagByte (b : Bool) : Byte := if b then 1 else 0

/-- A set of lanes or inputs as one byte (R189). -/
def setByte {n : Nat} (s : BitVec n) : Byte := s.setWidth 8

/-- A set byte read as a set of members 0 to n - 1; none when it names a member above them (R189). -/
def setOfByte (n : Nat) (b : Byte) : Option (BitVec n) :=
  if b.toNat < 2 ^ n then some (b.setWidth n) else none

/-- A number below `n` from a byte (R189). -/
def finOfByte (n : Nat) (b : Byte) : Option (Fin n) :=
  if h : b.toNat < n then some ⟨b.toNat, h⟩ else none

/-! ## Codes of named choices (R193) -/

def PairMode.ofByte (b : Byte) : Option PairMode :=
  if b = 0 then some .independent else if b = 1 then some .complementary else none

def Polarity.ofByte (b : Byte) : Option Polarity :=
  if b = 0 then some .activeHigh else if b = 1 then some .activeLow else none

def levelOfByte (b : Byte) : Option Level :=
  if b = 0 then some .low else if b = 1 then some .high else none

def levelByte : Level → Byte
  | .low => 0
  | .high => 1

/-- A capture setting, or any other flag of a request (R193). -/
def flagOfByte (b : Byte) : Option Bool :=
  if b = 0 then some false else if b = 1 then some true else none

/-- A start source: IMMEDIATE, or the trigger input to arm on. -/
def sourceOfByte (b : Byte) : Option (Option (Fin 4)) :=
  match b.toNat with
  | 0 => some none
  | 1 => some (some 0)
  | 2 => some (some 1)
  | 3 => some (some 2)
  | 4 => some (some 3)
  | _ => none

/-- Stop kind. -/
inductive StopKind where
  | soft
  | hard
deriving DecidableEq, Repr

def stopKindOfByte (b : Byte) : Option StopKind :=
  if b = 0 then some .soft else if b = 1 then some .hard else none

def UnderrunPolicy.ofByte (b : Byte) : Option UnderrunPolicy :=
  if b = 0 then some .safe else if b = 1 then some .holdLast else none

def UnderrunPolicy.byte : UnderrunPolicy → Byte
  | .safe => 0
  | .holdLast => 1

def StarveBehaviour.byte : StarveBehaviour → Byte
  | .safe => 0
  | .hold => 1

def LinkLossPolicy.ofByte (b : Byte) : Option LinkLossPolicy :=
  if b = 0 then some .continue else if b = 1 then some .stop else none

def LinkLossPolicy.byte : LinkLossPolicy → Byte
  | .continue => 0
  | .stop => 1

def EdgeSelection.ofByte (b : Byte) : Option EdgeSelection :=
  match b.toNat with
  | 0 => some .none
  | 1 => some .rise
  | 2 => some .fall
  | 3 => some .both
  | _ => Option.none

def EdgeSelection.byte : EdgeSelection → Byte
  | .none => 0
  | .rise => 1
  | .fall => 2
  | .both => 3

def ReleaseMode.ofByte (b : Byte) : Option ReleaseMode :=
  match b.toNat with
  | 0 => some .all
  | 1 => some .trigger
  | 2 => some .allThenTrigger
  | _ => none

def ReleaseMode.byte : ReleaseMode → Byte
  | .all => 0
  | .trigger => 1
  | .allThenTrigger => 2

def TimeoutAction.ofByte (b : Byte) : Option TimeoutAction :=
  if b = 0 then some .release else if b = 1 then some .stop else none

def TimeoutAction.byte : TimeoutAction → Byte
  | .release => 0
  | .stop => 1

def FaultMode.ofByte (b : Byte) : Option FaultMode :=
  match b.toNat with
  | 0 => some .off
  | 1 => some .cycle
  | 2 => some .latch
  | _ => none

def FaultMode.byte : FaultMode → Byte
  | .off => 0
  | .cycle => 1
  | .latch => 2

def LaneState.byte : LaneState → Byte
  | .unbound => 0
  | .merged => 1
  | .stopped => 2
  | .armed => 3
  | .running => 4
  | .waiting => 5
  | .starved => 6
  | .stopping => 7
  | .halted => 8

def PatternState.byte : PatternState → Byte
  | .unassigned => 0
  | .empty => 1
  | .loading => 2
  | .ready => 3

def StopCause.byte : StopCause → Byte
  | .none => 0
  | .softStop => 1
  | .linkLoss => 2
  | .barrierTimeout => 3

def Retirement.byte : Retirement → Byte
  | .completed => 0
  | .abandoned => 1
  | .missed => 2

def ReleaseCause.byte : ReleaseCause → Byte
  | .all => 0
  | .trigger => 1
  | .request => 2
  | .timeout => 3
  | .timeoutStop => 4

def Direction.byte : Direction → Byte
  | .rise => 0
  | .fall => 1

def ResetCause.byte : ResetCause → Byte
  | .powerOn => 0
  | .pin => 1
  | .request => 2

def ChannelState.byte : ChannelState → Byte
  | .running => 0
  | .stalled => 1

/-- The bit rate code, as the straps (R193). -/
def rateByte (s : Straps) : Byte :=
  match s.baud1, s.baud0 with
  | .low, .low => 0
  | .low, .high => 1
  | .high, .low => 2
  | .high, .high => 3

/-- The bit rate in bit/s that the straps select (R152). -/
def bitRate (s : Straps) : Nat :=
  match s.baud1, s.baud0 with
  | .low, .low => 115200
  | .low, .high => 460800
  | .high, .low => 1000000
  | .high, .high => 3000000

def Alignment.byte : Alignment → Byte
  | .edge => 0
  | .center => 1

def LevelCode.byte : LevelCode → Byte
  | .zero => 0
  | .one => 1
  | .two => 2

/-- The prescale a byte names (R3). -/
def Prescale.ofByte (b : Byte) : Option Prescale :=
  match b.toNat with
  | 1 => some .by1
  | 2 => some .by2
  | 4 => some .by4
  | 8 => some .by8
  | _ => none

/-- Core clocks in a tick at this prescale (R1). -/
def Prescale.clocks : Prescale → Nat
  | .by1 => 1
  | .by2 => 2
  | .by4 => 4
  | .by8 => 8

/-- The code of a segment's kind (R191). -/
def SegmentBody.kindByte : SegmentBody → Byte
  | .pulse .. => 0x01
  | .level .. => 0x02
  | .barrier .. => 0x03
  | .call .. => 0x04
  | .mark => 0x05

/-- The status code of a reply (R194). -/
def Status.byte : Status → Byte
  | .ok => 0x00
  | .accepted => 0x01
  | .unknownRequest => 0x10
  | .badLength => 0x11
  | .badValue => 0x12
  | .wrongState => 0x13
  | .noRoom => 0x14
  | .overlap => 0x15
  | .notBound => 0x16
  | .unavailable => 0x17
  | .inUse => 0x18
  | .queueEmpty => 0x19
  | .faultLatched => 0x1A
  | .stillActive => 0x1B
  | .notSynced => 0x1C
  | .seqReused => 0x1D

/-! ## The segment encoding (R26, R191) -/

/-- Byte `i` of an encoded segment. -/
def segByte (r : RawSegment) (i : Fin 12) : Byte := r[i.val]

/-- All the named bytes are 0. -/
def zeroBytes (r : RawSegment) (is : List (Fin 12)) : Bool :=
  is.all (fun i => segByte r i = 0)

/-- The alternate-present flag: bit 1 of the flags byte. -/
def altPresent (r : RawSegment) : Bool := (segByte r 1).getLsbD 1

/-- The tag of an encoded segment: `none` when flags or tag offend, else the optional tag. A tag is present when
bit 0 of the flags is set and is then 0..254; otherwise byte 2 is 0; flags above bit 1 are 0. -/
def tagOf (r : RawSegment) : Option (Option Byte) :=
  if segByte r 1 &&& 0xFC = 0 then
    if (segByte r 1).getLsbD 0 then
      if segByte r 2 = 0xFF then none else some (some (segByte r 2))
    else if segByte r 2 = 0 then some none else none
  else none

/-- The fields of a PULSE, when none offends. -/
def pulseOf (r : RawSegment) : Option SegmentBody :=
  let period := field16 (segByte r 3) (segByte r 4)
  let onTime := field16 (segByte r 5) (segByte r 6)
  let alternate := field16 (segByte r 7) (segByte r 8)
  let repeats := field16 (segByte r 9) (segByte r 10)
  let align : Option Alignment :=
    if segByte r 11 = 0 then some .edge else if segByte r 11 = 1 then some .center else none
  match align with
  | none => none
  | some a =>
    if 2 ≤ period && onTime ≤ period && 1 ≤ repeats
        && (if altPresent r then decide (alternate ≤ period) else decide (alternate = 0)) then
      some (.pulse period onTime (if altPresent r then some alternate else none) a repeats)
    else none

/-- The fields of a LEVEL, when none offends. -/
def levelOf (r : RawSegment) : Option SegmentBody :=
  let unit := field16 (segByte r 4) (segByte r 5)
  let repeats := field16 (segByte r 6) (segByte r 7)
  let code : Option LevelCode :=
    if segByte r 3 = 0 then some .zero else if segByte r 3 = 1 then some .one
    else if segByte r 3 = 2 then some .two else none
  match code with
  | none => none
  | some c =>
    if 1 ≤ unit && 1 ≤ repeats && !altPresent r && zeroBytes r [8, 9, 10, 11] then some (.level c unit repeats)
    else none

/-- The fields of a BARRIER, when none offends. -/
def barrierOf (r : RawSegment) : Option SegmentBody :=
  match finOfByte 4 (segByte r 3) with
  | none => none
  | some b =>
    if !altPresent r && zeroBytes r [4, 5, 6, 7, 8, 9, 10, 11] then some (.barrier b) else none

/-- The fields of a CALL, when none offends. -/
def callOf (r : RawSegment) : Option SegmentBody :=
  match finOfByte 8 (segByte r 3) with
  | none => none
  | some k =>
    if segByte r 4 ≠ 0 && !altPresent r && zeroBytes r [5, 6, 7, 8, 9, 10, 11] then
      some (.call k (segByte r 4).toNat)
    else none

/-- A MARK, when no byte offends; its tag is required. -/
def markOf (r : RawSegment) : Option SegmentBody :=
  if (segByte r 1).getLsbD 0 && !altPresent r && zeroBytes r [3, 4, 5, 6, 7, 8, 9, 10, 11] then some .mark else none

/-- The segment twelve bytes encode, or none when it offends by R26 or R191. -/
def decodeSegment (r : RawSegment) : Option Segment :=
  match tagOf r with
  | none => none
  | some tag =>
    let body : Option SegmentBody :=
      match (segByte r 0).toNat with
      | 1 => pulseOf r
      | 2 => levelOf r
      | 3 => barrierOf r
      | 4 => callOf r
      | 5 => markOf r
      | _ => none
    body.map (fun b => { tag := tag, body := b })

/-- The flags byte of a segment: bit 0 for a tag, bit 1 for an alternate on-time (R191). -/
def flagsByte (tag alternate : Bool) : Byte :=
  (if tag then 1 else 0) ||| (if alternate then 2 else 0)

/-- The high byte of a two-byte field. -/
def highByte (n : Nat) : Byte := byteOf (n / 256)

/-- The twelve bytes of a segment, as a host lays them out (R191). -/
def Segment.encode (g : Segment) : RawSegment :=
  let tag := g.tag.getD 0
  match g.body with
  | .pulse period onTime alternate a repeats =>
    let alt := alternate.getD 0
    #v[1, flagsByte g.tag.isSome alternate.isSome, tag, highByte period, byteOf period, highByte onTime,
       byteOf onTime, highByte alt, byteOf alt, highByte repeats, byteOf repeats, a.byte]
  | .level code unit repeats =>
    #v[2, flagsByte g.tag.isSome false, tag, code.byte, highByte unit, byteOf unit, highByte repeats, byteOf repeats,
       0, 0, 0, 0]
  | .barrier b => #v[3, flagsByte g.tag.isSome false, tag, byteOf b.val, 0, 0, 0, 0, 0, 0, 0, 0]
  | .call k plays => #v[4, flagsByte g.tag.isSome false, tag, byteOf k.val, byteOf plays, 0, 0, 0, 0, 0, 0, 0]
  | .mark => #v[5, flagsByte g.tag.isSome false, tag, 0, 0, 0, 0, 0, 0, 0, 0, 0]

/-- Every field in the range of its kind (R18, R26): tag 0 to 254, and required on a MARK. -/
def Segment.inRange (g : Segment) : Bool :=
  (match g.tag with
    | some t => decide (t ≠ 0xFF)
    | none => decide (g.body ≠ .mark)) &&
  match g.body with
  | .pulse period onTime alternate _ repeats =>
    decide (2 ≤ period) && decide (period ≤ 65535) && decide (onTime ≤ period)
      && (match alternate with | some a => decide (a ≤ period) | none => true)
      && decide (1 ≤ repeats) && decide (repeats ≤ 65535)
  | .level _ unit repeats =>
    decide (1 ≤ unit) && decide (unit ≤ 65535) && decide (1 ≤ repeats) && decide (repeats ≤ 65535)
  | .barrier _ => true
  | .call _ plays => decide (1 ≤ plays) && decide (plays ≤ 255)
  | .mark => true

/-- The segments of a request in index order from index `i`, or the index of the first offending one; `admits` is
the request's own check (R27, R28). -/
def decodeSegments (admits : Segment → Bool) : Nat → List RawSegment → Except Nat (List Segment)
  | _, [] => .ok []
  | i, r :: rest =>
    match decodeSegment r with
    | none => .error i
    | some g =>
      if admits g then
        match decodeSegments admits (i + 1) rest with
        | .ok gs => .ok (g :: gs)
        | .error j => .error j
      else .error i

/-- The bytes after a one-byte header, split into segments of twelve bytes; none when they are not a whole number
of segments (R192). -/
def splitSegments : List Byte → Option (List RawSegment)
  | [] => some []
  | a :: b :: c :: d :: e :: f :: g :: h :: i :: j :: k :: l :: rest =>
    (splitSegments rest).map (fun rs => #v[a, b, c, d, e, f, g, h, i, j, k, l] :: rs)
  | _ => none

/-! ## The CRC and the frame (R188, R190) -/

/-- One shift of the CRC register. -/
def crcShift (r : Word16) : Word16 :=
  if r.getLsbD 15 then (r <<< 1) ^^^ 0x1021 else r <<< 1

/-- One byte taken into the CRC register, most significant bit first. -/
def crcByte (r : Word16) (b : Byte) : Word16 :=
  Nat.repeat crcShift 8 (r ^^^ (b.setWidth 16 <<< 8))

/-- The CRC-16 of a run of bytes. -/
def crc16 (bytes : List Byte) : Word16 :=
  bytes.foldl crcByte 0xFFFF

/-- SOF (R188). -/
def sof : Byte := 0x5A

/-- TYPE codes (R188). -/
def typeRequest : Byte := 0x01
def typeReply : Byte := 0x02
def typeNotify : Byte := 0x03
def typeNotifyAck : Byte := 0x04

/-- The bytes of a frame that its CRC covers: LEN to the last payload byte. -/
def frameBody (type seq code : Byte) (payload : List Byte) : List Byte :=
  byteOf (3 + payload.length) :: type :: seq :: code :: payload

/-- The bytes of a whole frame. -/
def frameBytes (type seq code : Byte) (payload : List Byte) : List Byte :=
  let body := frameBody type seq code payload
  sof :: (body ++ bytes16 (crc16 body))

/-- A request frame as it stands in the request buffer, with the CRC of its bytes. -/
def requestFrame (seq code : Byte) (payload : List Byte) : RequestFrame :=
  { seq := seq, code := code, payload := payload, crc := crc16 (frameBody typeRequest seq code payload) }

/-- The payload of a reply: status, detail, reply payload (R194). -/
def Reply.payload (r : Reply) : List Byte :=
  r.answer.status.byte :: r.answer.detail :: r.answer.body

/-- The frame of a reply (R194). -/
def Reply.frame (r : Reply) : TxFrame :=
  { bytes := frameBytes typeReply r.seq r.code r.payload, resets := r.resets }

end Sys2Proof.Machine
end

