-- ==== Sys2Proof/Machine/Ops.lean ====
section
/-! DEFINITION. The named operations over the part's state: its blocks by number, sets, the segment store, regions
and queues, and the creation of notifications. All reads and writes of these pieces go through here. -/

namespace Sys2Proof.Machine

/-! ## Sets of lanes and inputs -/

/-- Member `i` is in the set. -/
def inSet {n : Nat} (s : BitVec n) (i : Fin n) : Bool :=
  s.getLsbD i

/-- The set that holds `i` alone. -/
def single {n : Nat} (i : Fin n) : BitVec n :=
  BitVec.twoPow n i

/-- The set with `i` added. -/
def withMember {n : Nat} (s : BitVec n) (i : Fin n) : BitVec n :=
  s ||| single i

/-- The set without `i`. -/
def withoutMember {n : Nat} (s : BitVec n) (i : Fin n) : BitVec n :=
  s &&& ~~~(single i)

/-- The lanes of a set in ascending number. -/
def lanesOf (s : LaneSet) : List (Fin 6) :=
  allLanes.filter (inSet s)

/-- The lanes with a property, as a set. -/
def laneSetOf (f : Fin 6 → Bool) : LaneSet :=
  allLanes.foldl (fun s l => if f l then withMember s l else s) 0

/-- The inputs with a property, as a set. -/
def inputSetOf (f : Fin 4 → Bool) : InputSet :=
  allFour.foldl (fun s i => if f i then withMember s i else s) 0

/-! ## The blocks by number -/

/-- Lane `l`. -/
def Part.lane (p : Part) (l : Fin 6) : Lane := p.lanes[l.val]

/-- Replace lane `l`. -/
def Part.setLane (p : Part) (l : Fin 6) (x : Lane) : Part := { p with lanes := p.lanes.set l x }

/-- Change lane `l`. -/
def Part.updLane (p : Part) (l : Fin 6) (f : Lane → Lane) : Part := p.setLane l (f (p.lane l))

/-- Pair `k`. -/
def Part.pair (p : Part) (k : Fin 3) : Pair := p.pairs[k.val]

/-- Replace pair `k`. -/
def Part.setPair (p : Part) (k : Fin 3) (x : Pair) : Part := { p with pairs := p.pairs.set k x }

/-- Region descriptor `r`. -/
def Part.region (p : Part) (r : Fin 16) : Region := p.regions[r.val]

/-- Replace region descriptor `r`. -/
def Part.setRegion (p : Part) (r : Fin 16) (x : Region) : Part := { p with regions := p.regions.set r x }

/-- Pattern descriptor `k`. -/
def Part.pattern (p : Part) (k : Fin 8) : Pattern := p.patterns[k.val]

/-- Replace pattern descriptor `k`. -/
def Part.setPattern (p : Part) (k : Fin 8) (x : Pattern) : Part := { p with patterns := p.patterns.set k x }

/-- Trigger input `i`. -/
def Part.trigger (p : Part) (i : Fin 4) : TriggerInput := p.triggers[i.val]

/-- Replace trigger input `i`. -/
def Part.setTrigger (p : Part) (i : Fin 4) (x : TriggerInput) : Part := { p with triggers := p.triggers.set i x }

/-- Barrier `b`. -/
def Part.barrier (p : Part) (b : Fin 4) : Barrier := p.barriers[b.val]

/-- Replace barrier `b`. -/
def Part.setBarrier (p : Part) (b : Fin 4) (x : Barrier) : Part := { p with barriers := p.barriers.set b x }

/-- Fault input `i`. -/
def Part.fault (p : Part) (i : Fin 4) : FaultInput := p.faults[i.val]

/-- Replace fault input `i`. -/
def Part.setFault (p : Part) (i : Fin 4) (x : FaultInput) : Part := { p with faults := p.faults.set i x }

/-- The tick counter's value: the timestamp of the tick in progress (R2). -/
def Part.now (p : Part) : Tick := p.timebase.count

/-- Do `f` for each lane of a set, in ascending number. -/
def forLanes (s : LaneSet) (f : Fin 6 → Part → Part) (p : Part) : Part :=
  (lanesOf s).foldl (fun q l => f l q) p

/-- The pair that lane `l` belongs to: lanes 2p and 2p + 1 belong to pair p. -/
def pairOf (l : Fin 6) : Fin 3 :=
  ⟨l.val / 2, by omega⟩

/-- Lane 2p of pair p. -/
def evenLane (k : Fin 3) : Fin 6 :=
  ⟨2 * k.val, by omega⟩

/-- Lane 2p + 1 of pair p. -/
def oddLane (k : Fin 3) : Fin 6 :=
  ⟨2 * k.val + 1, by omega⟩

/-! ## The segment store -/

/-- The segment a slot holds (R35). -/
def Store.read : Store → Nat → Option Segment
  | [], _ => none
  | (k, g) :: rest, a => if k = a then some g else Store.read rest a

/-- Put a segment into a slot. -/
def Store.write : Store → Nat → Segment → Store
  | [], a, g => [(a, g)]
  | (k, h) :: rest, a, g =>
    if a < k then (a, g) :: (k, h) :: rest
    else if a = k then (a, g) :: rest
    else (k, h) :: Store.write rest a g

/-- Let the segment of a slot leave it. -/
def Store.erase (st : Store) (a : Nat) : Store :=
  st.filter (fun c => c.1 ≠ a)

/-- Let every segment of a run of slots leave it. -/
def Store.eraseRun (st : Store) (start size : Nat) : Store :=
  st.filter (fun c => decide (c.1 < start) || decide (start + size ≤ c.1))

/-- The canonical form: slots strictly rising, all of them slots of the store. -/
def Store.wf : Store → Bool
  | [] => true
  | (k, _) :: rest => decide (k < Config.slots) && rest.all (fun c => decide (k < c.1)) && Store.wf rest

/-- The slot of queue element `i` of a region (R48). -/
def Region.queueSlot (g : Region) (i : Nat) : Nat :=
  g.start + (g.head + i) % g.size

/-! ## Regions, queues and patterns -/

/-- The region bound to lane `l` (R36: at most one). -/
def Part.laneRegion (p : Part) (l : Fin 6) : Option (Fin 16) :=
  allRegions.find? (fun r => (p.region r).defined && decide ((p.region r).binding = .lane l))

/-- The region bound to pattern `k`. -/
def Part.patternRegion (p : Part) (k : Fin 8) : Option (Fin 16) :=
  allRegions.find? (fun r => (p.region r).defined && decide ((p.region r).binding = .pattern k))

/-- The queue count of lane `l`; 0 for a lane with no region. -/
def Part.queueCount (p : Part) (l : Fin 6) : Nat :=
  match p.laneRegion l with
  | some r => (p.region r).count
  | none => 0

/-- Queue element 0 of lane `l` (R48). -/
def Part.queueHead (p : Part) (l : Fin 6) : Option Segment :=
  match p.laneRegion l with
  | some r =>
    if (p.region r).count = 0 then none else p.store.read ((p.region r).queueSlot 0)
  | none => none

/-- The loaded length of pattern `k` (R100). -/
def Part.loadedLength (p : Part) (k : Fin 8) : Nat :=
  match p.patternRegion k with
  | some r => (p.region r).loaded
  | none => 0

/-- Pattern segment `i` of pattern `k` (R47). -/
def Part.patternSegment (p : Part) (k : Fin 8) (i : Nat) : Option Segment :=
  match p.patternRegion k with
  | some r => if i < (p.region r).loaded then p.store.read ((p.region r).start + i) else none
  | none => none

/-- The segments of pattern `k` in load order, from segment `i` on, `n` of them. -/
def Part.patternSegments (p : Part) (k : Fin 8) : Nat → Nat → List Segment
  | _, 0 => []
  | i, n + 1 => (p.patternSegment k i).toList ++ Part.patternSegments p k (i + 1) n

/-- A PULSE or LEVEL takes time in a pattern (R104). -/
def Segment.isTimed (g : Segment) : Bool :=
  match g.body with
  | .pulse .. => true
  | .level .. => true
  | _ => false

/-- The store slots that lie in no defined region (R46). -/
def Part.freeSlots (p : Part) : Nat :=
  Config.slots - (allRegions.map (fun r => if (p.region r).defined then (p.region r).size else 0)).sum

/-- Segments put into the slots that `slotAt` gives them, in index order from `i`. -/
def writeSegments (slotAt : Nat → Nat) : Nat → List Segment → Store → Store
  | _, [], st => st
  | i, g :: rest, st => writeSegments slotAt (i + 1) rest (st.write (slotAt i) g)

/-- Join segments to the tail of the queue in region `r` (R51). -/
def Part.enqueue (p : Part) (r : Fin 16) (segs : List Segment) : Part :=
  let g := p.region r
  { p with store := writeSegments g.queueSlot g.count segs p.store }.setRegion r
    { g with count := g.count + segs.length }

/-- Add segments to the pattern held in region `r` (R103). -/
def Part.load (p : Part) (r : Fin 16) (segs : List Segment) : Part :=
  let g := p.region r
  { p with store := writeSegments (fun i => g.start + i) g.loaded segs p.store }.setRegion r
    { g with loaded := g.loaded + segs.length }

/-- Every segment in region `r` leaves its slot without report, and head offset, count and loaded length become 0
(R44, R45, R102, R105). -/
def Part.emptyRegion (p : Part) (r : Fin 16) : Part :=
  let g := p.region r
  { p with store := p.store.eraseRun g.start g.size }.setRegion r { g with head := 0, count := 0, loaded := 0 }

/-! ## Notifications -/

/-- The code of a notification's kind (R196). -/
def Notification.code : Notification → Byte
  | .segmentTag .. => 0x01
  | .markReached .. => 0x02
  | .underrun .. => 0x03
  | .watermark .. => 0x04
  | .laneStopped .. => 0x05
  | .fault .. => 0x06
  | .barrierReleased .. => 0x07
  | .barrierPass .. => 0x08
  | .trimDropped .. => 0x09
  | .capture .. => 0x0A
  | .patternMissing .. => 0x0B
  | .lost .. => 0x0C

/-- The bit of a kind in the set of kinds of the lost tally: bit c - 1 for code c (R196). -/
def Notification.kindBit (n : Notification) : Word16 :=
  BitVec.twoPow 16 (n.code.toNat - 1)

/-- The lost tally is empty (R173). -/
def NotificationUnit.tallyEmpty (u : NotificationUnit) : Bool :=
  decide (u.lostCount = 0) && decide (u.lostKinds = 0)

/-- A new notification joins the queue, or is counted in the lost tally (R172, R173). -/
def NotificationUnit.create (u : NotificationUnit) (stamp : Tick) (n : Notification) : NotificationUnit :=
  if u.queue.length < Config.queueCapacity && u.tallyEmpty then
    { u with queue := u.queue ++ [{ what := n, stamp := stamp, status := .pending }] }
  else
    { u with lostCount := min (u.lostCount + 1) Config.lostCountMax, lostKinds := u.lostKinds ||| n.kindBit }

/-- Create a notification, stamped with the tick in progress (R171). -/
def Part.notify (p : Part) (n : Notification) : Part :=
  { p with notif := p.notif.create p.now n }

/-- A link error counter rises by 1 and stays at 255 (R159). -/
def countUp (c : Byte) : Byte :=
  if c = 0xFF then c else c + 1

/-! ## Retirement of a queue segment -/

/-- Remove element 0 from the queue of lane `l` (R49), then make the low-water check (R53). -/
def Part.popHead (p : Part) (l : Fin 6) : Part :=
  match p.laneRegion l with
  | none => p
  | some r =>
    let g := p.region r
    let mark := (p.lane l).lowWater
    let q := { p with store := p.store.erase (g.queueSlot 0) }.setRegion r
      { g with head := (g.head + 1) % g.size, count := g.count - 1 }
    if 0 < mark && g.count = mark + 1 then q.notify (.watermark l mark) else q

/-- The SEGMENT_TAG of a retirement, if the segment is tagged (R25). -/
def Part.reportTag (p : Part) (l : Fin 6) (tag : Option Byte) (outcome : Retirement) (fromPattern : Option (Fin 8)) :
    Part :=
  match tag with
  | some t => p.notify (.segmentTag l t outcome fromPattern)
  | none => p

/-- Retire queue element 0 of lane `l`: its SEGMENT_TAG, its removal, the low-water check (R49, R64). -/
def Part.retireHead (p : Part) (l : Fin 6) (outcome : Retirement) : Part :=
  match p.queueHead l with
  | some g => (p.reportTag l g.tag outcome none).popHead l
  | none => p

/-- The use count of pattern `k` rises by 1 (R101). -/
def Part.raiseUse (p : Part) (k : Fin 8) : Part :=
  p.setPattern k { p.pattern k with useCount := (p.pattern k).useCount + 1 }

/-- The use count of pattern `k` falls by 1 (R101). -/
def Part.lowerUse (p : Part) (k : Fin 8) : Part :=
  p.setPattern k { p.pattern k with useCount := (p.pattern k).useCount - 1 }

/-! ## Barriers -/

/-- Lane `l` leaves the arrived set of barrier `b`; when the set becomes empty the counter becomes idle (R131). -/
def Part.leaveBarrier (p : Part) (l : Fin 6) (b : Fin 4) : Part :=
  let x := p.barrier b
  if inSet x.arrived l then
    let rest := withoutMember x.arrived l
    p.setBarrier b { x with arrived := rest, counter := if rest = 0 then none else x.counter }
  else p

/-- Lane `l` leaves the arrived set it is in, if any. -/
def Part.leaveBarriers (p : Part) (l : Fin 6) : Part :=
  allFour.foldl (fun q b => q.leaveBarrier l b) p

end Sys2Proof.Machine
end

