-- ==== Sys2Proof/Machine/Flags.lean ====
section
/-! DEFINITION. What is computed from the state: the demand of a period (R5, R6), live states, effective maps and the
suppression test (R135, R137, R143), whether a barrier waits for an edge (R127), which events are due at this tick,
and the payloads of notifications (R196). -/

namespace Sys2Proof.Machine

/-! ## Periods and demand -/

/-- Length in ticks of the period or unit. -/
def Shape.length : Shape → Nat
  | .pulse period _ => period
  | .level unit _ => unit

/-- The demand handed to the output stage (R6). On an independent line TOP is ACTIVE; BOTTOM and OFF are
INACTIVE. -/
inductive Demand where
  | off
  | top
  | bottom
deriving DecidableEq, Repr

/-- First tick of the active run of a PULSE period with on-time `onTime` (R5). -/
def runStart (period onTime : Nat) : Alignment → Nat
  | .edge => 0
  | .center => (period - onTime) / 2

/-- Tick `t` of a PULSE period lies in its active run (R5). -/
def inRun (period onTime : Nat) (a : Alignment) (t : Nat) : Bool :=
  decide (runStart period onTime a ≤ t) && decide (t < runStart period onTime a + onTime)

/-- The demand at tick `t` of a shape (R6). -/
def Shape.demand (s : Shape) (onTime t : Nat) : Demand :=
  match s with
  | .pulse period a => if inRun period onTime a t then .top else .bottom
  | .level _ .zero => .off
  | .level _ .one => .top
  | .level _ .two => .bottom

/-- The period's last tick is past: the tick in progress is a boundary, join or stop tick not yet taken. -/
def Period.over (q : Period) : Bool := decide (q.shape.length ≤ q.phase)

/-- The demand of the period in progress at this tick. At a tick whose boundary has not been taken yet it stays that
of the last tick (Log 20). -/
def Period.demand (q : Period) : Demand :=
  q.shape.demand q.onTime (min q.phase (q.shape.length - 1))

/-- The lane has a period whose last tick is past. -/
def Lane.periodOver (x : Lane) : Bool :=
  match x.period with
  | some q => q.over
  | none => false

/-- The lane plays a held period (R68, R70). -/
def Lane.playsHeld (x : Lane) : Bool :=
  match x.period with
  | some q => q.held
  | none => false

/-- The periods or units still to play of the PULSE or LEVEL being played: the current segment, or the pattern
segment inside a current CALL (R56). -/
def Lane.repeatsLeft (x : Lane) : Nat :=
  match x.call with
  | some c => c.remaining
  | none => x.remaining

/-- Every period of the PULSE or LEVEL being played has been played (R34). -/
def Lane.playedOut (x : Lane) : Bool :=
  x.periodOver && !x.playsHeld && decide (x.repeatsLeft ≤ 1)

/-- The lane drives its lines (R9). -/
def Lane.drives (x : Lane) : Bool :=
  !x.suppressed && x.period.isSome &&
    (x.state = .running || x.state = .stopping || (x.state = .starved && x.starve = .hold))

/-- The demand the lane hands to its output stage, if it drives. -/
def Lane.demand (x : Lane) : Option Demand :=
  if x.drives then x.period.map Period.demand else none

/-- Lane `l` drives a complementary pair: it is lane 2p of a pair in COMPLEMENTARY mode (R8, R96). -/
def Part.drivesPair (p : Part) (l : Fin 6) : Bool :=
  decide (l = evenLane (pairOf l)) && decide ((p.pair (pairOf l)).mode = .complementary)

/-- The lane has a current segment: queue element 0 (R48, R56). -/
def Lane.hasCurrent (x : Lane) : Bool :=
  match x.state with
  | .waiting => true
  | .running | .stopping => !x.playsHeld && (x.period.isSome || x.call.isSome)
  | _ => false

/-- The current segment of lane `l`, if it has one. -/
def Part.currentSegment (p : Part) (l : Fin 6) : Option Segment :=
  if (p.lane l).hasCurrent then p.queueHead l else none

/-! ## Faults -/

/-- The live state of a fault input is ACTIVE (R135). -/
def FaultInput.live (f : FaultInput) : Bool := decide (f.qualified = f.activeLevel)

/-- The lanes that are MERGED. -/
def Part.mergedLanes (p : Part) : LaneSet := laneSetOf (fun l => (p.lane l).state = .merged)

/-- The effective map of a fault input (R137). -/
def Part.effectiveMap (p : Part) (i : Fin 4) : LaneSet := (p.fault i).lanes &&& ~~~p.mergedLanes

/-- Some CYCLE input whose effective map includes lane `l` is live ACTIVE (R143). -/
def Part.cycleActive (p : Part) (l : Fin 6) : Bool :=
  allFour.any (fun i => decide ((p.fault i).mode = .cycle) && (p.fault i).live && inSet (p.effectiveMap i) l)

/-- Some sticky LATCH input has lane `l` in its effective map (R58). -/
def Part.faultLatched (p : Part) (l : Fin 6) : Bool :=
  allFour.any (fun i => decide ((p.fault i).mode = .latch) && (p.fault i).sticky && inSet (p.effectiveMap i) l)

/-- The sticky set (R150). -/
def Part.stickySet (p : Part) : InputSet := inputSetOf (fun i => (p.fault i).sticky)

/-- The live set (R150). -/
def Part.liveSet (p : Part) : InputSet := inputSetOf (fun i => (p.fault i).live)

/-! ## Barriers and triggers -/

/-- The barrier waits for an edge by its mode (R127): in ALL_THEN_TRIGGER, while the arrived set equals the member set,
both of them empty included (Log 13). -/
def Barrier.waitsForEdge (b : Barrier) : Bool :=
  match b.mode with
  | .all => false
  | .trigger => decide (b.arrived ≠ 0)
  | .allThenTrigger => decide (b.arrived = b.members)

/-- Ticks since the first arrival (R128). -/
def Barrier.elapsed (b : Barrier) (now : Tick) : Nat :=
  match b.counter with
  | some f => (now - f).toNat
  | none => 0

/-- The edge selection admits an edge of this direction (R115). -/
def EdgeSelection.admits : EdgeSelection → Direction → Bool
  | .none, _ => false
  | .rise, .rise => true
  | .rise, .fall => false
  | .fall, .rise => false
  | .fall, .fall => true
  | .both, _ => true

/-- The lanes ARMED on input `i` (R121). -/
def Part.armedOn (p : Part) (i : Fin 4) : LaneSet :=
  laneSetOf (fun l => decide ((p.lane l).state = .armed) && decide ((p.lane l).armed = some i))

/-! ## Which events are due at this tick -/

/-- A qualified edge happens at this tick: the sample differs from the qualified level and equals the one before
(R114). -/
def TriggerInput.edgeDue (t : TriggerInput) : Bool :=
  decide (t.sample ≠ t.qualified) && decide (t.sample = t.previous)

/-- A boundary inside the current segment is due (R62). -/
def Lane.boundaryDue (x : Lane) : Bool :=
  decide (x.state = .running) && x.periodOver && !x.playsHeld && decide (1 < x.repeatsLeft)

/-- A join is due: the last period of the segment, or a held period being played out, is over (R29, R70). -/
def Lane.joinDue (x : Lane) : Bool :=
  decide (x.state = .running) && x.periodOver && (x.playsHeld || decide (x.repeatsLeft ≤ 1))

/-- A new held period is due (R68). -/
def Lane.heldDue (x : Lane) : Bool :=
  decide (x.state = .starved) && decide (x.starve = .hold) && x.periodOver

/-- The end of a soft stop is due (R75). -/
def Lane.stopDue (x : Lane) : Bool :=
  decide (x.state = .stopping) && x.periodOver

/-- The barrier's timeout runs out (R128). -/
def Barrier.timeoutDue (b : Barrier) (now : Tick) : Bool :=
  b.counter.isSome && decide (0 < b.timeout) && decide (Config.timeoutUnit * b.timeout ≤ b.elapsed now)

/-- The retransmit timer runs out (R181). -/
def NotificationUnit.timerDue (u : NotificationUnit) : Bool :=
  decide (u.timer = some 0)

/-- The gap timer has reached 2 ms inside a frame (R155). -/
def Link.gapDue (k : Link) : Bool :=
  match k.gap with
  | some n => decide (Config.gapClocks ≤ n) && decide (k.rx ≠ .hunting)
  | none => false

/-- The LEN byte just received is out of range (R154). -/
def Link.lengthDue (k : Link) : Bool :=
  match k.rx with
  | .inFrame [len] => decide (len.toNat < 3) || decide (243 < len.toNat)
  | _ => false

/-- The frame's last CRC byte has been received: LEN + 3 bytes after SOF (R153). -/
def Link.frameDue (k : Link) : Bool :=
  match k.rx with
  | .inFrame (len :: rest) => !(Link.lengthDue k) && decide (rest.length = len.toNat + 2)
  | _ => false

/-- The deadtime of a line of the pair: A for the top line, B for the bottom line. -/
def Pair.deadOf (x : Pair) (top : Bool) : Nat := if top then x.deadA.toNat else x.deadB.toNat

/-- The ticks since the line's last requested activation, as of this tick (R10). -/
def Line.sinceNow (x : Line) : Option Nat :=
  if x.requested then
    if x.wasRequested then x.since.map (· + 1) else some 0
  else none

/-- A delayed activation of the line falls at this tick, by the deadtime in force now, and has not been taken (R10,
Log 32). -/
def Line.activationDue (x : Line) (dead : Nat) : Bool :=
  decide (0 < dead) && decide (x.sinceNow = some dead) && !x.activationTaken

/-- A boundary, join, held boundary or stop of the lane is due and not taken. -/
def Lane.anyDue (x : Lane) : Bool := x.boundaryDue || x.joinDue || x.heldDue || x.stopDue

/-! ## Payloads of notifications (R196) -/

/-- A from-pattern flag and pattern id, 0 when there is none. -/
def fromPatternBytes : Option (Fin 8) → List Byte
  | some k => [1, byteOf k.val]
  | none => [0, 0]

/-- The subject byte of a notification. -/
def Notification.subject : Notification → Byte
  | .segmentTag l _ _ _ => byteOf l.val
  | .markReached l _ _ => byteOf l.val
  | .underrun l _ => byteOf l.val
  | .watermark l _ => byteOf l.val
  | .laneStopped l _ _ => byteOf l.val
  | .fault i _ _ => byteOf i.val
  | .barrierReleased b _ _ => byteOf b.val
  | .barrierPass l _ => byteOf l.val
  | .trimDropped l => byteOf l.val
  | .capture i _ _ => byteOf i.val
  | .patternMissing l _ => byteOf l.val
  | .lost _ _ => 0

/-- The fields of a notification from offset 5. -/
def Notification.fields : Notification → List Byte
  | .segmentTag _ tag outcome k => [tag, outcome.byte] ++ fromPatternBytes k
  | .markReached _ tag k => tag :: fromPatternBytes k
  | .underrun _ b => [b.byte]
  | .watermark _ n => natBytes16 n
  | .laneStopped _ cause n => cause.byte :: natBytes16 n
  | .fault _ mode lanes => [mode.byte, setByte lanes]
  | .barrierReleased _ cause lanes => [cause.byte, setByte lanes]
  | .barrierPass _ b => [byteOf b.val]
  | .trimDropped _ => []
  | .capture _ d synthetic => [d.byte, flagByte synthetic]
  | .patternMissing _ k => [byteOf k.val]
  | .lost n kinds => natBytes16 n ++ bytes16 kinds

/-- The NOTIFY frame of an entry under a number (R177, R196). -/
def Entry.frame (e : Entry) (number : Byte) : TxFrame :=
  { bytes := frameBytes typeNotify number e.what.code (e.what.subject :: (bytes32 e.stamp ++ e.what.fields)),
    resets := false }

end Sys2Proof.Machine
end

