-- ==== Sys2Proof/Machine/LaneEngine.lean ====
section
/-! DEFINITION. What lanes do: the start of a period or unit (R88), joins (R29 to R32), underrun (R66), arrival at and
release of barriers (R123 to R125), and the ways out of play (R75 to R79, R83). Joins run as a list of tasks, done
depth first, so that a release made by an arrival is complete before the next lane goes on (R197, Log 14). -/

namespace Sys2Proof.Machine

/-! ## The lane's own fields -/

/-- The lane with nothing in play: no period, no call, no on-time in effect, no staged trim. -/
def Lane.idle (x : Lane) : Lane :=
  { x with remaining := 0, call := none, primary := 0, alternate := none, trim := none, period := none }

/-- Set the repeats still to play of what the lane plays: in the call position inside a CALL (R56). -/
def Lane.setRepeats (x : Lane) (n : Nat) : Lane :=
  match x.call with
  | some c => { x with call := some { c with remaining := n } }
  | none => { x with remaining := n }

/-- Set the on-time in effect (R87). -/
def Lane.setOnTimes (x : Lane) (primary : Nat) (alternate : Option Nat) : Lane :=
  { x with primary := primary, alternate := alternate }

/-- Commit a staged trim: the primary in force becomes the staged on-time, the alternate in force the staged
alternate if there is one (R91). -/
def Lane.commitTrim (x : Lane) : Lane :=
  match x.trim with
  | none => x
  | some t =>
    { x with primary := t.onTime, alternate := if t.alternate.isSome then t.alternate else x.alternate,
             trim := none }

/-! ## A period boundary (R88) -/

/-- A period of a PULSE, not a unit of a LEVEL. -/
def Shape.isPulse : Shape → Bool
  | .pulse _ _ => true
  | .level _ _ => false

/-- R96's test at a boundary at which a period of this shape begins: the lane drives a pair, the period is a PULSE
period, and the alternate in force is present. The units of a LEVEL are boundaries at which the test is made (R21), and
R96 takes no sample there (Log 29). -/
def Part.samplesSense (p : Part) (l : Fin 6) (shape : Shape) : Bool :=
  p.drivesPair l && shape.isPulse && (p.lane l).alternate.isSome

/-- The last sense sample after a boundary: the sample taken, or the one before (R96). -/
def Part.senseAfter (p : Part) (l : Fin 6) (shape : Shape) : Level :=
  if p.samplesSense l shape then pinLevel p.sensePins (pairOf l) else (p.lane l).sense

/-- The on-time played: the alternate in force on a high sample, otherwise the primary in force (R97). -/
def Part.onTimePlayed (p : Part) (l : Fin 6) (shape : Shape) : Nat :=
  if p.samplesSense l shape && decide (p.senseAfter l shape = .high) then
    (p.lane l).alternate.getD (p.lane l).primary
  else (p.lane l).primary

/-- The third to fifth steps of a boundary, with the suppression test (R88, R143): the sense sample, the on-time
played, the period begun, and, unless it is a held period, the held-period record. The units of a LEVEL pass through
the sense test and the suppression test as every boundary does (R21, R96, Log 29). -/
def Part.beginPeriod (p : Part) (l : Fin 6) (shape : Shape) (held : Bool) : Part :=
  let x := p.lane l
  match shape with
  | .pulse period a =>
    p.setLane l
      { x with sense := p.senseAfter l shape,
               suppressed := p.cycleActive l,
               period := some { shape := shape, onTime := p.onTimePlayed l shape, phase := 0, held := held },
               record := if held then x.record else some (.pulse period a x.primary x.alternate) }
  | .level unit code =>
    p.setLane l
      { x with sense := p.senseAfter l shape,
               suppressed := p.cycleActive l,
               period := some { shape := shape, onTime := 0, phase := 0, held := held },
               record := if held then x.record else some (.level unit code) }

/-- A boundary inside the current segment: remaining repeats, trim, then the new period of the same shape (R62,
R88). -/
def Part.boundary (p : Part) (l : Fin 6) : Part :=
  let x := p.lane l
  match x.period with
  | none => p
  | some q =>
    let y := x.setRepeats (x.repeatsLeft - 1)
    match q.shape with
    | .pulse _ _ => (p.setLane l y.commitTrim).beginPeriod l q.shape false
    | .level _ _ => (p.setLane l y).beginPeriod l q.shape false

/-- A held period of the held-period record begins (R68, R98): the record's on-times are in force. -/
def Part.beginHeld (p : Part) (l : Fin 6) : Part :=
  match (p.lane l).record with
  | none => p
  | some (.pulse period a primary alternate) =>
    (p.updLane l (fun x => x.setOnTimes primary alternate)).beginPeriod l (.pulse period a) true
  | some (.level unit code) => (p.updLane l (fun x => x.setOnTimes 0 none)).beginPeriod l (.level unit code) true

/-- The start of a timed segment, of the queue or of a pattern: its repeats and on-times, then its first period
(R62, R87). A segment of another kind is not timed and changes nothing. -/
def Part.startTimed (p : Part) (l : Fin 6) (body : SegmentBody) : Part :=
  match body with
  | .pulse period onTime alternate a repeats =>
    (p.updLane l (fun x => (x.setRepeats repeats).setOnTimes onTime alternate)).beginPeriod l (.pulse period a) false
  | .level code unit repeats =>
    (p.updLane l (fun x => (x.setRepeats repeats).setOnTimes 0 none)).beginPeriod l (.level unit code) false
  | _ => p

/-! ## Underrun and trims dropped -/

/-- The starve behaviour taken at an entry into STARVED (R66). -/
def Lane.starveBehaviour (x : Lane) : StarveBehaviour :=
  if x.policy = .holdLast && x.record.isSome then .hold else .safe

/-- The entry into STARVED at a join that finds the queue empty (R66): the behaviour, under HOLD the first held
period, and UNDERRUN. -/
def Part.enterStarved (p : Part) (l : Fin 6) : Part :=
  let b := (p.lane l).starveBehaviour
  let q := p.updLane l (fun x => { x.idle with state := .starved, starve := b })
  let q' := if b = .hold then q.beginHeld l else q
  q'.notify (.underrun l b)

/-- A staged trim whose PULSE ends its play is dropped with TRIM_DROPPED (R93). -/
def Part.dropTrim (p : Part) (l : Fin 6) : Part :=
  if (p.lane l).trim.isSome then
    (p.updLane l (fun x => { x with trim := none })).notify (.trimDropped l)
  else p

/-! ## Tasks of a join -/

/-- What is still to be done in an event: `begin` makes a lane RUNNING and looks at its queue (R31); `head` looks at
queue element 0 (R30); `pattern` looks at the pattern segment at the call position (R32); `release` releases lanes
from a barrier, which makes them RUNNING (R125); `released` retires the BARRIER of one released lane and lets it go
on (R125). -/
inductive Task where
  | begin (l : Fin 6)
  | head (l : Fin 6)
  | pattern (l : Fin 6)
  | release (b : Fin 4) (cause : ReleaseCause) (lanes : LaneSet)
  | released (l : Fin 6)
deriving DecidableEq, Repr

/-- Lanes leave a barrier's arrived set all together. Lanes that have arrived since the set was fixed stay, and the
counter times their wait from this tick (R125, R128, Log 12). -/
def Barrier.letGo (b : Barrier) (lanes : LaneSet) (now : Tick) : Barrier :=
  let rest := b.arrived &&& ~~~lanes
  { b with arrived := rest, counter := if rest = 0 || b.timeout = 0 then none else some now }

/-- Lane `l` arrives at barrier `b` (R123): WAITING, in the arrived set, the counter started by the first arrival;
in mode ALL the arrival that completes the member set releases it (R126). -/
def Part.arrive (p : Part) (l : Fin 6) (b : Fin 4) : Part × List Task :=
  let x := p.barrier b
  let arrived := withMember x.arrived l
  let counter := if x.arrived = 0 then (if x.timeout = 0 then none else some p.now) else x.counter
  let q := (p.updLane l (fun y => { y.idle with state := .waiting })).setBarrier b
    { x with arrived := arrived, counter := counter }
  (q, if x.mode = .all && arrived = x.members then [.release b .all arrived] else [])

/-- Queue element 0 of a RUNNING lane is looked at (R30). -/
def Part.processHead (p : Part) (l : Fin 6) : Part × List Task :=
  match p.queueHead l with
  | none => (p.enterStarved l, [])
  | some g =>
    match g.body with
    | .pulse .. => (p.startTimed l g.body, [])
    | .level .. => (p.startTimed l g.body, [])
    | .barrier b =>
      if inSet (p.barrier b).members l then p.arrive l b
      else ((p.notify (.barrierPass l b)).retireHead l .completed, [.head l])
    | .call k plays =>
      if (p.pattern k).state = .ready then
        ((p.raiseUse k).updLane l (fun x =>
          { x with call := some { pattern := k, plays := plays, index := 0, remaining := 0 } }), [.pattern l])
      else ((p.notify (.patternMissing l k)).retireHead l .missed, [.head l])
    | .mark => ((p.notify (.markReached l (g.tag.getD 0) none)).retireHead l .completed, [.head l])

/-- The last play's last segment has been processed: the CALL is retired COMPLETED and the use count falls
(R109). -/
def Part.completeCall (p : Part) (l : Fin 6) (k : Fin 8) : Part :=
  ((p.updLane l (fun x => { x with call := none })).lowerUse k).retireHead l .completed

/-- The pattern segment at the call position of a RUNNING lane is looked at (R32, R109). A segment that PATTERN_DATA
would have refused cannot stand there and would be passed over (Log 15). -/
def Part.processPattern (p : Part) (l : Fin 6) : Part × List Task :=
  match (p.lane l).call with
  | none => (p, [])
  | some c =>
    if c.index < p.loadedLength c.pattern then
      match p.patternSegment c.pattern c.index with
      | some g =>
        let next := p.updLane l (fun x => { x with call := some { c with index := c.index + 1 } })
        match g.body with
        | .pulse .. => (p.startTimed l g.body, [])
        | .level .. => (p.startTimed l g.body, [])
        | .mark =>
          ((next.notify (.markReached l (g.tag.getD 0) (some c.pattern))).reportTag l g.tag .completed
            (some c.pattern), [.pattern l])
        | .barrier _ => (next, [.pattern l])
        | .call _ _ => (next, [.pattern l])
      | none => (p.updLane l (fun x => { x with call := some { c with index := c.index + 1 } }), [.pattern l])
    else if 1 < c.plays then
      (p.updLane l (fun x => { x with call := some { c with plays := c.plays - 1, index := 0 } }), [.pattern l])
    else (p.completeCall l c.pattern, [.head l])

/-- One task: the part after it, and the tasks it leaves to be done next. -/
def Task.run (t : Task) (p : Part) : Part × List Task :=
  match t with
  | .begin l => (p.updLane l (fun x => { x with state := .running, armed := none }), [.head l])
  | .head l => p.processHead l
  | .pattern l => p.processPattern l
  | .release b cause lanes =>
    let gone := lanes &&& (p.barrier b).arrived
    (forLanes gone (fun l q => q.updLane l (fun x => { x with state := .running }))
        ((p.notify (.barrierReleased b cause gone)).setBarrier b ((p.barrier b).letGo gone p.now)),
      (lanesOf gone).map Task.released)
  | .released l => (p.retireHead l .completed, [.head l])

/-- Do tasks depth first until none is left. The fuel is above what any event can need (Log 15). -/
def runTasks : Nat → List Task → Part → Part
  | 0, _, p => p
  | _ + 1, [], p => p
  | n + 1, t :: rest, p =>
    match t.run p with
    | (q, more) => runTasks n (more ++ rest) q

/-- Do the tasks of one event. -/
def Part.perform (p : Part) (tasks : List Task) : Part := runTasks Config.joinFuel tasks p

/-! ## The end of a segment's play -/

/-- The outcome of a segment that a stop or halt takes: COMPLETED when its every period has been played (R34,
R75). -/
def Lane.outcome (x : Lane) : Retirement := if x.playedOut then .completed else .abandoned

/-- No timed segment stands in the pattern after segment `i` (R76). -/
def Part.lastTimed (p : Part) (k : Fin 8) (i : Nat) : Bool :=
  !((p.patternSegments k (i + 1) (p.loadedLength k - (i + 1))).any Segment.isTimed)

/-- The current segment ends with its lane's stop or halt (R65, R75, R76, R79, R83, R34): inside a CALL the pattern
segment and then the CALL are retired and the use count falls; otherwise queue element 0 is retired; a lane with no
current segment retires nothing. -/
def Part.endCurrent (p : Part) (l : Fin 6) : Part :=
  let x := p.lane l
  if x.hasCurrent then
    match x.call with
    | some c =>
      let done := x.playedOut && decide (c.plays ≤ 1) && p.lastTimed c.pattern c.index
      let q := match p.patternSegment c.pattern c.index with
        | some g => p.reportTag l g.tag x.outcome (some c.pattern)
        | none => p
      (q.lowerUse c.pattern).retireHead l (if done then .completed else .abandoned)
    | none => p.retireHead l x.outcome
  else p

/-- The part at the join that ends a PULSE, a LEVEL or a held period, and the task that goes on (R29, R32, R70). -/
def Part.joinTasks (p : Part) (l : Fin 6) : Part × List Task :=
  let q := p.dropTrim l
  let x := q.lane l
  if x.playsHeld then (q.updLane l Lane.idle, [.head l])
  else
    match x.call with
    | some c =>
      let q' := match q.patternSegment c.pattern c.index with
        | some g => q.reportTag l g.tag .completed (some c.pattern)
        | none => q
      (q'.updLane l (fun y => { y.idle with call := some { c with index := c.index + 1, remaining := 0 } }),
        [.pattern l])
    | none => ((q.updLane l Lane.idle).retireHead l .completed, [.head l])

/-- A join taken whole (R29, R34). -/
def Part.join (p : Part) (l : Fin 6) : Part :=
  match p.joinTasks l with
  | (q, tasks) => q.perform tasks

/-! ## Stops and halts -/

/-- The lane is STOPPED with nothing in play (R79). -/
def Lane.toStopped (x : Lane) : Lane :=
  { x.idle with state := .stopped, armed := none, stopCause := .none }

/-- LANE_STOPPED with its cause and the queue count after the stop's retirements (R80). -/
def Part.reportStopped (p : Part) (l : Fin 6) (cause : StopCause) : Part :=
  p.notify (.laneStopped l cause (p.queueCount l))

/-- A soft stop completes: the trim is dropped, the current segment is retired, the lane becomes STOPPED and creates
LANE_STOPPED with its stop cause (R75, R76, R93). -/
def Part.completeStop (p : Part) (l : Fin 6) : Part :=
  let q := p.dropTrim l
  let cause := (q.lane l).stopCause
  ((q.endCurrent l).updLane l Lane.toStopped).reportStopped l cause

/-- The lane is stopped at once by a soft stop: it leaves its barrier, retires a BARRIER it waits at, becomes STOPPED
and creates LANE_STOPPED (R77). -/
def Part.stopNow (p : Part) (l : Fin 6) (cause : StopCause) : Part :=
  (((p.leaveBarriers l).endCurrent l).updLane l Lane.toStopped).reportStopped l cause

/-- A soft stop of the given cause (R75 to R78, R81). A lane whose period in progress ended at the tick before, its
boundary not yet taken, has completed that period and stops at this tick (R34, R75, Log 16). -/
def Part.softStop (p : Part) (l : Fin 6) (cause : StopCause) : Part :=
  let x := p.lane l
  let finish := p.updLane l (fun y => { y with state := .stopping, stopCause := cause })
  let stopping := if x.periodOver || x.period.isNone then finish.completeStop l else finish
  match x.state with
  | .running => stopping
  | .starved => if x.starve = .hold then stopping else p.stopNow l cause
  | .armed => p.stopNow l cause
  | .waiting => p.stopNow l cause
  | .stopping => p
  | .unbound => p
  | .merged => p
  | .stopped => p
  | .halted => p

/-- The state is one of those in which a hard stop or a halt takes the lane out (R79, R83). -/
def LaneState.isPlaying : LaneState → Bool
  | .armed => true
  | .running => true
  | .waiting => true
  | .starved => true
  | .stopping => true
  | .unbound => false
  | .merged => false
  | .stopped => false
  | .halted => false

/-- A hard stop (R79): STOPPED at once, the current segment retired, the trim discarded, no LANE_STOPPED. -/
def Part.hardStop (p : Part) (l : Fin 6) : Part :=
  if (p.lane l).state.isPlaying then ((p.leaveBarriers l).endCurrent l).updLane l Lane.toStopped else p

/-- A halt by LATCH input `i` (R83, R139): HALTED at once, the current segment retired, the trim discarded, the
halt-source set holding the input. -/
def Part.halt (p : Part) (l : Fin 6) (i : Fin 4) : Part :=
  ((p.leaveBarriers l).endCurrent l).updLane l
    (fun x => { x.toStopped with state := .halted, haltSources := single i })

end Sys2Proof.Machine
end

