-- ==== Sys2Proof/Machine/FaultMonitor.lean ====
section
/-! DEFINITION. The fault monitor's qualification to active as one event (R136), by mode (R139, R140, R142), and the
clear of sticky flags (R146). -/

namespace Sys2Proof.Machine

/-- A LATCH qualification at one lane of the effective map: a playing lane is halted (R139), a HALTED lane gains a
halt source, a STOPPED or UNBOUND lane is not changed (R140). -/
def Part.latchLane (p : Part) (i : Fin 4) (l : Fin 6) : Part :=
  match (p.lane l).state with
  | .armed => p.halt l i
  | .running => p.halt l i
  | .waiting => p.halt l i
  | .starved => p.halt l i
  | .stopping => p.halt l i
  | .halted => p.updLane l (fun x => { x with haltSources := withMember x.haltSources i })
  | .stopped => p
  | .unbound => p
  | .merged => p

/-- A CYCLE qualification at one lane of the effective map: its suppression flag is set (R142). -/
def Part.suppressLane (p : Part) (l : Fin 6) : Part :=
  p.updLane l (fun x => { x with suppressed := true })

/-- The first-fault record after a qualification of input `i` (R136 step 1). -/
def Part.recordFirstFault (p : Part) (i : Fin 4) : Part :=
  if p.stickySet = 0 then { p with firstFault := some { input := i, stamp := p.now } } else p

/-- A qualification to active of input `i` in CYCLE or LATCH mode, taken whole (R136): the first-fault record, the
sticky flag, FAULT, and the lanes of the effective map in ascending number. In mode OFF it does nothing. -/
def Part.faultActs (p : Part) (i : Fin 4) : Part :=
  let q := p.recordFirstFault i
  let q := q.setFault i { q.fault i with sticky := true }
  let lanes := q.effectiveMap i
  match (p.fault i).mode with
  | .off => p
  | .cycle => forLanes lanes (fun l r => r.suppressLane l) (q.notify (.fault i .cycle lanes))
  | .latch => forLanes lanes (fun l r => r.latchLane i l) (q.notify (.fault i .latch lanes))

/-- This tick's sample of input `i` becomes its qualified level and the run count 0 (R135). -/
def Part.qualifyFault (p : Part) (i : Fin 4) : Part :=
  let f := p.fault i
  p.setFault i { f with qualified := f.sample, run := 0, due := false }

/-- The named inputs of a CLEAR_FAULT leave a lane's halt-source set; a HALTED lane left with none becomes STOPPED
(R146). -/
def Lane.clearSources (x : Lane) (inputs : InputSet) : Lane :=
  let rest := x.haltSources &&& ~~~inputs
  { x with haltSources := rest, state := if x.state = .halted && rest = 0 then .stopped else x.state }

/-- The lanes that leave HALTED when the named inputs are cleared (R146). -/
def Part.freedBy (p : Part) (inputs : InputSet) : LaneSet :=
  laneSetOf (fun l => (p.lane l).state = .halted && (p.lane l).haltSources &&& ~~~inputs = 0)

/-- CLEAR_FAULT taken (R146): sticky flags, halt-source sets, HALTED lanes, the first-fault record. -/
def Part.clearFaults (p : Part) (inputs : InputSet) : Part :=
  let q := allFour.foldl (fun r i => if inSet inputs i then r.setFault i { r.fault i with sticky := false } else r) p
  let q := allLanes.foldl (fun r l => r.updLane l (fun x => x.clearSources inputs)) q
  if q.stickySet = 0 then { q with firstFault := none } else q

end Sys2Proof.Machine
end

