-- ==== Sys2Proof/Machine/Notify.lean ====
section
/-! DEFINITION. The notification channel: which entry is offered and what its first frame or its resend does (R175),
acknowledgement (R178, R179), the LOST entry (R174), the marks of an expiry (R181), the entry into STALLED (R183) and
the restart by SYNC (R185). -/

namespace Sys2Proof.Machine

/-- The entry is IN_FLIGHT. -/
def Entry.inFlight (e : Entry) : Bool :=
  match e.status with
  | .inFlight _ _ => true
  | .pending => false

/-- The entry is IN_FLIGHT under this number. -/
def Entry.hasNumber (e : Entry) (n : Byte) : Bool :=
  match e.status with
  | .inFlight m _ => decide (m = n)
  | .pending => false

/-- How many entries are IN_FLIGHT. -/
def inFlightCount (queue : List Entry) : Nat := queue.countP Entry.inFlight

/-- Resend the oldest entry whose resend mark is set: its frame, and the queue with its mark cleared (R175). -/
def resendOldest : List Entry → Option (TxFrame × List Entry)
  | [] => none
  | e :: rest =>
    match e.status with
    | .inFlight n true => some (e.frame n, { e with status := .inFlight n false } :: rest)
    | _ => (resendOldest rest).map (fun r => (r.1, e :: r.2))

/-- Send the oldest PENDING entry for the first time under number `n`: its frame, and the queue with the entry
IN_FLIGHT (R175). -/
def sendOldestPending (n : Byte) : List Entry → Option (TxFrame × List Entry)
  | [] => none
  | e :: rest =>
    match e.status with
    | .pending => some (e.frame n, { e with status := .inFlight n false } :: rest)
    | .inFlight _ _ => (sendOldestPending n rest).map (fun r => (r.1, e :: r.2))

/-- Core clocks of the retransmit interval. -/
def intervalClocks (interval : Nat) : Nat := interval * Config.clocksPerMs

/-- The NOTIFY frame the unit sends when the arbiter gives it the transmitter, with the unit after it (R175). A
PENDING entry takes the next number and starts an idle timer with the interval in force; a resend does neither. -/
def NotificationUnit.sendNext (u : NotificationUnit) (interval : Nat) : Option (TxFrame × NotificationUnit) :=
  match resendOldest u.queue with
  | some r => some (r.1, { u with queue := r.2 })
  | none =>
    if inFlightCount u.queue < Config.window then
      match sendOldestPending u.nextNumber u.queue with
      | some r =>
        some (r.1, { u with queue := r.2, nextNumber := u.nextNumber + 1,
                            timer := if u.timer.isSome then u.timer else some (intervalClocks interval) })
      | none => none
    else none

/-- Remove the IN_FLIGHT entry of a number and every older IN_FLIGHT entry; none when no entry has the number
(R178). -/
def removeThrough (n : Byte) : List Entry → Option (List Entry)
  | [] => none
  | e :: rest =>
    if e.hasNumber n then some rest
    else (removeThrough n rest).map (fun r => if e.inFlight then r else e :: r)

/-- Append the LOST entry when there is room and the tally is not empty (R174). -/
def NotificationUnit.appendLost (u : NotificationUnit) (stamp : Tick) : NotificationUnit :=
  if u.queue.length < Config.queueCapacity && !u.tallyEmpty then
    { u with queue := u.queue ++ [{ what := .lost u.lostCount u.lostKinds, stamp := stamp, status := .pending }],
             lostCount := 0, lostKinds := 0 }
  else u

/-- An acknowledgement that names an IN_FLIGHT entry, as one event (R178, R184); none when it is stray (R179). -/
def NotificationUnit.acknowledge (u : NotificationUnit) (n : Byte) (interval : Nat) (stamp : Tick) :
    Option NotificationUnit :=
  (removeThrough n u.queue).map (fun rest =>
    NotificationUnit.appendLost
      { u with queue := rest, expiries := 0, channel := .running,
               timer := if 0 < inFlightCount rest then some (intervalClocks interval) else none } stamp)

/-- Set the resend mark of an IN_FLIGHT entry (R181). -/
def Entry.mark (e : Entry) : Entry :=
  match e.status with
  | .inFlight n _ => { e with status := .inFlight n true }
  | .pending => e

/-- Clear the resend mark of an entry (R183). -/
def Entry.unmark (e : Entry) : Entry :=
  match e.status with
  | .inFlight n _ => { e with status := .inFlight n false }
  | .pending => e

/-- The entry made PENDING, without number or mark (R185). -/
def Entry.renew (e : Entry) : Entry := { e with status := .pending }

/-- An expiry below the stall limit: every IN_FLIGHT entry is marked and the timer restarts (R181). -/
def NotificationUnit.markAll (u : NotificationUnit) (interval : Nat) : NotificationUnit :=
  { u with queue := u.queue.map Entry.mark, expiries := u.expiries + 1, timer := some (intervalClocks interval) }

/-- The entry into STALLED: the timer stops and every mark is cleared (R183). -/
def NotificationUnit.stall (u : NotificationUnit) : NotificationUnit :=
  { u with queue := u.queue.map Entry.unmark, expiries := u.expiries + 1, timer := none, channel := .stalled }

/-- The restart of the channel by SYNC (R185). -/
def NotificationUnit.restart (u : NotificationUnit) : NotificationUnit :=
  { u with queue := u.queue.map Entry.renew, nextNumber := 0, expiries := 0, timer := none, channel := .running }

end Sys2Proof.Machine
end

