-- ==== Sys2Proof/Machine/LinkRequests.lean ====
section
/-! DEFINITION. What the dispatcher executes for the link, timebase and pair requests (R3, R14 to R16, R159, R165 to
R168): value checks, state checks, effect and answer. -/

namespace Sys2Proof.Machine

/-- OK with a reply payload. -/
def answerOk (body : List Byte) : Answer := { status := .ok, detail := 0, body := body }

/-- Any other status, with its detail and no reply payload (R163). -/
def answerRefuse (status : Status) (detail : Byte) : Answer := { status := status, detail := detail, body := [] }

/-- What a request does: the part after it, and its answer. -/
abbrev Answered := Part × Answer

/-- A refused request leaves every block as it was (R160). -/
def Part.refuse (p : Part) (status : Status) (detail : Byte) : Answered := (p, answerRefuse status detail)

/-- A request taken with an OK that carries no reply payload. -/
def Part.done (p : Part) : Answered := (p, answerOk [])

/-- The identity, the reset cause and the queue count that the reply to SYNC carries (R165, R195). -/
def Part.identity (p : Part) : List Byte :=
  bytes16 Config.familyCode ++ [Config.revisionCode, 6] ++ natBytes16 Config.slots ++ [16, 8, 4] ++
    [p.link.resetCause.byte, byteOf p.notif.queue.length]

/-- SYNC: the link becomes SYNCED, the reply cache is emptied, the channel is restarted (R165, R185). -/
def doSync (p : Part) : Answered :=
  let q := { p with link := { p.link with synced := true, cache := none }, notif := p.notif.restart }
  (q, answerOk q.identity)

/-- RESET: from here on the dispatcher takes no further request (R168). -/
def doReset (p : Part) : Answered :=
  ({ p with link := { p.link with dispatchStopped := true } }).done

/-- The reply payload of GET_STATUS (R167, R195). -/
def Part.statusBytes (p : Part) : List Byte :=
  bytes32 p.now ++ allLanes.map (fun l => (p.lane l).state.byte) ++ [setByte p.liveSet, setByte p.stickySet] ++
    allFour.map (fun b => setByte (p.barrier b).arrived) ++
    [byteOf p.notif.queue.length, p.notif.channel.byte]

/-- GET_STATUS (R167). -/
def doGetStatus (p : Part) : Answered := (p, answerOk p.statusBytes)

/-- The reply payload of GET_LINK_STATS (R159, R195). -/
def Part.statsBytes (p : Part) : List Byte :=
  let c := p.link.counters
  [c.crc, c.length, c.gap, c.type, c.overrun, c.strayAck, c.retransmit, rateByte p.link.straps]

/-- GET_LINK_STATS: the counters, cleared after their values are in the reply when the clear flag is 1 (R159). -/
def doGetLinkStats (clear : Byte) (p : Part) : Answered :=
  match flagOfByte clear with
  | none => p.refuse .badValue 1
  | some false => (p, answerOk p.statsBytes)
  | some true => ({ p with link := { p.link with counters := Counters.zero } }, answerOk p.statsBytes)

/-- SET_LINK_TIMING (R166). -/
def doSetLinkTiming (interval limit : Byte) (p : Part) : Answered :=
  if interval.toNat < 5 || 250 < interval.toNat then p.refuse .badValue 1
  else if limit.toNat < 1 || 15 < limit.toNat then p.refuse .badValue 2
  else ({ p with link := { p.link with interval := interval.toNat, stallLimit := limit.toNat } }).done

/-- A lane in this state blocks SET_TIMEBASE (R3). -/
def LaneState.blocksTimebase : LaneState → Bool
  | .armed => true
  | .running => true
  | .waiting => true
  | .starved => true
  | .stopping => true
  | .unbound => false
  | .merged => false
  | .stopped => false
  | .halted => false

/-- SET_TIMEBASE (R3): the tick in progress keeps its length. -/
def doSetTimebase (prescale : Byte) (p : Part) : Answered :=
  match Prescale.ofByte prescale with
  | none => p.refuse .badValue prescale
  | some s =>
    match allLanes.find? (fun l => (p.lane l).state.blocksTimebase) with
    | some l => p.refuse .wrongState (byteOf l.val)
    | none =>
      ({ p with timebase := { p.timebase with prescale := s } }, answerOk (byteOf s.clocks :: bytes32 p.now))

/-- The odd lane may be in this state for a change from one pair mode to another (R15). -/
def oddLaneAllows (fromMode toMode : PairMode) (s : LaneState) : Bool :=
  match fromMode, toMode with
  | .independent, .independent => s = .unbound || s = .stopped
  | .independent, .complementary => s = .unbound
  | .complementary, _ => s = .merged

/-- The state of the odd lane after a SET_PAIR (R16). -/
def oddLaneAfter (fromMode toMode : PairMode) (s : LaneState) : LaneState :=
  match fromMode, toMode with
  | .independent, .complementary => .merged
  | .complementary, .independent => .unbound
  | .independent, .independent => s
  | .complementary, .complementary => s

/-- SET_PAIR with its values decoded: the state check of R15, then the settings and the odd lane (R14, R16). -/
def configurePair (k : Fin 3) (mode : PairMode) (deadA deadB : Byte) (topPolarity bottomPolarity : Polarity)
    (topSafe bottomSafe : Level) (p : Part) : Answered :=
  let x := p.pair k
  let even := (p.lane (evenLane k)).state
  let odd := (p.lane (oddLane k)).state
  if !(even = .unbound || even = .stopped) then p.refuse .wrongState (byteOf (evenLane k).val)
  else if !(oddLaneAllows x.mode mode odd) then p.refuse .wrongState (byteOf (oddLane k).val)
  else
    ((p.setPair k
      { x with mode := mode, deadA := deadA, deadB := deadB,
               top := { x.top with polarity := topPolarity, safeLevel := topSafe },
               bottom := { x.bottom with polarity := bottomPolarity, safeLevel := bottomSafe } }).updLane (oddLane k)
      (fun y => { y with state := oddLaneAfter x.mode mode odd })).done

/-- SET_PAIR (R14): the value check, the first offending field giving the detail. -/
def doSetPair (pair mode deadA deadB topPolarity bottomPolarity topSafe bottomSafe : Byte) (p : Part) : Answered :=
  match finOfByte 3 pair, PairMode.ofByte mode, Polarity.ofByte topPolarity, Polarity.ofByte bottomPolarity,
      levelOfByte topSafe, levelOfByte bottomSafe with
  | none, _, _, _, _, _ => p.refuse .badValue 1
  | some _, none, _, _, _, _ => p.refuse .badValue 2
  | some _, some _, none, _, _, _ => p.refuse .badValue 5
  | some _, some _, some _, none, _, _ => p.refuse .badValue 6
  | some _, some _, some _, some _, none, _ => p.refuse .badValue 7
  | some _, some _, some _, some _, some _, none => p.refuse .badValue 8
  | some k, some m, some tp, some bp, some ts, some bs => configurePair k m deadA deadB tp bp ts bs p

end Sys2Proof.Machine
end

