-- ==== Sys2Proof/Machine/LaneRequests.lean ====
section
/-! DEFINITION. What the dispatcher executes for the lane requests: APPEND, START, STOP, SET_LANE, GET_LANE and TRIM
(R50, R51, R58 to R60, R73, R84, R85, R89, R90, R197, R198). -/

namespace Sys2Proof.Machine

/-- A segment that APPEND admits for lane `l`: no LEVEL with level code 2 while its pair is INDEPENDENT (R27). -/
def Part.admitsInQueue (p : Part) (l : Fin 6) (g : Segment) : Bool :=
  match g.body with
  | .level .two _ _ => decide ((p.pair (pairOf l)).mode ≠ .independent)
  | _ => true

/-- What an APPEND does to its lane besides filling the queue (R51, R69, R70): a STARVED lane becomes RUNNING, and
under SAFE processes its queue at this tick; under HOLD its held period plays out first, which is the new one where a
held period begins at this tick (R70: the whole of that period, Log 6). -/
def Part.resumeStarved (p : Part) (l : Fin 6) : Part :=
  if (p.lane l).state = .starved then
    match (p.lane l).starve with
    | .safe => p.perform [.begin l]
    | .hold =>
      (if (p.lane l).heldDue then p.beginHeld l else p).updLane l (fun x => { x with state := .running })
  else p

/-- APPEND (R50, R51). -/
def doAppend (lane : Byte) (raws : List RawSegment) (p : Part) : Answered :=
  match finOfByte 6 lane with
  | none => p.refuse .badValue 255
  | some l =>
    match decodeSegments (p.admitsInQueue l) 0 raws with
    | .error i => p.refuse .badValue (byteOf i)
    | .ok segs =>
      if (p.lane l).state = .unbound then p.refuse .notBound lane
      else if (p.lane l).state = .merged then p.refuse .unavailable lane
      else
        match p.laneRegion l with
        | none => p.refuse .notBound lane
        | some r =>
          let g := p.region r
          if g.size < g.count + segs.length then p.refuse .noRoom (byteOf (g.size - g.count))
          else ((p.enqueue r segs).resumeStarved l, answerOk (natBytes16 (g.count + segs.length)))

/-- The refusal of an UNBOUND or MERGED lane (R57). -/
def Part.unplayable (p : Part) (l : Fin 6) : Option Answer :=
  match (p.lane l).state with
  | .unbound => some (answerRefuse .notBound (byteOf l.val))
  | .merged => some (answerRefuse .unavailable (byteOf l.val))
  | _ => none

/-- The first condition of R58 that lane `l` fails, as the answer it gives. -/
def Part.startRefusal (p : Part) (l : Fin 6) : Option Answer :=
  match p.unplayable l with
  | some a => some a
  | none =>
    if (p.lane l).state ≠ .stopped then some (answerRefuse .wrongState (byteOf l.val))
    else if p.queueCount l = 0 then some (answerRefuse .queueEmpty (byteOf l.val))
    else if p.faultLatched l then some (answerRefuse .faultLatched (byteOf l.val))
    else none

/-- A lane as a START taken for it leaves it before it processes anything: record emptied, no trim (R59, R60). -/
def Lane.freshStart (x : Lane) : Lane := { x with record := none, trim := none }

/-- A lane ARMED on input `i` (R60). -/
def Lane.arm (x : Lane) (i : Fin 4) : Lane := { x.freshStart with state := .armed, armed := some i }

/-- START taken (R59, R60, R197): every lane of the set, in ascending number, begins or is armed. -/
def Part.startLanes (p : Part) (lanes : LaneSet) (source : Option (Fin 4)) : Part :=
  match source with
  | none =>
    (forLanes lanes (fun l r => r.updLane l Lane.freshStart) p).perform ((lanesOf lanes).map Task.begin)
  | some i => forLanes lanes (fun l r => r.updLane l (fun x => x.arm i)) p

/-- The lane set of START or STOP; none when it names no lane or a lane above 5 (R58, R73). -/
def someLanes (b : Byte) : Option LaneSet :=
  match setOfByte 6 b with
  | none => none
  | some s => if s = 0 then none else some s

/-- START (R58). -/
def doStart (lanes source : Byte) (p : Part) : Answered :=
  match someLanes lanes, sourceOfByte source with
  | none, _ => p.refuse .badValue 1
  | some _, none => p.refuse .badValue 2
  | some s, some src =>
    match (lanesOf s).findSome? p.startRefusal with
    | some a => (p, a)
    | none => (p.startLanes s src, answerOk (bytes32 p.now))

/-- STOP taken (R73, R198): every lane of the set, in ascending number. -/
def Part.stopLanes (p : Part) (lanes : LaneSet) (kind : StopKind) : Part :=
  match kind with
  | .soft => forLanes lanes (fun l r => r.softStop l .softStop) p
  | .hard => forLanes lanes (fun l r => r.hardStop l) p

/-- STOP (R73). -/
def doStop (lanes kind : Byte) (p : Part) : Answered :=
  match someLanes lanes, stopKindOfByte kind with
  | none, _ => p.refuse .badValue 1
  | some _, none => p.refuse .badValue 2
  | some s, some k =>
    match (lanesOf s).findSome? p.unplayable with
    | some a => (p, a)
    | none => (p.stopLanes s k, answerOk (bytes32 p.now))

/-- SET_LANE (R84). -/
def doSetLane (lane policy : Byte) (mark : Nat) (linkLoss : Byte) (p : Part) : Answered :=
  match finOfByte 6 lane, UnderrunPolicy.ofByte policy, LinkLossPolicy.ofByte linkLoss with
  | none, _, _ => p.refuse .badValue 1
  | some _, none, _ => p.refuse .badValue 2
  | some l, some u, loss =>
    if 2047 < mark then p.refuse .badValue 3
    else
      match loss with
      | none => p.refuse .badValue 4
      | some k =>
        match p.unplayable l with
        | some a => (p, a)
        | none => (p.updLane l (fun x => { x with policy := u, lowWater := mark, linkLoss := k })).done

/-! ## GET_LANE -/

/-- An optional on-time as present flag and value, 0 when absent. -/
def optBytes : Option Nat → List Byte
  | some n => 1 :: natBytes16 n
  | none => [0, 0, 0]

/-- The code of the current segment's kind: none, the five kinds, or HELD (R85, R193). -/
def Part.currentKindByte (p : Part) (l : Fin 6) : Byte :=
  match p.currentSegment l with
  | some g => g.body.kindByte
  | none => if (p.lane l).playsHeld then 0x06 else 0

/-- Barrier id of a current BARRIER, pattern id of a current CALL, otherwise 0 (R195). -/
def Part.currentIdByte (p : Part) (l : Fin 6) : Byte :=
  match p.currentSegment l with
  | some { body := .barrier b, .. } => byteOf b.val
  | some { body := .call k _, .. } => byteOf k.val
  | _ => 0

/-- The call position: plays remaining, pattern segment index, its kind and remaining repeats; zeros outside a CALL
(R195). -/
def Part.callBytes (p : Part) (l : Fin 6) : List Byte :=
  match (p.lane l).call with
  | some c =>
    [byteOf c.plays] ++ natBytes16 c.index ++
      [match p.patternSegment c.pattern c.index with | some g => g.body.kindByte | none => 0] ++
      natBytes16 c.remaining
  | none => [0, 0, 0, 0, 0, 0]

/-- The on-time in effect, if the period being played is a PULSE period; zeros otherwise (R85). -/
def Lane.onTimeBytes (x : Lane) : List Byte :=
  match x.period with
  | some { shape := .pulse _ _, .. } => natBytes16 x.primary ++ optBytes x.alternate
  | _ => [0, 0, 0, 0, 0]

/-- The staged trim, present flag first (R195). -/
def Lane.trimBytes (x : Lane) : List Byte :=
  match x.trim with
  | some t => optBytes (some t.onTime) ++ optBytes t.alternate
  | none => [0, 0, 0, 0, 0, 0]

/-- The held-period record (R195). An UNBOUND or MERGED lane reports zeros (R85, Log 18). -/
def Lane.recordBytes (x : Lane) : List Byte :=
  if x.state = .unbound || x.state = .merged then [0, 0, 0, 0, 0, 0, 0, 0, 0]
  else
    match x.record with
    | some (.pulse period a primary alternate) =>
      [1] ++ natBytes16 period ++ [a.byte] ++ natBytes16 primary ++ optBytes alternate
    | some (.level unit code) => [2] ++ natBytes16 unit ++ [code.byte, 0, 0, 0, 0, 0]
    | none => [0, 0, 0, 0, 0, 0, 0, 0, 0]

/-- The remaining repeats of a current PULSE or LEVEL, 0 for any other current segment (R85). -/
def Lane.remainingBytes (x : Lane) : List Byte := natBytes16 (if x.call.isSome then 0 else x.remaining)

/-- The reply payload of GET_LANE, 43 bytes (R85, R195). Of a lane that is UNBOUND or MERGED the record is reported as
zeros, and the last sense sample, the suppression flag and the halt-source set as the lane holds them: the model's
reading of "play fields" (Log 18). -/
def Part.laneBytes (p : Part) (l : Fin 6) : List Byte :=
  let x := p.lane l
  [x.state.byte, (match x.armed with | some i => byteOf i.val | none => 0xFF), x.stopCause.byte,
    (match p.laneRegion l with | some r => byteOf r.val | none => 0xFF)] ++
    natBytes16 (p.queueCount l) ++ [p.currentKindByte l] ++ x.remainingBytes ++ [p.currentIdByte l] ++
    p.callBytes l ++ x.onTimeBytes ++ x.trimBytes ++ x.recordBytes ++
    [flagByte x.suppressed, setByte x.haltSources, levelByte x.sense, x.policy.byte] ++ natBytes16 x.lowWater ++
    [x.linkLoss.byte]

/-- GET_LANE (R85). -/
def doGetLane (lane : Byte) (p : Part) : Answered :=
  match finOfByte 6 lane with
  | none => p.refuse .badValue 1
  | some l => (p, answerOk (p.laneBytes l))

/-! ## TRIM -/

/-- The period of the PULSE being played by the lane: the current segment, or the pattern segment inside a current
CALL; none for a held period, a LEVEL, or no current segment (R89 condition 5). -/
def Lane.pulsePlayed (x : Lane) : Option Nat :=
  match x.period with
  | some { shape := .pulse period _, held := false, .. } => some period
  | _ => none

/-- The alternate a TRIM offers, or the detail of its refusal (R89 condition 7, R192). -/
def trimAlternate (x : Lane) (period : Nat) (altFlag : Byte) (alternate : Nat) : Except Byte (Option Nat) :=
  match flagOfByte altFlag with
  | none => .error 2
  | some false => .ok none
  | some true => if x.alternate.isSome && alternate ≤ period then .ok (some alternate) else .error 4

/-- TRIM (R89, R90). -/
def doTrim (lane altFlag : Byte) (onTime alternate : Nat) (p : Part) : Answered :=
  match finOfByte 6 lane with
  | none => p.refuse .badValue 1
  | some l =>
    match p.unplayable l with
    | some a => (p, a)
    | none =>
      let x := p.lane l
      if !(x.state = .running || x.state = .stopping) then p.refuse .wrongState 0
      else
        match x.pulsePlayed with
        | none => p.refuse .wrongState 1
        | some period =>
          if period < onTime then p.refuse .badValue 3
          else
            match trimAlternate x period altFlag alternate with
            | .error detail => p.refuse .badValue detail
            | .ok alt =>
              (p.setLane l { x with trim := some { onTime := onTime, alternate := alt } },
                { status := .accepted, detail := 0, body := [] })

end Sys2Proof.Machine
end

