-- ==== Sys2Proof/Machine/TriggerUnit.lean ====
section
/-! DEFINITION. The trigger unit's delivery of an edge (R117, R118), and the barrier table's releases by request and
by timeout (R129, R130). -/

namespace Sys2Proof.Machine

/-- The consumer barriers of an edge on input `i`, with the lanes of their arrived sets, fixed at the start of the
delivery: those on this input that wait for an edge by their release mode (R117, R126, R127; in ascending number,
Log 12). A barrier in ALL_THEN_TRIGGER with an empty member set is one of them, and releases the empty set (Log 13). -/
def Part.consumerBarriers (p : Part) (i : Fin 4) : List Task :=
  (allFour.filter (fun b => decide ((p.barrier b).trigger = i) && (p.barrier b).waitsForEdge)).map
    (fun b => Task.release b .trigger (p.barrier b).arrived)

/-- The consumer lanes of an edge on input `i` (R117). -/
def Part.consumerLanes (p : Part) (i : Fin 4) : List Task :=
  (lanesOf (p.armedOn i)).map Task.begin

/-- The delivery of one edge, taken whole (R117): CAPTURE, then the consumer barriers, then the consumer lanes. -/
def Part.deliverEdge (p : Part) (i : Fin 4) (d : Direction) (synthetic : Bool) : Part :=
  let tasks := p.consumerBarriers i ++ p.consumerLanes i
  let q := if (p.trigger i).capture then p.notify (.capture i d synthetic) else p
  q.perform tasks

/-- The release of the whole arrived set of barrier `b`, with a cause (R125). -/
def Part.releaseBarrier (p : Part) (b : Fin 4) (cause : ReleaseCause) : Part :=
  p.perform [.release b cause (p.barrier b).arrived]

/-- One lane stopped by a barrier timeout with action STOP: the hard stop, then LANE_STOPPED (R129, R80). -/
def Part.timeoutStop (p : Part) (l : Fin 6) : Part :=
  (p.hardStop l).reportStopped l .barrierTimeout

/-- A barrier timeout with action STOP (R129): BARRIER_RELEASED with cause TIMEOUT_STOP, and each lane of the arrived
set hard-stopped in ascending number, which takes it out of the set. -/
def Part.stopBarrier (p : Part) (b : Fin 4) : Part :=
  let lanes := (p.barrier b).arrived
  forLanes lanes (fun l r => r.timeoutStop l) (p.notify (.barrierReleased b .timeoutStop lanes))

/-- What a barrier's timeout does by its action (R129). -/
def Part.timeOutBarrier (p : Part) (b : Fin 4) : Part :=
  match (p.barrier b).action with
  | .release => p.releaseBarrier b .timeout
  | .stop => p.stopBarrier b

end Sys2Proof.Machine
end

