-- ==== Sys2Proof/Machine/InputRequests.lean ====
section
/-! DEFINITION. What the dispatcher executes for the trigger, barrier and fault requests (R116, R119, R121, R130, R132,
R133, R145 to R150). -/

namespace Sys2Proof.Machine

/-! ## Triggers -/

/-- SET_TRIGGER (R116): the qualification is not disturbed. -/
def doSetTrigger (input edges capture : Byte) (p : Part) : Answered :=
  match finOfByte 4 input, EdgeSelection.ofByte edges, flagOfByte capture with
  | none, _, _ => p.refuse .badValue 1
  | some _, none, _ => p.refuse .badValue 2
  | some _, some _, none => p.refuse .badValue 3
  | some i, some e, some c => (p.setTrigger i { p.trigger i with edges := e, capture := c }).done

/-- The direction of a synthetic edge, as CAPTURE reports it (R119). -/
def TriggerInput.syntheticDirection (t : TriggerInput) : Direction :=
  match t.qualified with
  | .low => .rise
  | .high => .fall

/-- FIRE_TRIGGER (R119). -/
def doFireTrigger (input : Byte) (p : Part) : Answered :=
  match finOfByte 4 input with
  | none => p.refuse .badValue 1
  | some i => (p.deliverEdge i (p.trigger i).syntheticDirection true, answerOk (bytes32 p.now))

/-- The entry of an input in the reply to GET_TRIGGERS (R121, R195). -/
def Part.triggerBytes (p : Part) (i : Fin 4) : List Byte :=
  let t := p.trigger i
  [t.edges.byte, flagByte t.capture, levelByte t.qualified, setByte (p.armedOn i)]

/-- GET_TRIGGERS (R121). -/
def doGetTriggers (p : Part) : Answered := (p, answerOk (allFour.flatMap p.triggerBytes))

/-! ## Barriers -/

/-- SET_BARRIER (R132). -/
def doSetBarrier (barrier members mode trigger : Byte) (timeout : Nat) (action : Byte) (p : Part) : Answered :=
  match finOfByte 4 barrier, setOfByte 6 members, ReleaseMode.ofByte mode, finOfByte 4 trigger,
      TimeoutAction.ofByte action with
  | none, _, _, _, _ => p.refuse .badValue 1
  | some _, none, _, _, _ => p.refuse .badValue 2
  | some _, some _, none, _, _ => p.refuse .badValue 3
  | some _, some _, some _, none, _ => p.refuse .badValue 4
  | some _, some _, some _, some _, none => p.refuse .badValue 6
  | some b, some s, some m, some i, some a =>
    let x := p.barrier b
    if x.arrived ≠ 0 then p.refuse .wrongState 0
    else (p.setBarrier b { x with members := s, mode := m, trigger := i, timeout := timeout, action := a }).done

/-- RELEASE_BARRIER (R130): with an empty arrived set it has no effect on the barrier. -/
def doReleaseBarrier (barrier : Byte) (p : Part) : Answered :=
  match finOfByte 4 barrier with
  | none => p.refuse .badValue 1
  | some b =>
    let lanes := (p.barrier b).arrived
    (if lanes = 0 then p else p.releaseBarrier b .request, answerOk (bytes32 p.now ++ [setByte lanes]))

/-- The reply payload of GET_BARRIER (R133, R195). -/
def Part.barrierBytes (p : Part) (b : Fin 4) : List Byte :=
  let x := p.barrier b
  let running := x.counter.isSome
  [setByte x.members, setByte x.arrived, x.mode.byte, byteOf x.trigger.val] ++ natBytes16 x.timeout ++
    [x.action.byte, flagByte running] ++ natBytes32 (x.elapsed p.now) ++
    natBytes32 (if running then Config.timeoutUnit * x.timeout - x.elapsed p.now else 0) ++
    [flagByte x.waitsForEdge]

/-- GET_BARRIER (R133). -/
def doGetBarrier (barrier : Byte) (p : Part) : Answered :=
  match finOfByte 4 barrier with
  | none => p.refuse .badValue 1
  | some b => (p, answerOk (p.barrierBytes b))

/-! ## Faults -/

/-- A fault input with new settings; qualified level and run count are kept (R148). Where a SET_FAULT falls at the tick
of a differing sample, R135 does not say which of the two is first. The model's choice (Log 17): a qualification due at
this tick stays due only if the run count reaches a raised filter length, and a lowered one does not make this tick's
sample qualify; it is compared with the next differing sample. -/
def FaultInput.configure (f : FaultInput) (active : Level) (filter : Nat) (mode : FaultMode) (lanes : LaneSet) :
    FaultInput :=
  { f with activeLevel := active, filter := filter, mode := mode, lanes := lanes,
           due := f.due && decide (filter ≤ f.run) }

/-- SET_FAULT with its values decoded (R148, R149): an input left in CYCLE or LATCH mode and live ACTIVE is taken as
a qualification to active. -/
def configureFault (i : Fin 4) (active : Level) (filter : Nat) (mode : FaultMode) (lanes : LaneSet) (p : Part) :
    Answered :=
  if (p.fault i).sticky then p.refuse .wrongState 0
  else
    let q := p.setFault i ((p.fault i).configure active filter mode lanes)
    (if (q.fault i).live && mode ≠ .off then q.faultActs i else q).done

/-- SET_FAULT (R148): the value check. -/
def doSetFault (input activeLevel filter mode lanes : Byte) (p : Part) : Answered :=
  match finOfByte 4 input, levelOfByte activeLevel, FaultMode.ofByte mode, setOfByte 6 lanes with
  | none, _, _, _ => p.refuse .badValue 1
  | some _, none, _, _ => p.refuse .badValue 2
  | some i, some a, m, s =>
    if filter.toNat < 1 || 15 < filter.toNat then p.refuse .badValue 3
    else
      match m, s with
      | none, _ => p.refuse .badValue 4
      | some _, none => p.refuse .badValue 5
      | some m', some s' => configureFault i a filter.toNat m' s' p

/-- A named input that is in CYCLE or LATCH mode and live ACTIVE (R145). -/
def FaultInput.stillActive (f : FaultInput) : Bool := decide (f.mode ≠ .off) && f.live

/-- The input set of CLEAR_FAULT; none when it names no input or an input above 3 (R145). -/
def someInputs (b : Byte) : Option InputSet :=
  match setOfByte 4 b with
  | none => none
  | some s => if s = 0 then none else some s

/-- CLEAR_FAULT (R145, R146). -/
def doClearFault (inputs : Byte) (p : Part) : Answered :=
  match someInputs inputs with
  | none => p.refuse .badValue 1
  | some s =>
    match allFour.find? (fun i => inSet s i && (p.fault i).stillActive) with
    | some i => p.refuse .stillActive (byteOf i.val)
    | none =>
      let q := p.clearFaults s
      (q, answerOk [setByte q.stickySet, setByte (p.freedBy s)])

/-- The entry of an input in the reply to GET_FAULTS (R150, R195); its map is judged as the effective map "when
GET_FAULTS reports" (R137, Log 25). -/
def Part.faultBytes (p : Part) (i : Fin 4) : List Byte :=
  let f := p.fault i
  [levelByte f.activeLevel, byteOf f.filter, f.mode.byte, setByte (p.effectiveMap i), levelByte f.qualified]

/-- The first-fault record in the reply to GET_FAULTS (R150, R195). Without a record its input and timestamp bytes are
0: the model's choice (Log 30). -/
def Part.firstFaultBytes (p : Part) : List Byte :=
  match p.firstFault with
  | some r => [1, byteOf r.input.val] ++ bytes32 r.stamp
  | none => [0, 0, 0, 0, 0, 0]

/-- GET_FAULTS (R150). -/
def doGetFaults (p : Part) : Answered :=
  (p, answerOk (allFour.flatMap p.faultBytes ++ [setByte p.liveSet, setByte p.stickySet] ++ p.firstFaultBytes ++
    allLanes.map (fun l => setByte (p.lane l).haltSources) ++ allLanes.map (fun l => flagByte (p.lane l).suppressed)))

end Sys2Proof.Machine
end

