-- ==== Sys2Proof/Machine/Outputs.lean ====
section
/-! DEFINITION. The output stages: requested levels, deadtime, polarity and safe levels, recomputed after every event
(R7 to R12), and the close of a tick, which hands this tick's requested levels on to the next. -/

namespace Sys2Proof.Machine

/-- The electrical level that polarity gives a logical state (R7). -/
def Polarity.level : Polarity → Bool → Level
  | .activeHigh, true => .high
  | .activeHigh, false => .low
  | .activeLow, true => .low
  | .activeLow, false => .high

/-- A line of an INDEPENDENT pair: its lane's demand without delay, or the safe level directly (R7). Its requested
level, which R8 forms for a COMPLEMENTARY pair only, is held inactive: the model's choice (Log 28). -/
def Line.driveIndependent (x : Line) (demand : Option Demand) : Line :=
  match demand with
  | some d =>
    { x with requested := false, active := decide (d = .top), level := x.polarity.level (decide (d = .top)) }
  | none => { x with requested := false, active := false, level := x.safeLevel }

/-- The line has been requested active for its whole deadtime: without deadtime at once, after an earlier tick's
activation, or with this tick's delayed activation taken (R10, R11). A line requested active at the tick before and
at this one makes no activation, so its count goes on, and it is held to the deadtime in force now; the two differ only
where a SET_PAIR with another deadtime falls between an end of play and a START at one tick, on which R10 and R14 are
silent: the model's choice (Log 32). -/
def Line.delayOver (x : Line) (dead : Nat) : Bool :=
  decide (dead = 0)
    || (x.wasRequested && (match x.since with | some n => decide (dead ≤ n) | none => false))
    || (x.activationTaken && decide (x.sinceNow = some dead))

/-- A line of a COMPLEMENTARY pair: the requested level through the deadtime and the polarity (R8, R10). -/
def Line.driveComplementary (x : Line) (requested : Bool) (dead : Nat) : Line :=
  let y := { x with requested := requested }
  let active := requested && y.delayOver dead
  { y with active := active, level := x.polarity.level active }

/-- Both lines of a pair at this tick, from the demands of its lanes (R7, R8). -/
def Pair.drive (x : Pair) (even odd : Option Demand) : Pair :=
  match x.mode with
  | .independent => { x with top := x.top.driveIndependent even, bottom := x.bottom.driveIndependent odd }
  | .complementary =>
    { x with top := x.top.driveComplementary (decide (even = some .top)) x.deadA.toNat,
             bottom := x.bottom.driveComplementary (decide (even = some .bottom)) x.deadB.toNat }

/-- Pair `k` as its lanes drive it now. -/
def Part.drivenPair (p : Part) (k : Fin 3) : Pair :=
  (p.pair k).drive (p.lane (evenLane k)).demand (p.lane (oddLane k)).demand

/-- Set every line to what its lane drives now (R6 to R12). -/
def Part.driveLines (p : Part) : Part :=
  { p with pairs := #v[p.drivenPair 0, p.drivenPair 1, p.drivenPair 2] }

/-- The line at the end of a tick: this tick's requested level becomes that of the previous tick (R10). -/
def Line.closeTick (x : Line) : Line :=
  { x with wasRequested := x.requested, since := x.sinceNow, activationTaken := false }

/-- The pair at the end of a tick. -/
def Pair.closeTick (x : Pair) : Pair :=
  { x with top := x.top.closeTick, bottom := x.bottom.closeTick }

/-- The pair that output line `o` belongs to. -/
def linePair (o : Fin 6) : Fin 3 := pairOf o

/-- Output line `o` is the top line of its pair: OUT(2p) (00, Pins). -/
def isTopLine (o : Fin 6) : Bool := decide (o.val % 2 = 0)

/-- Output line `o`. -/
def Part.line (p : Part) (o : Fin 6) : Line :=
  if isTopLine o then (p.pair (linePair o)).top else (p.pair (linePair o)).bottom

/-- The electrical level of OUT0 to OUT5. -/
def Part.out (p : Part) (o : Fin 6) : Level := (p.line o).level

/-- A delayed activation of line `o` is due: its pair is COMPLEMENTARY, the deadtime runs out at this tick, and the
driving lane's demand for this tick is settled, no boundary of it being due (R10, R11, Log 19). -/
def Part.delayedActivationDue (p : Part) (o : Fin 6) : Bool :=
  decide ((p.pair (linePair o)).mode = .complementary)
    && (p.line o).activationDue ((p.pair (linePair o)).deadOf (isTopLine o))
    && !(p.lane (evenLane (linePair o))).anyDue

/-- Take the delayed activation of line `o`. -/
def Part.takeActivation (p : Part) (o : Fin 6) : Part :=
  let x := p.pair (linePair o)
  p.setPair (linePair o)
    (if isTopLine o then { x with top := { x.top with activationTaken := true } }
     else { x with bottom := { x.bottom with activationTaken := true } })

end Sys2Proof.Machine
end

