-- ==== Sys2Proof/Machine/RegionRequests.lean ====
section
/-! DEFINITION. What the dispatcher executes for the region and pattern requests (R37 to R46, R102 to R105, R112). -/

namespace Sys2Proof.Machine

/-- Two runs of slots share a slot. -/
def runsOverlap (start size start' size' : Nat) : Bool :=
  decide (start < start' + size') && decide (start' < start + size)

/-- DEFINE_REGION (R37, R38). -/
def doDefineRegion (region : Byte) (start size : Nat) (p : Part) : Answered :=
  match finOfByte 16 region with
  | none => p.refuse .badValue 1
  | some r =>
    if Config.slots ≤ start then p.refuse .badValue 2
    else if size < 4 || Config.slots < size || Config.slots < start + size then p.refuse .badValue 3
    else if (p.region r).defined then p.refuse .wrongState 0
    else
      match allRegions.find? (fun r' =>
          (p.region r').defined && runsOverlap start size (p.region r').start (p.region r').size) with
      | some r' => p.refuse .overlap (byteOf r'.val)
      | none =>
        (p.setRegion r { defined := true, start := start, size := size, binding := .none, head := 0, count := 0,
                         loaded := 0 }).done

/-- DELETE_REGION (R39). -/
def doDeleteRegion (region : Byte) (p : Part) : Answered :=
  match finOfByte 16 region with
  | none => p.refuse .badValue 1
  | some r =>
    if !(p.region r).defined then p.refuse .wrongState 0
    else if (p.region r).binding ≠ .none then p.refuse .wrongState 1
    else (p.setRegion r Region.reset).done

/-- What BIND_REGION binds a region to (R40). -/
inductive BindTarget where
  | lane (l : Fin 6)
  | pattern (k : Fin 8)
deriving DecidableEq, Repr

/-- The binding kind and target of BIND_REGION, or the position of the first that offends (R40). -/
def bindTarget (kind target : Byte) : Except Byte BindTarget :=
  match kind.toNat with
  | 1 =>
    match finOfByte 6 target with
    | some l => .ok (.lane l)
    | none => .error 3
  | 2 =>
    match finOfByte 8 target with
    | some k => .ok (.pattern k)
    | none => .error 3
  | _ => .error 2

/-- A lane as BIND_REGION leaves it: STOPPED, with no current segment, no trim and no halt source (R41). -/
def Lane.bind (x : Lane) : Lane := { x.toStopped with haltSources := 0 }

/-- BIND_REGION (R40, R41). -/
def doBindRegion (region kind target : Byte) (p : Part) : Answered :=
  match finOfByte 16 region with
  | none => p.refuse .badValue 1
  | some r =>
    match bindTarget kind target with
    | .error field => p.refuse .badValue field
    | .ok t =>
      let g := p.region r
      if !g.defined then p.refuse .wrongState 0
      else if g.binding ≠ .none then p.refuse .wrongState 1
      else
        match t with
        | .lane l =>
          if (p.lane l).state = .merged then p.refuse .unavailable (byteOf l.val)
          else if (p.lane l).state ≠ .unbound then p.refuse .wrongState 2
          else ((p.setRegion r { g with binding := .lane l, head := 0, count := 0 }).updLane l Lane.bind).done
        | .pattern k =>
          if (p.pattern k).state ≠ .unassigned then p.refuse .wrongState 2
          else
            ((p.setRegion r { g with binding := .pattern k, loaded := 0 }).setPattern k
              { state := .empty, useCount := 0 }).done

/-- UNBIND_REGION (R42, R43). -/
def doUnbindRegion (region : Byte) (p : Part) : Answered :=
  match finOfByte 16 region with
  | none => p.refuse .badValue 1
  | some r =>
    if !(p.region r).defined then p.refuse .wrongState 0
    else
      match (p.region r).binding with
      | .none => p.refuse .wrongState 1
      | .lane l =>
        if (p.lane l).state ≠ .stopped then p.refuse .wrongState 2
        else
          let q := p.emptyRegion r
          ((q.setRegion r { q.region r with binding := .none }).updLane l (fun x => { x with state := .unbound })).done
      | .pattern k =>
        if 0 < (p.pattern k).useCount then p.refuse .inUse (byteOf (p.pattern k).useCount)
        else
          let q := p.emptyRegion r
          ((q.setRegion r { q.region r with binding := .none }).setPattern k
            { q.pattern k with state := .unassigned }).done

/-- CLEAR_REGION (R44, R45). -/
def doClearRegion (region : Byte) (p : Part) : Answered :=
  match finOfByte 16 region with
  | none => p.refuse .badValue 1
  | some r =>
    if !(p.region r).defined then p.refuse .wrongState 0
    else
      match (p.region r).binding with
      | .none => p.done
      | .lane l =>
        if (p.lane l).state = .stopped || (p.lane l).state = .halted then (p.emptyRegion r).done
        else p.refuse .wrongState 2
      | .pattern k =>
        if 0 < (p.pattern k).useCount then p.refuse .inUse (byteOf (p.pattern k).useCount)
        else ((p.emptyRegion r).setPattern k { p.pattern k with state := .empty }).done

/-- Binding kind and number of a region (R193, R195). -/
def Binding.bytes : Binding → List Byte
  | .none => [0, 0]
  | .lane l => [1, byteOf l.val]
  | .pattern k => [2, byteOf k.val]

/-- The entry of a region in the reply to GET_REGIONS; an undefined region reports every byte as 0 (R46, R195). -/
def Region.bytes (g : Region) : List Byte :=
  if g.defined then
    [1] ++ natBytes16 g.start ++ natBytes16 g.size ++ g.binding.bytes ++ natBytes16 g.head ++ natBytes16 g.count ++
      natBytes16 g.loaded
  else [0, 0, 0, 0, 0, 0, 0, 0, 0, 0, 0, 0, 0]

/-- GET_REGIONS (R46). -/
def doGetRegions (p : Part) : Answered :=
  (p, answerOk (allRegions.flatMap (fun r => (p.region r).bytes) ++ natBytes16 p.freeSlots))

/-! ## Patterns -/

/-- PATTERN_BEGIN (R102). -/
def doPatternBegin (pattern : Byte) (p : Part) : Answered :=
  match finOfByte 8 pattern with
  | none => p.refuse .badValue 1
  | some k =>
    match p.patternRegion k with
    | none => p.refuse .notBound pattern
    | some r =>
      if (p.pattern k).state = .unassigned then p.refuse .notBound pattern
      else if 0 < (p.pattern k).useCount then p.refuse .inUse (byteOf (p.pattern k).useCount)
      else ((p.emptyRegion r).setPattern k { p.pattern k with state := .loading }).done

/-- A segment that PATTERN_DATA admits: neither BARRIER nor CALL (R28). -/
def admittedInPattern (g : Segment) : Bool :=
  match g.body with
  | .barrier _ => false
  | .call _ _ => false
  | _ => true

/-- PATTERN_DATA (R103). -/
def doPatternData (pattern : Byte) (raws : List RawSegment) (p : Part) : Answered :=
  match finOfByte 8 pattern with
  | none => p.refuse .badValue 255
  | some k =>
    match decodeSegments admittedInPattern 0 raws with
    | .error i => p.refuse .badValue (byteOf i)
    | .ok segs =>
      if (p.pattern k).state ≠ .loading then p.refuse .wrongState pattern
      else
        match p.patternRegion k with
        | none => p.refuse .wrongState pattern
        | some r =>
          let g := p.region r
          if g.size < g.loaded + segs.length then p.refuse .noRoom (byteOf (g.size - g.loaded))
          else (p.load r segs, answerOk (natBytes16 (g.loaded + segs.length)))

/-- PATTERN_END (R104). -/
def doPatternEnd (pattern : Byte) (p : Part) : Answered :=
  match finOfByte 8 pattern with
  | none => p.refuse .badValue 1
  | some k =>
    if (p.pattern k).state ≠ .loading then p.refuse .wrongState pattern
    else if (p.patternSegments k 0 (p.loadedLength k)).any Segment.isTimed then
      (p.setPattern k { p.pattern k with state := .ready }, answerOk (natBytes16 (p.loadedLength k)))
    else p.refuse .badValue 2

/-- PATTERN_DISCARD (R105). -/
def doPatternDiscard (pattern : Byte) (p : Part) : Answered :=
  match finOfByte 8 pattern with
  | none => p.refuse .badValue 1
  | some k =>
    match p.patternRegion k with
    | none => p.refuse .notBound pattern
    | some r =>
      if (p.pattern k).state = .unassigned then p.refuse .notBound pattern
      else if 0 < (p.pattern k).useCount then p.refuse .inUse (byteOf (p.pattern k).useCount)
      else ((p.emptyRegion r).setPattern k { p.pattern k with state := .empty }).done

/-- The entry of a pattern in the reply to GET_PATTERNS (R112, R195). -/
def Part.patternBytes (p : Part) (k : Fin 8) : List Byte :=
  [(p.pattern k).state.byte, (match p.patternRegion k with | some r => byteOf r.val | none => 0xFF)] ++
    natBytes16 (p.loadedLength k) ++ [byteOf (p.pattern k).useCount]

/-- GET_PATTERNS (R112). -/
def doGetPatterns (p : Part) : Answered := (p, answerOk (allPatterns.flatMap p.patternBytes))

end Sys2Proof.Machine
end

