-- ==== Sys2Proof/Machine/Dispatcher.lean ====
section
/-! DEFINITION. The request buffer, the request dispatcher with its checks and reply cache (R158 to R162), the transmit
arbiter (R164), and `settle`, which every command ends with: the dispatcher and the arbiter act, and the output
stages take their levels. -/

namespace Sys2Proof.Machine

/-! ## Steps 4 to 7: payload length, values, state, execution (R160, R192) -/

/-- A payload length that is not that of the code (R160 step 4). -/
def Part.badLength (p : Part) : Answered := p.refuse .badLength 0

/-- A request with no payload. -/
def withNone (payload : List Byte) (f : Part → Answered) (p : Part) : Answered :=
  match payload with
  | [] => f p
  | _ => p.badLength

/-- A request with one byte of payload. -/
def withOne (payload : List Byte) (f : Byte → Part → Answered) (p : Part) : Answered :=
  match payload with
  | [a] => f a p
  | _ => p.badLength

/-- A request with two bytes of payload. -/
def withTwo (payload : List Byte) (f : Byte → Byte → Part → Answered) (p : Part) : Answered :=
  match payload with
  | [a, b] => f a b p
  | _ => p.badLength

/-- A request with three bytes of payload. -/
def withThree (payload : List Byte) (f : Byte → Byte → Byte → Part → Answered) (p : Part) : Answered :=
  match payload with
  | [a, b, c] => f a b c p
  | _ => p.badLength

/-- A request with a one-byte header and 1 to 16 segments (R192). -/
def withSegments (payload : List Byte) (f : Byte → List RawSegment → Part → Answered) (p : Part) : Answered :=
  match payload with
  | [] => p.badLength
  | a :: rest =>
    match splitSegments rest with
    | some raws => if 1 ≤ raws.length && raws.length ≤ 16 then f a raws p else p.badLength
    | none => p.badLength

/-- SET_PAIR's payload of 8 bytes. -/
def runSetPair (payload : List Byte) (p : Part) : Answered :=
  match payload with
  | [a, b, c, d, e, f, g, h] => doSetPair a b c d e f g h p
  | _ => p.badLength

/-- DEFINE_REGION's payload of 5 bytes. -/
def runDefineRegion (payload : List Byte) (p : Part) : Answered :=
  match payload with
  | [a, b, c, d, e] => doDefineRegion a (field16 b c) (field16 d e) p
  | _ => p.badLength

/-- SET_LANE's payload of 5 bytes. -/
def runSetLane (payload : List Byte) (p : Part) : Answered :=
  match payload with
  | [a, b, c, d, e] => doSetLane a b (field16 c d) e p
  | _ => p.badLength

/-- TRIM's payload of 6 bytes. -/
def runTrim (payload : List Byte) (p : Part) : Answered :=
  match payload with
  | [a, b, c, d, e, f] => doTrim a b (field16 c d) (field16 e f) p
  | _ => p.badLength

/-- SET_BARRIER's payload of 7 bytes. -/
def runSetBarrier (payload : List Byte) (p : Part) : Answered :=
  match payload with
  | [a, b, c, d, e, f, g] => doSetBarrier a b c d (field16 e f) g p
  | _ => p.badLength

/-- SET_FAULT's payload of 5 bytes. -/
def runSetFault (payload : List Byte) (p : Part) : Answered :=
  match payload with
  | [a, b, c, d, e] => doSetFault a b c d e p
  | _ => p.badLength

/-- Steps 4 to 7 of the dispatcher for a request of a known code. -/
def runRequest (k : RequestKind) (payload : List Byte) (p : Part) : Answered :=
  match k with
  | .sync => withNone payload doSync p
  | .reset => withNone payload doReset p
  | .getStatus => withNone payload doGetStatus p
  | .getLinkStats => withOne payload doGetLinkStats p
  | .setLinkTiming => withTwo payload doSetLinkTiming p
  | .setTimebase => withOne payload doSetTimebase p
  | .setPair => runSetPair payload p
  | .defineRegion => runDefineRegion payload p
  | .deleteRegion => withOne payload doDeleteRegion p
  | .bindRegion => withThree payload doBindRegion p
  | .unbindRegion => withOne payload doUnbindRegion p
  | .clearRegion => withOne payload doClearRegion p
  | .getRegions => withNone payload doGetRegions p
  | .append => withSegments payload doAppend p
  | .start => withTwo payload doStart p
  | .stop => withTwo payload doStop p
  | .setLane => runSetLane payload p
  | .getLane => withOne payload doGetLane p
  | .trim => runTrim payload p
  | .patternBegin => withOne payload doPatternBegin p
  | .patternData => withSegments payload doPatternData p
  | .patternEnd => withOne payload doPatternEnd p
  | .patternDiscard => withOne payload doPatternDiscard p
  | .getPatterns => withNone payload doGetPatterns p
  | .setTrigger => withThree payload doSetTrigger p
  | .fireTrigger => withOne payload doFireTrigger p
  | .getTriggers => withNone payload doGetTriggers p
  | .setBarrier => runSetBarrier payload p
  | .releaseBarrier => withOne payload doReleaseBarrier p
  | .getBarrier => withOne payload doGetBarrier p
  | .setFault => runSetFault payload p
  | .clearFault => withOne payload doClearFault p
  | .getFaults => withNone payload doGetFaults p

/-! ## Steps 1 to 3, the reply slot and the reply cache (R160 to R162) -/

/-- Place a reply in the reply slot. -/
def Part.placeReply (p : Part) (r : Reply) : Part := { p with link := { p.link with slot := some r } }

/-- Place a reply in the reply slot and in the reply cache (R162). -/
def Part.placeCached (p : Part) (f : RequestFrame) (r : Reply) : Part :=
  { p with link := { p.link with slot := some r, cache := some { seq := f.seq, crc := f.crc, reply := r } } }

/-- A reply to a request frame: it echoes SEQ and CODE (R194). -/
def RequestFrame.reply (f : RequestFrame) (a : Answer) (resets : Bool) : Reply :=
  { seq := f.seq, code := f.code, answer := a, resets := resets }

/-- Steps 3 to 7: the request is new. Its reply enters the cache, but for a RESET that is executed (R162, R168). -/
def Part.executeNew (p : Part) (f : RequestFrame) : Part :=
  match requestKind f.code with
  | none => p.placeCached f (f.reply (answerRefuse .unknownRequest 0) false)
  | some k =>
    match runRequest k f.payload p with
    | (q, a) =>
      if k = .reset && a.status = .ok then q.placeReply (f.reply a true) else q.placeCached f (f.reply a false)

/-- Step 2: a repeat of the cached request is answered from the cache, and one with its SEQ and another CRC is
SEQ_REUSED (R162). -/
def Part.executeSynced (p : Part) (f : RequestFrame) : Part :=
  match p.link.cache with
  | none => p.executeNew f
  | some c =>
    if c.seq = f.seq then
      if c.crc = f.crc then p.placeReply c.reply
      else p.placeReply (f.reply (answerRefuse .seqReused c.reply.code) false)
    else p.executeNew f

/-- Step 1: while the link is UNSYNCED every request but SYNC is answered NOT_SYNCED (R161). -/
def Part.execute (p : Part) (f : RequestFrame) : Part :=
  if p.link.synced || f.code = requestCode .sync then p.executeSynced f
  else p.placeReply (f.reply (answerRefuse .notSynced 0) false)

/-- The dispatcher: when the buffer holds a frame and the reply slot is empty, it takes and executes the oldest
(R160); after a RESET it takes none (R168). -/
def Part.dispatch (p : Part) : Part :=
  if p.link.dispatchStopped || p.link.slot.isSome then p
  else
    match p.link.buffer with
    | [] => p
    | f :: rest => Part.execute { p with link := { p.link with buffer := rest } } f

/-! ## The transmit arbiter (R164) -/

/-- The NOTIFY frame begun, when the link is SYNCED, the channel RUNNING and the unit has one to send (R175). -/
def Part.beginNotify (p : Part) : Part :=
  if p.link.synced && p.notif.channel = .running then
    match p.notif.sendNext p.link.interval with
    | some r => { p with notif := r.2, link := { p.link with tx := some r.1 } }
    | none => p
  else p

/-- A free transmitter is given to the reply in the slot, which empties, or else to the next notification frame
(R164). -/
def Part.arbitrate (p : Part) : Part :=
  match p.link.tx with
  | some _ => p
  | none =>
    match p.link.slot with
    | some r => { p with link := { p.link with tx := some r.frame, slot := none } }
    | none => p.beginNotify

/-- The dispatcher and the arbiter act until neither can: a request taken, a frame begun, and the request that the
emptied slot lets in (R160, R164, Log 21). -/
def Part.pump (p : Part) : Part := p.dispatch.arbitrate.dispatch

/-- What every command ends with. -/
def Part.settle (p : Part) : Part := p.pump.driveLines

/-- A request frame joins the buffer, or is dropped as an overrun (R158). -/
def Part.bufferRequest (p : Part) (f : RequestFrame) : Part :=
  if p.link.buffer.length < Config.requestBufferCapacity then
    { p with link := { p.link with buffer := p.link.buffer ++ [f] } }
  else
    { p with link := { p.link with
        counters := { p.link.counters with overrun := countUp p.link.counters.overrun } } }

/-- No reset is in progress. -/
def Part.isRunning (p : Part) : Bool := decide (p.resetPhase = .ended)

/-- An event of the part. While a reset lasts the blocks hold their reset values (R169), so nothing happens. -/
def Part.event (p : Part) (f : Part → Part) : Part := if p.isRunning then (f p).settle else p

/-- An event that happens only when it is due; otherwise the part stays as it is (Log 1). -/
def Part.eventWhen (p : Part) (due : Bool) (f : Part → Part) : Part := if due then p.event f else p

/-- The arrival of a whole request frame with a matching CRC (R158, Log 4). -/
def Part.receiveRequest (p : Part) (k : RequestKind) (seq : Byte) (payload : List Byte) : Part :=
  p.event (fun q => q.bufferRequest (requestFrame seq (requestCode k) payload))

end Sys2Proof.Machine
end

