-- ==== Sys2Proof/Machine/PartEvents.lean ====
section
/-! DEFINITION. What the events do to the part: the receiver (R152 to R157), the transmitter (R164), the inputs (R114,
R135), the retransmit timer (R181), resets (R168, R169), and the tick (R2) with the events it finds not yet taken. -/

namespace Sys2Proof.Machine

/-! ## Receiver -/

/-- The receiver returns to HUNTING and the gap timer stops (R153, R155). -/
def Part.toHunting (p : Part) : Part := { p with link := { p.link with rx := .hunting, gap := none } }

/-- The CRC counter rises (R156). -/
def Part.countCrc (p : Part) : Part :=
  { p with link := { p.link with counters := { p.link.counters with crc := countUp p.link.counters.crc } } }

/-- The LENGTH counter rises (R154, R157). -/
def Part.countLength (p : Part) : Part :=
  { p with link := { p.link with counters := { p.link.counters with length := countUp p.link.counters.length } } }

/-- The GAP counter rises (R155). -/
def Part.countGap (p : Part) : Part :=
  { p with link := { p.link with counters := { p.link.counters with gap := countUp p.link.counters.gap } } }

/-- The TYPE counter rises (R157). -/
def Part.countType (p : Part) : Part :=
  { p with link := { p.link with counters := { p.link.counters with type := countUp p.link.counters.type } } }

/-- The STRAY_ACK counter rises (R179). -/
def Part.countStray (p : Part) : Part :=
  { p with link := { p.link with counters :=
      { p.link.counters with strayAck := countUp p.link.counters.strayAck } } }

/-- The RETRANSMIT counter rises (R181). -/
def Part.countRetransmit (p : Part) : Part :=
  { p with link := { p.link with counters :=
      { p.link.counters with retransmit := countUp p.link.counters.retransmit } } }

/-- An acknowledgement, as one event at the end of its frame (R178), or a stray one (R179). -/
def Part.acknowledge (p : Part) (number : Byte) : Part :=
  match p.notif.acknowledge number p.link.interval p.now with
  | some u => { p with notif := u }
  | none => p.countStray

/-- A frame whose CRC matches, sorted by its TYPE (R157). -/
def Part.sortFrame (p : Part) (len type seq code : Byte) (payload : List Byte) (crc : Word16) : Part :=
  if type = typeRequest then p.bufferRequest { seq := seq, code := code, payload := payload, crc := crc }
  else if type = typeNotifyAck then
    if len = 3 then p.acknowledge seq else p.countLength
  else p.countType

/-- The end of a frame's last CRC byte: the CRC is checked and the frame sorted; the receiver returns to HUNTING
(R153, R156, R157). -/
def Part.completeFrame (p : Part) : Part :=
  match p.link.rx with
  | .inFrame (len :: type :: seq :: code :: rest) =>
    match rest.drop (len.toNat - 3) with
    | [high, low] =>
      let payload := rest.take (len.toNat - 3)
      if crc16 (len :: type :: seq :: code :: payload) = word16 high low then
        p.toHunting.sortFrame len type seq code payload (word16 high low)
      else p.toHunting.countCrc
    | _ => p.toHunting
  | _ => p

/-- A LEN out of range drops the frame (R154). -/
def Part.dropLength (p : Part) : Part := p.toHunting.countLength

/-- The gap timer runs out and the partial frame is dropped (R155). -/
def Part.dropGap (p : Part) : Part := p.toHunting.countGap

/-- FRAME_COMPLETE, if it is due. -/
def Part.frameEvent (p : Part) : Part := p.eventWhen p.link.frameDue Part.completeFrame

/-- LENGTH_ERROR, if it is due. -/
def Part.lengthEvent (p : Part) : Part := p.eventWhen p.link.lengthDue Part.dropLength

/-- GAP_TIMEOUT, if it is due. -/
def Part.gapEvent (p : Part) : Part := p.eventWhen p.link.gapDue Part.dropGap

/-- A byte delivered to the framer: hunted for SOF, or the next byte of the frame, from whose end the gap is
measured (R153, R155). -/
def Part.takeByte (p : Part) (data : Byte) : Part :=
  match p.link.rx with
  | .hunting =>
    if data = sof then { p with link := { p.link with rx := .inFrame [], gap := some 0 } } else p
  | .inFrame bytes => { p with link := { p.link with rx := .inFrame (bytes ++ [data]), gap := some 0 } }

/-- The receiver accepts a start bit unless it awaits an idle line that has not come (R152). -/
def Link.accepts (k : Link) (idleBefore : Bool) : Bool := !k.awaitsIdle || idleBefore

/-- A start bit (R152, R155): accepted, it stops the measure of the gap, which no longer counts against the frame. In
the middle of a byte a LOW level is no start bit. -/
def Part.acceptStart (p : Part) (start : StartBit) : Part :=
  match start with
  | .none => p
  | .begins idleBefore =>
    if !p.link.receiving && p.link.accepts idleBefore then
      { p with link := { p.link with receiving := true, awaitsIdle := false, gap := none } }
    else p

/-- A byte on RXD (R152), whose start bit a TICK has brought or comes with it (Log 8): it is delivered at its stop bit,
whatever that bit's level, and a LOW stop bit makes the receiver await an idle line. A frame end or a length error that
the byte before brought is taken first. -/
def Part.receiveByte (p : Part) (data : Byte) (stopBit : Level) (idleBefore : Bool) : Part :=
  if p.link.receiving || p.link.accepts idleBefore then
    let q := p.lengthEvent.frameEvent.takeByte data
    { q with link := { q.link with receiving := false, awaitsIdle := decide (stopBit = .low) } }
  else p

/-! ## Resets -/

/-- A reset begins: every block takes its reset values, and the cause is recorded (R169). -/
def Part.beginReset (p : Part) (cause : ResetCause) (clocks : Nat) (pin : Level) : Part :=
  Part.atReset cause p.link.straps Pins.allLow (.held clocks) pin

/-- RESETN goes LOW: it begins a reset with cause PIN, or extends the reset in progress and leaves its cause
(R169). -/
def Part.pinLow (p : Part) : Part :=
  if p.isRunning then p.beginReset .pin 0 .low else { p with resetPin := .low }

/-- A reset ends, RESETN being HIGH and a requested reset's time being over: straps and first samples are taken
(R169). -/
def Part.endReset (p : Part) (straps : Straps) (first : Pins) : Part :=
  if p.resetPhase = .held 0 then Part.atReset p.link.resetCause straps first .ended .high else p

/-! ## Transmitter -/

/-- The transmitter finishes its frame (R164); the end of the reply to a RESET begins the reset (R168). -/
def Part.finishFrame (p : Part) : Part :=
  match p.link.tx with
  | none => p
  | some f =>
    if f.resets then p.beginReset .request Config.resetClocks p.resetPin
    else { p with link := { p.link with tx := none } }

/-! ## Inputs -/

/-- The direction of an edge to this level (R114). -/
def edgeTo : Level → Direction
  | .high => .rise
  | .low => .fall

/-- A qualified edge of input `i`: the qualified level becomes the sample, and an admitted edge is delivered (R114,
R115). -/
def Part.takeEdge (p : Part) (i : Fin 4) : Part :=
  let t := p.trigger i
  let d := edgeTo t.sample
  let q := p.setTrigger i { t with qualified := t.sample }
  if t.edges.admits d then q.deliverEdge i d false else q

/-- TRIGGER_EDGE, if it is due. -/
def Part.edgeEvent (p : Part) (i : Fin 4) : Part := p.eventWhen (p.trigger i).edgeDue (fun q => q.takeEdge i)

/-- A change of input `i` to its active level is due (R135). -/
def FaultInput.activeDue (f : FaultInput) : Bool := f.due && decide (f.sample = f.activeLevel)

/-- A change of input `i` to its inactive level is due (R135). -/
def FaultInput.inactiveDue (f : FaultInput) : Bool := f.due && decide (f.sample ≠ f.activeLevel)

/-- A qualification to active: the qualified level, then what the mode asks (R135, R136). -/
def Part.qualifyActive (p : Part) (i : Fin 4) : Part := (p.qualifyFault i).faultActs i

/-- FAULT_QUALIFY_ACTIVE, if it is due. -/
def Part.activeEvent (p : Part) (i : Fin 4) : Part :=
  p.eventWhen (p.fault i).activeDue (fun q => q.qualifyActive i)

/-- FAULT_QUALIFY_INACTIVE, if it is due. -/
def Part.inactiveEvent (p : Part) (i : Fin 4) : Part :=
  p.eventWhen (p.fault i).inactiveDue (fun q => q.qualifyFault i)

/-! ## Lanes and timers -/

/-- PERIOD_BOUNDARY, if it is due. -/
def Part.boundaryEvent (p : Part) (l : Fin 6) : Part :=
  p.eventWhen (p.lane l).boundaryDue (fun q => q.boundary l)

/-- JOIN, if it is due. -/
def Part.joinEvent (p : Part) (l : Fin 6) : Part := p.eventWhen (p.lane l).joinDue (fun q => q.join l)

/-- HELD_BOUNDARY, if it is due: a new held period of a STARVED lane (R68), or, when an APPEND has let the lane go on,
the join at the tick after the held period (R70, Log 6). -/
def Part.heldEvent (p : Part) (l : Fin 6) : Part :=
  if (p.lane l).playsHeld && (p.lane l).joinDue then p.event (fun q => q.join l)
  else p.eventWhen (p.lane l).heldDue (fun q => q.beginHeld l)

/-- SOFT_STOP_COMPLETE, if it is due. -/
def Part.stopEvent (p : Part) (l : Fin 6) : Part := p.eventWhen (p.lane l).stopDue (fun q => q.completeStop l)

/-- BARRIER_TIMEOUT, if it is due. -/
def Part.timeoutEvent (p : Part) (b : Fin 4) : Part :=
  p.eventWhen ((p.barrier b).timeoutDue p.now) (fun q => q.timeOutBarrier b)

/-- The lanes whose link-loss policy is STOP (R81). -/
def Part.linkLossLanes (p : Part) : LaneSet := laneSetOf (fun l => (p.lane l).linkLoss = .stop)

/-- The channel enters STALLED, and the lanes whose policy asks for it are given a soft stop (R183, R81), in ascending
lane number: the model's choice (Log 31). -/
def Part.stallChannel (p : Part) : Part :=
  forLanes p.linkLossLanes (fun l q => q.softStop l .linkLoss) { p with notif := p.notif.stall }

/-- The retransmit timer runs out (R181). -/
def Part.expire (p : Part) : Part :=
  if p.notif.expiries + 1 < p.link.stallLimit then
    ({ p with notif := p.notif.markAll p.link.interval }).countRetransmit
  else p.stallChannel

/-- RETRANSMIT_TIMEOUT, if it is due. -/
def Part.expiryEvent (p : Part) : Part := p.eventWhen p.notif.timerDue Part.expire

/-- DELAYED_ACTIVATION of an output line, if it is due. -/
def Part.activationEvent (p : Part) (o : Fin 6) : Part :=
  p.eventWhen (p.delayedActivationDue o) (fun q => q.takeActivation o)

/-! ## The tick -/

/-- Whichever of its own events lane `l` has due. -/
def Part.laneEvents (p : Part) (l : Fin 6) : Part := (((p.boundaryEvent l).joinEvent l).heldEvent l).stopEvent l

/-- The events that are due in the tick that ends and have not been taken, in a fixed order (Log 2). -/
def Part.takeDue (p : Part) : Part :=
  let p := p.lengthEvent.frameEvent
  let p := allFour.foldl (fun q i => q.edgeEvent i) p
  let p := allFour.foldl (fun q i => (q.activeEvent i).inactiveEvent i) p
  let p := allLanes.foldl (fun q l => q.laneEvents l) p
  let p := allFour.foldl (fun q b => q.timeoutEvent b) p
  let p := p.expiryEvent
  let p := p.gapEvent
  allLanes.foldl (fun q o => q.activationEvent o) p

/-- A lane one tick on in its period. -/
def Lane.advance (x : Lane) : Lane :=
  { x with period := x.period.map (fun q => { q with phase := q.phase + 1 }) }

/-- A trigger input with a new tick's sample (R114). -/
def TriggerInput.takeSample (t : TriggerInput) (s : Level) : TriggerInput :=
  { t with previous := t.sample, sample := s }

/-- A fault input with a new tick's sample: the run count, and whether the sample completes the filter (R135). -/
def FaultInput.takeSample (f : FaultInput) (s : Level) : FaultInput :=
  if s = f.qualified then { f with sample := s, run := 0, due := false }
  else { f with sample := s, run := f.run + 1, due := decide (f.filter ≤ f.run + 1) }

/-- The timebase one tick on (R2, R3). -/
def Timebase.advance (t : Timebase) : Timebase := { t with count := t.count + 1, tickLength := t.prescale }

/-- The timers of the link after some core clocks (R155, R180). -/
def Part.advanceTimers (p : Part) (clocks : Nat) : Part :=
  { p with notif := { p.notif with timer := p.notif.timer.map (fun n => n - clocks) },
           link := { p.link with gap := p.link.gap.map (fun n => n + clocks) } }

/-- The samples of a tick (R1). -/
def Part.takeSamples (p : Part) (s : Pins) : Part :=
  { p with
    triggers := #v[(p.trigger 0).takeSample (pinLevel s.trg 0), (p.trigger 1).takeSample (pinLevel s.trg 1),
                   (p.trigger 2).takeSample (pinLevel s.trg 2), (p.trigger 3).takeSample (pinLevel s.trg 3)]
    faults := #v[(p.fault 0).takeSample (pinLevel s.flt 0), (p.fault 1).takeSample (pinLevel s.flt 1),
                 (p.fault 2).takeSample (pinLevel s.flt 2), (p.fault 3).takeSample (pinLevel s.flt 3)]
    sensePins := s.sns }

/-- The end of a tick and the samples of the next (R2): the lines' requested levels are handed on, the timers and the
tick counter advance, every period in progress is one tick on, and the inputs are sampled. -/
def Part.nextTick (p : Part) (s : Pins) : Part :=
  let q := p.advanceTimers p.timebase.tickLength.clocks
  { q.takeSamples s with
    timebase := p.timebase.advance
    pairs := #v[(p.pair 0).closeTick, (p.pair 1).closeTick, (p.pair 2).closeTick]
    lanes := #v[(p.lane 0).advance, (p.lane 1).advance, (p.lane 2).advance, (p.lane 3).advance,
                (p.lane 4).advance, (p.lane 5).advance] }

/-- A tick while a reset lasts: only the time of a requested reset passes (R169). -/
def Part.resetTick (p : Part) : Part :=
  match p.resetPhase with
  | .held n => { p with resetPhase := .held (n - p.timebase.tickLength.clocks) }
  | .ended => p

/-- TICK: a start bit of the tick that ends is taken, then the events still due, then the tick ends and the next begins.
A start bit in a reset is not accepted (R152). -/
def Part.tick (p : Part) (s : Pins) (start : StartBit) : Part :=
  if p.isRunning then ((p.acceptStart start).takeDue.nextTick s).settle else p.resetTick

/-! ## Commands over the machine state -/

/-- A command's effect on the part; the queue of waiting commands is not its concern. -/
def State.act (s : State) (f : Part → Part) : Host.Outcome State Fault Refusal := .next { s with part := f s.part }

/-- The payload of APPEND and PATTERN_DATA: the header byte, then twelve bytes for each segment (R192). -/
def segmentsPayload (header : Byte) (segments : List RawSegment) : List Byte :=
  header :: segments.flatMap (fun r => r.toList)

end Sys2Proof.Machine
end

