-- ==== Sys2Proof/Machine/ClockCommands.lean ====
section
/-! DEFINITION. The meanings of the resets, the tick, and what runs out with time. -/

namespace Sys2Proof.Machine

/-- POWER_ON_RESET (R169). -/
def execPowerOnReset (s : State) : Host.Outcome State Fault Refusal :=
  s.act (fun p => p.beginReset .powerOn 0 p.resetPin)

/-- PIN_RESET (R169). -/
def execPinReset (s : State) : Host.Outcome State Fault Refusal :=
  s.act (fun p => p.pinLow)

/-- RESET_END (R169). -/
def execResetEnd (straps : Straps) (first : Pins) (s : State) : Host.Outcome State Fault Refusal :=
  s.act (fun p => p.endReset straps first)

/-- TICK (R2). -/
def execTick (inputs : TickInputs) (s : State) : Host.Outcome State Fault Refusal :=
  s.act (fun p => p.tick inputs.samples inputs.start)

/-- DELAYED_ACTIVATION (R10). -/
def execDelayedActivation (line : Fin 6) (s : State) : Host.Outcome State Fault Refusal :=
  s.act (fun p => p.activationEvent line)

/-- RETRANSMIT_TIMEOUT (R181). -/
def execRetransmitTimeout (s : State) : Host.Outcome State Fault Refusal :=
  s.act (fun p => p.expiryEvent)

end Sys2Proof.Machine
end

