-- ==== Sys2Proof/Machine/InputCommands.lean ====
section
/-! DEFINITION. The meanings of the trigger, barrier and fault requests as they arrive, and of the events of inputs and barriers. -/

namespace Sys2Proof.Machine

/-- SET_TRIGGER (R116). -/
def execSetTrigger (seq : Byte) (input edges capture : Byte) (s : State) : Host.Outcome State Fault Refusal :=
  s.act (fun p => p.receiveRequest .setTrigger seq [input, edges, capture])

/-- FIRE_TRIGGER (R119). -/
def execFireTrigger (seq : Byte) (input : Byte) (s : State) : Host.Outcome State Fault Refusal :=
  s.act (fun p => p.receiveRequest .fireTrigger seq [input])

/-- GET_TRIGGERS (R121). -/
def execGetTriggers (seq : Byte) (s : State) : Host.Outcome State Fault Refusal :=
  s.act (fun p => p.receiveRequest .getTriggers seq [])

/-- SET_BARRIER (R132). -/
def execSetBarrier (seq : Byte) (barrier members mode trigger : Byte) (timeout : Word16) (action : Byte) (s : State) : Host.Outcome State Fault Refusal :=
  s.act (fun p => p.receiveRequest .setBarrier seq (barrier :: members :: mode :: trigger :: (bytes16 timeout ++ [action])))

/-- RELEASE_BARRIER (R130). -/
def execReleaseBarrier (seq : Byte) (barrier : Byte) (s : State) : Host.Outcome State Fault Refusal :=
  s.act (fun p => p.receiveRequest .releaseBarrier seq [barrier])

/-- GET_BARRIER (R133). -/
def execGetBarrier (seq : Byte) (barrier : Byte) (s : State) : Host.Outcome State Fault Refusal :=
  s.act (fun p => p.receiveRequest .getBarrier seq [barrier])

/-- SET_FAULT (R148, R149). -/
def execSetFault (seq : Byte) (input activeLevel filter mode lanes : Byte) (s : State) : Host.Outcome State Fault Refusal :=
  s.act (fun p => p.receiveRequest .setFault seq [input, activeLevel, filter, mode, lanes])

/-- CLEAR_FAULT (R145, R146). -/
def execClearFault (seq : Byte) (inputs : Byte) (s : State) : Host.Outcome State Fault Refusal :=
  s.act (fun p => p.receiveRequest .clearFault seq [inputs])

/-- GET_FAULTS (R150). -/
def execGetFaults (seq : Byte) (s : State) : Host.Outcome State Fault Refusal :=
  s.act (fun p => p.receiveRequest .getFaults seq [])

/-- TRIGGER_EDGE (R114, R115, R117). -/
def execTriggerEdge (input : Fin 4) (s : State) : Host.Outcome State Fault Refusal :=
  s.act (fun p => p.edgeEvent input)

/-- FAULT_QUALIFY_ACTIVE (R135, R136); in mode OFF the live state changes and nothing else. -/
def execFaultQualifyActive (input : Fin 4) (s : State) : Host.Outcome State Fault Refusal :=
  s.act (fun p => p.activeEvent input)

/-- FAULT_QUALIFY_INACTIVE (R135). -/
def execFaultQualifyInactive (input : Fin 4) (s : State) : Host.Outcome State Fault Refusal :=
  s.act (fun p => p.inactiveEvent input)

/-- BARRIER_TIMEOUT (R129). -/
def execBarrierTimeout (barrier : Fin 4) (s : State) : Host.Outcome State Fault Refusal :=
  s.act (fun p => p.timeoutEvent barrier)

end Sys2Proof.Machine
end

