-- ==== Sys2Proof/Machine/LaneCommands.lean ====
section
/-! DEFINITION. The meanings of the lane requests as they arrive, and of the events of lanes. -/

namespace Sys2Proof.Machine

/-- APPEND (R50, R51, R69, R70). -/
def execAppend (seq : Byte) (lane : Byte) (segments : List RawSegment) (s : State) : Host.Outcome State Fault Refusal :=
  s.act (fun p => p.receiveRequest .append seq (segmentsPayload lane segments))

/-- START (R58 to R60, R197). -/
def execStart (seq : Byte) (lanes source : Byte) (s : State) : Host.Outcome State Fault Refusal :=
  s.act (fun p => p.receiveRequest .start seq [lanes, source])

/-- STOP (R73 to R79, R198). -/
def execStop (seq : Byte) (lanes kind : Byte) (s : State) : Host.Outcome State Fault Refusal :=
  s.act (fun p => p.receiveRequest .stop seq [lanes, kind])

/-- SET_LANE (R84). -/
def execSetLane (seq : Byte) (lane policy : Byte) (mark : Word16) (linkLoss : Byte) (s : State) : Host.Outcome State Fault Refusal :=
  s.act (fun p => p.receiveRequest .setLane seq (lane :: policy :: (bytes16 mark ++ [linkLoss])))

/-- GET_LANE (R85). -/
def execGetLane (seq : Byte) (lane : Byte) (s : State) : Host.Outcome State Fault Refusal :=
  s.act (fun p => p.receiveRequest .getLane seq [lane])

/-- TRIM (R89, R90). -/
def execTrim (seq : Byte) (lane altFlag : Byte) (onTime alternate : Word16) (s : State) : Host.Outcome State Fault Refusal :=
  s.act (fun p => p.receiveRequest .trim seq (lane :: altFlag :: (bytes16 onTime ++ bytes16 alternate)))

/-- PERIOD_BOUNDARY (R88). -/
def execPeriodBoundary (lane : Fin 6) (s : State) : Host.Outcome State Fault Refusal :=
  s.act (fun p => p.boundaryEvent lane)

/-- JOIN (R29). -/
def execJoin (lane : Fin 6) (s : State) : Host.Outcome State Fault Refusal :=
  s.act (fun p => p.joinEvent lane)

/-- HELD_BOUNDARY (R68, R70). -/
def execHeldBoundary (lane : Fin 6) (s : State) : Host.Outcome State Fault Refusal :=
  s.act (fun p => p.heldEvent lane)

/-- SOFT_STOP_COMPLETE (R75). -/
def execSoftStopComplete (lane : Fin 6) (s : State) : Host.Outcome State Fault Refusal :=
  s.act (fun p => p.stopEvent lane)

end Sys2Proof.Machine
end

