-- ==== Sys2Proof/Machine/LinkCommands.lean ====
section
/-! DEFINITION. The meanings of the commands of the link and its settings: the link, timebase and pair requests as they arrive, and
the events of the receiver and the transmitter. -/

namespace Sys2Proof.Machine

/-- SYNC (R165): the request arrives; executed, the link is SYNCED and the channel restarted. -/
def execSync (seq : Byte) (s : State) : Host.Outcome State Fault Refusal :=
  s.act (fun p => p.receiveRequest .sync seq [])

/-- RESET (R168): the request arrives; executed, its reply is placed and dispatching stops. -/
def execReset (seq : Byte) (s : State) : Host.Outcome State Fault Refusal :=
  s.act (fun p => p.receiveRequest .reset seq [])

/-- GET_STATUS (R167). -/
def execGetStatus (seq : Byte) (s : State) : Host.Outcome State Fault Refusal :=
  s.act (fun p => p.receiveRequest .getStatus seq [])

/-- GET_LINK_STATS (R159). -/
def execGetLinkStats (seq : Byte) (clear : Byte) (s : State) : Host.Outcome State Fault Refusal :=
  s.act (fun p => p.receiveRequest .getLinkStats seq [clear])

/-- SET_LINK_TIMING (R166). -/
def execSetLinkTiming (seq : Byte) (interval limit : Byte) (s : State) : Host.Outcome State Fault Refusal :=
  s.act (fun p => p.receiveRequest .setLinkTiming seq [interval, limit])

/-- SET_TIMEBASE (R3). -/
def execSetTimebase (seq : Byte) (prescale : Byte) (s : State) : Host.Outcome State Fault Refusal :=
  s.act (fun p => p.receiveRequest .setTimebase seq [prescale])

/-- SET_PAIR (R14 to R16). -/
def execSetPair (seq : Byte) (pair mode deadA deadB topPolarity bottomPolarity topSafe bottomSafe : Byte) (s : State) : Host.Outcome State Fault Refusal :=
  s.act (fun p => p.receiveRequest .setPair seq [pair, mode, deadA, deadB, topPolarity, bottomPolarity, topSafe, bottomSafe])

/-- UNKNOWN_REQUEST (R160 step 3): a request frame of any code arrives; taken, a code that names no request is answered
UNKNOWN_REQUEST and enters the reply cache. -/
def execUnknownRequest (seq code : Byte) (payload : List Byte) (s : State) : Host.Outcome State Fault Refusal :=
  s.act (fun p => p.event (fun q => q.bufferRequest (requestFrame seq code payload)))

/-- FRAME_COMPLETE (R153, R156, R157): at the end of the last CRC byte the frame is checked and sorted. -/
def execFrameComplete (s : State) : Host.Outcome State Fault Refusal :=
  s.act (fun p => p.frameEvent)

/-- LENGTH_ERROR (R154). -/
def execLengthError (s : State) : Host.Outcome State Fault Refusal :=
  s.act (fun p => p.lengthEvent)

/-- GAP_TIMEOUT (R155). -/
def execGapTimeout (s : State) : Host.Outcome State Fault Refusal :=
  s.act (fun p => p.gapEvent)

/-- FRAME_SENT (R164, R168): the transmitter finishes a frame and is given to the next. -/
def execFrameSent (s : State) : Host.Outcome State Fault Refusal :=
  s.act (fun p => p.event Part.finishFrame)

/-- BYTE_RECEIVED (R152, R153, R155). -/
def execByteReceived (data : Byte) (stopBit : Level) (idleBefore : Bool) (s : State) : Host.Outcome State Fault Refusal :=
  s.act (fun p => p.event (fun q => q.receiveByte data stopBit idleBefore))

end Sys2Proof.Machine
end

