-- ==== Sys2Proof/Machine/StoreCommands.lean ====
section
/-! DEFINITION. The meanings of the region and pattern requests as they arrive. -/

namespace Sys2Proof.Machine

/-- DEFINE_REGION (R37, R38). -/
def execDefineRegion (seq : Byte) (region : Byte) (start size : Word16) (s : State) : Host.Outcome State Fault Refusal :=
  s.act (fun p => p.receiveRequest .defineRegion seq (region :: (bytes16 start ++ bytes16 size)))

/-- DELETE_REGION (R39). -/
def execDeleteRegion (seq : Byte) (region : Byte) (s : State) : Host.Outcome State Fault Refusal :=
  s.act (fun p => p.receiveRequest .deleteRegion seq [region])

/-- BIND_REGION (R40, R41). -/
def execBindRegion (seq : Byte) (region kind target : Byte) (s : State) : Host.Outcome State Fault Refusal :=
  s.act (fun p => p.receiveRequest .bindRegion seq [region, kind, target])

/-- UNBIND_REGION (R42, R43). -/
def execUnbindRegion (seq : Byte) (region : Byte) (s : State) : Host.Outcome State Fault Refusal :=
  s.act (fun p => p.receiveRequest .unbindRegion seq [region])

/-- CLEAR_REGION (R44, R45). -/
def execClearRegion (seq : Byte) (region : Byte) (s : State) : Host.Outcome State Fault Refusal :=
  s.act (fun p => p.receiveRequest .clearRegion seq [region])

/-- GET_REGIONS (R46). -/
def execGetRegions (seq : Byte) (s : State) : Host.Outcome State Fault Refusal :=
  s.act (fun p => p.receiveRequest .getRegions seq [])

/-- PATTERN_BEGIN (R102). -/
def execPatternBegin (seq : Byte) (pattern : Byte) (s : State) : Host.Outcome State Fault Refusal :=
  s.act (fun p => p.receiveRequest .patternBegin seq [pattern])

/-- PATTERN_DATA (R103). -/
def execPatternData (seq : Byte) (pattern : Byte) (segments : List RawSegment) (s : State) : Host.Outcome State Fault Refusal :=
  s.act (fun p => p.receiveRequest .patternData seq (segmentsPayload pattern segments))

/-- PATTERN_END (R104). -/
def execPatternEnd (seq : Byte) (pattern : Byte) (s : State) : Host.Outcome State Fault Refusal :=
  s.act (fun p => p.receiveRequest .patternEnd seq [pattern])

/-- PATTERN_DISCARD (R105). -/
def execPatternDiscard (seq : Byte) (pattern : Byte) (s : State) : Host.Outcome State Fault Refusal :=
  s.act (fun p => p.receiveRequest .patternDiscard seq [pattern])

/-- GET_PATTERNS (R112). -/
def execGetPatterns (seq : Byte) (s : State) : Host.Outcome State Fault Refusal :=
  s.act (fun p => p.receiveRequest .getPatterns seq [])

end Sys2Proof.Machine
end

