-- ==== Sys2Proof/Machine/Dispatch.lean ====
section
/-! DEFINITION. One arm per command: the meaning of each. -/

namespace Sys2Proof.Machine

def exec (i : Instr) (s : State) : Host.Outcome State Fault Refusal :=
  match i with
  | .sync seq => Sys2Proof.Machine.execSync seq s
  | .reset seq => Sys2Proof.Machine.execReset seq s
  | .getStatus seq => Sys2Proof.Machine.execGetStatus seq s
  | .getLinkStats seq clear => Sys2Proof.Machine.execGetLinkStats seq clear s
  | .setLinkTiming seq interval limit => Sys2Proof.Machine.execSetLinkTiming seq interval limit s
  | .setTimebase seq prescale => Sys2Proof.Machine.execSetTimebase seq prescale s
  | .setPair seq pair mode deadA deadB topPolarity bottomPolarity topSafe bottomSafe => Sys2Proof.Machine.execSetPair seq pair mode deadA deadB topPolarity bottomPolarity topSafe bottomSafe s
  | .defineRegion seq region start size => Sys2Proof.Machine.execDefineRegion seq region start size s
  | .deleteRegion seq region => Sys2Proof.Machine.execDeleteRegion seq region s
  | .bindRegion seq region kind target => Sys2Proof.Machine.execBindRegion seq region kind target s
  | .unbindRegion seq region => Sys2Proof.Machine.execUnbindRegion seq region s
  | .clearRegion seq region => Sys2Proof.Machine.execClearRegion seq region s
  | .getRegions seq => Sys2Proof.Machine.execGetRegions seq s
  | .append seq lane segments => Sys2Proof.Machine.execAppend seq lane segments s
  | .start seq lanes source => Sys2Proof.Machine.execStart seq lanes source s
  | .stop seq lanes kind => Sys2Proof.Machine.execStop seq lanes kind s
  | .setLane seq lane policy mark linkLoss => Sys2Proof.Machine.execSetLane seq lane policy mark linkLoss s
  | .getLane seq lane => Sys2Proof.Machine.execGetLane seq lane s
  | .trim seq lane altFlag onTime alternate => Sys2Proof.Machine.execTrim seq lane altFlag onTime alternate s
  | .patternBegin seq pattern => Sys2Proof.Machine.execPatternBegin seq pattern s
  | .patternData seq pattern segments => Sys2Proof.Machine.execPatternData seq pattern segments s
  | .patternEnd seq pattern => Sys2Proof.Machine.execPatternEnd seq pattern s
  | .patternDiscard seq pattern => Sys2Proof.Machine.execPatternDiscard seq pattern s
  | .getPatterns seq => Sys2Proof.Machine.execGetPatterns seq s
  | .setTrigger seq input edges capture => Sys2Proof.Machine.execSetTrigger seq input edges capture s
  | .fireTrigger seq input => Sys2Proof.Machine.execFireTrigger seq input s
  | .getTriggers seq => Sys2Proof.Machine.execGetTriggers seq s
  | .setBarrier seq barrier members mode trigger timeout action => Sys2Proof.Machine.execSetBarrier seq barrier members mode trigger timeout action s
  | .releaseBarrier seq barrier => Sys2Proof.Machine.execReleaseBarrier seq barrier s
  | .getBarrier seq barrier => Sys2Proof.Machine.execGetBarrier seq barrier s
  | .setFault seq input activeLevel filter mode lanes => Sys2Proof.Machine.execSetFault seq input activeLevel filter mode lanes s
  | .clearFault seq inputs => Sys2Proof.Machine.execClearFault seq inputs s
  | .getFaults seq => Sys2Proof.Machine.execGetFaults seq s
  | .unknownRequest seq code payload => Sys2Proof.Machine.execUnknownRequest seq code payload s
  | .frameComplete => Sys2Proof.Machine.execFrameComplete s
  | .lengthError => Sys2Proof.Machine.execLengthError s
  | .gapTimeout => Sys2Proof.Machine.execGapTimeout s
  | .frameSent => Sys2Proof.Machine.execFrameSent s
  | .powerOnReset => Sys2Proof.Machine.execPowerOnReset s
  | .pinReset => Sys2Proof.Machine.execPinReset s
  | .resetEnd straps first => Sys2Proof.Machine.execResetEnd straps first s
  | .triggerEdge input => Sys2Proof.Machine.execTriggerEdge input s
  | .faultQualifyActive input => Sys2Proof.Machine.execFaultQualifyActive input s
  | .faultQualifyInactive input => Sys2Proof.Machine.execFaultQualifyInactive input s
  | .periodBoundary lane => Sys2Proof.Machine.execPeriodBoundary lane s
  | .join lane => Sys2Proof.Machine.execJoin lane s
  | .heldBoundary lane => Sys2Proof.Machine.execHeldBoundary lane s
  | .softStopComplete lane => Sys2Proof.Machine.execSoftStopComplete lane s
  | .barrierTimeout barrier => Sys2Proof.Machine.execBarrierTimeout barrier s
  | .retransmitTimeout => Sys2Proof.Machine.execRetransmitTimeout s
  | .byteReceived data stopBit idleBefore => Sys2Proof.Machine.execByteReceived data stopBit idleBefore s
  | .tick inputs => Sys2Proof.Machine.execTick inputs s
  | .delayedActivation line => Sys2Proof.Machine.execDelayedActivation line s

end Sys2Proof.Machine
end

