-- ==== Sys2Proof/Safety.lean ====
section
/-! DEFINITION. The words in which the statements about the part are said: the frame a request command brings, the
states in which the dispatcher takes a request at its arrival, what taking it with a reply means, and the laws of the
manual that every step keeps. -/

namespace Sys2Proof.Machine

/-! ## Requests as frames -/

/-- The request frame that a request command brings (R188, R192); an event brings none. -/
def requestOf : Instr → Option RequestFrame
  | .sync seq => some (requestFrame seq (requestCode .sync) [])
  | .reset seq => some (requestFrame seq (requestCode .reset) [])
  | .getStatus seq => some (requestFrame seq (requestCode .getStatus) [])
  | .getLinkStats seq clear => some (requestFrame seq (requestCode .getLinkStats) [clear])
  | .setLinkTiming seq interval limit => some (requestFrame seq (requestCode .setLinkTiming) [interval, limit])
  | .setTimebase seq prescale => some (requestFrame seq (requestCode .setTimebase) [prescale])
  | .setPair seq pair mode deadA deadB topPolarity bottomPolarity topSafe bottomSafe =>
    some (requestFrame seq (requestCode .setPair)
      [pair, mode, deadA, deadB, topPolarity, bottomPolarity, topSafe, bottomSafe])
  | .defineRegion seq region start size =>
    some (requestFrame seq (requestCode .defineRegion) (region :: (bytes16 start ++ bytes16 size)))
  | .deleteRegion seq region => some (requestFrame seq (requestCode .deleteRegion) [region])
  | .bindRegion seq region kind target => some (requestFrame seq (requestCode .bindRegion) [region, kind, target])
  | .unbindRegion seq region => some (requestFrame seq (requestCode .unbindRegion) [region])
  | .clearRegion seq region => some (requestFrame seq (requestCode .clearRegion) [region])
  | .getRegions seq => some (requestFrame seq (requestCode .getRegions) [])
  | .append seq lane segments => some (requestFrame seq (requestCode .append) (segmentsPayload lane segments))
  | .start seq lanes source => some (requestFrame seq (requestCode .start) [lanes, source])
  | .stop seq lanes kind => some (requestFrame seq (requestCode .stop) [lanes, kind])
  | .setLane seq lane policy mark linkLoss =>
    some (requestFrame seq (requestCode .setLane) (lane :: policy :: (bytes16 mark ++ [linkLoss])))
  | .getLane seq lane => some (requestFrame seq (requestCode .getLane) [lane])
  | .trim seq lane altFlag onTime alternate =>
    some (requestFrame seq (requestCode .trim) (lane :: altFlag :: (bytes16 onTime ++ bytes16 alternate)))
  | .patternBegin seq pattern => some (requestFrame seq (requestCode .patternBegin) [pattern])
  | .patternData seq pattern segments =>
    some (requestFrame seq (requestCode .patternData) (segmentsPayload pattern segments))
  | .patternEnd seq pattern => some (requestFrame seq (requestCode .patternEnd) [pattern])
  | .patternDiscard seq pattern => some (requestFrame seq (requestCode .patternDiscard) [pattern])
  | .getPatterns seq => some (requestFrame seq (requestCode .getPatterns) [])
  | .setTrigger seq input edges capture =>
    some (requestFrame seq (requestCode .setTrigger) [input, edges, capture])
  | .fireTrigger seq input => some (requestFrame seq (requestCode .fireTrigger) [input])
  | .getTriggers seq => some (requestFrame seq (requestCode .getTriggers) [])
  | .setBarrier seq barrier members mode trigger timeout action =>
    some (requestFrame seq (requestCode .setBarrier)
      (barrier :: members :: mode :: trigger :: (bytes16 timeout ++ [action])))
  | .releaseBarrier seq barrier => some (requestFrame seq (requestCode .releaseBarrier) [barrier])
  | .getBarrier seq barrier => some (requestFrame seq (requestCode .getBarrier) [barrier])
  | .setFault seq input activeLevel filter mode lanes =>
    some (requestFrame seq (requestCode .setFault) [input, activeLevel, filter, mode, lanes])
  | .clearFault seq inputs => some (requestFrame seq (requestCode .clearFault) [inputs])
  | .getFaults seq => some (requestFrame seq (requestCode .getFaults) [])
  | .unknownRequest seq code payload => some (requestFrame seq code payload)
  | .frameComplete | .lengthError | .gapTimeout | .frameSent | .powerOnReset | .pinReset | .resetEnd _ _
  | .triggerEdge _ | .faultQualifyActive _ | .faultQualifyInactive _ | .periodBoundary _ | .join _
  | .heldBoundary _ | .softStopComplete _ | .barrierTimeout _ | .retransmitTimeout | .byteReceived _ _ _
  | .tick _ | .delayedActivation _ => none

/-! ## Taking a request at its arrival -/

/-- A request frame that arrives now is taken at once: no reset is in progress, dispatching has not stopped, no
request waits before it and the reply slot is empty (R160), and its SEQ is not that of the cached request (R162). -/
def Part.DispatcherFree (p : Part) (seq : Byte) : Prop :=
  p.resetPhase = .ended ∧ p.link.dispatchStopped = false ∧ p.link.buffer = [] ∧ p.link.slot = none ∧
    ∀ c, p.link.cache = some c → c.seq ≠ seq

/-- The dispatcher is free and the link SYNCED, so that every check before those of the request itself passes. -/
def Part.Ready (p : Part) (seq : Byte) : Prop := p.DispatcherFree seq ∧ p.link.synced = true

/-- The part with the reply of a request: in the reply cache, and begun by the transmitter where that is free, in the
reply slot where it is not (R162, R164). -/
def Part.replied (p : Part) (f : RequestFrame) (a : Answer) : Part :=
  let r := f.reply a false
  { p with link := { p.link with
      cache := some { seq := f.seq, crc := f.crc, reply := r },
      slot := if p.link.tx.isSome then some r else none,
      tx := if p.link.tx.isSome then p.link.tx else some r.frame } }

/-- The command `c` takes the part to `q`; the waiting commands are left alone. -/
def Becomes (c : Instr) (s : State) (q : Part) : Prop := exec c s = .next { s with part := q }

/-- The request command `c` takes the part to `q`, with the answer `a` as its reply, and every line is then where its
lane drives it; the waiting commands are left alone. -/
def Takes (c : Instr) (s : State) (q : Part) (a : Answer) : Prop :=
  ∃ f, requestOf c = some f ∧ Becomes c s (q.replied f a).driveLines

/-- The command `c` takes the part to `q`; the dispatcher and the arbiter then act on what waits for them, and every
line is where its lane drives it. The waiting commands are left alone. -/
def Does (c : Instr) (s : State) (q : Part) : Prop := Becomes c s q.settle

/-- The request command `c` is refused with this status and detail and leaves every block as it was (R160). -/
def Refuses (c : Instr) (s : State) (status : Status) (detail : Byte) : Prop :=
  Takes c s s.part { status := status, detail := detail, body := [] }

/-- An OK reply with this payload. -/
def okWith (body : List Byte) : Answer := { status := .ok, detail := 0, body := body }

/-! ## The laws -/

/-- In a complementary pair the top and bottom lines are never both at their active level (R12). -/
def Pair.NeverBothActive (x : Pair) : Prop :=
  x.mode = .complementary →
    ¬(x.top.level = x.top.polarity.level true ∧ x.bottom.level = x.bottom.polarity.level true)

/-- R12's law for the three pairs. -/
def Part.NeverBothActive (p : Part) : Prop := ∀ k, (p.pair k).NeverBothActive

/-- The notification queue holds at most 32 entries, at most 4 of them IN_FLIGHT, and the IN_FLIGHT entries are the
oldest (R175). -/
def NotificationUnit.QueueLaw (u : NotificationUnit) : Prop :=
  u.queue.length ≤ Config.queueCapacity ∧ inFlightCount u.queue ≤ Config.window ∧
    ∃ older newer, u.queue = older ++ newer ∧ (∀ e ∈ older, e.inFlight = true) ∧ ∀ e ∈ newer, e.status = .pending

/-- The IN_FLIGHT entries, oldest first, hold the numbers that end just before the next one, each greater by 1 than
the one before it (R176). -/
def NotificationUnit.NumberLaw (u : NotificationUnit) : Prop :=
  ∃ older newer, u.queue = older ++ newer ∧ (∀ e ∈ newer, e.status = .pending) ∧
    ∀ i (h : i < older.length), ∃ mark,
      (older[i]).status = .inFlight (u.nextNumber - BitVec.ofNat 8 (older.length - i)) mark

/-- Defined regions lie in the store and share no slot (R36); queue and pattern fit in their region (R48, R47); a
region holds only what its binding gives it a use for, and an undefined descriptor is empty (R36). -/
def Part.RegionLaw (p : Part) : Prop :=
  (∀ r, if (p.region r).defined then
      4 ≤ (p.region r).size ∧ (p.region r).start + (p.region r).size ≤ Config.slots ∧
      (p.region r).head < (p.region r).size ∧ (p.region r).count ≤ (p.region r).size ∧
      (p.region r).loaded ≤ (p.region r).size ∧
      ((∀ l, (p.region r).binding ≠ .lane l) → (p.region r).count = 0) ∧
      ((∀ k, (p.region r).binding ≠ .pattern k) → (p.region r).loaded = 0)
    else p.region r = Region.reset) ∧
  ∀ r r', r ≠ r' → (p.region r).defined → (p.region r').defined →
    (p.region r).start + (p.region r).size ≤ (p.region r').start ∨
    (p.region r').start + (p.region r').size ≤ (p.region r).start

/-- Slot `a` stands at a position of the queue or of the pattern that region `g` holds (R47, R48). -/
def Region.HoldsSlot (g : Region) (a : Nat) : Prop :=
  (∃ i, i < g.count ∧ a = g.queueSlot i) ∨ ∃ i, i < g.loaded ∧ a = g.start + i

/-- A slot holds a segment exactly where a queue or a pattern has a position (R35). -/
def Part.StoreLaw (p : Part) : Prop :=
  p.store.wf = true ∧ ∀ a, (p.store.read a).isSome = true ↔ ∃ r, (p.region r).HoldsSlot a

/-- No segment that offends was ever stored (R26, R18). -/
def Part.SegmentLaw (p : Part) : Prop := ∀ c ∈ p.store, c.2.inRange = true

/-- The arrived set lies within the member set (R123), and the timeout counter runs only while some lane waits and a
timeout is set (R128). -/
def Barrier.WaitLaw (b : Barrier) : Prop :=
  b.arrived &&& ~~~b.members = 0 ∧ (b.arrived = 0 → b.counter = none) ∧ (b.timeout = 0 → b.counter = none)

/-- A fault input in CYCLE or LATCH mode that is live ACTIVE has its sticky flag set (R138). -/
def FaultInput.StickyLaw (f : FaultInput) : Prop := f.mode ≠ .off → f.live = true → f.sticky = true

/-- The lanes of the arrived sets are exactly the WAITING lanes, and each of them is in one arrived set (R123). -/
def Part.WaitingLaw (p : Part) : Prop :=
  (∀ l, (p.lane l).state = .waiting ↔ ∃ b, inSet (p.barrier b).arrived l = true) ∧
  ∀ l b b', inSet (p.barrier b).arrived l = true → inSet (p.barrier b').arrived l = true → b = b'

/-- A lane inside a CALL is RUNNING or STOPPING and plays no held period (R107, R111); a held period is played by a lane
STARVED under HOLD, or by one that an APPEND or a soft stop has taken out of it (R68, R70, R75). -/
def Lane.PlayLaw (x : Lane) : Prop :=
  (x.call ≠ none → (x.state = .running ∨ x.state = .stopping) ∧ x.playsHeld = false) ∧
  (x.playsHeld = true → x.state = .running ∨ x.state = .stopping ∨ (x.state = .starved ∧ x.starve = .hold))

/-- The lane is inside a CALL to pattern `k`. -/
def Lane.calls (x : Lane) (k : Fin 8) : Bool :=
  match x.call with
  | some c => decide (c.pattern = k)
  | none => false

/-- The use count of a pattern is the number of lanes inside a CALL to it, and a pattern in use is READY (R101). -/
def Part.UseLaw (p : Part) : Prop :=
  ∀ k, (p.pattern k).useCount = allLanes.countP (fun l => (p.lane l).calls k) ∧
    (0 < (p.pattern k).useCount → (p.pattern k).state = .ready)

/-- A lane is HALTED exactly while its halt-source set is not empty, and each source is a LATCH input that is sticky and
maps the lane (R141). -/
def Part.HaltLaw (p : Part) : Prop :=
  ∀ l, ((p.lane l).state = .halted ↔ (p.lane l).haltSources ≠ 0) ∧
    ∀ i, inSet (p.lane l).haltSources i = true →
      (p.fault i).mode = .latch ∧ (p.fault i).sticky = true ∧ inSet (p.fault i).lanes l = true

/-- The laws that bind lanes to barriers, patterns and fault inputs. -/
def Part.LaneLaws (p : Part) : Prop :=
  p.WaitingLaw ∧ (∀ l, (p.lane l).PlayLaw) ∧ p.UseLaw ∧ p.HaltLaw

/-- All the laws together. -/
def Part.Laws (p : Part) : Prop :=
  p.NeverBothActive ∧ p.notif.QueueLaw ∧ p.notif.NumberLaw ∧ p.RegionLaw ∧ p.StoreLaw ∧
    p.SegmentLaw ∧ (∀ b, (p.barrier b).WaitLaw) ∧ (∀ i, (p.fault i).StickyLaw) ∧ p.LaneLaws

end Sys2Proof.Machine
end

