-- ==== Sys2Proof/WellFormed.lean ====
section
/-! DEFINITION. Well-formed commands: those whose request fits in a frame (R188: a payload has 0 to 240 bytes), and
an UNKNOWN_REQUEST whose code names no request. Event commands have operands of bounded types and no check. -/

namespace Sys2Proof

/-- Bytes a payload may hold (R188). -/
abbrev maxPayload : Nat := 240

/-- A header byte and `n` segments of twelve bytes fit in a payload (R192, R188). -/
def segmentsFit (segments : List RawSegment) : Bool :=
  1 + 12 * segments.length ≤ maxPayload

/-- The command can be sent as it stands. -/
def Instr.wf : Instr → Bool
  | .append _ _ segments => segmentsFit segments
  | .patternData _ _ segments => segmentsFit segments
  | .unknownRequest _ code payload => (requestKind code).isNone && decide (payload.length ≤ maxPayload)
  | .sync _ | .reset _ | .getStatus _ | .getLinkStats _ _ | .setLinkTiming _ _ _ | .setTimebase _ _
  | .setPair _ _ _ _ _ _ _ _ _ | .defineRegion _ _ _ _ | .deleteRegion _ _ | .bindRegion _ _ _ _
  | .unbindRegion _ _ | .clearRegion _ _ | .getRegions _ | .start _ _ _ | .stop _ _ _ | .setLane _ _ _ _ _
  | .getLane _ _ | .trim _ _ _ _ _ | .patternBegin _ _ | .patternEnd _ _ | .patternDiscard _ _ | .getPatterns _
  | .setTrigger _ _ _ _ | .fireTrigger _ _ | .getTriggers _ | .setBarrier _ _ _ _ _ _ _ | .releaseBarrier _ _
  | .getBarrier _ _ | .setFault _ _ _ _ _ _ | .clearFault _ _ | .getFaults _ => true
  | .frameComplete | .lengthError | .gapTimeout | .frameSent | .powerOnReset | .pinReset | .resetEnd _ _
  | .triggerEdge _ | .faultQualifyActive _ | .faultQualifyInactive _ | .periodBoundary _ | .join _
  | .heldBoundary _ | .softStopComplete _ | .barrierTimeout _ | .retransmitTimeout | .byteReceived _ _ _
  | .tick _ | .delayedActivation _ => true

end Sys2Proof
end

