-- ==== Sys2Proof/Certificates/Slice0/Obligations.lean ====
section
/-! DEFINITION. The statements for the provers. In each, `p` is the part before the command. A request statement says
`Takes c s q a`: the request, taken at its arrival, takes the part to `q` with the reply `a`, so that `q`, written as an
update of `p`, is both its result and its frame. An event statement says `Does c s q` in the same way. -/

open Sys2Proof Sys2Proof.Machine

/-! ## The machine -/

/-- A step takes the command at the front of the queue and executes it with the queue's rest. -/
def Obligations.StepTakesTheFrontCommand : Prop :=
  ∀ (c : Instr) (rest : List Instr) (s : State),
    step { s with pending := c :: rest } = exec c { s with pending := rest }

/-- Every command answers a next state and leaves the waiting commands alone: none faults and none is refused
(Log 24). With no command waiting the part idles: the model's choice (Log 3). -/
def Obligations.EveryCommandAnswersANextState : Prop :=
  (∀ (c : Instr) (s : State), ∃ q : Part, Becomes c s q) ∧
  ∀ s : State, s.pending = [] → step s = .next s

/-! ## Link, timebase and pair requests -/

/-- SYNC, in either link state: the link becomes SYNCED, the cache is emptied before the reply enters it, every entry
becomes PENDING, numbering and expiry count return to 0, the timer stops, the channel runs; the reply is the identity
(R165, R185, R195). -/
def Obligations.SyncRestartsTheChannel : Prop :=
  ∀ (s : State) (seq : Byte), s.part.DispatcherFree seq →
    let p := s.part
    Takes (.sync seq) s
      { p with
        link := { p.link with synced := true, cache := none }
        notif := { p.notif with queue := p.notif.queue.map (fun e => { e with status := .pending }),
                                nextNumber := 0, expiries := 0, timer := none, channel := .running } }
      (okWith [0x73, 0x06, 0x01, 6, 0x08, 0x00, 16, 8, 4, p.link.resetCause.byte, byteOf p.notif.queue.length])

/-- RESET: an OK reply without payload that does not enter the cache, and the dispatcher stops (R168). A request that
arrives after that, while the transmitter is sending, as it is until the reset, joins the buffer and is not executed;
with two requests in the buffer it is dropped and counted (R158). -/
def Obligations.ResetStopsDispatching : Prop :=
  (∀ (s : State) (seq : Byte), s.part.Ready seq →
    let p := s.part
    let r : Reply := { seq := seq, code := 0x02, answer := okWith [], resets := true }
    Becomes (.reset seq) s (Part.driveLines
      { p with link := { p.link with
          dispatchStopped := true,
          slot := if p.link.tx.isSome then some r else none,
          tx := if p.link.tx.isSome then p.link.tx else some r.frame } })) ∧
  ∀ (s : State) (c : Instr) (f : RequestFrame), s.part.resetPhase = .ended → s.part.link.dispatchStopped = true →
    s.part.link.tx.isSome = true → requestOf c = some f →
    let p := s.part
    let overrun := if p.link.counters.overrun = 255 then 255 else p.link.counters.overrun + 1
    (p.link.buffer.length < 2 →
      Becomes c s (Part.driveLines { p with link := { p.link with buffer := p.link.buffer ++ [f] } })) ∧
    (2 ≤ p.link.buffer.length →
      Becomes c s (Part.driveLines
        { p with link := { p.link with counters := { p.link.counters with overrun := overrun } } }))

/-- The queries are taken in every state once the link is SYNCED, change no block, and answer OK with the payloads of
R195, byte by byte (R46, R85, R112, R121, R133, R150, R159, R167). Where the rules leave a byte open these are the
model's reading: the map of GET_FAULTS is the effective map (Log 25), an absent first-fault record is zeros (Log 30),
an UNBOUND or MERGED lane reports a record of zeros and its kept sense sample and flags (Log 18), and a barrier in
ALL_THEN_TRIGGER with no member reports that it waits for an edge (Log 13). -/
def Obligations.QueriesReportAndChangeNothing : Prop :=
  ∀ (s : State) (seq : Byte), s.part.Ready seq →
    let p := s.part
    let two := fun (n : Nat) => [byteOf (n / 256), byteOf n]
    let four := fun (n : Nat) => [byteOf (n / 16777216), byteOf (n / 65536), byteOf (n / 256), byteOf n]
    let optional := fun (o : Option Nat) => match o with | some n => 1 :: two n | none => [0, 0, 0]
    let elapsed := fun (b : Barrier) => match b.counter with | some f => (p.timebase.count - f).toNat | none => 0
    Takes (.getStatus seq) s p (okWith (
      four p.timebase.count.toNat ++ allLanes.map (fun l => (p.lane l).state.byte) ++
      [setByte (inputSetOf (fun i => decide ((p.fault i).qualified = (p.fault i).activeLevel))),
        setByte (inputSetOf (fun i => (p.fault i).sticky))] ++
      allFour.map (fun b => setByte (p.barrier b).arrived) ++ [byteOf p.notif.queue.length, p.notif.channel.byte])) ∧
    Takes (.getLinkStats seq 0) s p (okWith (
      let c := p.link.counters
      [c.crc, c.length, c.gap, c.type, c.overrun, c.strayAck, c.retransmit, rateByte p.link.straps])) ∧
    Takes (.getRegions seq) s p (okWith (
      allRegions.flatMap (fun r =>
        let g := p.region r
        let bound : List Byte := match g.binding with
          | .none => [0, 0]
          | .lane l => [1, byteOf l.val]
          | .pattern k => [2, byteOf k.val]
        if g.defined then [1] ++ two g.start ++ two g.size ++ bound ++ two g.head ++ two g.count ++ two g.loaded
        else List.replicate 13 0) ++
      two (2048 - (allRegions.map (fun r => if (p.region r).defined then (p.region r).size else 0)).sum))) ∧
    (∀ l : Fin 6,
      let x := p.lane l
      let segment := if x.state = .waiting ∨ ((x.state = .running ∨ x.state = .stopping) ∧ x.playsHeld = false ∧
          (x.period.isSome = true ∨ x.call.isSome = true)) then p.queueHead l else none
      let kind := match segment with
        | some g => g.body.kindByte
        | none => if x.playsHeld then 6 else 0
      let number := match segment with
        | some { body := .barrier b, .. } => byteOf b.val
        | some { body := .call k _, .. } => byteOf k.val
        | _ => 0
      let call := match x.call with
        | some c => [byteOf c.plays] ++ two c.index ++
            [match p.patternSegment c.pattern c.index with | some g => g.body.kindByte | none => 0] ++ two c.remaining
        | none => [0, 0, 0, 0, 0, 0]
      let onTimes := match x.period with
        | some { shape := .pulse _ _, .. } => two x.primary ++ optional x.alternate
        | _ => [0, 0, 0, 0, 0]
      let trim := match x.trim with
        | some t => [1] ++ two t.onTime ++ optional t.alternate
        | none => [0, 0, 0, 0, 0, 0]
      let record := if x.state = .unbound ∨ x.state = .merged then List.replicate 9 0 else
        match x.record with
        | some (.pulse period a primary alternate) =>
          [1] ++ two period ++ [a.byte] ++ two primary ++ optional alternate
        | some (.level unit code) => [2] ++ two unit ++ [code.byte, 0, 0, 0, 0, 0]
        | none => List.replicate 9 0
      Takes (.getLane seq (byteOf l.val)) s p (okWith (
        [x.state.byte, (match x.armed with | some i => byteOf i.val | none => 0xFF), x.stopCause.byte,
          (match p.laneRegion l with | some r => byteOf r.val | none => 0xFF)] ++
        two (match p.laneRegion l with | some r => (p.region r).count | none => 0) ++ [kind] ++
        two (if x.call.isSome then 0 else x.remaining) ++ [number] ++ call ++ onTimes ++ trim ++ record ++
        [flagByte x.suppressed, setByte x.haltSources, levelByte x.sense, x.policy.byte] ++ two x.lowWater ++
        [x.linkLoss.byte]))) ∧
    Takes (.getPatterns seq) s p (okWith (allPatterns.flatMap (fun k =>
      [(p.pattern k).state.byte, (match p.patternRegion k with | some r => byteOf r.val | none => 0xFF)] ++
      two (match p.patternRegion k with | some r => (p.region r).loaded | none => 0) ++
      [byteOf (p.pattern k).useCount]))) ∧
    Takes (.getTriggers seq) s p (okWith (allFour.flatMap (fun i =>
      [(p.trigger i).edges.byte, flagByte (p.trigger i).capture, levelByte (p.trigger i).qualified,
        setByte (laneSetOf (fun l => decide ((p.lane l).state = .armed) && decide ((p.lane l).armed = some i)))]))) ∧
    (∀ b : Fin 4,
      let x := p.barrier b
      let waits := match x.mode with
        | .all => false
        | .trigger => decide (x.arrived ≠ 0)
        | .allThenTrigger => decide (x.arrived = x.members)
      Takes (.getBarrier seq (byteOf b.val)) s p (okWith (
        [setByte x.members, setByte x.arrived, x.mode.byte, byteOf x.trigger.val] ++ two x.timeout ++
        [x.action.byte, flagByte x.counter.isSome] ++ four (elapsed x) ++
        four (if x.counter.isSome then 1024 * x.timeout - elapsed x else 0) ++ [flagByte waits]))) ∧
    Takes (.getFaults seq) s p (okWith (
      allFour.flatMap (fun i =>
        [levelByte (p.fault i).activeLevel, byteOf (p.fault i).filter, (p.fault i).mode.byte,
          setByte ((p.fault i).lanes &&& ~~~laneSetOf (fun l => decide ((p.lane l).state = .merged))),
          levelByte (p.fault i).qualified]) ++
      [setByte (inputSetOf (fun i => decide ((p.fault i).qualified = (p.fault i).activeLevel))),
        setByte (inputSetOf (fun i => (p.fault i).sticky))] ++
      (match p.firstFault with
        | some r => [1, byteOf r.input.val] ++ four r.stamp.toNat
        | none => [0, 0, 0, 0, 0, 0]) ++
      allLanes.map (fun l => setByte (p.lane l).haltSources) ++
      allLanes.map (fun l => flagByte (p.lane l).suppressed)))

/-- GET_LINK_STATS with clear flag 1 reports the counters and clears them; a flag above 1 is refused (R159).
SET_LINK_TIMING replaces both settings and leaves a running timer as it is; the first field out of range is refused
with its position (R166). -/
def Obligations.LinkStatsAndTimingAreSet : Prop :=
  ∀ (s : State) (seq : Byte), s.part.Ready seq →
    let p := s.part
    (∀ clear : Byte,
      (clear = 1 → Takes (.getLinkStats seq clear) s
        { p with link := { p.link with counters :=
            { crc := 0, length := 0, gap := 0, type := 0, overrun := 0, strayAck := 0, retransmit := 0 } } }
        (okWith ([p.link.counters.crc, p.link.counters.length, p.link.counters.gap, p.link.counters.type,
          p.link.counters.overrun, p.link.counters.strayAck, p.link.counters.retransmit, rateByte p.link.straps]))) ∧
      (1 < clear.toNat → Refuses (.getLinkStats seq clear) s .badValue 1)) ∧
    ∀ interval limit : Byte,
      (5 ≤ interval.toNat → interval.toNat ≤ 250 → 1 ≤ limit.toNat → limit.toNat ≤ 15 →
        Takes (.setLinkTiming seq interval limit) s
          { p with link := { p.link with interval := interval.toNat, stallLimit := limit.toNat } } (okWith [])) ∧
      (interval.toNat < 5 ∨ 250 < interval.toNat → Refuses (.setLinkTiming seq interval limit) s .badValue 1) ∧
      (5 ≤ interval.toNat → interval.toNat ≤ 250 → limit.toNat < 1 ∨ 15 < limit.toNat →
        Refuses (.setLinkTiming seq interval limit) s .badValue 2)

/-- SET_TIMEBASE: the prescale is replaced, the tick in progress keeps its length and the counter its value; a value
other than 1, 2, 4, 8 is refused, and so is a request while a lane plays, which names the lowest such lane (R3). -/
def Obligations.TimebaseIsSetWhileNoLanePlays : Prop :=
  ∀ (s : State) (seq prescale : Byte), s.part.Ready seq →
    let p := s.part
    let quiet := fun l => (p.lane l).state = .unbound ∨ (p.lane l).state = .merged ∨ (p.lane l).state = .stopped ∨
      (p.lane l).state = .halted
    (∀ x, Prescale.ofByte prescale = some x → (∀ l, quiet l) →
      Takes (.setTimebase seq prescale) s { p with timebase := { p.timebase with prescale := x } }
        (okWith (prescale :: bytes32 p.timebase.count))) ∧
    (prescale ≠ 1 → prescale ≠ 2 → prescale ≠ 4 → prescale ≠ 8 →
      Refuses (.setTimebase seq prescale) s .badValue prescale) ∧
    (∀ l, Prescale.ofByte prescale ≠ none → ¬quiet l → (∀ m < l, quiet m) →
      Refuses (.setTimebase seq prescale) s .wrongState (byteOf l.val))

/-- SET_PAIR (R15, R16) with valid values: refused with the even lane unless that is UNBOUND or STOPPED, then with the
odd lane unless its state allows the change of mode; taken, it replaces the seven settings, a change of mode merges or
unmerges the odd lane, and nothing else changes. -/
def Obligations.SetPairReplacesTheSettings : Prop :=
  ∀ (s : State) (seq : Byte) (k : Fin 3) (modeB deadA deadB topB bottomB topS bottomS : Byte) (mode : PairMode)
    (topPolarity bottomPolarity : Polarity) (topSafe bottomSafe : Level), s.part.Ready seq →
    let p := s.part
    let x := p.pair k
    let even := p.lane (evenLane k)
    let odd := p.lane (oddLane k)
    let c := Instr.setPair seq (byteOf k.val) modeB deadA deadB topB bottomB topS bottomS
    let evenAllows := even.state = .unbound ∨ even.state = .stopped
    let oddAllows := (x.mode = .independent ∧
        (odd.state = .unbound ∨ (mode = .independent ∧ odd.state = .stopped))) ∨
      (x.mode = .complementary ∧ odd.state = .merged)
    PairMode.ofByte modeB = some mode → Polarity.ofByte topB = some topPolarity →
    Polarity.ofByte bottomB = some bottomPolarity → levelOfByte topS = some topSafe →
    levelOfByte bottomS = some bottomSafe →
    (¬evenAllows → Refuses c s .wrongState (byteOf (evenLane k).val)) ∧
    (evenAllows → ¬oddAllows → Refuses c s .wrongState (byteOf (oddLane k).val)) ∧
    (evenAllows → oddAllows →
      Takes c s
        ((p.setPair k
          { x with mode := mode, deadA := deadA, deadB := deadB,
                   top := { x.top with polarity := topPolarity, safeLevel := topSafe },
                   bottom := { x.bottom with polarity := bottomPolarity, safeLevel := bottomSafe } }).setLane
          (oddLane k)
          { odd with state := if x.mode = mode then odd.state
                              else if mode = .complementary then .merged else .unbound })
        (okWith []))

/-- The value checks of the requests whose checks no other statement gives: a number or a set out of range, or a code
that names nothing, is refused with BAD_VALUE and the position of the first field that offends (R14, R40, R42, R44,
R58, R73, R85, R89, R119, R130, R133, R145, R148). -/
def Obligations.ValuesAreCheckedFieldByField : Prop :=
  ∀ (s : State) (seq : Byte), s.part.Ready seq →
    let bad := fun c position => Refuses c s .badValue position
    (∀ n : Byte, 5 < n.toNat → bad (.getLane seq n) 1) ∧
    (∀ n : Byte, 3 < n.toNat →
      bad (.getBarrier seq n) 1 ∧ bad (.releaseBarrier seq n) 1 ∧ bad (.fireTrigger seq n) 1) ∧
    (∀ n : Byte, 15 < n.toNat →
      bad (.unbindRegion seq n) 1 ∧ bad (.clearRegion seq n) 1 ∧ ∀ kind target, bad (.bindRegion seq n kind target) 1) ∧
    (∀ n kind target : Byte, n.toNat ≤ 15 →
      (kind ≠ 1 → kind ≠ 2 → bad (.bindRegion seq n kind target) 2) ∧
      (5 < target.toNat → bad (.bindRegion seq n 1 target) 3) ∧
      (7 < target.toNat → bad (.bindRegion seq n 2 target) 3)) ∧
    (∀ n altFlag : Byte, ∀ onTime alternate : Word16, 5 < n.toNat → bad (.trim seq n altFlag onTime alternate) 1) ∧
    (∀ lanes last : Byte, lanes = 0 ∨ 63 < lanes.toNat →
      bad (.start seq lanes last) 1 ∧ bad (.stop seq lanes last) 1) ∧
    (∀ lanes last : Byte, lanes ≠ 0 → lanes.toNat ≤ 63 →
      (4 < last.toNat → bad (.start seq lanes last) 2) ∧ (1 < last.toNat → bad (.stop seq lanes last) 2)) ∧
    (∀ inputs : Byte, inputs = 0 ∨ 15 < inputs.toNat → bad (.clearFault seq inputs) 1) ∧
    (∀ input level filter mode lanes : Byte,
      let c := Instr.setFault seq input level filter mode lanes
      (3 < input.toNat → bad c 1) ∧ (input.toNat ≤ 3 →
        (1 < level.toNat → bad c 2) ∧ (level.toNat ≤ 1 →
          (filter.toNat < 1 ∨ 15 < filter.toNat → bad c 3) ∧ (1 ≤ filter.toNat → filter.toNat ≤ 15 →
            (2 < mode.toNat → bad c 4) ∧ (mode.toNat ≤ 2 → 63 < lanes.toNat → bad c 5))))) ∧
    (∀ pair mode deadA deadB topPolarity bottomPolarity topSafe bottomSafe : Byte,
      let c := Instr.setPair seq pair mode deadA deadB topPolarity bottomPolarity topSafe bottomSafe
      (2 < pair.toNat → bad c 1) ∧ (pair.toNat ≤ 2 →
        (1 < mode.toNat → bad c 2) ∧ (mode.toNat ≤ 1 →
          (1 < topPolarity.toNat → bad c 5) ∧ (topPolarity.toNat ≤ 1 →
            (1 < bottomPolarity.toNat → bad c 6) ∧ (bottomPolarity.toNat ≤ 1 →
              (1 < topSafe.toNat → bad c 7) ∧ (topSafe.toNat ≤ 1 → 1 < bottomSafe.toNat → bad c 8))))))

/-! ## Region requests -/

/-- DEFINE_REGION's value check (R37): field by field, without a look at the region table. -/
def Obligations.DefineRegionChecksItsValues : Prop :=
  ∀ (s : State) (seq region : Byte) (start size : Word16), s.part.Ready seq →
    (15 < region.toNat → Refuses (.defineRegion seq region start size) s .badValue 1) ∧
    (region.toNat ≤ 15 → 2047 < start.toNat → Refuses (.defineRegion seq region start size) s .badValue 2) ∧
    (region.toNat ≤ 15 → start.toNat ≤ 2047 →
      size.toNat < 4 ∨ 2048 < size.toNat ∨ 2048 < start.toNat + size.toNat →
      Refuses (.defineRegion seq region start size) s .badValue 3) ∧
    (region.toNat ≤ 15 → start.toNat ≤ 2047 → 4 ≤ size.toNat → size.toNat ≤ 2048 →
      start.toNat + size.toNat ≤ 2048 → ∀ detail, ¬Refuses (.defineRegion seq region start size) s .badValue detail)

/-- DEFINE_REGION with valid values (R38): refused for a defined region, refused with the lowest defined region that
shares a slot, and otherwise taken, with nothing else changed. -/
def Obligations.DefineRegionIsCheckedAgainstTheTable : Prop :=
  ∀ (s : State) (seq : Byte) (r : Fin 16) (start size : Word16), s.part.Ready seq →
    let p := s.part
    let shares := fun r' => (p.region r').defined = true ∧ ∃ a, start.toNat ≤ a ∧ a < start.toNat + size.toNat ∧
      (p.region r').start ≤ a ∧ a < (p.region r').start + (p.region r').size
    p.RegionLaw → start.toNat ≤ 2047 → 4 ≤ size.toNat → size.toNat ≤ 2048 → start.toNat + size.toNat ≤ 2048 →
    ((p.region r).defined = true → Refuses (.defineRegion seq (byteOf r.val) start size) s .wrongState 0) ∧
    (∀ r', (p.region r).defined = false → shares r' → (∀ m < r', ¬shares m) →
      Refuses (.defineRegion seq (byteOf r.val) start size) s .overlap (byteOf r'.val)) ∧
    ((p.region r).defined = false → (∀ r', ¬shares r') →
      Takes (.defineRegion seq (byteOf r.val) start size) s
        (p.setRegion r { defined := true, start := start.toNat, size := size.toNat, binding := .none, head := 0,
                         count := 0, loaded := 0 })
        (okWith []))

/-- DELETE_REGION (R39): refused for a region id above 15, for an undefined region and for a bound one; a defined,
unbound region becomes undefined, and nothing else changes. -/
def Obligations.DeleteRegionMakesItUndefined : Prop :=
  ∀ (s : State) (seq region : Byte), s.part.Ready seq →
    let p := s.part
    (15 < region.toNat → Refuses (.deleteRegion seq region) s .badValue 1) ∧
    ∀ r : Fin 16, region.toNat = r.val →
      ((p.region r).defined = false → Refuses (.deleteRegion seq region) s .wrongState 0) ∧
      ((p.region r).defined = true → (p.region r).binding ≠ .none →
        Refuses (.deleteRegion seq region) s .wrongState 1) ∧
      ((p.region r).defined = true → (p.region r).binding = .none →
        Takes (.deleteRegion seq region) s
          (p.setRegion r { defined := false, start := 0, size := 0, binding := .none, head := 0, count := 0,
                           loaded := 0 })
          (okWith []))

/-- BIND_REGION (R40, R41): refused for an undefined and for a bound region, for a lane that is not UNBOUND and for a
pattern that is not UNASSIGNED; taken, an UNBOUND lane becomes STOPPED with an empty queue, nothing in play and no halt
source, or an UNASSIGNED pattern EMPTY with use count 0. -/
def Obligations.BindRegionServesALaneOrAPattern : Prop :=
  ∀ (s : State) (seq : Byte) (r : Fin 16) (l : Fin 6) (k : Fin 8), s.part.Ready seq →
    let p := s.part
    let g := p.region r
    let toLane := Instr.bindRegion seq (byteOf r.val) 1 (byteOf l.val)
    let toPattern := Instr.bindRegion seq (byteOf r.val) 2 (byteOf k.val)
    (g.defined = false → Refuses toLane s .wrongState 0 ∧ Refuses toPattern s .wrongState 0) ∧
    (g.defined = true → g.binding ≠ .none → Refuses toLane s .wrongState 1 ∧ Refuses toPattern s .wrongState 1) ∧
    (g.defined = true → g.binding = .none →
      ((p.lane l).state = .merged → Refuses toLane s .unavailable (byteOf l.val)) ∧
      ((p.lane l).state ≠ .merged → (p.lane l).state ≠ .unbound → Refuses toLane s .wrongState 2) ∧
      ((p.lane l).state = .unbound → Takes toLane s
        ((p.setRegion r { g with binding := .lane l, head := 0, count := 0 }).setLane l
          { p.lane l with state := .stopped, remaining := 0, call := none, primary := 0, alternate := none,
                          trim := none, period := none, armed := none, stopCause := .none, haltSources := 0 })
        (okWith [])) ∧
      ((p.pattern k).state ≠ .unassigned → Refuses toPattern s .wrongState 2) ∧
      ((p.pattern k).state = .unassigned → Takes toPattern s
        ((p.setRegion r { g with binding := .pattern k, loaded := 0 }).setPattern k { state := .empty, useCount := 0 })
        (okWith [])))

/-- UNBIND_REGION (R42, R43): refused for an undefined and for an unbound region, while the lane is not STOPPED, and
while the pattern is in use; taken, the segments leave their slots without report, the region stays defined, and the
lane becomes UNBOUND or the pattern UNASSIGNED. -/
def Obligations.UnbindRegionEmptiesAndFrees : Prop :=
  ∀ (s : State) (seq : Byte) (r : Fin 16), s.part.Ready seq →
    let p := s.part
    let g := p.region r
    let c := Instr.unbindRegion seq (byteOf r.val)
    let freed := { p with store := p.store.eraseRun g.start g.size }.setRegion r
      { g with binding := .none, head := 0, count := 0, loaded := 0 }
    (g.defined = false → Refuses c s .wrongState 0) ∧
    (g.defined = true → g.binding = .none → Refuses c s .wrongState 1) ∧
    (∀ l, g.defined = true → g.binding = .lane l →
      ((p.lane l).state ≠ .stopped → Refuses c s .wrongState 2) ∧
      ((p.lane l).state = .stopped → Takes c s (freed.setLane l { p.lane l with state := .unbound }) (okWith []))) ∧
    (∀ k, g.defined = true → g.binding = .pattern k →
      (0 < (p.pattern k).useCount → Refuses c s .inUse (byteOf (p.pattern k).useCount)) ∧
      ((p.pattern k).useCount = 0 → Takes c s (freed.setPattern k { p.pattern k with state := .unassigned })
        (okWith [])))

/-- CLEAR_REGION (R44, R45): refused for an undefined region, for a lane that is neither STOPPED nor HALTED, and while
the pattern is in use; taken, a lane's queue is emptied without report and the lane keeps its state, a pattern's
contents are emptied and it is EMPTY, and for an unbound region nothing happens. -/
def Obligations.ClearRegionEmptiesIt : Prop :=
  ∀ (s : State) (seq : Byte) (r : Fin 16), s.part.Ready seq →
    let p := s.part
    let g := p.region r
    let c := Instr.clearRegion seq (byteOf r.val)
    let emptied := { p with store := p.store.eraseRun g.start g.size }.setRegion r
      { g with head := 0, count := 0, loaded := 0 }
    (g.defined = false → Refuses c s .wrongState 0) ∧
    (g.defined = true → g.binding = .none → Takes c s p (okWith [])) ∧
    (∀ l, g.defined = true → g.binding = .lane l →
      ((p.lane l).state ≠ .stopped → (p.lane l).state ≠ .halted → Refuses c s .wrongState 2) ∧
      ((p.lane l).state = .stopped ∨ (p.lane l).state = .halted → Takes c s emptied (okWith []))) ∧
    (∀ k, g.defined = true → g.binding = .pattern k →
      (0 < (p.pattern k).useCount → Refuses c s .inUse (byteOf (p.pattern k).useCount)) ∧
      ((p.pattern k).useCount = 0 → Takes c s (emptied.setPattern k { p.pattern k with state := .empty })
        (okWith [])))

/-! ## The segment store -/

/-- What a read of the segment store gives after a write, an erasure, and an erasure of a run of slots: the slot
touched has its new contents and every other slot reads as before (R35). The segments an APPEND joins stand at the
queue positions from the count on, in index order, and no other slot changes (R51, R48); those a PATTERN_DATA adds
stand from the loaded length on (R103, R47). -/
def Obligations.StoreHoldsWhatWasWritten : Prop :=
  (∀ (st : Store) (a b : Nat) (g : Segment) (start size : Nat), st.wf = true →
    (st.write a g).read b = (if b = a then some g else st.read b) ∧
    (st.erase a).read b = (if b = a then none else st.read b) ∧
    (st.eraseRun start size).read b = (if start ≤ b ∧ b < start + size then none else st.read b)) ∧
  ∀ (p : Part) (r : Fin 16) (segs : List Segment), p.store.wf = true → (p.region r).defined = true → p.RegionLaw →
    let g := p.region r
    (g.count + segs.length ≤ g.size →
      (∀ i (h : i < segs.length), (p.enqueue r segs).store.read (g.queueSlot (g.count + i)) = some segs[i]) ∧
      ∀ a, (∀ i, i < segs.length → a ≠ g.queueSlot (g.count + i)) →
        (p.enqueue r segs).store.read a = p.store.read a) ∧
    (g.loaded + segs.length ≤ g.size →
      (∀ i (h : i < segs.length), (p.load r segs).store.read (g.start + (g.loaded + i)) = some segs[i]) ∧
      ∀ a, (∀ i, i < segs.length → a ≠ g.start + (g.loaded + i)) → (p.load r segs).store.read a = p.store.read a)

/-- Every segment with its fields in range is read back from its twelve bytes with every field, and twelve bytes that
decode are those of a segment with its fields in range, so that bytes with any other field, flag, tag or filler are not
accepted (R26, R191). -/
def Obligations.SegmentsDecodeAsEncoded : Prop :=
  (∀ g : Segment, g.inRange = true → decodeSegment g.encode = some g) ∧
  ∀ (r : RawSegment) (g : Segment), decodeSegment r = some g → g.inRange = true ∧ r = g.encode

/-! ## Lane requests -/

/-- APPEND (R50, R51, R69, R70): its checks in order; taken, the segments join the tail and the reply is the new count.
A lane that is not STARVED is not touched; one STARVED under SAFE becomes RUNNING and its first timed segment starts at
this tick; one STARVED under HOLD becomes RUNNING and its held period goes on, which is the one that begins at this
tick where one does (HeldPeriodRepeatsTheRecord writes it out). That an APPEND taken before that tick's held boundary
lets the held period begin first is the model's reading of R70 (Log 6). -/
def Obligations.AppendJoinsTheTail : Prop :=
  ∀ (s : State) (seq : Byte) (l : Fin 6) (raws : List RawSegment), s.part.Ready seq →
    let p := s.part
    let x := p.lane l
    let c := Instr.append seq (byteOf l.val) raws
    (∀ lane, raws.length = 0 ∨ 16 < raws.length → Refuses (.append seq lane raws) s .badLength 0) ∧
    (1 ≤ raws.length → raws.length ≤ 16 →
    (∀ lane : Byte, 5 < lane.toNat → Refuses (.append seq lane raws) s .badValue 255) ∧
    (∀ i, decodeSegments (p.admitsInQueue l) 0 raws = .error i → Refuses c s .badValue (byteOf i)) ∧
    ∀ segs, decodeSegments (p.admitsInQueue l) 0 raws = .ok segs →
      (x.state = .unbound → Refuses c s .notBound (byteOf l.val)) ∧
      (x.state = .merged → Refuses c s .unavailable (byteOf l.val)) ∧
      ∀ r, x.state ≠ .unbound → x.state ≠ .merged → p.laneRegion l = some r →
        let g := p.region r
        let q := p.enqueue r segs
        let reply := okWith (natBytes16 (g.count + segs.length))
        (g.size < g.count + segs.length → Refuses c s .noRoom (byteOf (g.size - g.count))) ∧
        (g.count + segs.length ≤ g.size →
          (x.state ≠ .starved → Takes c s q reply) ∧
          (∀ h, x.state = .starved → x.starve = .safe → q.queueHead l = some h → h.isTimed = true →
            Takes c s ((q.setLane l { x with state := .running, armed := none }).startTimed l h.body) reply) ∧
          (∀ d, x.state = .starved → x.starve = .hold → x.period = some d →
            (d.phase < d.shape.length → Takes c s (q.setLane l { x with state := .running }) reply) ∧
            (d.shape.length ≤ d.phase →
              Takes c s ((q.beginHeld l).setLane l { (q.beginHeld l).lane l with state := .running }) reply))))

/-- The start of a PULSE or LEVEL (R62, R87, R88, R97, R107): its repeats, inside a CALL those of the call position,
and its on-times are the segment's, the sense input is sampled on a complementary pair where there is an alternate, the
period begins at its first tick with the on-time chosen, the record is written, and the suppression flag is set exactly
where some CYCLE input that maps the lane, which MERGED keeps out of every effective map, is live ACTIVE (R135, R137,
R143). Nothing else changes. That a LEVEL takes no sense sample is the model's reading (Log 29). -/
def Obligations.TimedSegmentStartsItsFirstPeriod : Prop :=
  ∀ (p : Part) (l : Fin 6),
    let x := p.lane l
    let y := fun repeats => match x.call with
      | some c => { x with call := some { c with remaining := repeats } }
      | none => { x with remaining := repeats }
    let sampled := l = evenLane (pairOf l) ∧ (p.pair (pairOf l)).mode = .complementary
    let sns := pinLevel p.sensePins (pairOf l)
    (p.cycleActive l = true ↔ x.state ≠ .merged ∧ ∃ i, (p.fault i).mode = .cycle ∧
      (p.fault i).qualified = (p.fault i).activeLevel ∧ inSet (p.fault i).lanes l = true) ∧
    (∀ period onTime alternate a repeats,
      p.startTimed l (.pulse period onTime alternate a repeats) =
        p.setLane l { y repeats with
          primary := onTime, alternate := alternate,
          sense := if sampled ∧ alternate.isSome = true then sns else x.sense,
          suppressed := p.cycleActive l,
          period := some { shape := .pulse period a, phase := 0, held := false,
                           onTime := if sampled ∧ sns = .high then alternate.getD onTime else onTime },
          record := some (.pulse period a onTime alternate) }) ∧
    (∀ code unit repeats,
      p.startTimed l (.level code unit repeats) =
        p.setLane l { y repeats with
          primary := 0, alternate := none, suppressed := p.cycleActive l,
          period := some { shape := .level unit code, onTime := 0, phase := 0, held := false },
          record := some (.level unit code) })

/-- START of a set of lanes (R58, R59, R60): the lowest lane that fails refuses it by its first condition that fails,
the last of them a sticky LATCH input that maps the lane. With source TRGn every lane of the set becomes ARMED and
nothing else changes. With source IMMEDIATE a single lane becomes RUNNING and its first timed segment starts at this
tick. -/
def Obligations.StartBeginsOrArmsTheLanes : Prop :=
  ∀ (s : State) (seq : Byte) (lanes : LaneSet), s.part.Ready seq → lanes ≠ 0 →
    let p := s.part
    let latched := fun l => ∃ i, (p.fault i).mode = .latch ∧ (p.fault i).sticky = true ∧
      inSet (p.fault i).lanes l = true
    let passes := fun l => (p.lane l).state = .stopped ∧ 0 < p.queueCount l ∧ ¬latched l
    (∀ (source : Byte) (l : Fin 6), source.toNat ≤ 4 → inSet lanes l = true →
      (∀ m < l, inSet lanes m = true → passes m) →
      let x := p.lane l
      let c := Instr.start seq (setByte lanes) source
      (x.state = .unbound → Refuses c s .notBound (byteOf l.val)) ∧
      (x.state = .merged → Refuses c s .unavailable (byteOf l.val)) ∧
      (x.state ≠ .unbound → x.state ≠ .merged → x.state ≠ .stopped → Refuses c s .wrongState (byteOf l.val)) ∧
      (x.state = .stopped → p.queueCount l = 0 → Refuses c s .queueEmpty (byteOf l.val)) ∧
      (x.state = .stopped → 0 < p.queueCount l → latched l → Refuses c s .faultLatched (byteOf l.val))) ∧
    (∀ i : Fin 4, (∀ l, inSet lanes l = true → passes l) → ∃ q : Part,
      Takes (.start seq (setByte lanes) (byteOf (i.val + 1))) s q (okWith (bytes32 p.timebase.count)) ∧
      q = { p with lanes := q.lanes } ∧
      ∀ l, q.lane l = if inSet lanes l = true then
          { p.lane l with record := none, trim := none, state := .armed, armed := some i }
        else p.lane l) ∧
    ∀ (l : Fin 6) (g : Segment), lanes = single l → passes l → p.queueHead l = some g → g.isTimed = true →
      Takes (.start seq (setByte lanes) 0) s
        ((p.setLane l { p.lane l with record := none, trim := none, state := .running, armed := none }).startTimed l
          g.body)
        (okWith (bytes32 p.timebase.count))

/-- Queue element 0 of a lane that a START makes RUNNING is processed by its kind (R30, R31): a MARK reports
MARK_REACHED and is retired; a BARRIER the lane is no member of reports BARRIER_PASS and is retired (R124); a BARRIER
the lane is a member of makes it WAITING where its arrival does not complete the set (R123); in mode ALL the arrival
that completes the member set, of one lane or of two, releases it with cause ALL, and the lanes of the set, all
RUNNING, go on in ascending number (R125, R126); a CALL to a READY pattern is entered and raises the use count (R107);
a CALL to any other pattern reports PATTERN_MISSING and is retired MISSED (R110). After a retirement the next element,
here a timed one, starts at this tick. -/
def Obligations.QueueHeadIsProcessedByItsKind : Prop :=
  ∀ (s : State) (seq : Byte) (l : Fin 6) (g : Segment), s.part.Ready seq →
    let p := s.part
    let x := { p.lane l with record := none, trim := none, state := .running, armed := none }
    let arrived := { x with remaining := 0, call := none, primary := 0, alternate := none, period := none }
    let q := p.setLane l x
    let begins := fun (r : Part) => Takes (.start seq (setByte (single l)) 0) s r (okWith (bytes32 p.timebase.count))
    let met := fun (b : Fin 4) (set : LaneSet) =>
      ((p.setLane l arrived).notify (.barrierReleased b .all set)).setBarrier b
        { p.barrier b with arrived := 0, counter := none }
    (p.lane l).state = .stopped → p.queueHead l = some g →
    (∀ i, (p.fault i).mode = .latch → (p.fault i).sticky = true → inSet (p.fault i).lanes l = false) →
    (∀ t h, g.tag = some t → g.body = .mark →
      let r := (q.notify (.markReached l t none)).retireHead l .completed
      r.queueHead l = some h → h.isTimed = true → begins (r.startTimed l h.body)) ∧
    (∀ b h, g.body = .barrier b → inSet (p.barrier b).members l = false →
      let r := (q.notify (.barrierPass l b)).retireHead l .completed
      r.queueHead l = some h → h.isTimed = true → begins (r.startTimed l h.body)) ∧
    (∀ b, g.body = .barrier b → inSet (p.barrier b).members l = true →
      (p.barrier b).mode ≠ .all ∨ (p.barrier b).arrived ||| single l ≠ (p.barrier b).members →
      begins ((q.setLane l { arrived with state := .waiting }).setBarrier b
        { p.barrier b with
          arrived := (p.barrier b).arrived ||| single l,
          counter := if (p.barrier b).arrived ≠ 0 then (p.barrier b).counter
                     else if (p.barrier b).timeout = 0 then none else some p.timebase.count })) ∧
    (∀ b h, g.body = .barrier b → (p.barrier b).mode = .all → (p.barrier b).arrived = 0 →
      (p.barrier b).members = single l →
      let r := (met b (single l)).retireHead l .completed
      r.queueHead l = some h → h.isTimed = true → begins (r.startTimed l h.body)) ∧
    (∀ b m first second h k, g.body = .barrier b → (p.barrier b).mode = .all → (p.barrier b).arrived = single m →
      (p.barrier b).members = single m ||| single l → first < second →
      (first = l ∧ second = m) ∨ (first = m ∧ second = l) →
      let r := ((met b (single m ||| single l)).setLane m { p.lane m with state := .running }).retireHead first
        .completed
      let t := (r.startTimed first h.body).retireHead second .completed
      r.queueHead first = some h → h.isTimed = true → t.queueHead second = some k → k.isTimed = true →
      begins (t.startTimed second k.body)) ∧
    (∀ k plays h, g.body = .call k plays → (p.pattern k).state = .ready → p.patternSegment k 0 = some h →
      h.isTimed = true →
      begins (((q.setPattern k { p.pattern k with useCount := (p.pattern k).useCount + 1 }).setLane l
        { x with call := some { pattern := k, plays := plays, index := 0, remaining := 0 } }).startTimed l h.body)) ∧
    (∀ k plays h, g.body = .call k plays → (p.pattern k).state ≠ .ready →
      let r := (q.notify (.patternMissing l k)).retireHead l .missed
      r.queueHead l = some h → h.isTimed = true → begins (r.startTimed l h.body))

/-- STOP of one lane (R73, R75, R77 to R79): an UNBOUND or MERGED lane refuses it. A soft stop puts a lane in the
middle of a period, RUNNING or STARVED under HOLD, in STOPPING and leaves its play alone; an ARMED lane, or one STARVED
under SAFE, becomes STOPPED at once with LANE_STOPPED, and so does a WAITING one, whose BARRIER is retired ABANDONED. A
hard stop makes every playing lane STOPPED at once without LANE_STOPPED; a segment in play is retired, COMPLETED where
its last period is over and ABANDONED otherwise; inside a CALL the pattern segment is reported so, the use count falls,
and the CALL is retired, COMPLETED if that was the last timed segment of the last play (R65, R76, R79, R111); a held
period retires nothing. The lane leaves the arrived set it is in, whose counter becomes idle when the set is empty
(R131). Neither stop changes a STOPPED or HALTED lane, nor a soft stop a STOPPING one. -/
def Obligations.StopActsByTheLaneState : Prop :=
  ∀ (s : State) (seq : Byte) (l : Fin 6), s.part.Ready seq →
    let p := s.part
    let x := p.lane l
    let soft := Instr.stop seq (setByte (single l)) 0
    let hard := Instr.stop seq (setByte (single l)) 1
    let reply := okWith (bytes32 p.timebase.count)
    let stopped := { x with state := .stopped, remaining := 0, call := none, primary := 0, alternate := none,
                            trim := none, period := none, armed := none, stopCause := .none }
    let left := { p with barriers := p.barriers.map (fun (b : Barrier) =>
      if inSet b.arrived l = true then
        { b with arrived := b.arrived &&& ~~~single l,
                 counter := if b.arrived &&& ~~~single l = 0 then none else b.counter }
      else b) }
    let freed := left.setLane l stopped
    let retired := fun outcome => (left.retireHead l outcome).setLane l stopped
    let told := fun (q : Part) => q.notify (.laneStopped l .softStop (q.queueCount l))
    (x.state = .unbound → Refuses soft s .notBound (byteOf l.val) ∧ Refuses hard s .notBound (byteOf l.val)) ∧
    (x.state = .merged → Refuses soft s .unavailable (byteOf l.val) ∧ Refuses hard s .unavailable (byteOf l.val)) ∧
    (∀ d, x.state = .running ∨ (x.state = .starved ∧ x.starve = .hold) → x.period = some d →
      d.phase < d.shape.length →
      Takes soft s (p.setLane l { x with state := .stopping, stopCause := .softStop }) reply) ∧
    (x.state = .waiting → x.period = none → x.call = none → Takes soft s (told (retired .abandoned)) reply ∧
      Takes hard s (retired .abandoned) reply) ∧
    (x.state = .armed ∨ (x.state = .starved ∧ x.starve = .safe) → Takes soft s (told freed) reply ∧
      Takes hard s freed reply) ∧
    (x.state = .starved → Takes hard s freed reply) ∧
    (∀ d, x.state = .running ∨ x.state = .stopping → x.period = some d →
      (d.held = true → Takes hard s freed reply) ∧
      (d.held = false → x.call = none →
        Takes hard s (retired (if d.shape.length ≤ d.phase ∧ x.remaining ≤ 1 then .completed else .abandoned)) reply) ∧
      ∀ c h, d.held = false → x.call = some c → p.patternSegment c.pattern c.index = some h →
        let ended := d.shape.length ≤ d.phase ∧ c.remaining ≤ 1
        let last := ∀ i g, c.index < i → i < p.loadedLength c.pattern → p.patternSegment c.pattern i = some g →
          g.isTimed = false
        let spoken := match h.tag with
          | some t => left.notify (.segmentTag l t (if ended then .completed else .abandoned) (some c.pattern))
          | none => left
        let q := spoken.setPattern c.pattern
          { p.pattern c.pattern with useCount := (p.pattern c.pattern).useCount - 1 }
        (ended → c.plays ≤ 1 → last → Takes hard s ((q.retireHead l .completed).setLane l stopped) reply) ∧
        (¬ended ∨ 1 < c.plays ∨ ¬last → Takes hard s ((q.retireHead l .abandoned).setLane l stopped) reply)) ∧
    (x.state = .stopping → Takes soft s p reply) ∧
    (x.state = .stopped ∨ x.state = .halted → Takes soft s p reply ∧ Takes hard s p reply)

/-- A retirement (R25, R49, R53): SEGMENT_TAG if the segment is tagged, then the removal of element 0, then WATERMARK
when the count falls from the mark + 1 to the mark. -/
def Obligations.RetirementRemovesElementZero : Prop :=
  ∀ (p : Part) (l : Fin 6) (r : Fin 16) (g : Segment) (outcome : Retirement),
    p.laneRegion l = some r → p.queueHead l = some g →
    let d := p.region r
    let told := match g.tag with
      | some t => p.notify (.segmentTag l t outcome none)
      | none => p
    let gone := { told with store := p.store.erase (d.queueSlot 0) }.setRegion r
      { d with head := (d.head + 1) % d.size, count := d.count - 1 }
    p.retireHead l outcome =
      if 0 < (p.lane l).lowWater ∧ d.count = (p.lane l).lowWater + 1 then
        gone.notify (.watermark l (p.lane l).lowWater)
      else gone

/-- SET_LANE replaces the three settings in every state but UNBOUND and MERGED; the first offending field is refused
with its position (R84). -/
def Obligations.SetLaneReplacesItsSettings : Prop :=
  ∀ (s : State) (seq lane policy : Byte) (mark : Word16) (linkLoss : Byte), s.part.Ready seq →
    let p := s.part
    let c := Instr.setLane seq lane policy mark linkLoss
    (5 < lane.toNat → Refuses c s .badValue 1) ∧
    (lane.toNat ≤ 5 → 1 < policy.toNat → Refuses c s .badValue 2) ∧
    (lane.toNat ≤ 5 → policy.toNat ≤ 1 → 2047 < mark.toNat → Refuses c s .badValue 3) ∧
    (lane.toNat ≤ 5 → policy.toNat ≤ 1 → mark.toNat ≤ 2047 → 1 < linkLoss.toNat → Refuses c s .badValue 4) ∧
    ∀ (l : Fin 6) (u : UnderrunPolicy) (k : LinkLossPolicy), lane.toNat = l.val → policy = u.byte →
      linkLoss = k.byte → mark.toNat ≤ 2047 →
      ((p.lane l).state = .unbound → Refuses c s .notBound lane) ∧
      ((p.lane l).state = .merged → Refuses c s .unavailable lane) ∧
      ((p.lane l).state ≠ .unbound → (p.lane l).state ≠ .merged →
        Takes c s (p.setLane l { p.lane l with policy := u, lowWater := mark.toNat, linkLoss := k }) (okWith []))

/-- TRIM (R89, R90): refused for an UNBOUND or MERGED lane, for a lane that is neither RUNNING nor STOPPING, for one
that plays no PULSE, for values above the period, and for an alternate-present flag above 1 (R192); taken, it stages
its values and changes nothing else. -/
def Obligations.TrimIsStaged : Prop :=
  ∀ (s : State) (seq altFlag : Byte) (l : Fin 6) (onTime alternate : Word16), s.part.Ready seq →
    let p := s.part
    let x := p.lane l
    let c := Instr.trim seq (byteOf l.val) altFlag onTime alternate
    let accepted : Answer := { status := .accepted, detail := 0, body := [] }
    (x.state = .unbound → Refuses c s .notBound (byteOf l.val)) ∧
    (x.state = .merged → Refuses c s .unavailable (byteOf l.val)) ∧
    (x.state ≠ .unbound → x.state ≠ .merged → x.state ≠ .running → x.state ≠ .stopping → Refuses c s .wrongState 0) ∧
    (x.state = .running ∨ x.state = .stopping →
      (x.period = none → Refuses c s .wrongState 1) ∧
      (∀ d, x.period = some d → (d.held = true ∨ ∃ unit code, d.shape = .level unit code) →
        Refuses c s .wrongState 1) ∧
      ∀ d period a, x.period = some d → d.shape = .pulse period a → d.held = false →
        (period < onTime.toNat → Refuses c s .badValue 3) ∧
        (onTime.toNat ≤ period → 1 < altFlag.toNat → Refuses c s .badValue 2) ∧
        (onTime.toNat ≤ period → altFlag = 1 → x.alternate = none ∨ period < alternate.toNat →
          Refuses c s .badValue 4) ∧
        (onTime.toNat ≤ period → altFlag = 0 →
          Takes c s (p.setLane l { x with trim := some { onTime := onTime.toNat, alternate := none } }) accepted) ∧
        (onTime.toNat ≤ period → altFlag = 1 → x.alternate.isSome = true → alternate.toNat ≤ period →
          Takes c s
            (p.setLane l { x with trim := some { onTime := onTime.toNat, alternate := some alternate.toNat } })
            accepted))

/-! ## Pattern requests -/

/-- PATTERN_BEGIN (R102): its checks in order; taken from EMPTY, LOADING or READY, the pattern loses its segments and
is LOADING. -/
def Obligations.PatternBeginEmptiesAndOpens : Prop :=
  ∀ (s : State) (seq pattern : Byte), s.part.Ready seq →
    let p := s.part
    (7 < pattern.toNat → Refuses (.patternBegin seq pattern) s .badValue 1) ∧
    ∀ k : Fin 8, pattern.toNat = k.val →
      ((p.pattern k).state = .unassigned → Refuses (.patternBegin seq pattern) s .notBound pattern) ∧
      ∀ r, p.patternRegion k = some r → (p.pattern k).state ≠ .unassigned →
        (0 < (p.pattern k).useCount →
          Refuses (.patternBegin seq pattern) s .inUse (byteOf (p.pattern k).useCount)) ∧
        ((p.pattern k).useCount = 0 →
          Takes (.patternBegin seq pattern) s
            (({ p with store := p.store.eraseRun (p.region r).start (p.region r).size }.setRegion r
                { p.region r with head := 0, count := 0, loaded := 0 }).setPattern k
              { p.pattern k with state := .loading })
            (okWith []))

/-- PATTERN_DATA (R103): its checks in order, after that of its length (R192); for a LOADING pattern with room it adds
its segments, and the state stays LOADING. -/
def Obligations.PatternDataAddsSegments : Prop :=
  ∀ (s : State) (seq : Byte) (k : Fin 8) (raws : List RawSegment), s.part.Ready seq →
    let p := s.part
    let c := Instr.patternData seq (byteOf k.val) raws
    (∀ pattern, raws.length = 0 ∨ 16 < raws.length → Refuses (.patternData seq pattern raws) s .badLength 0) ∧
    (1 ≤ raws.length → raws.length ≤ 16 →
    (∀ pattern : Byte, 7 < pattern.toNat → Refuses (.patternData seq pattern raws) s .badValue 255) ∧
    (∀ i, decodeSegments admittedInPattern 0 raws = .error i → Refuses c s .badValue (byteOf i)) ∧
    ∀ segs : List Segment, decodeSegments admittedInPattern 0 raws = .ok segs →
      ((p.pattern k).state ≠ .loading → Refuses c s .wrongState (byteOf k.val)) ∧
      ∀ r : Fin 16, (p.pattern k).state = .loading → p.patternRegion k = some r →
        let g := p.region r
        (g.size < g.loaded + segs.length → Refuses c s .noRoom (byteOf (g.size - g.loaded))) ∧
        (g.loaded + segs.length ≤ g.size →
          Takes c s (p.load r segs) (okWith (natBytes16 (g.loaded + segs.length)))))

/-- PATTERN_END (R104): its checks in order; a LOADING pattern with a PULSE or a LEVEL in it becomes READY; one without
is refused and stays LOADING. -/
def Obligations.PatternEndMakesItReady : Prop :=
  ∀ (s : State) (seq : Byte) (k : Fin 8), s.part.Ready seq →
    let p := s.part
    let timed := ∃ i g, i < p.loadedLength k ∧ p.patternSegment k i = some g ∧ g.isTimed = true
    (∀ pattern : Byte, 7 < pattern.toNat → Refuses (.patternEnd seq pattern) s .badValue 1) ∧
    ((p.pattern k).state ≠ .loading → Refuses (.patternEnd seq (byteOf k.val)) s .wrongState (byteOf k.val)) ∧
    ((p.pattern k).state = .loading → ¬timed → Refuses (.patternEnd seq (byteOf k.val)) s .badValue 2) ∧
    ((p.pattern k).state = .loading → timed →
      Takes (.patternEnd seq (byteOf k.val)) s (p.setPattern k { p.pattern k with state := .ready })
        (okWith (natBytes16 (p.loadedLength k))))

/-- PATTERN_DISCARD (R105): its checks in order; taken, the pattern loses its segments and is EMPTY, its binding
kept. -/
def Obligations.PatternDiscardEmptiesIt : Prop :=
  ∀ (s : State) (seq pattern : Byte), s.part.Ready seq →
    let p := s.part
    (7 < pattern.toNat → Refuses (.patternDiscard seq pattern) s .badValue 1) ∧
    ∀ k : Fin 8, pattern.toNat = k.val →
      ((p.pattern k).state = .unassigned → Refuses (.patternDiscard seq pattern) s .notBound pattern) ∧
      ∀ r, p.patternRegion k = some r → (p.pattern k).state ≠ .unassigned →
        (0 < (p.pattern k).useCount →
          Refuses (.patternDiscard seq pattern) s .inUse (byteOf (p.pattern k).useCount)) ∧
        ((p.pattern k).useCount = 0 →
          Takes (.patternDiscard seq pattern) s
            (({ p with store := p.store.eraseRun (p.region r).start (p.region r).size }.setRegion r
                { p.region r with head := 0, count := 0, loaded := 0 }).setPattern k
              { p.pattern k with state := .empty })
            (okWith []))

/-! ## Trigger, barrier and fault requests -/

/-- SET_TRIGGER replaces both settings and does not disturb the qualification; the first offending field is refused
with its position (R116). -/
def Obligations.SetTriggerReplacesItsSettings : Prop :=
  ∀ (s : State) (seq input edges capture : Byte), s.part.Ready seq →
    let p := s.part
    let c := Instr.setTrigger seq input edges capture
    (3 < input.toNat → Refuses c s .badValue 1) ∧
    (input.toNat ≤ 3 → 3 < edges.toNat → Refuses c s .badValue 2) ∧
    (input.toNat ≤ 3 → edges.toNat ≤ 3 → 1 < capture.toNat → Refuses c s .badValue 3) ∧
    ∀ (i : Fin 4) (e : EdgeSelection) (b : Bool), input.toNat = i.val → edges = e.byte → capture = flagByte b →
      Takes c s (p.setTrigger i { p.trigger i with edges := e, capture := b }) (okWith [])

/-- The delivery of an edge (R114, R115, R117, R119): a TRIGGER_EDGE that is due makes the sample the qualified level,
and changes nothing else where the edge selection does not admit it; FIRE_TRIGGER delivers a synthetic edge, RISE from
a LOW and FALL from a HIGH qualified level, whatever the selection. A delivery creates CAPTURE where capture is on, and
then goes to the barriers that wait for the edge and then to the lanes ARMED on the input, each fixed when it began:
with no consumer the CAPTURE is all; an ARMED lane becomes RUNNING and starts its first timed segment; a barrier at
which one lane waits, in mode TRIGGER, or in ALL_THEN_TRIGGER with its set complete, releases it with cause TRIGGER,
and the lane goes on (R125 to R127). A barrier on another input, in mode ALL, in mode TRIGGER with no lane waiting, or
in ALL_THEN_TRIGGER with its set incomplete is no consumer. One in ALL_THEN_TRIGGER with an empty member set is one, by
the model's reading of R127's words (Log 13): its release tells the empty set and lets no lane go. -/
def Obligations.EdgesAreDeliveredToTheirConsumers : Prop :=
  ∀ (s : State) (i : Fin 4),
    let p := s.part
    let t := p.trigger i
    let pin := if t.sample = .high then Direction.rise else Direction.fall
    let forced := if t.qualified = .low then Direction.rise else Direction.fall
    let q := p.setTrigger i { t with qualified := t.sample }
    let captured := fun (r : Part) (d : Direction) (synthetic : Bool) =>
      if t.capture = true then r.notify (.capture i d synthetic) else r
    let due := p.resetPhase = .ended ∧ t.sample ≠ t.qualified ∧ t.sample = t.previous
    let delivers := fun (reached : Part → Part) =>
      (due → t.edges.admits pin = true → Does (.triggerEdge i) s (reached (captured q pin false))) ∧
      ∀ seq, p.Ready seq →
        Takes (.fireTrigger seq (byteOf i.val)) s (reached (captured p forced true)) (okWith (bytes32 p.timebase.count))
    let stays := fun b => (p.barrier b).trigger ≠ i ∨ (p.barrier b).mode = .all ∨
      ((p.barrier b).mode = .trigger ∧ (p.barrier b).arrived = 0) ∨
      ((p.barrier b).mode = .allThenTrigger ∧ (p.barrier b).arrived ≠ (p.barrier b).members)
    let started := fun (l : Fin 6) (g : Segment) (r : Part) =>
      (r.setLane l { p.lane l with state := .running, armed := none }).startTimed l g.body
    let emptied := fun (b : Fin 4) (lanes : LaneSet) (r : Part) =>
      (r.notify (.barrierReleased b .trigger lanes)).setBarrier b { p.barrier b with arrived := 0, counter := none }
    let freed := fun (b : Fin 4) (m : Fin 6) (r : Part) =>
      ((emptied b (single m) r).setLane m { p.lane m with state := .running }).retireHead m .completed
    (due → t.edges.admits pin = false → Does (.triggerEdge i) s q) ∧
    ((∀ b, stays b) →
      (p.armedOn i = 0 → delivers (fun r => r)) ∧
      ∀ (l : Fin 6) (g : Segment), p.armedOn i = single l → p.queueHead l = some g → g.isTimed = true →
        delivers (started l g)) ∧
    (∀ b, (∀ b', b' ≠ b → stays b') → (p.barrier b).trigger = i → (p.barrier b).mode = .allThenTrigger →
      (p.barrier b).members = 0 → (p.barrier b).arrived = 0 →
      (p.armedOn i = 0 → delivers (emptied b 0)) ∧
      ∀ (l : Fin 6) (g : Segment), p.armedOn i = single l → p.queueHead l = some g → g.isTimed = true →
        delivers (fun r => started l g (emptied b 0 r))) ∧
    ∀ (b : Fin 4) (m : Fin 6) (h : Segment), (∀ b', b' ≠ b → stays b') → (p.barrier b).trigger = i →
      (p.barrier b).arrived = single m →
      (p.barrier b).mode = .trigger ∨ ((p.barrier b).mode = .allThenTrigger ∧ (p.barrier b).members = single m) →
      (freed b m p).queueHead m = some h → h.isTimed = true →
      (p.armedOn i = 0 → delivers (fun r => (freed b m r).startTimed m h.body)) ∧
      ∀ (l : Fin 6) (g : Segment), p.armedOn i = single l → l ≠ m →
        ((freed b m p).startTimed m h.body).queueHead l = some g → g.isTimed = true →
        delivers (fun r => started l g ((freed b m r).startTimed m h.body))

/-- SET_BARRIER: refused by the first offending field, refused while the arrived set is not empty, and otherwise all
five settings are replaced (R132). -/
def Obligations.SetBarrierReplacesItsSettings : Prop :=
  ∀ (s : State) (seq barrier members mode trigger : Byte) (timeout : Word16) (action : Byte), s.part.Ready seq →
    let p := s.part
    let c := Instr.setBarrier seq barrier members mode trigger timeout action
    (3 < barrier.toNat → Refuses c s .badValue 1) ∧
    (barrier.toNat ≤ 3 → 63 < members.toNat → Refuses c s .badValue 2) ∧
    (barrier.toNat ≤ 3 → members.toNat ≤ 63 → 2 < mode.toNat → Refuses c s .badValue 3) ∧
    (barrier.toNat ≤ 3 → members.toNat ≤ 63 → mode.toNat ≤ 2 → 3 < trigger.toNat → Refuses c s .badValue 4) ∧
    (barrier.toNat ≤ 3 → members.toNat ≤ 63 → mode.toNat ≤ 2 → trigger.toNat ≤ 3 → 1 < action.toNat →
      Refuses c s .badValue 6) ∧
    ∀ (b : Fin 4) (m : LaneSet) (r : ReleaseMode) (i : Fin 4) (a : TimeoutAction), barrier.toNat = b.val →
      members = setByte m → mode = r.byte → trigger.toNat = i.val → action = a.byte →
      ((p.barrier b).arrived ≠ 0 → Refuses c s .wrongState 0) ∧
      ((p.barrier b).arrived = 0 →
        Takes c s (p.setBarrier b { p.barrier b with members := m, mode := r, trigger := i,
                                                     timeout := timeout.toNat, action := a })
          (okWith []))

/-- RELEASE_BARRIER (R130, R125): with an empty arrived set no effect; with one lane waiting, BARRIER_RELEASED with
cause REQUEST, the set emptied and the counter idle, the lane RUNNING, its BARRIER retired COMPLETED and its next timed
segment started at this tick. -/
def Obligations.ReleaseBarrierLetsTheLaneGo : Prop :=
  ∀ (s : State) (seq : Byte) (b : Fin 4), s.part.Ready seq →
    let p := s.part
    let tick := bytes32 p.timebase.count
    ((p.barrier b).arrived = 0 → Takes (.releaseBarrier seq (byteOf b.val)) s p (okWith (tick ++ [0]))) ∧
    ∀ (l : Fin 6) (g : Segment), (p.barrier b).arrived = single l →
      let q := (((p.notify (.barrierReleased b .request (single l))).setBarrier b
        { p.barrier b with arrived := 0, counter := none }).setLane l
          { p.lane l with state := .running }).retireHead l .completed
      q.queueHead l = some g → g.isTimed = true →
      Takes (.releaseBarrier seq (byteOf b.val)) s (q.startTimed l g.body) (okWith (tick ++ [setByte (single l)]))

/-- SET_FAULT with valid values (R148, R149): refused while the sticky flag is set; otherwise the four settings are
replaced, with qualified level and run count kept; where the input is then live ACTIVE in LATCH or CYCLE mode it acts
at once, here with an effective map that names no lane (FaultsActOnTheirLanes says what it does to lanes). That a
qualification due at this tick stays due only if the run count reaches the new filter length, and that a lower one
makes none due at this tick, is the model's choice (Log 17). -/
def Obligations.SetFaultReplacesItsSettings : Prop :=
  ∀ (s : State) (seq : Byte) (i : Fin 4) (level : Level) (filter : Byte) (mode : FaultMode) (lanes : LaneSet),
    s.part.Ready seq →
    let p := s.part
    let f := p.fault i
    let c := Instr.setFault seq (byteOf i.val) (levelByte level) filter mode.byte (setByte lanes)
    let f' := { f with activeLevel := level, filter := filter.toNat, mode := mode, lanes := lanes,
                       due := f.due && decide (filter.toNat ≤ f.run) }
    let q := p.setFault i { f' with sticky := true }
    let q := { q with firstFault :=
      if p.stickySet = 0 then some { input := i, stamp := p.timebase.count } else p.firstFault }
    1 ≤ filter.toNat → filter.toNat ≤ 15 →
    (f.sticky = true → Refuses c s .wrongState 0) ∧
    (f.sticky = false → f.qualified ≠ level ∨ mode = .off → Takes c s (p.setFault i f') (okWith [])) ∧
    (f.sticky = false → f.qualified = level → mode ≠ .off → lanes &&& ~~~p.mergedLanes = 0 →
      Takes c s
        (q.notify (.fault i mode 0))
        (okWith []))

/-- CLEAR_FAULT (R145, R146): refused for the lowest named input that is live ACTIVE in CYCLE or LATCH mode; otherwise
the named sticky flags and halt sources are cleared, each HALTED lane left with no source becomes STOPPED, the
first-fault record goes with the last sticky flag, and nothing else changes. -/
def Obligations.ClearFaultFreesTheLanes : Prop :=
  ∀ (s : State) (seq : Byte) (named : InputSet), s.part.Ready seq → named ≠ 0 →
    let p := s.part
    let active := fun i => inSet named i = true ∧ (p.fault i).mode ≠ .off ∧ (p.fault i).live = true
    (∀ i, active i → (∀ m < i, ¬active m) →
      Refuses (.clearFault seq (setByte named)) s .stillActive (byteOf i.val)) ∧
    ((∀ i, ¬active i) → ∃ q : Part,
      Takes (.clearFault seq (setByte named)) s q (okWith [setByte q.stickySet, setByte (p.freedBy named)]) ∧
      q = { p with faults := q.faults, lanes := q.lanes, firstFault := q.firstFault } ∧
      (∀ i, q.fault i = { p.fault i with sticky := (p.fault i).sticky && !inSet named i }) ∧
      (∀ l, q.lane l = { p.lane l with
        haltSources := (p.lane l).haltSources &&& ~~~named,
        state := if (p.lane l).state = .halted ∧ (p.lane l).haltSources &&& ~~~named = 0 then .stopped
                 else (p.lane l).state }) ∧
      q.firstFault = if q.stickySet = 0 then none else p.firstFault)

/-- UNKNOWN_REQUEST: a code that names no request is answered so, and nothing changes (R160, R192). A request frame
whose payload has not the length of its code, as it comes at its FRAME_COMPLETE, is answered BAD_LENGTH with detail 0,
and nothing else changes (R160, R192). -/
def Obligations.UnknownRequestsAreAnswered : Prop :=
  (∀ (s : State) (seq code : Byte) (payload : List Byte), s.part.Ready seq →
    (Instr.unknownRequest seq code payload).wf = true →
    Refuses (.unknownRequest seq code payload) s .unknownRequest 0) ∧
  ∀ (s : State) (seq code high low : Byte) (payload : List Byte), s.part.Ready seq →
    let p := s.part
    let len := byteOf (payload.length + 3)
    let q := { p with link := { p.link with rx := .hunting, gap := none } }
    let lengths : List (Byte × Nat) :=
      [(0x01, 0), (0x02, 0), (0x03, 0), (0x04, 1), (0x05, 2), (0x10, 1), (0x11, 8), (0x20, 5), (0x21, 1), (0x22, 3),
       (0x23, 1), (0x24, 1), (0x25, 0), (0x31, 2), (0x32, 2), (0x33, 5), (0x34, 1), (0x35, 6), (0x40, 1), (0x42, 1),
       (0x43, 1), (0x44, 0), (0x50, 3), (0x51, 1), (0x52, 0), (0x60, 7), (0x61, 1), (0x62, 1), (0x70, 5), (0x71, 1),
       (0x72, 0)]
    p.link.rx = .inFrame (len :: 1 :: seq :: code :: (payload ++ [high, low])) → payload.length ≤ 240 →
    crc16 (len :: 1 :: seq :: code :: payload) = high ++ low →
    (∃ n, (code, n) ∈ lengths ∧ payload.length ≠ n) ∨
      ((code = 0x30 ∨ code = 0x41) ∧ ∀ n, 1 ≤ n → n ≤ 16 → payload.length ≠ 1 + 12 * n) →
    Becomes .frameComplete s (Part.driveLines
      (q.replied { seq := seq, code := code, payload := payload, crc := high ++ low }
        { status := .badLength, detail := 0, body := [] }))

/-- The checks before those of a request (R158, R161, R162): an UNSYNCED link answers NOT_SYNCED and keeps the cache; a
repeat of the cached request gets its reply and is not executed; its SEQ with another CRC is SEQ_REUSED; a third
request waiting in the buffer is dropped and counted. -/
def Obligations.RequestsPassTheFirstChecks : Prop :=
  ∀ (s : State) (c : Instr) (f : RequestFrame), s.part.resetPhase = .ended → requestOf c = some f →
    let p := s.part
    let placed := fun (r : Reply) => { p with link := { p.link with
      slot := if p.link.tx.isSome then some r else none,
      tx := if p.link.tx.isSome then p.link.tx else some r.frame } }
    let overrun := if p.link.counters.overrun = 255 then 255 else p.link.counters.overrun + 1
    (p.link.dispatchStopped = false → p.link.buffer = [] → p.link.slot = none →
      (p.link.synced = false → f.code ≠ 0x01 →
        Becomes c s (Part.driveLines (placed
          { seq := f.seq, code := f.code, answer := { status := .notSynced, detail := 0, body := [] },
            resets := false }))) ∧
      ∀ e, p.link.synced = true → p.link.cache = some e → e.seq = f.seq →
        (e.crc = f.crc → Becomes c s (Part.driveLines (placed e.reply))) ∧
        (e.crc ≠ f.crc → Becomes c s (Part.driveLines (placed
          { seq := f.seq, code := f.code, answer := { status := .seqReused, detail := e.reply.code, body := [] },
            resets := false })))) ∧
    (p.link.buffer.length = 2 → p.link.slot.isSome = true → p.link.tx.isSome = true →
      Becomes c s (Part.driveLines
        { p with link := { p.link with counters := { p.link.counters with overrun := overrun } } }))

/-! ## Receiver and transmitter -/

/-- FRAME_COMPLETE (R153, R156, R157): the receiver returns to HUNTING with the gap timer stopped; a frame whose CRC
does not match is counted, and one that matches is sorted by its TYPE. -/
def Obligations.CompleteFramesAreSorted : Prop :=
  ∀ (s : State) (len type seq code : Byte) (payload : List Byte) (high low : Byte), s.part.resetPhase = .ended →
    let p := s.part
    let k := { p.link with rx := RxState.hunting, gap := none }
    let q := { p with link := k }
    let crc := crc16 (len :: type :: seq :: code :: payload)
    let up := fun (b : Byte) => if b = 255 then (255 : Byte) else b + 1
    p.link.rx = .inFrame (len :: type :: seq :: code :: (payload ++ [high, low])) → len.toNat = payload.length + 3 →
    len.toNat ≤ 243 →
    (crc ≠ high ++ low →
      Does .frameComplete s { p with link := { k with counters := { k.counters with crc := up k.counters.crc } } }) ∧
    (crc = high ++ low →
      (type = 1 → p.link.buffer.length < 2 →
        Does .frameComplete s { p with link := { k with buffer := k.buffer ++
          [{ seq := seq, code := code, payload := payload, crc := high ++ low }] } }) ∧
      (type = 4 → len = 3 → ∀ u, p.notif.acknowledge seq p.link.interval p.timebase.count = some u →
        Does .frameComplete s { q with notif := u }) ∧
      (type = 4 → len = 3 → p.notif.acknowledge seq p.link.interval p.timebase.count = none →
        Does .frameComplete s
          { p with link := { k with counters := { k.counters with strayAck := up k.counters.strayAck } } }) ∧
      (type = 4 → len ≠ 3 → Does .frameComplete s
        { p with link := { k with counters := { k.counters with length := up k.counters.length } } }) ∧
      (type ≠ 1 → type ≠ 4 → Does .frameComplete s
        { p with link := { k with counters := { k.counters with type := up k.counters.type } } }))

/-- An acknowledgement (R178, R184): an entry IN_FLIGHT under the number, the first such, is removed with the entries
before it; the expiry count is 0, the channel RUNNING, the timer restarted or stopped. Where the queue then has room
and the tally is not empty, the LOST entry, PENDING and stamped with this tick, carries its count and kinds, and the
tally is empty (R174). A number that no entry is IN_FLIGHT under is stray (R179). -/
def Obligations.AcknowledgementIsCumulative : Prop :=
  ∀ (u : NotificationUnit) (older newer : List Entry) (e : Entry) (number : Byte) (mark : Bool) (interval : Nat)
    (stamp : Tick), u.queue = older ++ e :: newer → e.status = .inFlight number mark →
    (∀ d ∈ older, ∃ m b, d.status = .inFlight m b ∧ m ≠ number) →
    let timer := if ∃ d ∈ newer, d.inFlight = true then some (80000 * interval) else none
    (newer.length < 32 → u.lostCount ≠ 0 ∨ u.lostKinds ≠ 0 →
      u.acknowledge number interval stamp = some
        { u with queue := newer ++ [{ what := .lost u.lostCount u.lostKinds, stamp := stamp, status := .pending }],
                 lostCount := 0, lostKinds := 0, expiries := 0, channel := .running, timer := timer }) ∧
    (32 ≤ newer.length ∨ (u.lostCount = 0 ∧ u.lostKinds = 0) →
      u.acknowledge number interval stamp = some
        { u with queue := newer, expiries := 0, channel := .running, timer := timer }) ∧
    ∀ other, (∀ d ∈ u.queue, ∀ b, d.status ≠ .inFlight other b) → u.acknowledge other interval stamp = none

/-- BYTE_RECEIVED (R152, R153): a byte whose start bit has been accepted is taken, and so is any other unless the
receiver awaits an idle line that has not come; in HUNTING, SOF begins a frame and any other byte is dropped, and in a
frame whose end or length error is not due the byte joins it; a LOW stop bit makes the receiver await an idle line.
LENGTH_ERROR and GAP_TIMEOUT (R154, R155): the partial frame is dropped, the counter rises, the receiver hunts and the
gap timer is stopped. That a byte comes as one command, and its start bit with a TICK or with it, is the model's choice
(Logs 8 and 9). -/
def Obligations.BytesAreHuntedJoinedOrDropped : Prop :=
  ∀ (s : State), s.part.resetPhase = .ended →
    let p := s.part
    let k := { p.link with rx := RxState.hunting, gap := none }
    let up := fun (b : Byte) => if b = 255 then (255 : Byte) else b + 1
    (∀ (data : Byte) (stopBit : Level) (idle : Bool),
      let taken := { p.link with receiving := false, awaitsIdle := decide (stopBit = .low) }
      (p.link.receiving = false → p.link.awaitsIdle = true → idle = false →
        Does (.byteReceived data stopBit idle) s p) ∧
      (p.link.receiving = true ∨ p.link.awaitsIdle = false ∨ idle = true →
        (p.link.rx = .hunting → data ≠ 0x5A → Does (.byteReceived data stopBit idle) s { p with link := taken }) ∧
        (p.link.rx = .hunting → data = 0x5A →
          Does (.byteReceived data stopBit idle) s { p with link := { taken with rx := .inFrame [], gap := some 0 } }) ∧
        (∀ bytes, p.link.rx = .inFrame bytes → p.link.lengthDue = false → p.link.frameDue = false →
          Does (.byteReceived data stopBit idle) s
            { p with link := { taken with rx := .inFrame (bytes ++ [data]), gap := some 0 } }))) ∧
    (∀ len, p.link.rx = .inFrame [len] → len.toNat < 3 ∨ 243 < len.toNat →
      Does .lengthError s
        { p with link := { k with counters := { k.counters with length := up k.counters.length } } }) ∧
    (∀ bytes n, p.link.rx = .inFrame bytes → p.link.gap = some n → 160000 ≤ n →
      Does .gapTimeout s { p with link := { k with counters := { k.counters with gap := up k.counters.gap } } })

/-- FRAME_SENT (R164, R175): the transmitter passes to the waiting reply; with none waiting, to the oldest entry marked
for resend, under its number, and with none marked and fewer than 4 IN_FLIGHT to the oldest PENDING entry, which takes
the next number and starts an idle timer; with the link UNSYNCED or the channel STALLED it falls idle. The frame of a
reply holds its request's SEQ and CODE, status, detail and payload (R194), that of an entry its number, the code of its
kind, subject, timestamp and fields (R177, R196), between SOF and LEN and the CRC (R188). -/
def Obligations.TransmitterPassesToTheNextFrame : Prop :=
  (let frame := fun (type seq code : Byte) (payload : List Byte) =>
     let body := byteOf (3 + payload.length) :: type :: seq :: code :: payload
     let crc := (crc16 body).toNat
     0x5A :: (body ++ [byteOf (crc / 256), byteOf crc])
   let two := fun (n : Nat) => [byteOf (n / 256), byteOf n]
   let origin := fun (k : Option (Fin 8)) => match k with | some k => [1, byteOf k.val] | none => [0, 0]
   (∀ r : Reply, r.frame.bytes = frame 2 r.seq r.code (r.answer.status.byte :: r.answer.detail :: r.answer.body)) ∧
   ∀ (e : Entry) (number : Byte),
     let t := e.stamp.toNat
     let holds := fun (code subject : Byte) (fields : List Byte) =>
       (e.frame number).bytes = frame 3 number code
         (subject :: [byteOf (t / 16777216), byteOf (t / 65536), byteOf (t / 256), byteOf t] ++ fields)
     match e.what with
     | .segmentTag l tag outcome k => holds 1 (byteOf l.val) ([tag, outcome.byte] ++ origin k)
     | .markReached l tag k => holds 2 (byteOf l.val) ([tag] ++ origin k)
     | .underrun l b => holds 3 (byteOf l.val) [b.byte]
     | .watermark l n => holds 4 (byteOf l.val) (two n)
     | .laneStopped l cause n => holds 5 (byteOf l.val) ([cause.byte] ++ two n)
     | .fault i mode lanes => holds 6 (byteOf i.val) [mode.byte, setByte lanes]
     | .barrierReleased b cause lanes => holds 7 (byteOf b.val) [cause.byte, setByte lanes]
     | .barrierPass l b => holds 8 (byteOf l.val) [byteOf b.val]
     | .trimDropped l => holds 9 (byteOf l.val) []
     | .capture i d synthetic => holds 10 (byteOf i.val) [d.byte, flagByte synthetic]
     | .patternMissing l k => holds 11 (byteOf l.val) [byteOf k.val]
     | .lost n kinds => holds 12 0 (two n ++ two kinds.toNat)) ∧
  ∀ (s : State) (sent : TxFrame), s.part.resetPhase = .ended →
    let p := s.part
    p.link.tx = some sent → sent.resets = false → p.link.buffer = [] →
    (∀ r, p.link.slot = some r →
      Becomes .frameSent s (Part.driveLines { p with link := { p.link with tx := some r.frame, slot := none } })) ∧
    (p.link.slot = none → p.link.synced = false ∨ p.notif.channel = .stalled →
      Becomes .frameSent s (Part.driveLines { p with link := { p.link with tx := none } })) ∧
    (p.link.slot = none → p.link.synced = true → p.notif.channel = .running →
      (∀ older e newer n, p.notif.queue = older ++ e :: newer → e.status = .inFlight n true →
        (∀ d ∈ older, ∀ m, d.status ≠ .inFlight m true) →
        Becomes .frameSent s (Part.driveLines
          { p with
            link := { p.link with tx := some (e.frame n) },
            notif := { p.notif with queue := older ++ { e with status := .inFlight n false } :: newer } })) ∧
      (∀ older e newer, p.notif.queue = older ++ e :: newer → e.status = .pending → older.length < 4 →
        (∀ d ∈ older, ∃ m, d.status = .inFlight m false) → (∀ d ∈ newer, d.status = .pending) →
        Becomes .frameSent s (Part.driveLines
          { p with
            link := { p.link with tx := some (e.frame p.notif.nextNumber) },
            notif := { p.notif with
              queue := older ++ { e with status := .inFlight p.notif.nextNumber false } :: newer,
              nextNumber := p.notif.nextNumber + 1,
              timer := if p.notif.timer.isSome then p.notif.timer else some (p.link.interval * 80000) } })))

/-! ## Resets -/

/-- The resets (R168, R169): POWER_ON_RESET, RESETN going LOW, and the end of the reply to a RESET each put every block
at its reset values with the cause that began the reset; a pin reset during a reset leaves its cause; at the end the
straps and first samples are taken. The model's choices are: the straps kept and the input pins LOW while the reset
lasts, a power-on or pin reset that lasts until RESET_END, and RESET_END as the moment RESETN is HIGH (Logs 5 and 22).
-/
def Obligations.ResetsBeginAndEnd : Prop :=
  ∀ (s : State) (straps : Straps) (first : Pins) (sent : TxFrame),
    let p := s.part
    Becomes .powerOnReset s (Part.atReset .powerOn p.link.straps Pins.allLow (.held 0) p.resetPin) ∧
    (p.resetPhase = .ended → Becomes .pinReset s (Part.atReset .pin p.link.straps Pins.allLow (.held 0) .low)) ∧
    (p.resetPhase ≠ .ended → Becomes .pinReset s { p with resetPin := .low }) ∧
    (p.resetPhase = .ended → p.link.tx = some sent → sent.resets = true →
      Becomes .frameSent s (Part.atReset .request p.link.straps Pins.allLow (.held 1024) p.resetPin)) ∧
    (p.resetPhase = .held 0 →
      Becomes (.resetEnd straps first) s (Part.atReset p.link.resetCause straps first .ended .high))

/-- The values after a reset of any cause (R17, R55, R86, R113, R122, R134, R151, R170, R187). That no byte is being
received then is the model's reading of R170 (Log 8). -/
def Obligations.ResetValuesAreThoseOfTheTables : Prop :=
  ∀ (cause : ResetCause) (straps : Straps) (first : Pins) (phase : ResetPhase) (pin : Level),
    let p := Part.atReset cause straps first phase pin
    p.timebase.prescale = .by1 ∧ p.timebase.count = 0 ∧
    (∀ k, (p.pair k).mode = .independent ∧ (p.pair k).deadA = 0 ∧ (p.pair k).deadB = 0) ∧
    (∀ o, (p.line o).polarity = .activeHigh ∧ (p.line o).safeLevel = .low ∧ (p.line o).wasRequested = false ∧
      (p.line o).since = none ∧ p.out o = .low) ∧
    p.store = [] ∧ p.freeSlots = 2048 ∧
    (∀ r, p.region r = { defined := false, start := 0, size := 0, binding := .none, head := 0, count := 0,
                         loaded := 0 }) ∧
    (∀ l, p.lane l = { state := .unbound, remaining := 0, call := none, primary := 0, alternate := none, trim := none,
                       record := none, period := none, starve := .safe, armed := none, stopCause := .none,
                       suppressed := false, sense := .low, haltSources := 0, policy := .safe, lowWater := 0,
                       linkLoss := .continue }) ∧
    (∀ k, p.pattern k = { state := .unassigned, useCount := 0 }) ∧
    (∀ i, (p.trigger i).edges = .none ∧ (p.trigger i).capture = false ∧
      (p.trigger i).qualified = pinLevel first.trg i ∧ (p.trigger i).previous = pinLevel first.trg i) ∧
    (∀ b, p.barrier b = { members := 0, arrived := 0, mode := .all, trigger := 0, timeout := 0, action := .release,
                          counter := none }) ∧
    (∀ i, (p.fault i).activeLevel = .high ∧ (p.fault i).filter = 3 ∧ (p.fault i).mode = .off ∧
      (p.fault i).lanes = 0 ∧ (p.fault i).qualified = pinLevel first.flt i ∧ (p.fault i).run = 0 ∧
      (p.fault i).sticky = false) ∧
    p.firstFault = none ∧
    p.notif = { queue := [], lostCount := 0, lostKinds := 0, nextNumber := 0, timer := none, expiries := 0,
                channel := .running } ∧
    p.link.rx = .hunting ∧ p.link.awaitsIdle = true ∧ p.link.receiving = false ∧ p.link.gap = none ∧
    p.link.buffer = [] ∧
    p.link.slot = none ∧ p.link.synced = false ∧ p.link.cache = none ∧ p.link.interval = 20 ∧
    p.link.stallLimit = 8 ∧ p.link.resetCause = cause ∧
    p.link.counters = { crc := 0, length := 0, gap := 0, type := 0, overrun := 0, strayAck := 0, retransmit := 0 }

/-! ## Faults and barriers -/

/-- A qualification to active in LATCH or CYCLE mode (R136, R137, R139, R140, R142), for an input whose map, MERGED
lanes apart, holds no lane or one: the qualified level, the first-fault record, the sticky flag and FAULT; then CYCLE
sets the lane's suppression flag, whatever its state, and LATCH acts by it. A playing lane is HALTED at once with the
input as its halt source and leaves the arrived set it is in (R83, R131); of what it played, a BARRIER is ABANDONED, a
segment is retired, COMPLETED where its last period is over and ABANDONED otherwise, a CALL ends as at a hard stop
(R65, R111), and a held period retires nothing. A HALTED lane gains the input as a halt source; a STOPPED or UNBOUND
lane is not changed. In mode OFF, and in a qualification to inactive, only the qualified level and the run count change
(R135). -/
def Obligations.FaultsActOnTheirLanes : Prop :=
  ∀ (s : State) (i : Fin 4), s.part.resetPhase = .ended → (s.part.fault i).due = true →
    let p := s.part
    let f := p.fault i
    let g := { f with qualified := f.sample, run := 0, due := false }
    let q := p.setFault i { g with sticky := true }
    let q := { q with firstFault :=
      if p.stickySet = 0 then some { input := i, stamp := p.timebase.count } else p.firstFault }
    let acts := Does (.faultQualifyActive i) s
    let maps := fun m => inSet f.lanes m = true ∧ (p.lane m).state ≠ .merged
    (f.sample ≠ f.activeLevel → Does (.faultQualifyInactive i) s (p.setFault i g)) ∧
    (f.sample = f.activeLevel → f.mode = .off → acts (p.setFault i g)) ∧
    (f.sample = f.activeLevel → f.mode ≠ .off → (∀ m, ¬maps m) → acts (q.notify (.fault i f.mode 0))) ∧
    ∀ l : Fin 6, f.sample = f.activeLevel → (∀ m, maps m ↔ m = l) →
      let x := p.lane l
      (f.mode = .cycle → acts ((q.notify (.fault i .cycle (single l))).setLane l { x with suppressed := true })) ∧
      (f.mode = .latch →
        let told := q.notify (.fault i .latch (single l))
        let left := { told with barriers := p.barriers.map (fun (b : Barrier) =>
          if inSet b.arrived l = true then
            { b with arrived := b.arrived &&& ~~~single l,
                     counter := if b.arrived &&& ~~~single l = 0 then none else b.counter }
          else b) }
        let halts := fun (r : Part) => acts (r.setLane l
          { x with state := .halted, remaining := 0, call := none, primary := 0, alternate := none, trim := none,
                   period := none, armed := none, stopCause := .none, haltSources := single i })
        (x.state = .armed ∨ x.state = .starved → halts left) ∧
        (x.state = .waiting → x.period = none → x.call = none → halts (left.retireHead l .abandoned)) ∧
        (∀ d, x.state = .running ∨ x.state = .stopping → x.period = some d →
          (d.held = true → halts left) ∧
          (d.held = false → x.call = none → halts (left.retireHead l
            (if d.shape.length ≤ d.phase ∧ x.remaining ≤ 1 then .completed else .abandoned))) ∧
          ∀ c h, d.held = false → x.call = some c → p.patternSegment c.pattern c.index = some h →
            let ended := d.shape.length ≤ d.phase ∧ c.remaining ≤ 1
            let last := ∀ j g, c.index < j → j < p.loadedLength c.pattern → p.patternSegment c.pattern j = some g →
              g.isTimed = false
            let spoken := match h.tag with
              | some t => left.notify (.segmentTag l t (if ended then .completed else .abandoned) (some c.pattern))
              | none => left
            let r := spoken.setPattern c.pattern
              { p.pattern c.pattern with useCount := (p.pattern c.pattern).useCount - 1 }
            (ended → c.plays ≤ 1 → last → halts (r.retireHead l .completed)) ∧
            (¬ended ∨ 1 < c.plays ∨ ¬last → halts (r.retireHead l .abandoned))) ∧
        (x.state = .halted → acts (told.setLane l { x with haltSources := x.haltSources ||| single i })) ∧
        (x.state = .stopped ∨ x.state = .unbound → acts told))

/-- BARRIER_TIMEOUT (R128, R129, R131) with one lane waiting: with action RELEASE the lane goes on as from any release,
with cause TIMEOUT; with action STOP the lane's BARRIER is ABANDONED, the lane STOPPED and out of every arrived set,
and LANE_STOPPED reports the cause BARRIER_TIMEOUT and the count left. -/
def Obligations.BarrierTimeoutActs : Prop :=
  ∀ (s : State) (b : Fin 4) (l : Fin 6) (f : Tick) (g : Segment), s.part.resetPhase = .ended →
    let p := s.part
    let x := p.barrier b
    x.counter = some f → 0 < x.timeout → 1024 * x.timeout ≤ (p.timebase.count - f).toNat → x.arrived = single l →
    (x.action = .release →
      let q := (((p.notify (.barrierReleased b .timeout (single l))).setBarrier b
        { x with arrived := 0, counter := none }).setLane l { p.lane l with state := .running }).retireHead l .completed
      q.queueHead l = some g → g.isTimed = true → Does (.barrierTimeout b) s (q.startTimed l g.body)) ∧
    (x.action = .stop → (p.lane l).state = .waiting → (p.lane l).call = none → (p.lane l).period = none →
      let told := p.notify (.barrierReleased b .timeoutStop (single l))
      let left := { told with barriers := p.barriers.map (fun (b : Barrier) =>
        if inSet b.arrived l = true then
          { b with arrived := b.arrived &&& ~~~single l,
                   counter := if b.arrived &&& ~~~single l = 0 then none else b.counter }
        else b) }
      let q := (left.retireHead l .abandoned).setLane l
        { p.lane l with state := .stopped, remaining := 0, call := none, primary := 0, alternate := none,
                        trim := none, period := none, armed := none, stopCause := .none }
      Does (.barrierTimeout b) s (q.notify (.laneStopped l .barrierTimeout (q.queueCount l))))

/-! ## Lanes in play -/

/-- PERIOD_BOUNDARY (R88, R91, R97, R143): the remaining repeats, those of the call position inside a CALL, fall by 1,
a staged trim comes into force, the sense input is sampled where R96 says, the period begins anew with the on-time
chosen, the record is written and the suppression flag follows the CYCLE inputs. Nothing else changes. That a LEVEL
takes no sense sample is the model's reading (Log 29). -/
def Obligations.BoundaryBeginsTheNextPeriod : Prop :=
  ∀ (s : State) (l : Fin 6) (d : Period), s.part.resetPhase = .ended →
    let p := s.part
    let x := p.lane l
    let y := match x.call with
      | some c => { x with call := some { c with remaining := c.remaining - 1 } }
      | none => { x with remaining := x.remaining - 1 }
    x.state = .running → x.period = some d → d.held = false → d.shape.length ≤ d.phase →
    (∀ c, x.call = some c → 1 < c.remaining) → (x.call = none → 1 < x.remaining) →
    (∀ unit code, d.shape = .level unit code →
      Does (.periodBoundary l) s (p.setLane l { y with
        suppressed := p.cycleActive l,
        period := some { shape := .level unit code, onTime := 0, phase := 0, held := false },
        record := some (.level unit code) })) ∧
    (∀ period a primary alternate, d.shape = .pulse period a →
      (x.trim = none → primary = x.primary ∧ alternate = x.alternate) →
      (∀ t, x.trim = some t → primary = t.onTime ∧
        alternate = if t.alternate.isSome = true then t.alternate else x.alternate) →
      let sampled := l = evenLane (pairOf l) ∧ (p.pair (pairOf l)).mode = .complementary ∧ alternate.isSome = true
      let sns := pinLevel p.sensePins (pairOf l)
      Does (.periodBoundary l) s (p.setLane l { y with
        trim := none, primary := primary, alternate := alternate,
        sense := if sampled then sns else x.sense,
        suppressed := p.cycleActive l,
        period := some { shape := .pulse period a, phase := 0, held := false,
                         onTime := if sampled ∧ sns = .high then alternate.getD primary else primary },
        record := some (.pulse period a primary alternate) }))

/-- JOIN (R29, R30, R32, R66, R70, R109): a trim still staged is dropped with TRIM_DROPPED. After a queue segment, that
segment is retired COMPLETED; after a held period nothing is retired: that JOIN takes the end of a held period which an
APPEND has let play out is the model's reading (Log 6). The head of the queue is then processed by its kind, as
QueueHeadIsProcessedByItsKind says: a timed segment starts at this tick, a MARK is reported and retired, a BARRIER is
passed or waited at, a CALL entered or MISSED. An empty queue makes the lane STARVED with UNDERRUN, under HOLD with its
first held period begun where the policy is HOLD_LAST and there is a record, and under SAFE otherwise. After a pattern
segment, that segment is reported; the next one of the pattern, if timed, starts at this tick, and if a MARK it is
reported and the one after it starts; after the last one a further play starts with the first, and after the last play
the CALL is retired COMPLETED, the use count falls, and a timed segment at the head of the queue starts. -/
def Obligations.JoinGoesOnOrStarves : Prop :=
  ∀ (s : State) (l : Fin 6) (d : Period), s.part.resetPhase = .ended →
    let p := s.part
    let x := p.lane l
    let joins := Does (.join l) s
    let p0 := if x.trim.isSome = true then (p.setLane l { x with trim := none }).notify (.trimDropped l) else p
    let y := { x with trim := none, remaining := 0, primary := 0, alternate := none, period := none }
    x.state = .running → x.period = some d → d.shape.length ≤ d.phase →
    (∀ q, (d.held = false → x.call = none ∧ x.remaining ≤ 1 ∧ q = (p0.setLane l y).retireHead l .completed) →
      (d.held = true → q = p0.setLane l { y with call := none }) →
      let starved := fun b => q.setLane l { y with call := none, state := .starved, starve := b }
      (∀ g, q.queueHead l = some g → g.isTimed = true → joins (q.startTimed l g.body)) ∧
      (q.queueHead l = none → x.policy = .safe ∨ x.record = none → joins ((starved .safe).notify (.underrun l .safe))) ∧
      (q.queueHead l = none → x.policy = .holdLast → x.record.isSome = true →
        joins (((starved .hold).beginHeld l).notify (.underrun l .hold))) ∧
      ∀ g, q.queueHead l = some g →
        (∀ t h, g.tag = some t → g.body = .mark →
          let r := (q.notify (.markReached l t none)).retireHead l .completed
          r.queueHead l = some h → h.isTimed = true → joins (r.startTimed l h.body)) ∧
        (∀ b h, g.body = .barrier b → inSet (p.barrier b).members l = false →
          let r := (q.notify (.barrierPass l b)).retireHead l .completed
          r.queueHead l = some h → h.isTimed = true → joins (r.startTimed l h.body)) ∧
        (∀ b, g.body = .barrier b → inSet (p.barrier b).members l = true →
          (p.barrier b).mode ≠ .all ∨ (p.barrier b).arrived ||| single l ≠ (p.barrier b).members →
          joins ((q.setLane l { y with call := none, state := .waiting }).setBarrier b
            { p.barrier b with
              arrived := (p.barrier b).arrived ||| single l,
              counter := if (p.barrier b).arrived ≠ 0 then (p.barrier b).counter
                         else if (p.barrier b).timeout = 0 then none else some p.timebase.count })) ∧
        (∀ k plays h, g.body = .call k plays → (p.pattern k).state = .ready → q.patternSegment k 0 = some h →
          h.isTimed = true →
          joins (((q.setPattern k { p.pattern k with useCount := (p.pattern k).useCount + 1 }).setLane l
            { y with call := some { pattern := k, plays := plays, index := 0, remaining := 0 } }).startTimed l
              h.body)) ∧
        (∀ k plays h, g.body = .call k plays → (p.pattern k).state ≠ .ready →
          let r := (q.notify (.patternMissing l k)).retireHead l .missed
          r.queueHead l = some h → h.isTimed = true → joins (r.startTimed l h.body))) ∧
    ∀ c h, x.call = some c → c.remaining ≤ 1 → d.held = false → p.patternSegment c.pattern c.index = some h →
      let told := match h.tag with
        | some t => p0.notify (.segmentTag l t .completed (some c.pattern))
        | none => p0
      let stands := fun (plays index : Nat) =>
        { y with call := some { c with plays := plays, index := index, remaining := 0 } }
      (∀ g, c.index + 1 < p.loadedLength c.pattern → p.patternSegment c.pattern (c.index + 1) = some g →
        g.isTimed = true → joins ((told.setLane l (stands c.plays (c.index + 1))).startTimed l g.body)) ∧
      (∀ m t g, c.index + 2 < p.loadedLength c.pattern → p.patternSegment c.pattern (c.index + 1) = some m →
        m.tag = some t → m.body = .mark → p.patternSegment c.pattern (c.index + 2) = some g → g.isTimed = true →
        let marked := (told.notify (.markReached l t (some c.pattern))).notify
          (.segmentTag l t .completed (some c.pattern))
        joins ((marked.setLane l (stands c.plays (c.index + 2))).startTimed l g.body)) ∧
      (∀ g, p.loadedLength c.pattern ≤ c.index + 1 → 1 < c.plays → p.patternSegment c.pattern 0 = some g →
        g.isTimed = true → joins ((told.setLane l (stands (c.plays - 1) 0)).startTimed l g.body)) ∧
      (p.loadedLength c.pattern ≤ c.index + 1 → c.plays ≤ 1 →
        let q := ((told.setLane l { y with call := none }).setPattern c.pattern
          { p.pattern c.pattern with useCount := (p.pattern c.pattern).useCount - 1 }).retireHead l .completed
        ∀ g, q.queueHead l = some g → g.isTimed = true → joins (q.startTimed l g.body))

/-- A held period (R68, R98) repeats the lane's record, which is not rewritten: the record's shape, and its on-times in
force, with the sense input sampled where there is an alternate and the lane drives a complementary pair, and the
suppression flag as at any boundary. HELD_BOUNDARY begins one in a lane STARVED under HOLD. That a LEVEL takes no sense
sample is the model's reading (Log 29). -/
def Obligations.HeldPeriodRepeatsTheRecord : Prop :=
  (∀ (p : Part) (l : Fin 6),
    let x := p.lane l
    (∀ unit code, x.record = some (.level unit code) →
      p.beginHeld l = p.setLane l { x with
        primary := 0, alternate := none, suppressed := p.cycleActive l,
        period := some { shape := .level unit code, onTime := 0, phase := 0, held := true } }) ∧
    (∀ period a primary alternate, x.record = some (.pulse period a primary alternate) →
      let sampled := l = evenLane (pairOf l) ∧ (p.pair (pairOf l)).mode = .complementary ∧ alternate.isSome = true
      let sns := pinLevel p.sensePins (pairOf l)
      p.beginHeld l = p.setLane l { x with
        primary := primary, alternate := alternate,
        sense := if sampled then sns else x.sense,
        suppressed := p.cycleActive l,
        period := some { shape := .pulse period a, phase := 0, held := true,
                         onTime := if sampled ∧ sns = .high then alternate.getD primary else primary } })) ∧
  ∀ (s : State) (l : Fin 6) (d : Period), s.part.resetPhase = .ended →
    (s.part.lane l).state = .starved → (s.part.lane l).starve = .hold → (s.part.lane l).period = some d →
    d.shape.length ≤ d.phase → Does (.heldBoundary l) s (s.part.beginHeld l)

/-- SOFT_STOP_COMPLETE (R75, R76, R78, R80): a trim still staged is dropped with TRIM_DROPPED. A queue segment is
retired, COMPLETED if its last period was the one played and ABANDONED otherwise; after a held period nothing is
retired; inside a CALL the pattern segment is reported in the same way, the use count falls, and the CALL is retired,
COMPLETED if that was the last timed segment of the last play and ABANDONED otherwise. The lane is STOPPED, and
LANE_STOPPED reports the stop cause and the count left. -/
def Obligations.SoftStopCompletes : Prop :=
  ∀ (s : State) (l : Fin 6) (d : Period), s.part.resetPhase = .ended →
    let p := s.part
    let x := p.lane l
    let p0 := if x.trim.isSome = true then (p.setLane l { x with trim := none }).notify (.trimDropped l) else p
    let ends := fun (q : Part) =>
      let r := q.setLane l { x with state := .stopped, remaining := 0, call := none, primary := 0, alternate := none,
                                    trim := none, period := none, armed := none, stopCause := .none }
      Does (.softStopComplete l) s (r.notify (.laneStopped l x.stopCause (r.queueCount l)))
    x.state = .stopping → x.period = some d → d.shape.length ≤ d.phase →
    (d.held = true → ends p0) ∧
    (d.held = false → x.call = none →
      ends (p0.retireHead l (if x.remaining ≤ 1 then .completed else .abandoned))) ∧
    ∀ c h, d.held = false → x.call = some c → p.patternSegment c.pattern c.index = some h →
      let last := ∀ i g, c.index < i → i < p.loadedLength c.pattern → p.patternSegment c.pattern i = some g →
        g.isTimed = false
      let told := match h.tag with
        | some t => p0.notify
            (.segmentTag l t (if c.remaining ≤ 1 then .completed else .abandoned) (some c.pattern))
        | none => p0
      let q := told.setPattern c.pattern
        { p.pattern c.pattern with useCount := (p.pattern c.pattern).useCount - 1 }
      (c.remaining ≤ 1 → c.plays ≤ 1 → last → ends (q.retireHead l .completed)) ∧
      (1 < c.remaining ∨ 1 < c.plays ∨ ¬last → ends (q.retireHead l .abandoned))

/-! ## Output stages, time and the retransmit timer -/

/-- Tick t of a PULSE period lies in the active run that the alignment places (R5), and the demand is TOP in it and
BOTTOM outside it; a LEVEL gives the demand of its code at every tick (R6). An INDEPENDENT pair: each line follows its
own lane's demand through its polarity, and is at its safe level without one (R7). A COMPLEMENTARY pair: a line that is
not requested is inactive at once (R8, R10); with deadtime 0 a requested line is active at once; with deadtime D it is
inactive while the delay runs, and becomes active at the D-th tick after its activation, when the delayed activation is
taken, and at every later tick while it stays requested (R10, R11; that the activation is a command is Log 19). D is
the deadtime in force at the tick, also where a SET_PAIR changed it within the request: the model's choice (Log 32). A
lane hands its demand to its lines while it is RUNNING, STOPPING or STARVED under HOLD in a period and not suppressed,
and none otherwise (R9); at a boundary not yet taken the demand stays that of the period's last tick (Log 20). -/
def Obligations.LinesFollowTheirDemands : Prop :=
  (∀ (period onTime t : Nat) (unit : Nat), onTime ≤ period → t < period →
     ((Shape.pulse period .edge).demand onTime t = .top ↔ t < onTime) ∧
     ((Shape.pulse period .center).demand onTime t = .top ↔
       (period - onTime) / 2 ≤ t ∧ t < (period - onTime) / 2 + onTime) ∧
     (∀ a, (Shape.pulse period a).demand onTime t = .top ∨ (Shape.pulse period a).demand onTime t = .bottom) ∧
     (Shape.level unit .zero).demand onTime t = .off ∧ (Shape.level unit .one).demand onTime t = .top ∧
     (Shape.level unit .two).demand onTime t = .bottom) ∧
  (∀ (x : Pair) (even odd : Option Demand),
    let y := x.drive even odd
    let follows := fun (before after : Line) (requested : Prop) (dead : Nat) =>
      let shows := fun (active : Bool) => after.level = before.polarity.level active
      (¬requested → shows false) ∧
      (requested → dead = 0 → shows true) ∧
      (requested → dead ≠ 0 → before.wasRequested = false → shows false) ∧
      ∀ n, requested → dead ≠ 0 → before.wasRequested = true → before.since = some n →
        (n + 1 < dead → shows false) ∧ (n + 1 = dead → shows before.activationTaken) ∧ (dead ≤ n → shows true)
    (x.mode = .independent →
      y.top.level = (match even with | some d => x.top.polarity.level (decide (d = .top)) | none => x.top.safeLevel) ∧
      y.bottom.level =
        (match odd with | some d => x.bottom.polarity.level (decide (d = .top)) | none => x.bottom.safeLevel)) ∧
    (x.mode = .complementary →
      follows x.top y.top (even = some .top) x.deadA.toNat ∧
      follows x.bottom y.bottom (even = some .bottom) x.deadB.toNat)) ∧
  ∀ (p : Part),
    let hands := fun l =>
      let x := p.lane l
      match x.period with
      | some d =>
        if x.suppressed = false ∧ (x.state = .running ∨ x.state = .stopping ∨ (x.state = .starved ∧ x.starve = .hold))
        then some (d.shape.demand d.onTime (min d.phase (d.shape.length - 1)))
        else none
      | none => none
    p.driveLines = { p with pairs := p.driveLines.pairs } ∧
    ∀ k, p.driveLines.pair k = (p.pair k).drive (hands (evenLane k)) (hands (oddLane k))

/-- DELAYED_ACTIVATION, when due, is taken for its line and nothing else (R10): the line of a COMPLEMENTARY pair has
been requested for exactly its deadtime in force (Log 32). That it waits for the lane's own boundary is the model's
reading (Log 19). -/
def Obligations.DelayedActivationIsTaken : Prop :=
  ∀ (s : State) (k : Fin 3), s.part.resetPhase = .ended →
    let p := s.part
    let x := p.pair k
    x.mode = .complementary → (p.lane (evenLane k)).anyDue = false →
    (x.top.requested = true → x.top.wasRequested = true → x.top.activationTaken = false → 0 < x.deadA.toNat →
      x.top.since = some (x.deadA.toNat - 1) →
      Does (.delayedActivation (evenLane k)) s
        (p.setPair k { x with top := { x.top with activationTaken := true } })) ∧
    (x.bottom.requested = true → x.bottom.wasRequested = true → x.bottom.activationTaken = false →
      0 < x.deadB.toNat → x.bottom.since = some (x.deadB.toNat - 1) →
      Does (.delayedActivation (oddLane k)) s
        (p.setPair k { x with bottom := { x.bottom with activationTaken := true } }))

/-- TICK: the tick counter advances by 1, wrapping, whatever is due (R2). A start bit of the tick that ends is accepted
outside a byte, unless the receiver awaits an idle line that has not come, and ends the measure of the gap (R152,
R155). With nothing due, every period is one tick on; each line hands its requested level on to the next tick, with the
ticks since its activation, and no delayed activation is taken (R10); every input has its new sample, a fault input's
run count rises while the sample differs from the qualified level and is 0 otherwise, and a qualification is due when
it reaches the filter's length (R135); the timers advance by the length of the tick that ends; and store, regions,
patterns and barriers are as they were (R1, R2). That due events are taken first, that timers advance by whole ticks
and that start bits come with a TICK is the model's choice (Logs 2, 7 and 8). -/
def Obligations.TickAdvancesTime : Prop :=
  ∀ (s : State) (x : TickInputs), s.part.resetPhase = .ended →
    let p := s.part
    let next := x.samples
    let k := match x.start with
      | .none => p.link
      | .begins idle =>
        if p.link.receiving = false ∧ (p.link.awaitsIdle = false ∨ idle = true) then
          { p.link with receiving := true, awaitsIdle := false, gap := none }
        else p.link
    let begun := { p with link := k }
    let closed := fun (y : Line) => { y with
      wasRequested := y.requested,
      since := if y.requested = true then (if y.wasRequested = true then y.since.map (fun n => n + 1) else some 0)
               else none,
      activationTaken := false }
    (∃ q : Part, Becomes (.tick x) s q ∧ q.timebase.count = p.timebase.count + 1) ∧
    (begun.takeDue = begun → ∃ q : Part, Does (.tick x) s q ∧
      q = { p with timebase := q.timebase, pairs := q.pairs, lanes := q.lanes, triggers := q.triggers,
                   faults := q.faults, sensePins := next.sns, notif := q.notif, link := q.link } ∧
      q.timebase = { prescale := p.timebase.prescale, tickLength := p.timebase.prescale,
                     count := p.timebase.count + 1 } ∧
      (∀ j, q.pair j = { p.pair j with top := closed (p.pair j).top, bottom := closed (p.pair j).bottom }) ∧
      (∀ l, q.lane l = { p.lane l with
        period := (p.lane l).period.map (fun d => { d with phase := d.phase + 1 }) }) ∧
      (∀ i, q.trigger i = { p.trigger i with previous := (p.trigger i).sample, sample := pinLevel next.trg i }) ∧
      (∀ i, q.fault i = { p.fault i with
        sample := pinLevel next.flt i,
        run := if pinLevel next.flt i = (p.fault i).qualified then 0 else (p.fault i).run + 1,
        due := decide (pinLevel next.flt i ≠ (p.fault i).qualified ∧ (p.fault i).filter ≤ (p.fault i).run + 1) }) ∧
      q.notif = { p.notif with timer := p.notif.timer.map (fun n => n - p.timebase.tickLength.clocks) } ∧
      q.link = { k with gap := k.gap.map (fun n => n + p.timebase.tickLength.clocks) })

/-- RETRANSMIT_TIMEOUT (R181, R183, R81): below the stall limit every IN_FLIGHT entry is marked, RETRANSMIT is counted
and the timer restarts; at the limit the channel is STALLED, the marks cleared and the timer stopped. A lane whose
link-loss policy is STOP, here one or none, is then given a soft stop with cause LINK_LOSS: in the middle of a period,
RUNNING or STARVED under HOLD, it becomes STOPPING; ARMED, WAITING or STARVED under SAFE it becomes STOPPED at once,
its BARRIER ABANDONED, with LANE_STOPPED; in any other state it is as it was (R77, R78). -/
def Obligations.ExpiryMarksOrStalls : Prop :=
  ∀ (s : State), s.part.resetPhase = .ended →
    let p := s.part
    let expires := Does .retransmitTimeout s
    let marked := fun (b : Bool) => p.notif.queue.map (fun e => match e.status with
      | .inFlight n _ => { e with status := EntryStatus.inFlight n b }
      | .pending => e)
    let q := { p with notif := { p.notif with queue := marked false, expiries := p.notif.expiries + 1, timer := none,
                                              channel := .stalled } }
    p.notif.timer = some 0 →
    (p.notif.expiries + 1 < p.link.stallLimit →
      expires
        { p with
          notif := { p.notif with queue := marked true, expiries := p.notif.expiries + 1,
                                  timer := some (p.link.interval * 80000) }
          link := { p.link with counters := { p.link.counters with
            retransmit := if p.link.counters.retransmit = 255 then 255 else p.link.counters.retransmit + 1 } } }) ∧
    (p.link.stallLimit ≤ p.notif.expiries + 1 → (∀ l, (p.lane l).linkLoss = .continue) → expires q) ∧
    (p.link.stallLimit ≤ p.notif.expiries + 1 → ∀ l, (∀ m, (p.lane m).linkLoss = .stop ↔ m = l) →
      let x := p.lane l
      let stopped := { x with state := .stopped, remaining := 0, call := none, primary := 0, alternate := none,
                              trim := none, period := none, armed := none, stopCause := .none }
      let left := { q with barriers := p.barriers.map (fun (b : Barrier) =>
        if inSet b.arrived l = true then
          { b with arrived := b.arrived &&& ~~~single l,
                   counter := if b.arrived &&& ~~~single l = 0 then none else b.counter }
        else b) }
      let told := fun (r : Part) => r.notify (.laneStopped l .linkLoss (r.queueCount l))
      (∀ d, x.state = .running ∨ (x.state = .starved ∧ x.starve = .hold) → x.period = some d →
        d.phase < d.shape.length → expires (q.setLane l { x with state := .stopping, stopCause := .linkLoss })) ∧
      (x.state = .armed ∨ (x.state = .starved ∧ x.starve = .safe) → expires (told (left.setLane l stopped))) ∧
      (x.state = .waiting → x.period = none → x.call = none →
        expires (told ((left.retireHead l .abandoned).setLane l stopped))) ∧
      (x.state = .stopping ∨ x.state = .stopped ∨ x.state = .halted ∨ x.state = .unbound ∨ x.state = .merged →
        expires q))

/-- A notification created joins the tail when the queue has room and the tally is empty, and is counted in the tally
otherwise (R172, R173). -/
def Obligations.CreatedNotificationsAreKeptOrCounted : Prop :=
  ∀ (p : Part) (n : Notification),
    (p.notif.queue.length < 32 → p.notif.lostCount = 0 → p.notif.lostKinds = 0 →
      p.notify n = { p with notif := { p.notif with
        queue := p.notif.queue ++ [{ what := n, stamp := p.timebase.count, status := .pending }] } }) ∧
    (32 ≤ p.notif.queue.length ∨ p.notif.lostCount ≠ 0 ∨ p.notif.lostKinds ≠ 0 →
      p.notify n = { p with notif := { p.notif with
        lostCount := if p.notif.lostCount < 65535 then p.notif.lostCount + 1 else 65535,
        lostKinds := p.notif.lostKinds ||| BitVec.twoPow 16 (n.code.toNat - 1) } })

/-! ## Laws that every step keeps -/

/-- In a complementary pair the lines are never both active (R12), whatever step is taken. -/
def Obligations.EveryStepKeepsThePairLaw : Prop :=
  ∀ s t : State, s.part.NeverBothActive → step s = .next t → t.part.NeverBothActive

/-- The notification queue keeps the law of R175 at every step, and its numbers, given in queue order, that of R176:
each is greater by 1 than the one before it. -/
def Obligations.EveryStepKeepsTheNotificationLaws : Prop :=
  ∀ s t : State, step s = .next t →
    (s.part.notif.QueueLaw → t.part.notif.QueueLaw) ∧ (s.part.notif.NumberLaw → t.part.notif.NumberLaw)

/-- Regions stay in the store and disjoint, and queues and patterns within their regions (R36, R47, R48), at every
step. -/
def Obligations.EveryStepKeepsTheRegionLaw : Prop :=
  ∀ s t : State, s.part.RegionLaw → step s = .next t → t.part.RegionLaw

/-- The store keeps its canonical form and holds a segment exactly at the positions of queues and patterns (R35), and
every stored segment has its fields in range (R26), at every step. -/
def Obligations.EveryStepKeepsTheStoreLaws : Prop :=
  ∀ s t : State, step s = .next t →
    (s.part.RegionLaw → s.part.StoreLaw → t.part.StoreLaw) ∧ (s.part.SegmentLaw → t.part.SegmentLaw)

/-- Arrived sets stay within member sets, and a timeout counter runs only while some lane waits (R123, R128); an input
live ACTIVE in CYCLE or LATCH mode has its sticky flag set (R138); the lanes of the arrived sets are exactly the
WAITING lanes, the use count of a pattern is the number of lanes inside a CALL to it, and a lane is HALTED exactly
while it has a halt source, each a sticky LATCH input that maps it (R101, R123, R141); at every step. -/
def Obligations.EveryStepKeepsTheBarrierAndFaultLaws : Prop :=
  ∀ s t : State, step s = .next t →
    ((∀ b, (s.part.barrier b).WaitLaw) → ∀ b, (t.part.barrier b).WaitLaw) ∧
    ((∀ i, (s.part.fault i).StickyLaw) → ∀ i, (t.part.fault i).StickyLaw) ∧
    (s.part.LaneLaws → t.part.LaneLaws)

/-- All these laws hold right after a reset of any cause, and in `State.reset`, whose pin levels are the model's choice
(Log 5). -/
def Obligations.LawsHoldAtReset : Prop :=
  State.reset.part.Laws ∧ ∀ cause straps first phase pin, (Part.atReset cause straps first phase pin).Laws
end

