-- ==== Sys2Proof/Laws/Operands.lean ====
section
/-! SUPPORT. Every operand written as a byte is read back: numbers, sets and named choices (R189, R193). -/

namespace Sys2Proof.Machine

/-- A number below 256 as a byte. -/
theorem byteOf_toNat {n : Nat} (h : n < 256) : (byteOf n).toNat = n := by
  simp [byteOf, BitVec.toNat_ofNat, Nat.mod_eq_of_lt h]

/-- A member's number is read back. -/
theorem finOfByte_byteOf {n : Nat} (hn : n ≤ 256) (i : Fin n) : finOfByte n (byteOf i.val) = some i := by
  have h : (byteOf i.val).toNat = i.val := byteOf_toNat (by omega)
  simp [finOfByte, h]

@[simp] theorem finOfByte_region (r : Fin 16) : finOfByte 16 (byteOf r.val) = some r := finOfByte_byteOf (by decide) r
@[simp] theorem finOfByte_lane (l : Fin 6) : finOfByte 6 (byteOf l.val) = some l := finOfByte_byteOf (by decide) l
@[simp] theorem finOfByte_pair (k : Fin 3) : finOfByte 3 (byteOf k.val) = some k := finOfByte_byteOf (by decide) k
@[simp] theorem finOfByte_pattern (k : Fin 8) : finOfByte 8 (byteOf k.val) = some k := finOfByte_byteOf (by decide) k
@[simp] theorem finOfByte_four (i : Fin 4) : finOfByte 4 (byteOf i.val) = some i := finOfByte_byteOf (by decide) i

/-- A byte that is a member's number is read as that member. -/
theorem finOfByte_of_eq {n : Nat} {b : Byte} {i : Fin n} (h : b.toNat = i.val) : finOfByte n b = some i := by
  simp [finOfByte, h]

/-- A byte above the members is no number. -/
theorem finOfByte_none {n : Nat} {b : Byte} (h : n ≤ b.toNat) : finOfByte n b = none := by
  simp [finOfByte, Nat.not_lt.mpr h]

/-- A set is read back from its byte. -/
theorem setOfByte_setByte {n : Nat} (hn : n ≤ 8) (s : BitVec n) : setOfByte n (setByte s) = some s := by
  have hs := s.isLt
  have hle : 2 ^ n ≤ 2 ^ 8 := Nat.pow_le_pow_right (by decide) hn
  have h : (setByte s).toNat = s.toNat := by
    simp only [setByte, BitVec.toNat_setWidth]
    exact Nat.mod_eq_of_lt (by omega)
  simp only [setOfByte, h, hs, if_true, Option.some.injEq]
  apply BitVec.eq_of_toNat_eq
  simp only [BitVec.toNat_setWidth, h]
  exact Nat.mod_eq_of_lt hs

@[simp] theorem setOfByte_lanes (s : LaneSet) : setOfByte 6 (setByte s) = some s := setOfByte_setByte (by decide) s
@[simp] theorem setOfByte_inputs (s : InputSet) : setOfByte 4 (setByte s) = some s := setOfByte_setByte (by decide) s

@[simp] theorem UnderrunPolicy.ofByte_byte (u : UnderrunPolicy) : UnderrunPolicy.ofByte u.byte = some u := by
  cases u <;> rfl
@[simp] theorem LinkLossPolicy.ofByte_byte (u : LinkLossPolicy) : LinkLossPolicy.ofByte u.byte = some u := by
  cases u <;> rfl
@[simp] theorem EdgeSelection.ofByte_byte (u : EdgeSelection) : EdgeSelection.ofByte u.byte = some u := by
  cases u <;> rfl
@[simp] theorem ReleaseMode.ofByte_byte (u : ReleaseMode) : ReleaseMode.ofByte u.byte = some u := by
  cases u <;> rfl
@[simp] theorem TimeoutAction.ofByte_byte (u : TimeoutAction) : TimeoutAction.ofByte u.byte = some u := by
  cases u <;> rfl
@[simp] theorem FaultMode.ofByte_byte (u : FaultMode) : FaultMode.ofByte u.byte = some u := by
  cases u <;> rfl
@[simp] theorem levelOfByte_levelByte (u : Level) : levelOfByte (levelByte u) = some u := by
  cases u <;> rfl
@[simp] theorem flagOfByte_flagByte (u : Bool) : flagOfByte (flagByte u) = some u := by
  cases u <;> rfl
@[simp] theorem sourceOfByte_trigger (i : Fin 4) : sourceOfByte (byteOf (i.val + 1)) = some (some i) := by
  revert i
  decide

/-- A flag byte above 1 is no flag. -/
theorem flagOfByte_none {b : Byte} (h : 1 < b.toNat) : flagOfByte b = none := by
  unfold flagOfByte
  split
  · simp_all
  · split
    · simp_all
    · rfl

/-- In a rising list the search finds the lowest member with the property. -/
theorem find?_lowest {n : Nat} {as : List (Fin n)} (hs : as.Pairwise (· < ·)) {P : Fin n → Bool} {i : Fin n}
    (hi : i ∈ as) (hp : P i = true) (hlow : ∀ m < i, P m = false) : as.find? P = some i := by
  induction as with
  | nil => simp at hi
  | cons a rest ih =>
    rw [List.pairwise_cons] at hs
    rcases List.mem_cons.mp hi with h | h
    · subst h
      simp [hp]
    · rw [List.find?_cons_of_neg]
      · exact ih hs.2 h
      · simp [hlow a (hs.1 i h)]

/-- Every trigger input, fault input or barrier is one of the four. -/
theorem mem_allFour (i : Fin 4) : i ∈ allFour := by
  revert i
  decide

/-- Every lane is one of the six. -/
theorem mem_allLanes (l : Fin 6) : l ∈ allLanes := by
  revert l
  decide

/-- Every region is one of the sixteen. -/
theorem mem_allRegions (r : Fin 16) : r ∈ allRegions := by
  revert r
  decide

/-- The lowest lane with a property is found. -/
theorem find?_allLanes {P : Fin 6 → Bool} {l : Fin 6} (hp : P l = true) (hlow : ∀ m < l, P m = false) :
    allLanes.find? P = some l := find?_lowest (by decide) (mem_allLanes l) hp hlow

/-- The lowest region with a property is found. -/
theorem find?_allRegions {P : Fin 16 → Bool} {r : Fin 16} (hp : P r = true) (hlow : ∀ m < r, P m = false) :
    allRegions.find? P = some r := find?_lowest (by decide) (mem_allRegions r) hp hlow

/-- The lowest input with a property is found. -/
theorem find?_allFour {P : Fin 4 → Bool} {i : Fin 4} (hp : P i = true) (hlow : ∀ m < i, P m = false) :
    allFour.find? P = some i := find?_lowest (by decide) (mem_allFour i) hp hlow

/-- The lanes of a set of one. -/
@[simp] theorem lanesOf_single (l : Fin 6) : lanesOf (single l) = [l] := by
  revert l
  decide

/-- A set of one is not empty. -/
theorem single_ne_zero (l : Fin 6) : single l ≠ 0 := by
  revert l
  decide

/-! ## Fields as bytes, most significant first (R189) -/

theorem bytes16_eq (w : Word16) : bytes16 w = [byteOf (w.toNat / 256), byteOf w.toNat] := by
  unfold bytes16 byteOf
  refine List.cons_eq_cons.mpr ⟨?_, List.cons_eq_cons.mpr ⟨?_, rfl⟩⟩
  · apply BitVec.eq_of_toNat_eq; simp [BitVec.extractLsb'_toNat, Nat.shiftRight_eq_div_pow]
  · apply BitVec.eq_of_toNat_eq; simp [BitVec.extractLsb'_toNat]

theorem natBytes16_eq (n : Nat) : natBytes16 n = [byteOf (n / 256), byteOf n] := by
  unfold natBytes16 bytes16 byteOf
  congr 1
  · apply BitVec.eq_of_toNat_eq; simp [BitVec.extractLsb'_toNat, Nat.shiftRight_eq_div_pow]; omega
  · congr 1; apply BitVec.eq_of_toNat_eq; simp [BitVec.extractLsb'_toNat]

theorem bytes32_eq (w : Tick) : bytes32 w =
    [byteOf (w.toNat / 16777216), byteOf (w.toNat / 65536), byteOf (w.toNat / 256), byteOf w.toNat] := by
  unfold bytes32 byteOf
  refine List.cons_eq_cons.mpr ⟨?_, List.cons_eq_cons.mpr ⟨?_, List.cons_eq_cons.mpr ⟨?_, List.cons_eq_cons.mpr
    ⟨?_, rfl⟩⟩⟩⟩ <;>
    apply BitVec.eq_of_toNat_eq <;> simp [BitVec.extractLsb'_toNat, Nat.shiftRight_eq_div_pow]

theorem natBytes32_eq (n : Nat) : natBytes32 n =
    [byteOf (n / 16777216), byteOf (n / 65536), byteOf (n / 256), byteOf n] := by
  unfold natBytes32
  rw [bytes32_eq]
  unfold byteOf
  refine List.cons_eq_cons.mpr ⟨?_, List.cons_eq_cons.mpr ⟨?_, List.cons_eq_cons.mpr ⟨?_, List.cons_eq_cons.mpr
    ⟨?_, rfl⟩⟩⟩⟩ <;>
    apply BitVec.eq_of_toNat_eq <;> simp <;> omega

theorem word16_toNat (a b : Byte) : (word16 a b).toNat = a.toNat * 256 + b.toNat := by
  show (a ++ b : BitVec (8 + 8)).toNat = _
  rw [BitVec.toNat_append, ← Nat.shiftLeft_add_eq_or_of_lt b.isLt a.toNat, Nat.shiftLeft_eq]

/-- The high byte of a field read from two bytes is the first of them. -/
@[simp] theorem highByte_field16 (a b : Byte) : highByte (field16 a b) = a := by
  unfold highByte field16 byteOf
  apply BitVec.eq_of_toNat_eq
  have := a.isLt
  have := b.isLt
  simp only [word16_toNat, BitVec.toNat_ofNat]
  omega

/-- The low byte of a field read from two bytes is the second of them. -/
@[simp] theorem byteOf_field16 (a b : Byte) : byteOf (field16 a b) = b := by
  unfold field16 byteOf
  apply BitVec.eq_of_toNat_eq
  have := a.isLt
  have := b.isLt
  simp only [word16_toNat, BitVec.toNat_ofNat]
  omega

/-- A frame's bytes, written out (R188). -/
theorem frameBytes_eq (type seq code : Byte) (payload : List Byte) : frameBytes type seq code payload =
    let body := byteOf (3 + payload.length) :: type :: seq :: code :: payload
    0x5A :: (body ++ [byteOf ((crc16 body).toNat / 256), byteOf (crc16 body).toNat]) := by
  simp only [frameBytes, frameBody, bytes16_eq]
  rfl

end Sys2Proof.Machine
end

