-- ==== Sys2Proof/Laws/State.lean ====
section
/-! SUPPORT. One lemma for each field of the part under each update of Machine/Ops.lean: what the update leaves as it
was. No later proof unfolds a record update of the part. -/

namespace Sys2Proof.Machine

variable (p : Part)

/-! ### setLane -/

@[simp] theorem Part.setLane_timebase (l : Fin 6) (x : Lane) : (p.setLane l x).timebase = p.timebase := rfl
@[simp] theorem Part.setLane_pairs (l : Fin 6) (x : Lane) : (p.setLane l x).pairs = p.pairs := rfl
@[simp] theorem Part.setLane_store (l : Fin 6) (x : Lane) : (p.setLane l x).store = p.store := rfl
@[simp] theorem Part.setLane_regions (l : Fin 6) (x : Lane) : (p.setLane l x).regions = p.regions := rfl
@[simp] theorem Part.setLane_patterns (l : Fin 6) (x : Lane) : (p.setLane l x).patterns = p.patterns := rfl
@[simp] theorem Part.setLane_triggers (l : Fin 6) (x : Lane) : (p.setLane l x).triggers = p.triggers := rfl
@[simp] theorem Part.setLane_barriers (l : Fin 6) (x : Lane) : (p.setLane l x).barriers = p.barriers := rfl
@[simp] theorem Part.setLane_faults (l : Fin 6) (x : Lane) : (p.setLane l x).faults = p.faults := rfl
@[simp] theorem Part.setLane_firstFault (l : Fin 6) (x : Lane) : (p.setLane l x).firstFault = p.firstFault := rfl
@[simp] theorem Part.setLane_sensePins (l : Fin 6) (x : Lane) : (p.setLane l x).sensePins = p.sensePins := rfl
@[simp] theorem Part.setLane_notif (l : Fin 6) (x : Lane) : (p.setLane l x).notif = p.notif := rfl
@[simp] theorem Part.setLane_link (l : Fin 6) (x : Lane) : (p.setLane l x).link = p.link := rfl
@[simp] theorem Part.setLane_resetPhase (l : Fin 6) (x : Lane) : (p.setLane l x).resetPhase = p.resetPhase := rfl
@[simp] theorem Part.setLane_resetPin (l : Fin 6) (x : Lane) : (p.setLane l x).resetPin = p.resetPin := rfl

/-! ### updLane -/

@[simp] theorem Part.updLane_timebase (l : Fin 6) (f : Lane → Lane) : (p.updLane l f).timebase = p.timebase := rfl
@[simp] theorem Part.updLane_pairs (l : Fin 6) (f : Lane → Lane) : (p.updLane l f).pairs = p.pairs := rfl
@[simp] theorem Part.updLane_store (l : Fin 6) (f : Lane → Lane) : (p.updLane l f).store = p.store := rfl
@[simp] theorem Part.updLane_regions (l : Fin 6) (f : Lane → Lane) : (p.updLane l f).regions = p.regions := rfl
@[simp] theorem Part.updLane_patterns (l : Fin 6) (f : Lane → Lane) : (p.updLane l f).patterns = p.patterns := rfl
@[simp] theorem Part.updLane_triggers (l : Fin 6) (f : Lane → Lane) : (p.updLane l f).triggers = p.triggers := rfl
@[simp] theorem Part.updLane_barriers (l : Fin 6) (f : Lane → Lane) : (p.updLane l f).barriers = p.barriers := rfl
@[simp] theorem Part.updLane_faults (l : Fin 6) (f : Lane → Lane) : (p.updLane l f).faults = p.faults := rfl
@[simp] theorem Part.updLane_firstFault (l : Fin 6) (f : Lane → Lane) : (p.updLane l f).firstFault = p.firstFault := rfl
@[simp] theorem Part.updLane_sensePins (l : Fin 6) (f : Lane → Lane) : (p.updLane l f).sensePins = p.sensePins := rfl
@[simp] theorem Part.updLane_notif (l : Fin 6) (f : Lane → Lane) : (p.updLane l f).notif = p.notif := rfl
@[simp] theorem Part.updLane_link (l : Fin 6) (f : Lane → Lane) : (p.updLane l f).link = p.link := rfl
@[simp] theorem Part.updLane_resetPhase (l : Fin 6) (f : Lane → Lane) : (p.updLane l f).resetPhase = p.resetPhase := rfl
@[simp] theorem Part.updLane_resetPin (l : Fin 6) (f : Lane → Lane) : (p.updLane l f).resetPin = p.resetPin := rfl

/-! ### setPair -/

@[simp] theorem Part.setPair_timebase (k : Fin 3) (x : Pair) : (p.setPair k x).timebase = p.timebase := rfl
@[simp] theorem Part.setPair_store (k : Fin 3) (x : Pair) : (p.setPair k x).store = p.store := rfl
@[simp] theorem Part.setPair_regions (k : Fin 3) (x : Pair) : (p.setPair k x).regions = p.regions := rfl
@[simp] theorem Part.setPair_lanes (k : Fin 3) (x : Pair) : (p.setPair k x).lanes = p.lanes := rfl
@[simp] theorem Part.setPair_patterns (k : Fin 3) (x : Pair) : (p.setPair k x).patterns = p.patterns := rfl
@[simp] theorem Part.setPair_triggers (k : Fin 3) (x : Pair) : (p.setPair k x).triggers = p.triggers := rfl
@[simp] theorem Part.setPair_barriers (k : Fin 3) (x : Pair) : (p.setPair k x).barriers = p.barriers := rfl
@[simp] theorem Part.setPair_faults (k : Fin 3) (x : Pair) : (p.setPair k x).faults = p.faults := rfl
@[simp] theorem Part.setPair_firstFault (k : Fin 3) (x : Pair) : (p.setPair k x).firstFault = p.firstFault := rfl
@[simp] theorem Part.setPair_sensePins (k : Fin 3) (x : Pair) : (p.setPair k x).sensePins = p.sensePins := rfl
@[simp] theorem Part.setPair_notif (k : Fin 3) (x : Pair) : (p.setPair k x).notif = p.notif := rfl
@[simp] theorem Part.setPair_link (k : Fin 3) (x : Pair) : (p.setPair k x).link = p.link := rfl
@[simp] theorem Part.setPair_resetPhase (k : Fin 3) (x : Pair) : (p.setPair k x).resetPhase = p.resetPhase := rfl
@[simp] theorem Part.setPair_resetPin (k : Fin 3) (x : Pair) : (p.setPair k x).resetPin = p.resetPin := rfl

/-! ### setRegion -/

@[simp] theorem Part.setRegion_timebase (r : Fin 16) (x : Region) : (p.setRegion r x).timebase = p.timebase := rfl
@[simp] theorem Part.setRegion_pairs (r : Fin 16) (x : Region) : (p.setRegion r x).pairs = p.pairs := rfl
@[simp] theorem Part.setRegion_store (r : Fin 16) (x : Region) : (p.setRegion r x).store = p.store := rfl
@[simp] theorem Part.setRegion_lanes (r : Fin 16) (x : Region) : (p.setRegion r x).lanes = p.lanes := rfl
@[simp] theorem Part.setRegion_patterns (r : Fin 16) (x : Region) : (p.setRegion r x).patterns = p.patterns := rfl
@[simp] theorem Part.setRegion_triggers (r : Fin 16) (x : Region) : (p.setRegion r x).triggers = p.triggers := rfl
@[simp] theorem Part.setRegion_barriers (r : Fin 16) (x : Region) : (p.setRegion r x).barriers = p.barriers := rfl
@[simp] theorem Part.setRegion_faults (r : Fin 16) (x : Region) : (p.setRegion r x).faults = p.faults := rfl
@[simp] theorem Part.setRegion_firstFault (r : Fin 16) (x : Region) : (p.setRegion r x).firstFault = p.firstFault := rfl
@[simp] theorem Part.setRegion_sensePins (r : Fin 16) (x : Region) : (p.setRegion r x).sensePins = p.sensePins := rfl
@[simp] theorem Part.setRegion_notif (r : Fin 16) (x : Region) : (p.setRegion r x).notif = p.notif := rfl
@[simp] theorem Part.setRegion_link (r : Fin 16) (x : Region) : (p.setRegion r x).link = p.link := rfl
@[simp] theorem Part.setRegion_resetPhase (r : Fin 16) (x : Region) : (p.setRegion r x).resetPhase = p.resetPhase := rfl
@[simp] theorem Part.setRegion_resetPin (r : Fin 16) (x : Region) : (p.setRegion r x).resetPin = p.resetPin := rfl

/-! ### setPattern -/

@[simp] theorem Part.setPattern_timebase (k : Fin 8) (x : Pattern) : (p.setPattern k x).timebase = p.timebase := rfl
@[simp] theorem Part.setPattern_pairs (k : Fin 8) (x : Pattern) : (p.setPattern k x).pairs = p.pairs := rfl
@[simp] theorem Part.setPattern_store (k : Fin 8) (x : Pattern) : (p.setPattern k x).store = p.store := rfl
@[simp] theorem Part.setPattern_regions (k : Fin 8) (x : Pattern) : (p.setPattern k x).regions = p.regions := rfl
@[simp] theorem Part.setPattern_lanes (k : Fin 8) (x : Pattern) : (p.setPattern k x).lanes = p.lanes := rfl
@[simp] theorem Part.setPattern_triggers (k : Fin 8) (x : Pattern) : (p.setPattern k x).triggers = p.triggers := rfl
@[simp] theorem Part.setPattern_barriers (k : Fin 8) (x : Pattern) : (p.setPattern k x).barriers = p.barriers := rfl
@[simp] theorem Part.setPattern_faults (k : Fin 8) (x : Pattern) : (p.setPattern k x).faults = p.faults := rfl
@[simp] theorem Part.setPattern_firstFault (k : Fin 8) (x : Pattern) : (p.setPattern k x).firstFault = p.firstFault := rfl
@[simp] theorem Part.setPattern_sensePins (k : Fin 8) (x : Pattern) : (p.setPattern k x).sensePins = p.sensePins := rfl
@[simp] theorem Part.setPattern_notif (k : Fin 8) (x : Pattern) : (p.setPattern k x).notif = p.notif := rfl
@[simp] theorem Part.setPattern_link (k : Fin 8) (x : Pattern) : (p.setPattern k x).link = p.link := rfl
@[simp] theorem Part.setPattern_resetPhase (k : Fin 8) (x : Pattern) : (p.setPattern k x).resetPhase = p.resetPhase := rfl
@[simp] theorem Part.setPattern_resetPin (k : Fin 8) (x : Pattern) : (p.setPattern k x).resetPin = p.resetPin := rfl

/-! ### setTrigger -/

@[simp] theorem Part.setTrigger_timebase (i : Fin 4) (x : TriggerInput) : (p.setTrigger i x).timebase = p.timebase := rfl
@[simp] theorem Part.setTrigger_pairs (i : Fin 4) (x : TriggerInput) : (p.setTrigger i x).pairs = p.pairs := rfl
@[simp] theorem Part.setTrigger_store (i : Fin 4) (x : TriggerInput) : (p.setTrigger i x).store = p.store := rfl
@[simp] theorem Part.setTrigger_regions (i : Fin 4) (x : TriggerInput) : (p.setTrigger i x).regions = p.regions := rfl
@[simp] theorem Part.setTrigger_lanes (i : Fin 4) (x : TriggerInput) : (p.setTrigger i x).lanes = p.lanes := rfl
@[simp] theorem Part.setTrigger_patterns (i : Fin 4) (x : TriggerInput) : (p.setTrigger i x).patterns = p.patterns := rfl
@[simp] theorem Part.setTrigger_barriers (i : Fin 4) (x : TriggerInput) : (p.setTrigger i x).barriers = p.barriers := rfl
@[simp] theorem Part.setTrigger_faults (i : Fin 4) (x : TriggerInput) : (p.setTrigger i x).faults = p.faults := rfl
@[simp] theorem Part.setTrigger_firstFault (i : Fin 4) (x : TriggerInput) : (p.setTrigger i x).firstFault = p.firstFault := rfl
@[simp] theorem Part.setTrigger_sensePins (i : Fin 4) (x : TriggerInput) : (p.setTrigger i x).sensePins = p.sensePins := rfl
@[simp] theorem Part.setTrigger_notif (i : Fin 4) (x : TriggerInput) : (p.setTrigger i x).notif = p.notif := rfl
@[simp] theorem Part.setTrigger_link (i : Fin 4) (x : TriggerInput) : (p.setTrigger i x).link = p.link := rfl
@[simp] theorem Part.setTrigger_resetPhase (i : Fin 4) (x : TriggerInput) : (p.setTrigger i x).resetPhase = p.resetPhase := rfl
@[simp] theorem Part.setTrigger_resetPin (i : Fin 4) (x : TriggerInput) : (p.setTrigger i x).resetPin = p.resetPin := rfl

/-! ### setBarrier -/

@[simp] theorem Part.setBarrier_timebase (b : Fin 4) (x : Barrier) : (p.setBarrier b x).timebase = p.timebase := rfl
@[simp] theorem Part.setBarrier_pairs (b : Fin 4) (x : Barrier) : (p.setBarrier b x).pairs = p.pairs := rfl
@[simp] theorem Part.setBarrier_store (b : Fin 4) (x : Barrier) : (p.setBarrier b x).store = p.store := rfl
@[simp] theorem Part.setBarrier_regions (b : Fin 4) (x : Barrier) : (p.setBarrier b x).regions = p.regions := rfl
@[simp] theorem Part.setBarrier_lanes (b : Fin 4) (x : Barrier) : (p.setBarrier b x).lanes = p.lanes := rfl
@[simp] theorem Part.setBarrier_patterns (b : Fin 4) (x : Barrier) : (p.setBarrier b x).patterns = p.patterns := rfl
@[simp] theorem Part.setBarrier_triggers (b : Fin 4) (x : Barrier) : (p.setBarrier b x).triggers = p.triggers := rfl
@[simp] theorem Part.setBarrier_faults (b : Fin 4) (x : Barrier) : (p.setBarrier b x).faults = p.faults := rfl
@[simp] theorem Part.setBarrier_firstFault (b : Fin 4) (x : Barrier) : (p.setBarrier b x).firstFault = p.firstFault := rfl
@[simp] theorem Part.setBarrier_sensePins (b : Fin 4) (x : Barrier) : (p.setBarrier b x).sensePins = p.sensePins := rfl
@[simp] theorem Part.setBarrier_notif (b : Fin 4) (x : Barrier) : (p.setBarrier b x).notif = p.notif := rfl
@[simp] theorem Part.setBarrier_link (b : Fin 4) (x : Barrier) : (p.setBarrier b x).link = p.link := rfl
@[simp] theorem Part.setBarrier_resetPhase (b : Fin 4) (x : Barrier) : (p.setBarrier b x).resetPhase = p.resetPhase := rfl
@[simp] theorem Part.setBarrier_resetPin (b : Fin 4) (x : Barrier) : (p.setBarrier b x).resetPin = p.resetPin := rfl

/-! ### setFault -/

@[simp] theorem Part.setFault_timebase (i : Fin 4) (x : FaultInput) : (p.setFault i x).timebase = p.timebase := rfl
@[simp] theorem Part.setFault_pairs (i : Fin 4) (x : FaultInput) : (p.setFault i x).pairs = p.pairs := rfl
@[simp] theorem Part.setFault_store (i : Fin 4) (x : FaultInput) : (p.setFault i x).store = p.store := rfl
@[simp] theorem Part.setFault_regions (i : Fin 4) (x : FaultInput) : (p.setFault i x).regions = p.regions := rfl
@[simp] theorem Part.setFault_lanes (i : Fin 4) (x : FaultInput) : (p.setFault i x).lanes = p.lanes := rfl
@[simp] theorem Part.setFault_patterns (i : Fin 4) (x : FaultInput) : (p.setFault i x).patterns = p.patterns := rfl
@[simp] theorem Part.setFault_triggers (i : Fin 4) (x : FaultInput) : (p.setFault i x).triggers = p.triggers := rfl
@[simp] theorem Part.setFault_barriers (i : Fin 4) (x : FaultInput) : (p.setFault i x).barriers = p.barriers := rfl
@[simp] theorem Part.setFault_firstFault (i : Fin 4) (x : FaultInput) : (p.setFault i x).firstFault = p.firstFault := rfl
@[simp] theorem Part.setFault_sensePins (i : Fin 4) (x : FaultInput) : (p.setFault i x).sensePins = p.sensePins := rfl
@[simp] theorem Part.setFault_notif (i : Fin 4) (x : FaultInput) : (p.setFault i x).notif = p.notif := rfl
@[simp] theorem Part.setFault_link (i : Fin 4) (x : FaultInput) : (p.setFault i x).link = p.link := rfl
@[simp] theorem Part.setFault_resetPhase (i : Fin 4) (x : FaultInput) : (p.setFault i x).resetPhase = p.resetPhase := rfl
@[simp] theorem Part.setFault_resetPin (i : Fin 4) (x : FaultInput) : (p.setFault i x).resetPin = p.resetPin := rfl

/-! ### notify -/

@[simp] theorem Part.notify_timebase (n : Notification) : (p.notify n).timebase = p.timebase := rfl
@[simp] theorem Part.notify_pairs (n : Notification) : (p.notify n).pairs = p.pairs := rfl
@[simp] theorem Part.notify_store (n : Notification) : (p.notify n).store = p.store := rfl
@[simp] theorem Part.notify_regions (n : Notification) : (p.notify n).regions = p.regions := rfl
@[simp] theorem Part.notify_lanes (n : Notification) : (p.notify n).lanes = p.lanes := rfl
@[simp] theorem Part.notify_patterns (n : Notification) : (p.notify n).patterns = p.patterns := rfl
@[simp] theorem Part.notify_triggers (n : Notification) : (p.notify n).triggers = p.triggers := rfl
@[simp] theorem Part.notify_barriers (n : Notification) : (p.notify n).barriers = p.barriers := rfl
@[simp] theorem Part.notify_faults (n : Notification) : (p.notify n).faults = p.faults := rfl
@[simp] theorem Part.notify_firstFault (n : Notification) : (p.notify n).firstFault = p.firstFault := rfl
@[simp] theorem Part.notify_sensePins (n : Notification) : (p.notify n).sensePins = p.sensePins := rfl
@[simp] theorem Part.notify_link (n : Notification) : (p.notify n).link = p.link := rfl
@[simp] theorem Part.notify_resetPhase (n : Notification) : (p.notify n).resetPhase = p.resetPhase := rfl
@[simp] theorem Part.notify_resetPin (n : Notification) : (p.notify n).resetPin = p.resetPin := rfl

/-! ### driveLines -/

@[simp] theorem Part.driveLines_timebase : (p.driveLines).timebase = p.timebase := rfl
@[simp] theorem Part.driveLines_store : (p.driveLines).store = p.store := rfl
@[simp] theorem Part.driveLines_regions : (p.driveLines).regions = p.regions := rfl
@[simp] theorem Part.driveLines_lanes : (p.driveLines).lanes = p.lanes := rfl
@[simp] theorem Part.driveLines_patterns : (p.driveLines).patterns = p.patterns := rfl
@[simp] theorem Part.driveLines_triggers : (p.driveLines).triggers = p.triggers := rfl
@[simp] theorem Part.driveLines_barriers : (p.driveLines).barriers = p.barriers := rfl
@[simp] theorem Part.driveLines_faults : (p.driveLines).faults = p.faults := rfl
@[simp] theorem Part.driveLines_firstFault : (p.driveLines).firstFault = p.firstFault := rfl
@[simp] theorem Part.driveLines_sensePins : (p.driveLines).sensePins = p.sensePins := rfl
@[simp] theorem Part.driveLines_notif : (p.driveLines).notif = p.notif := rfl
@[simp] theorem Part.driveLines_link : (p.driveLines).link = p.link := rfl
@[simp] theorem Part.driveLines_resetPhase : (p.driveLines).resetPhase = p.resetPhase := rfl
@[simp] theorem Part.driveLines_resetPin : (p.driveLines).resetPin = p.resetPin := rfl

/-! ### emptyRegion -/

@[simp] theorem Part.emptyRegion_timebase (r : Fin 16) : (p.emptyRegion r).timebase = p.timebase := rfl
@[simp] theorem Part.emptyRegion_pairs (r : Fin 16) : (p.emptyRegion r).pairs = p.pairs := rfl
@[simp] theorem Part.emptyRegion_lanes (r : Fin 16) : (p.emptyRegion r).lanes = p.lanes := rfl
@[simp] theorem Part.emptyRegion_patterns (r : Fin 16) : (p.emptyRegion r).patterns = p.patterns := rfl
@[simp] theorem Part.emptyRegion_triggers (r : Fin 16) : (p.emptyRegion r).triggers = p.triggers := rfl
@[simp] theorem Part.emptyRegion_barriers (r : Fin 16) : (p.emptyRegion r).barriers = p.barriers := rfl
@[simp] theorem Part.emptyRegion_faults (r : Fin 16) : (p.emptyRegion r).faults = p.faults := rfl
@[simp] theorem Part.emptyRegion_firstFault (r : Fin 16) : (p.emptyRegion r).firstFault = p.firstFault := rfl
@[simp] theorem Part.emptyRegion_sensePins (r : Fin 16) : (p.emptyRegion r).sensePins = p.sensePins := rfl
@[simp] theorem Part.emptyRegion_notif (r : Fin 16) : (p.emptyRegion r).notif = p.notif := rfl
@[simp] theorem Part.emptyRegion_link (r : Fin 16) : (p.emptyRegion r).link = p.link := rfl
@[simp] theorem Part.emptyRegion_resetPhase (r : Fin 16) : (p.emptyRegion r).resetPhase = p.resetPhase := rfl
@[simp] theorem Part.emptyRegion_resetPin (r : Fin 16) : (p.emptyRegion r).resetPin = p.resetPin := rfl

/-! ### enqueue -/

@[simp] theorem Part.enqueue_timebase (r : Fin 16) (segs : List Segment) : (p.enqueue r segs).timebase = p.timebase := rfl
@[simp] theorem Part.enqueue_pairs (r : Fin 16) (segs : List Segment) : (p.enqueue r segs).pairs = p.pairs := rfl
@[simp] theorem Part.enqueue_lanes (r : Fin 16) (segs : List Segment) : (p.enqueue r segs).lanes = p.lanes := rfl
@[simp] theorem Part.enqueue_patterns (r : Fin 16) (segs : List Segment) : (p.enqueue r segs).patterns = p.patterns := rfl
@[simp] theorem Part.enqueue_triggers (r : Fin 16) (segs : List Segment) : (p.enqueue r segs).triggers = p.triggers := rfl
@[simp] theorem Part.enqueue_barriers (r : Fin 16) (segs : List Segment) : (p.enqueue r segs).barriers = p.barriers := rfl
@[simp] theorem Part.enqueue_faults (r : Fin 16) (segs : List Segment) : (p.enqueue r segs).faults = p.faults := rfl
@[simp] theorem Part.enqueue_firstFault (r : Fin 16) (segs : List Segment) : (p.enqueue r segs).firstFault = p.firstFault := rfl
@[simp] theorem Part.enqueue_sensePins (r : Fin 16) (segs : List Segment) : (p.enqueue r segs).sensePins = p.sensePins := rfl
@[simp] theorem Part.enqueue_notif (r : Fin 16) (segs : List Segment) : (p.enqueue r segs).notif = p.notif := rfl
@[simp] theorem Part.enqueue_link (r : Fin 16) (segs : List Segment) : (p.enqueue r segs).link = p.link := rfl
@[simp] theorem Part.enqueue_resetPhase (r : Fin 16) (segs : List Segment) : (p.enqueue r segs).resetPhase = p.resetPhase := rfl
@[simp] theorem Part.enqueue_resetPin (r : Fin 16) (segs : List Segment) : (p.enqueue r segs).resetPin = p.resetPin := rfl

/-! ### load -/

@[simp] theorem Part.load_timebase (r : Fin 16) (segs : List Segment) : (p.load r segs).timebase = p.timebase := rfl
@[simp] theorem Part.load_pairs (r : Fin 16) (segs : List Segment) : (p.load r segs).pairs = p.pairs := rfl
@[simp] theorem Part.load_lanes (r : Fin 16) (segs : List Segment) : (p.load r segs).lanes = p.lanes := rfl
@[simp] theorem Part.load_patterns (r : Fin 16) (segs : List Segment) : (p.load r segs).patterns = p.patterns := rfl
@[simp] theorem Part.load_triggers (r : Fin 16) (segs : List Segment) : (p.load r segs).triggers = p.triggers := rfl
@[simp] theorem Part.load_barriers (r : Fin 16) (segs : List Segment) : (p.load r segs).barriers = p.barriers := rfl
@[simp] theorem Part.load_faults (r : Fin 16) (segs : List Segment) : (p.load r segs).faults = p.faults := rfl
@[simp] theorem Part.load_firstFault (r : Fin 16) (segs : List Segment) : (p.load r segs).firstFault = p.firstFault := rfl
@[simp] theorem Part.load_sensePins (r : Fin 16) (segs : List Segment) : (p.load r segs).sensePins = p.sensePins := rfl
@[simp] theorem Part.load_notif (r : Fin 16) (segs : List Segment) : (p.load r segs).notif = p.notif := rfl
@[simp] theorem Part.load_link (r : Fin 16) (segs : List Segment) : (p.load r segs).link = p.link := rfl
@[simp] theorem Part.load_resetPhase (r : Fin 16) (segs : List Segment) : (p.load r segs).resetPhase = p.resetPhase := rfl
@[simp] theorem Part.load_resetPin (r : Fin 16) (segs : List Segment) : (p.load r segs).resetPin = p.resetPin := rfl

/-! ### raiseUse -/

@[simp] theorem Part.raiseUse_timebase (k : Fin 8) : (p.raiseUse k).timebase = p.timebase := rfl
@[simp] theorem Part.raiseUse_pairs (k : Fin 8) : (p.raiseUse k).pairs = p.pairs := rfl
@[simp] theorem Part.raiseUse_store (k : Fin 8) : (p.raiseUse k).store = p.store := rfl
@[simp] theorem Part.raiseUse_regions (k : Fin 8) : (p.raiseUse k).regions = p.regions := rfl
@[simp] theorem Part.raiseUse_lanes (k : Fin 8) : (p.raiseUse k).lanes = p.lanes := rfl
@[simp] theorem Part.raiseUse_triggers (k : Fin 8) : (p.raiseUse k).triggers = p.triggers := rfl
@[simp] theorem Part.raiseUse_barriers (k : Fin 8) : (p.raiseUse k).barriers = p.barriers := rfl
@[simp] theorem Part.raiseUse_faults (k : Fin 8) : (p.raiseUse k).faults = p.faults := rfl
@[simp] theorem Part.raiseUse_firstFault (k : Fin 8) : (p.raiseUse k).firstFault = p.firstFault := rfl
@[simp] theorem Part.raiseUse_sensePins (k : Fin 8) : (p.raiseUse k).sensePins = p.sensePins := rfl
@[simp] theorem Part.raiseUse_notif (k : Fin 8) : (p.raiseUse k).notif = p.notif := rfl
@[simp] theorem Part.raiseUse_link (k : Fin 8) : (p.raiseUse k).link = p.link := rfl
@[simp] theorem Part.raiseUse_resetPhase (k : Fin 8) : (p.raiseUse k).resetPhase = p.resetPhase := rfl
@[simp] theorem Part.raiseUse_resetPin (k : Fin 8) : (p.raiseUse k).resetPin = p.resetPin := rfl

/-! ### lowerUse -/

@[simp] theorem Part.lowerUse_timebase (k : Fin 8) : (p.lowerUse k).timebase = p.timebase := rfl
@[simp] theorem Part.lowerUse_pairs (k : Fin 8) : (p.lowerUse k).pairs = p.pairs := rfl
@[simp] theorem Part.lowerUse_store (k : Fin 8) : (p.lowerUse k).store = p.store := rfl
@[simp] theorem Part.lowerUse_regions (k : Fin 8) : (p.lowerUse k).regions = p.regions := rfl
@[simp] theorem Part.lowerUse_lanes (k : Fin 8) : (p.lowerUse k).lanes = p.lanes := rfl
@[simp] theorem Part.lowerUse_triggers (k : Fin 8) : (p.lowerUse k).triggers = p.triggers := rfl
@[simp] theorem Part.lowerUse_barriers (k : Fin 8) : (p.lowerUse k).barriers = p.barriers := rfl
@[simp] theorem Part.lowerUse_faults (k : Fin 8) : (p.lowerUse k).faults = p.faults := rfl
@[simp] theorem Part.lowerUse_firstFault (k : Fin 8) : (p.lowerUse k).firstFault = p.firstFault := rfl
@[simp] theorem Part.lowerUse_sensePins (k : Fin 8) : (p.lowerUse k).sensePins = p.sensePins := rfl
@[simp] theorem Part.lowerUse_notif (k : Fin 8) : (p.lowerUse k).notif = p.notif := rfl
@[simp] theorem Part.lowerUse_link (k : Fin 8) : (p.lowerUse k).link = p.link := rfl
@[simp] theorem Part.lowerUse_resetPhase (k : Fin 8) : (p.lowerUse k).resetPhase = p.resetPhase := rfl
@[simp] theorem Part.lowerUse_resetPin (k : Fin 8) : (p.lowerUse k).resetPin = p.resetPin := rfl

/-! ### takeActivation -/

@[simp] theorem Part.takeActivation_timebase (o : Fin 6) : (p.takeActivation o).timebase = p.timebase := rfl
@[simp] theorem Part.takeActivation_store (o : Fin 6) : (p.takeActivation o).store = p.store := rfl
@[simp] theorem Part.takeActivation_regions (o : Fin 6) : (p.takeActivation o).regions = p.regions := rfl
@[simp] theorem Part.takeActivation_lanes (o : Fin 6) : (p.takeActivation o).lanes = p.lanes := rfl
@[simp] theorem Part.takeActivation_patterns (o : Fin 6) : (p.takeActivation o).patterns = p.patterns := rfl
@[simp] theorem Part.takeActivation_triggers (o : Fin 6) : (p.takeActivation o).triggers = p.triggers := rfl
@[simp] theorem Part.takeActivation_barriers (o : Fin 6) : (p.takeActivation o).barriers = p.barriers := rfl
@[simp] theorem Part.takeActivation_faults (o : Fin 6) : (p.takeActivation o).faults = p.faults := rfl
@[simp] theorem Part.takeActivation_firstFault (o : Fin 6) : (p.takeActivation o).firstFault = p.firstFault := rfl
@[simp] theorem Part.takeActivation_sensePins (o : Fin 6) : (p.takeActivation o).sensePins = p.sensePins := rfl
@[simp] theorem Part.takeActivation_notif (o : Fin 6) : (p.takeActivation o).notif = p.notif := rfl
@[simp] theorem Part.takeActivation_link (o : Fin 6) : (p.takeActivation o).link = p.link := rfl
@[simp] theorem Part.takeActivation_resetPhase (o : Fin 6) : (p.takeActivation o).resetPhase = p.resetPhase := rfl
@[simp] theorem Part.takeActivation_resetPin (o : Fin 6) : (p.takeActivation o).resetPin = p.resetPin := rfl

/-! ### replied -/

@[simp] theorem Part.replied_timebase (f : RequestFrame) (a : Answer) : (p.replied f a).timebase = p.timebase := rfl
@[simp] theorem Part.replied_pairs (f : RequestFrame) (a : Answer) : (p.replied f a).pairs = p.pairs := rfl
@[simp] theorem Part.replied_store (f : RequestFrame) (a : Answer) : (p.replied f a).store = p.store := rfl
@[simp] theorem Part.replied_regions (f : RequestFrame) (a : Answer) : (p.replied f a).regions = p.regions := rfl
@[simp] theorem Part.replied_lanes (f : RequestFrame) (a : Answer) : (p.replied f a).lanes = p.lanes := rfl
@[simp] theorem Part.replied_patterns (f : RequestFrame) (a : Answer) : (p.replied f a).patterns = p.patterns := rfl
@[simp] theorem Part.replied_triggers (f : RequestFrame) (a : Answer) : (p.replied f a).triggers = p.triggers := rfl
@[simp] theorem Part.replied_barriers (f : RequestFrame) (a : Answer) : (p.replied f a).barriers = p.barriers := rfl
@[simp] theorem Part.replied_faults (f : RequestFrame) (a : Answer) : (p.replied f a).faults = p.faults := rfl
@[simp] theorem Part.replied_firstFault (f : RequestFrame) (a : Answer) : (p.replied f a).firstFault = p.firstFault := rfl
@[simp] theorem Part.replied_sensePins (f : RequestFrame) (a : Answer) : (p.replied f a).sensePins = p.sensePins := rfl
@[simp] theorem Part.replied_notif (f : RequestFrame) (a : Answer) : (p.replied f a).notif = p.notif := rfl
@[simp] theorem Part.replied_resetPhase (f : RequestFrame) (a : Answer) : (p.replied f a).resetPhase = p.resetPhase := rfl
@[simp] theorem Part.replied_resetPin (f : RequestFrame) (a : Answer) : (p.replied f a).resetPin = p.resetPin := rfl

/-! ### The blocks by number under updates of other blocks -/

@[simp] theorem Part.setLane_pair (l : Fin 6) (x : Lane) (j : Fin 3) : (p.setLane l x).pair j = p.pair j := rfl
@[simp] theorem Part.setLane_region (l : Fin 6) (x : Lane) (j : Fin 16) : (p.setLane l x).region j = p.region j := rfl
@[simp] theorem Part.setLane_pattern (l : Fin 6) (x : Lane) (j : Fin 8) : (p.setLane l x).pattern j = p.pattern j := rfl
@[simp] theorem Part.setLane_trigger (l : Fin 6) (x : Lane) (j : Fin 4) : (p.setLane l x).trigger j = p.trigger j := rfl
@[simp] theorem Part.setLane_barrier (l : Fin 6) (x : Lane) (j : Fin 4) : (p.setLane l x).barrier j = p.barrier j := rfl
@[simp] theorem Part.setLane_fault (l : Fin 6) (x : Lane) (j : Fin 4) : (p.setLane l x).fault j = p.fault j := rfl
@[simp] theorem Part.setLane_now (l : Fin 6) (x : Lane) : (p.setLane l x).now = p.now := rfl
@[simp] theorem Part.updLane_pair (l : Fin 6) (f : Lane → Lane) (j : Fin 3) : (p.updLane l f).pair j = p.pair j := rfl
@[simp] theorem Part.updLane_region (l : Fin 6) (f : Lane → Lane) (j : Fin 16) : (p.updLane l f).region j = p.region j := rfl
@[simp] theorem Part.updLane_pattern (l : Fin 6) (f : Lane → Lane) (j : Fin 8) : (p.updLane l f).pattern j = p.pattern j := rfl
@[simp] theorem Part.updLane_trigger (l : Fin 6) (f : Lane → Lane) (j : Fin 4) : (p.updLane l f).trigger j = p.trigger j := rfl
@[simp] theorem Part.updLane_barrier (l : Fin 6) (f : Lane → Lane) (j : Fin 4) : (p.updLane l f).barrier j = p.barrier j := rfl
@[simp] theorem Part.updLane_fault (l : Fin 6) (f : Lane → Lane) (j : Fin 4) : (p.updLane l f).fault j = p.fault j := rfl
@[simp] theorem Part.updLane_now (l : Fin 6) (f : Lane → Lane) : (p.updLane l f).now = p.now := rfl
@[simp] theorem Part.setPair_lane (k : Fin 3) (x : Pair) (j : Fin 6) : (p.setPair k x).lane j = p.lane j := rfl
@[simp] theorem Part.setPair_region (k : Fin 3) (x : Pair) (j : Fin 16) : (p.setPair k x).region j = p.region j := rfl
@[simp] theorem Part.setPair_pattern (k : Fin 3) (x : Pair) (j : Fin 8) : (p.setPair k x).pattern j = p.pattern j := rfl
@[simp] theorem Part.setPair_trigger (k : Fin 3) (x : Pair) (j : Fin 4) : (p.setPair k x).trigger j = p.trigger j := rfl
@[simp] theorem Part.setPair_barrier (k : Fin 3) (x : Pair) (j : Fin 4) : (p.setPair k x).barrier j = p.barrier j := rfl
@[simp] theorem Part.setPair_fault (k : Fin 3) (x : Pair) (j : Fin 4) : (p.setPair k x).fault j = p.fault j := rfl
@[simp] theorem Part.setPair_now (k : Fin 3) (x : Pair) : (p.setPair k x).now = p.now := rfl
@[simp] theorem Part.setRegion_lane (r : Fin 16) (x : Region) (j : Fin 6) : (p.setRegion r x).lane j = p.lane j := rfl
@[simp] theorem Part.setRegion_pair (r : Fin 16) (x : Region) (j : Fin 3) : (p.setRegion r x).pair j = p.pair j := rfl
@[simp] theorem Part.setRegion_pattern (r : Fin 16) (x : Region) (j : Fin 8) : (p.setRegion r x).pattern j = p.pattern j := rfl
@[simp] theorem Part.setRegion_trigger (r : Fin 16) (x : Region) (j : Fin 4) : (p.setRegion r x).trigger j = p.trigger j := rfl
@[simp] theorem Part.setRegion_barrier (r : Fin 16) (x : Region) (j : Fin 4) : (p.setRegion r x).barrier j = p.barrier j := rfl
@[simp] theorem Part.setRegion_fault (r : Fin 16) (x : Region) (j : Fin 4) : (p.setRegion r x).fault j = p.fault j := rfl
@[simp] theorem Part.setRegion_now (r : Fin 16) (x : Region) : (p.setRegion r x).now = p.now := rfl
@[simp] theorem Part.setPattern_lane (k : Fin 8) (x : Pattern) (j : Fin 6) : (p.setPattern k x).lane j = p.lane j := rfl
@[simp] theorem Part.setPattern_pair (k : Fin 8) (x : Pattern) (j : Fin 3) : (p.setPattern k x).pair j = p.pair j := rfl
@[simp] theorem Part.setPattern_region (k : Fin 8) (x : Pattern) (j : Fin 16) : (p.setPattern k x).region j = p.region j := rfl
@[simp] theorem Part.setPattern_trigger (k : Fin 8) (x : Pattern) (j : Fin 4) : (p.setPattern k x).trigger j = p.trigger j := rfl
@[simp] theorem Part.setPattern_barrier (k : Fin 8) (x : Pattern) (j : Fin 4) : (p.setPattern k x).barrier j = p.barrier j := rfl
@[simp] theorem Part.setPattern_fault (k : Fin 8) (x : Pattern) (j : Fin 4) : (p.setPattern k x).fault j = p.fault j := rfl
@[simp] theorem Part.setPattern_now (k : Fin 8) (x : Pattern) : (p.setPattern k x).now = p.now := rfl
@[simp] theorem Part.setTrigger_lane (i : Fin 4) (x : TriggerInput) (j : Fin 6) : (p.setTrigger i x).lane j = p.lane j := rfl
@[simp] theorem Part.setTrigger_pair (i : Fin 4) (x : TriggerInput) (j : Fin 3) : (p.setTrigger i x).pair j = p.pair j := rfl
@[simp] theorem Part.setTrigger_region (i : Fin 4) (x : TriggerInput) (j : Fin 16) : (p.setTrigger i x).region j = p.region j := rfl
@[simp] theorem Part.setTrigger_pattern (i : Fin 4) (x : TriggerInput) (j : Fin 8) : (p.setTrigger i x).pattern j = p.pattern j := rfl
@[simp] theorem Part.setTrigger_barrier (i : Fin 4) (x : TriggerInput) (j : Fin 4) : (p.setTrigger i x).barrier j = p.barrier j := rfl
@[simp] theorem Part.setTrigger_fault (i : Fin 4) (x : TriggerInput) (j : Fin 4) : (p.setTrigger i x).fault j = p.fault j := rfl
@[simp] theorem Part.setTrigger_now (i : Fin 4) (x : TriggerInput) : (p.setTrigger i x).now = p.now := rfl
@[simp] theorem Part.setBarrier_lane (b : Fin 4) (x : Barrier) (j : Fin 6) : (p.setBarrier b x).lane j = p.lane j := rfl
@[simp] theorem Part.setBarrier_pair (b : Fin 4) (x : Barrier) (j : Fin 3) : (p.setBarrier b x).pair j = p.pair j := rfl
@[simp] theorem Part.setBarrier_region (b : Fin 4) (x : Barrier) (j : Fin 16) : (p.setBarrier b x).region j = p.region j := rfl
@[simp] theorem Part.setBarrier_pattern (b : Fin 4) (x : Barrier) (j : Fin 8) : (p.setBarrier b x).pattern j = p.pattern j := rfl
@[simp] theorem Part.setBarrier_trigger (b : Fin 4) (x : Barrier) (j : Fin 4) : (p.setBarrier b x).trigger j = p.trigger j := rfl
@[simp] theorem Part.setBarrier_fault (b : Fin 4) (x : Barrier) (j : Fin 4) : (p.setBarrier b x).fault j = p.fault j := rfl
@[simp] theorem Part.setBarrier_now (b : Fin 4) (x : Barrier) : (p.setBarrier b x).now = p.now := rfl
@[simp] theorem Part.setFault_lane (i : Fin 4) (x : FaultInput) (j : Fin 6) : (p.setFault i x).lane j = p.lane j := rfl
@[simp] theorem Part.setFault_pair (i : Fin 4) (x : FaultInput) (j : Fin 3) : (p.setFault i x).pair j = p.pair j := rfl
@[simp] theorem Part.setFault_region (i : Fin 4) (x : FaultInput) (j : Fin 16) : (p.setFault i x).region j = p.region j := rfl
@[simp] theorem Part.setFault_pattern (i : Fin 4) (x : FaultInput) (j : Fin 8) : (p.setFault i x).pattern j = p.pattern j := rfl
@[simp] theorem Part.setFault_trigger (i : Fin 4) (x : FaultInput) (j : Fin 4) : (p.setFault i x).trigger j = p.trigger j := rfl
@[simp] theorem Part.setFault_barrier (i : Fin 4) (x : FaultInput) (j : Fin 4) : (p.setFault i x).barrier j = p.barrier j := rfl
@[simp] theorem Part.setFault_now (i : Fin 4) (x : FaultInput) : (p.setFault i x).now = p.now := rfl
@[simp] theorem Part.notify_lane (n : Notification) (j : Fin 6) : (p.notify n).lane j = p.lane j := rfl
@[simp] theorem Part.notify_pair (n : Notification) (j : Fin 3) : (p.notify n).pair j = p.pair j := rfl
@[simp] theorem Part.notify_region (n : Notification) (j : Fin 16) : (p.notify n).region j = p.region j := rfl
@[simp] theorem Part.notify_pattern (n : Notification) (j : Fin 8) : (p.notify n).pattern j = p.pattern j := rfl
@[simp] theorem Part.notify_trigger (n : Notification) (j : Fin 4) : (p.notify n).trigger j = p.trigger j := rfl
@[simp] theorem Part.notify_barrier (n : Notification) (j : Fin 4) : (p.notify n).barrier j = p.barrier j := rfl
@[simp] theorem Part.notify_fault (n : Notification) (j : Fin 4) : (p.notify n).fault j = p.fault j := rfl
@[simp] theorem Part.notify_now (n : Notification) : (p.notify n).now = p.now := rfl
@[simp] theorem Part.driveLines_lane (j : Fin 6) : (p.driveLines).lane j = p.lane j := rfl
@[simp] theorem Part.driveLines_region (j : Fin 16) : (p.driveLines).region j = p.region j := rfl
@[simp] theorem Part.driveLines_pattern (j : Fin 8) : (p.driveLines).pattern j = p.pattern j := rfl
@[simp] theorem Part.driveLines_trigger (j : Fin 4) : (p.driveLines).trigger j = p.trigger j := rfl
@[simp] theorem Part.driveLines_barrier (j : Fin 4) : (p.driveLines).barrier j = p.barrier j := rfl
@[simp] theorem Part.driveLines_fault (j : Fin 4) : (p.driveLines).fault j = p.fault j := rfl
@[simp] theorem Part.driveLines_now : (p.driveLines).now = p.now := rfl
@[simp] theorem Part.emptyRegion_lane (r : Fin 16) (j : Fin 6) : (p.emptyRegion r).lane j = p.lane j := rfl
@[simp] theorem Part.emptyRegion_pair (r : Fin 16) (j : Fin 3) : (p.emptyRegion r).pair j = p.pair j := rfl
@[simp] theorem Part.emptyRegion_pattern (r : Fin 16) (j : Fin 8) : (p.emptyRegion r).pattern j = p.pattern j := rfl
@[simp] theorem Part.emptyRegion_trigger (r : Fin 16) (j : Fin 4) : (p.emptyRegion r).trigger j = p.trigger j := rfl
@[simp] theorem Part.emptyRegion_barrier (r : Fin 16) (j : Fin 4) : (p.emptyRegion r).barrier j = p.barrier j := rfl
@[simp] theorem Part.emptyRegion_fault (r : Fin 16) (j : Fin 4) : (p.emptyRegion r).fault j = p.fault j := rfl
@[simp] theorem Part.emptyRegion_now (r : Fin 16) : (p.emptyRegion r).now = p.now := rfl
@[simp] theorem Part.enqueue_lane (r : Fin 16) (segs : List Segment) (j : Fin 6) : (p.enqueue r segs).lane j = p.lane j := rfl
@[simp] theorem Part.enqueue_pair (r : Fin 16) (segs : List Segment) (j : Fin 3) : (p.enqueue r segs).pair j = p.pair j := rfl
@[simp] theorem Part.enqueue_pattern (r : Fin 16) (segs : List Segment) (j : Fin 8) : (p.enqueue r segs).pattern j = p.pattern j := rfl
@[simp] theorem Part.enqueue_trigger (r : Fin 16) (segs : List Segment) (j : Fin 4) : (p.enqueue r segs).trigger j = p.trigger j := rfl
@[simp] theorem Part.enqueue_barrier (r : Fin 16) (segs : List Segment) (j : Fin 4) : (p.enqueue r segs).barrier j = p.barrier j := rfl
@[simp] theorem Part.enqueue_fault (r : Fin 16) (segs : List Segment) (j : Fin 4) : (p.enqueue r segs).fault j = p.fault j := rfl
@[simp] theorem Part.enqueue_now (r : Fin 16) (segs : List Segment) : (p.enqueue r segs).now = p.now := rfl
@[simp] theorem Part.load_lane (r : Fin 16) (segs : List Segment) (j : Fin 6) : (p.load r segs).lane j = p.lane j := rfl
@[simp] theorem Part.load_pair (r : Fin 16) (segs : List Segment) (j : Fin 3) : (p.load r segs).pair j = p.pair j := rfl
@[simp] theorem Part.load_pattern (r : Fin 16) (segs : List Segment) (j : Fin 8) : (p.load r segs).pattern j = p.pattern j := rfl
@[simp] theorem Part.load_trigger (r : Fin 16) (segs : List Segment) (j : Fin 4) : (p.load r segs).trigger j = p.trigger j := rfl
@[simp] theorem Part.load_barrier (r : Fin 16) (segs : List Segment) (j : Fin 4) : (p.load r segs).barrier j = p.barrier j := rfl
@[simp] theorem Part.load_fault (r : Fin 16) (segs : List Segment) (j : Fin 4) : (p.load r segs).fault j = p.fault j := rfl
@[simp] theorem Part.load_now (r : Fin 16) (segs : List Segment) : (p.load r segs).now = p.now := rfl
@[simp] theorem Part.raiseUse_lane (k : Fin 8) (j : Fin 6) : (p.raiseUse k).lane j = p.lane j := rfl
@[simp] theorem Part.raiseUse_pair (k : Fin 8) (j : Fin 3) : (p.raiseUse k).pair j = p.pair j := rfl
@[simp] theorem Part.raiseUse_region (k : Fin 8) (j : Fin 16) : (p.raiseUse k).region j = p.region j := rfl
@[simp] theorem Part.raiseUse_trigger (k : Fin 8) (j : Fin 4) : (p.raiseUse k).trigger j = p.trigger j := rfl
@[simp] theorem Part.raiseUse_barrier (k : Fin 8) (j : Fin 4) : (p.raiseUse k).barrier j = p.barrier j := rfl
@[simp] theorem Part.raiseUse_fault (k : Fin 8) (j : Fin 4) : (p.raiseUse k).fault j = p.fault j := rfl
@[simp] theorem Part.raiseUse_now (k : Fin 8) : (p.raiseUse k).now = p.now := rfl
@[simp] theorem Part.lowerUse_lane (k : Fin 8) (j : Fin 6) : (p.lowerUse k).lane j = p.lane j := rfl
@[simp] theorem Part.lowerUse_pair (k : Fin 8) (j : Fin 3) : (p.lowerUse k).pair j = p.pair j := rfl
@[simp] theorem Part.lowerUse_region (k : Fin 8) (j : Fin 16) : (p.lowerUse k).region j = p.region j := rfl
@[simp] theorem Part.lowerUse_trigger (k : Fin 8) (j : Fin 4) : (p.lowerUse k).trigger j = p.trigger j := rfl
@[simp] theorem Part.lowerUse_barrier (k : Fin 8) (j : Fin 4) : (p.lowerUse k).barrier j = p.barrier j := rfl
@[simp] theorem Part.lowerUse_fault (k : Fin 8) (j : Fin 4) : (p.lowerUse k).fault j = p.fault j := rfl
@[simp] theorem Part.lowerUse_now (k : Fin 8) : (p.lowerUse k).now = p.now := rfl
@[simp] theorem Part.takeActivation_lane (o : Fin 6) (j : Fin 6) : (p.takeActivation o).lane j = p.lane j := rfl
@[simp] theorem Part.takeActivation_region (o : Fin 6) (j : Fin 16) : (p.takeActivation o).region j = p.region j := rfl
@[simp] theorem Part.takeActivation_pattern (o : Fin 6) (j : Fin 8) : (p.takeActivation o).pattern j = p.pattern j := rfl
@[simp] theorem Part.takeActivation_trigger (o : Fin 6) (j : Fin 4) : (p.takeActivation o).trigger j = p.trigger j := rfl
@[simp] theorem Part.takeActivation_barrier (o : Fin 6) (j : Fin 4) : (p.takeActivation o).barrier j = p.barrier j := rfl
@[simp] theorem Part.takeActivation_fault (o : Fin 6) (j : Fin 4) : (p.takeActivation o).fault j = p.fault j := rfl
@[simp] theorem Part.takeActivation_now (o : Fin 6) : (p.takeActivation o).now = p.now := rfl
@[simp] theorem Part.replied_lane (f : RequestFrame) (a : Answer) (j : Fin 6) : (p.replied f a).lane j = p.lane j := rfl
@[simp] theorem Part.replied_pair (f : RequestFrame) (a : Answer) (j : Fin 3) : (p.replied f a).pair j = p.pair j := rfl
@[simp] theorem Part.replied_region (f : RequestFrame) (a : Answer) (j : Fin 16) : (p.replied f a).region j = p.region j := rfl
@[simp] theorem Part.replied_pattern (f : RequestFrame) (a : Answer) (j : Fin 8) : (p.replied f a).pattern j = p.pattern j := rfl
@[simp] theorem Part.replied_trigger (f : RequestFrame) (a : Answer) (j : Fin 4) : (p.replied f a).trigger j = p.trigger j := rfl
@[simp] theorem Part.replied_barrier (f : RequestFrame) (a : Answer) (j : Fin 4) : (p.replied f a).barrier j = p.barrier j := rfl
@[simp] theorem Part.replied_fault (f : RequestFrame) (a : Answer) (j : Fin 4) : (p.replied f a).fault j = p.fault j := rfl
@[simp] theorem Part.replied_now (f : RequestFrame) (a : Answer) : (p.replied f a).now = p.now := rfl

/-! ### A block read after it was set -/

@[simp] theorem Part.setLane_lane_self (j : Fin 6) (x : Lane) : (p.setLane j x).lane j = x := by
  simp [Part.setLane, Part.lane]

theorem Part.setLane_lane_of_ne {j m : Fin 6} (x : Lane) (h : m ≠ j) : (p.setLane j x).lane m = p.lane m := by
  have h' : j.val ≠ m.val := fun e => h (Fin.ext e.symm)
  simp [Part.setLane, Part.lane, h']

@[simp] theorem Part.setPair_pair_self (j : Fin 3) (x : Pair) : (p.setPair j x).pair j = x := by
  simp [Part.setPair, Part.pair]

theorem Part.setPair_pair_of_ne {j m : Fin 3} (x : Pair) (h : m ≠ j) : (p.setPair j x).pair m = p.pair m := by
  have h' : j.val ≠ m.val := fun e => h (Fin.ext e.symm)
  simp [Part.setPair, Part.pair, h']

@[simp] theorem Part.setRegion_region_self (j : Fin 16) (x : Region) : (p.setRegion j x).region j = x := by
  simp [Part.setRegion, Part.region]

theorem Part.setRegion_region_of_ne {j m : Fin 16} (x : Region) (h : m ≠ j) : (p.setRegion j x).region m = p.region m := by
  have h' : j.val ≠ m.val := fun e => h (Fin.ext e.symm)
  simp [Part.setRegion, Part.region, h']

@[simp] theorem Part.setPattern_pattern_self (j : Fin 8) (x : Pattern) : (p.setPattern j x).pattern j = x := by
  simp [Part.setPattern, Part.pattern]

theorem Part.setPattern_pattern_of_ne {j m : Fin 8} (x : Pattern) (h : m ≠ j) : (p.setPattern j x).pattern m = p.pattern m := by
  have h' : j.val ≠ m.val := fun e => h (Fin.ext e.symm)
  simp [Part.setPattern, Part.pattern, h']

@[simp] theorem Part.setTrigger_trigger_self (j : Fin 4) (x : TriggerInput) : (p.setTrigger j x).trigger j = x := by
  simp [Part.setTrigger, Part.trigger]

theorem Part.setTrigger_trigger_of_ne {j m : Fin 4} (x : TriggerInput) (h : m ≠ j) : (p.setTrigger j x).trigger m = p.trigger m := by
  have h' : j.val ≠ m.val := fun e => h (Fin.ext e.symm)
  simp [Part.setTrigger, Part.trigger, h']

@[simp] theorem Part.setBarrier_barrier_self (j : Fin 4) (x : Barrier) : (p.setBarrier j x).barrier j = x := by
  simp [Part.setBarrier, Part.barrier]

theorem Part.setBarrier_barrier_of_ne {j m : Fin 4} (x : Barrier) (h : m ≠ j) : (p.setBarrier j x).barrier m = p.barrier m := by
  have h' : j.val ≠ m.val := fun e => h (Fin.ext e.symm)
  simp [Part.setBarrier, Part.barrier, h']

@[simp] theorem Part.setFault_fault_self (j : Fin 4) (x : FaultInput) : (p.setFault j x).fault j = x := by
  simp [Part.setFault, Part.fault]

theorem Part.setFault_fault_of_ne {j m : Fin 4} (x : FaultInput) (h : m ≠ j) : (p.setFault j x).fault m = p.fault m := by
  have h' : j.val ≠ m.val := fun e => h (Fin.ext e.symm)
  simp [Part.setFault, Part.fault, h']

@[simp] theorem Part.updLane_lane_self (l : Fin 6) (f : Lane → Lane) : (p.updLane l f).lane l = f (p.lane l) := by
  simp [Part.updLane]

theorem Part.updLane_lane_of_ne {l m : Fin 6} (f : Lane → Lane) (h : m ≠ l) : (p.updLane l f).lane m = p.lane m := by
  simp [Part.updLane, Part.setLane_lane_of_ne _ _ h]

end Sys2Proof.Machine
end

