-- ==== Sys2Proof/Laws/Requests.lean ====
section
/-! SUPPORT. What a request command does: the frame it brings, and the one lemma by which a request that the dispatcher
takes at once is its `runRequest` with the reply placed. -/

namespace Sys2Proof.Machine

/-- The code of a request names it. -/
theorem requestKind_requestCode (k : RequestKind) : requestKind (requestCode k) = some k := by
  cases k <;> rfl

/-- The two bytes of a field give its value back. -/
@[simp] theorem field16_extract (w : Word16) : field16 (w.extractLsb' 8 8) (w.extractLsb' 0 8) = w.toNat := by
  have h : word16 (w.extractLsb' 8 8) (w.extractLsb' 0 8) = w := by
    unfold word16
    ext i hi
    simp only [BitVec.getElem_append, BitVec.getElem_extractLsb']
    by_cases h8 : i < 8
    · simp [h8, BitVec.getLsbD, BitVec.getElem_eq_testBit_toNat]
    · have : 8 + (i - 8) = i := by omega
      simp [h8, this, BitVec.getLsbD, BitVec.getElem_eq_testBit_toNat]
  simp [field16, h]

/-- Segments laid out one after another are split into the same segments. -/
theorem splitSegments_flatMap (rs : List RawSegment) :
    splitSegments (rs.flatMap (fun r => r.toList)) = some rs := by
  induction rs with
  | nil => rfl
  | cons r rest ih =>
    obtain ⟨⟨l⟩, hl⟩ := r
    match l, hl with
    | [a, b, c, d, e, f, g, h, i, j, k, m], _ =>
      simp [splitSegments, ih, List.flatMap_cons]

/-- A request command is the arrival of its frame at the request buffer. -/
theorem exec_request {c : Instr} {f : RequestFrame} (hc : requestOf c = some f) (s : State) :
    exec c s = .next { s with part := s.part.event (fun p => p.bufferRequest f) } := by
  cases c <;> simp only [requestOf, Option.some.injEq, reduceCtorEq] at hc <;> subst hc <;> rfl

/-- A frame that the free dispatcher finds alone in the buffer is executed with the buffer empty again. -/
theorem dispatch_buffered {p : Part} {f : RequestFrame} (hs : p.link.dispatchStopped = false)
    (hb : p.link.buffer = []) (hl : p.link.slot = none) : (p.bufferRequest f).dispatch = p.execute f := by
  obtain ⟨timebase, pairs, store, regions, lanes, patterns, triggers, barriers, faults, firstFault, sensePins, notif,
    ⟨rx, awaitsIdle, receiving, gap, buffer, slot, stopped, tx, synced, cache, counters, interval, stallLimit, straps,
      cause⟩, phase, pin⟩ := p
  simp only at hs hb hl
  subst hs hb hl
  rfl

/-- A reply placed beside an empty buffer is begun or waits, and the dispatcher finds nothing more to take. -/
theorem placed_pump {q : Part} {f : RequestFrame} {a : Answer} (hb : q.link.buffer = []) :
    (q.placeCached f (f.reply a false)).arbitrate.dispatch = q.replied f a := by
  obtain ⟨timebase, pairs, store, regions, lanes, patterns, triggers, barriers, faults, firstFault, sensePins, notif,
    ⟨rx, awaitsIdle, receiving, gap, buffer, slot, stopped, tx, synced, cache, counters, interval, stallLimit, straps,
      cause⟩, phase, pin⟩ := q
  simp only at hb
  subst hb
  cases tx <;> cases stopped <;>
    simp [Part.placeCached, Part.arbitrate, Part.dispatch, Part.replied, RequestFrame.reply]

/-- A request that passes the first two checks is executed as new. -/
theorem Part.execute_fresh {p : Part} {f : RequestFrame} (hs : p.link.synced = true ∨ f.code = requestCode .sync)
    (hc : ∀ c, p.link.cache = some c → c.seq ≠ f.seq) : p.execute f = p.executeNew f := by
  have hpass : (p.link.synced || decide (f.code = requestCode .sync)) = true := by
    rcases hs with h | h <;> simp [h]
  unfold Part.execute Part.executeSynced
  rw [if_pos hpass]
  cases hcc : p.link.cache with
  | none => rfl
  | some e => exact if_neg (hc e hcc)

/-- A request command that the free dispatcher takes as new: its frame is executed, and what it leaves settles. -/
theorem exec_fresh {c : Instr} {s : State} {f : RequestFrame} (hc : requestOf c = some f)
    (hr : s.part.DispatcherFree f.seq) (hs : s.part.link.synced = true ∨ f.code = requestCode .sync) :
    exec c s = .next { s with part := (s.part.executeNew f).arbitrate.dispatch.driveLines } := by
  obtain ⟨hphase, hstop, hbuf, hslot, hcache⟩ := hr
  rw [exec_request hc]
  simp only [Part.event, Part.isRunning, hphase, decide_true, if_true, Part.settle, Part.pump,
    dispatch_buffered hstop hbuf hslot, Part.execute_fresh hs hcache]

/-- With the dispatcher free, a request other than an executed RESET that passes the first two checks does what
`runRequest` says, and its reply is placed. -/
theorem takes_of_executeNew {c : Instr} {s : State} {f : RequestFrame} {q : Part} {a : Answer}
    (hc : requestOf c = some f) (hr : s.part.DispatcherFree f.seq)
    (hs : s.part.link.synced = true ∨ f.code = requestCode .sync)
    (hx : s.part.executeNew f = q.placeCached f (f.reply a false)) (hb : q.link.buffer = []) : Takes c s q a := by
  refine ⟨f, hc, ?_⟩
  rw [Becomes, exec_fresh hc hr hs, hx, placed_pump hb]

/-- What a known request, taken at its arrival, does. -/
theorem takes_of_run {c : Instr} {s : State} {f : RequestFrame} {k : RequestKind} {q : Part} {a : Answer}
    (hc : requestOf c = some f) (hk : requestKind f.code = some k) (hr : s.part.DispatcherFree f.seq)
    (hs : s.part.link.synced = true ∨ f.code = requestCode .sync)
    (hrun : runRequest k f.payload s.part = (q, a)) (hb : q.link.buffer = [])
    (hn : k ≠ .reset ∨ a.status ≠ .ok) : Takes c s q a := by
  refine takes_of_executeNew hc hr hs ?_ hb
  have hne : ¬(k = .reset ∧ a.status = .ok) := fun h => hn.elim (fun h' => h' h.1) (fun h' => h' h.2)
  simp [Part.executeNew, hk, hrun, hne]

/-- A request other than RESET that arrives when the dispatcher is ready does what `runRequest` says. -/
theorem takes_of_ready {c : Instr} {s : State} {seq : Byte} {k : RequestKind} {payload : List Byte} {q : Part}
    {a : Answer} (h : s.part.Ready seq) (hc : requestOf c = some (requestFrame seq (requestCode k) payload))
    (hrun : runRequest k payload s.part = (q, a)) (hb : q.link.buffer = s.part.link.buffer) (hk : k ≠ .reset) :
    Takes c s q a :=
  takes_of_run hc (requestKind_requestCode k) h.1 (.inl h.2) hrun (hb.trans h.1.2.2.1) (.inl hk)

/-- A request that `runRequest` turns away is refused. -/
theorem refuses_of_ready {c : Instr} {s : State} {seq : Byte} {k : RequestKind} {payload : List Byte} {st : Status}
    {d : Byte} (h : s.part.Ready seq) (hc : requestOf c = some (requestFrame seq (requestCode k) payload))
    (hrun : runRequest k payload s.part = s.part.refuse st d) (hk : k ≠ .reset) : Refuses c s st d :=
  takes_of_ready h hc hrun rfl hk

end Sys2Proof.Machine
end

