-- ==== Sys2Proof/Laws/Events.lean ====
section
/-! SUPPORT. What an event command does: nothing while a reset lasts or when it is not due, and otherwise its change
followed by `settle`; and what `settle` leaves alone. -/

namespace Sys2Proof.Machine

/-- An event happens when no reset is in progress. -/
theorem Part.event_ended {p : Part} (h : p.resetPhase = .ended) (f : Part → Part) : p.event f = (f p).settle := by
  simp [Part.event, Part.isRunning, h]

/-- Nothing happens while a reset lasts. -/
theorem Part.event_held {p : Part} (h : p.resetPhase ≠ .ended) (f : Part → Part) : p.event f = p := by
  simp [Part.event, Part.isRunning, h]

/-- An event that is due happens. -/
theorem Part.eventWhen_due {p : Part} {due : Bool} (h : p.resetPhase = .ended) (hd : due = true) (f : Part → Part) :
    p.eventWhen due f = (f p).settle := by
  simp [Part.eventWhen, hd, Part.event_ended h]

/-- An event that is not due leaves the part as it is. -/
theorem Part.eventWhen_not_due {p : Part} {due : Bool} (hd : due = false) (f : Part → Part) : p.eventWhen due f = p := by
  simp [Part.eventWhen, hd]

/-- A due event command does what its change says. -/
theorem does_of_due {c : Instr} {s : State} {due : Bool} {f : Part → Part} {q : Part}
    (hx : exec c s = s.act (fun p => p.eventWhen due f)) (h : s.part.resetPhase = .ended) (hd : due = true)
    (hq : f s.part = q) : Does c s q := by
  rw [Does, Becomes, hx, State.act, Part.eventWhen_due h hd, hq]

/-- With the transmitter and the slot taken, neither dispatcher nor arbiter acts. -/
theorem Part.settle_busy {p : Part} (ht : p.link.tx.isSome = true) (hs : p.link.slot.isSome = true) :
    p.settle = p.driveLines := by
  obtain ⟨t, ht⟩ := Option.isSome_iff_exists.mp ht
  simp [Part.settle, Part.pump, Part.dispatch, Part.arbitrate, hs, ht]

/-- With nothing to dispatch and the transmitter busy, settling only drives the lines. -/
theorem Part.settle_quiet {p : Part} (ht : p.link.tx.isSome = true) (hb : p.link.buffer = []) :
    p.settle = p.driveLines := by
  obtain ⟨t, ht⟩ := Option.isSome_iff_exists.mp ht
  simp [Part.settle, Part.pump, Part.dispatch, Part.arbitrate, hb, ht]

/-- A task list that is empty leaves the part as it is. -/
@[simp] theorem runTasks_nil (n : Nat) (p : Part) : runTasks n [] p = p := by
  cases n <;> rfl

/-- One task is done, and the tasks it leaves go before the rest. -/
theorem runTasks_cons (n : Nat) (t : Task) (rest : List Task) (p : Part) :
    runTasks (n + 1) (t :: rest) p = runTasks n ((t.run p).2 ++ rest) (t.run p).1 := rfl

/-- A lane that looks at a timed queue element starts it. -/
theorem Part.processHead_timed {p : Part} {l : Fin 6} {g : Segment} (hq : p.queueHead l = some g)
    (ht : g.isTimed = true) : p.processHead l = (p.startTimed l g.body, []) := by
  obtain ⟨tag, body⟩ := g
  cases body <;> simp [Segment.isTimed] at ht <;> simp [Part.processHead, hq]

/-- A lane that begins on a timed queue element becomes RUNNING and starts it. -/
theorem Part.perform_begin_timed {p : Part} {l : Fin 6} {g : Segment} (hq : p.queueHead l = some g)
    (ht : g.isTimed = true) :
    p.perform [.begin l] =
      (p.setLane l { p.lane l with state := .running, armed := none }).startTimed l g.body := by
  have hq' : (p.setLane l { p.lane l with state := .running, armed := none }).queueHead l = some g := hq
  unfold Part.perform Config.joinFuel
  rw [runTasks_cons]
  simp only [Task.run, List.append_nil, Part.updLane]
  rw [runTasks_cons]
  simp only [Task.run, Part.processHead_timed hq' ht, List.append_nil, runTasks_nil]

/-- A lane whose queue element 0 is timed is looked at. -/
theorem Part.perform_head_timed {p : Part} {l : Fin 6} {g : Segment} (hq : p.queueHead l = some g)
    (ht : g.isTimed = true) : p.perform [.head l] = p.startTimed l g.body := by
  unfold Part.perform Config.joinFuel
  rw [runTasks_cons]
  simp only [Task.run, Part.processHead_timed hq ht, List.append_nil, runTasks_nil]

/-- A lane whose queue is empty enters STARVED. -/
theorem Part.perform_head_empty {p : Part} {l : Fin 6} (hq : p.queueHead l = none) :
    p.perform [.head l] = p.enterStarved l := by
  unfold Part.perform Config.joinFuel
  rw [runTasks_cons]
  simp only [Task.run, Part.processHead, hq, List.append_nil, runTasks_nil]

end Sys2Proof.Machine
end

