-- ==== Sys2Proof/Laws/Lanes.lean ====
section
/-! SUPPORT. Frames of the shared operations on lanes, queues and barriers: what each leaves as it was. -/

namespace Sys2Proof.Machine

variable (p : Part)

@[simp] theorem Part.setLane_setLane (l : Fin 6) (x y : Lane) : (p.setLane l x).setLane l y = p.setLane l y := by
  simp [Part.setLane]

@[simp] theorem Part.setRegion_setRegion (r : Fin 16) (x y : Region) :
    (p.setRegion r x).setRegion r y = p.setRegion r y := by
  simp [Part.setRegion]

@[simp] theorem Part.setFault_setFault (i : Fin 4) (x y : FaultInput) :
    (p.setFault i x).setFault i y = p.setFault i y := by
  simp [Part.setFault]

/-! ## Which lanes are merged, and the CYCLE inputs that act -/

/-- A change of a lane that neither merges nor unmerges it leaves the set of merged lanes. -/
theorem Part.mergedLanes_setLane {p : Part} {l : Fin 6} {x : Lane}
    (h : x.state = .merged ↔ (p.lane l).state = .merged) : (p.setLane l x).mergedLanes = p.mergedLanes := by
  have hm : ∀ m, decide (((p.setLane l x).lane m).state = .merged) = decide ((p.lane m).state = .merged) := by
    intro m
    by_cases hml : m = l
    · subst hml
      simp [h]
    · rw [Part.setLane_lane_of_ne _ _ hml]
  simp only [Part.mergedLanes, hm]

/-- Nor the lanes a fault input acts on. -/
theorem Part.effectiveMap_setLane {p : Part} {l : Fin 6} {x : Lane}
    (h : x.state = .merged ↔ (p.lane l).state = .merged) (i : Fin 4) :
    (p.setLane l x).effectiveMap i = p.effectiveMap i := by
  simp only [Part.effectiveMap, Part.mergedLanes_setLane h, Part.setLane_fault]

/-- Nor the suppression test of any lane. -/
theorem Part.cycleActive_setLane {p : Part} {l : Fin 6} {x : Lane}
    (h : x.state = .merged ↔ (p.lane l).state = .merged) (m : Fin 6) :
    (p.setLane l x).cycleActive m = p.cycleActive m := by
  unfold Part.cycleActive
  simp only [Part.effectiveMap_setLane h, Part.setLane_fault]
  rfl

/-! ## Periods -/

@[simp] theorem Part.setLane_drivesPair (l m : Fin 6) (x : Lane) : (p.setLane l x).drivesPair m = p.drivesPair m := rfl

/-- The lane as a period of a PULSE finds it at its boundary: the sense sample, the on-time played, the suppression
flag and the record (R88, R96, R97, R143). -/
def Lane.inPulse (x : Lane) (drivesPair : Bool) (sns : Level) (cycle : Bool) (period : Nat) (a : Alignment)
    (held : Bool) : Lane :=
  { x with
    sense := if drivesPair && x.alternate.isSome then sns else x.sense
    suppressed := cycle
    period := some { shape := .pulse period a, phase := 0, held := held,
                     onTime := if drivesPair && x.alternate.isSome && decide (sns = .high) then
                         x.alternate.getD x.primary else x.primary }
    record := if held then x.record else some (.pulse period a x.primary x.alternate) }

/-- The lane as a unit of a LEVEL finds it at its boundary. -/
def Lane.inLevel (x : Lane) (cycle : Bool) (unit : Nat) (code : LevelCode) (held : Bool) : Lane :=
  { x with
    suppressed := cycle
    period := some { shape := .level unit code, onTime := 0, phase := 0, held := held }
    record := if held then x.record else some (.level unit code) }

/-- A PULSE period begun by a lane that has just been changed. -/
theorem Part.setLane_beginPulse {p : Part} {l : Fin 6} {x : Lane}
    (h : x.state = .merged ↔ (p.lane l).state = .merged) (period : Nat) (a : Alignment) (held : Bool) :
    (p.setLane l x).beginPeriod l (.pulse period a) held =
      p.setLane l (x.inPulse (p.drivesPair l) (pinLevel p.sensePins (pairOf l)) (p.cycleActive l) period a held) := by
  unfold Part.beginPeriod
  simp only [Part.setLane_lane_self, Part.setLane_setLane, Part.cycleActive_setLane h, Part.senseAfter,
    Part.onTimePlayed, Part.samplesSense, Shape.isPulse, Part.setLane_drivesPair, Part.setLane_sensePins, Lane.inPulse]
  cases p.drivesPair l <;> cases x.alternate <;> rfl

/-- R96's test takes no sample at a unit of a LEVEL: the last sense sample keeps its value. -/
@[simp] theorem Part.senseAfter_level (l : Fin 6) (unit : Nat) (code : LevelCode) :
    p.senseAfter l (.level unit code) = (p.lane l).sense := by
  simp [Part.senseAfter, Part.samplesSense, Shape.isPulse]

/-- A LEVEL unit begun by a lane that has just been changed. -/
theorem Part.setLane_beginLevel {p : Part} {l : Fin 6} {x : Lane}
    (h : x.state = .merged ↔ (p.lane l).state = .merged) (unit : Nat) (code : LevelCode) (held : Bool) :
    (p.setLane l x).beginPeriod l (.level unit code) held =
      p.setLane l (x.inLevel (p.cycleActive l) unit code held) := by
  unfold Part.beginPeriod
  simp only [Part.setLane_lane_self, Part.setLane_setLane, Part.cycleActive_setLane h, Lane.inLevel,
    Part.senseAfter_level]

@[simp] theorem Part.beginPeriod_link (l : Fin 6) (s : Shape) (held : Bool) : (p.beginPeriod l s held).link = p.link := by
  cases s <;> rfl

@[simp] theorem Part.startTimed_link (l : Fin 6) (b : SegmentBody) : (p.startTimed l b).link = p.link := by
  cases b <;> rfl

/-! ## Retirement -/

/-- A SEGMENT_TAG changes the notification queue alone. -/
theorem Part.reportTag_eq (l : Fin 6) (t : Option Byte) (o : Retirement) (k : Option (Fin 8)) :
    p.reportTag l t o k = { p with notif := (p.reportTag l t o k).notif } := by
  cases t <;> rfl

/-- A removal changes the store, the regions and the notification queue alone. -/
theorem Part.popHead_eq (l : Fin 6) :
    p.popHead l = { p with store := (p.popHead l).store, regions := (p.popHead l).regions,
                           notif := (p.popHead l).notif } := by
  unfold Part.popHead
  split
  · rfl
  · simp only
    split <;> rfl

/-- A retirement changes the store, the regions and the notification queue alone. -/
theorem Part.retireHead_eq (l : Fin 6) (o : Retirement) :
    p.retireHead l o = { p with store := (p.retireHead l o).store, regions := (p.retireHead l o).regions,
                                notif := (p.retireHead l o).notif } := by
  unfold Part.retireHead
  split
  · rename_i g _
    cases g.tag <;> exact Part.popHead_eq _ l
  · rfl

@[simp] theorem Part.retireHead_lane (l m : Fin 6) (o : Retirement) : (p.retireHead l o).lane m = p.lane m := by
  rw [Part.retireHead_eq]
  rfl

@[simp] theorem Part.retireHead_link (l : Fin 6) (o : Retirement) : (p.retireHead l o).link = p.link := by
  rw [Part.retireHead_eq]

@[simp] theorem Part.retireHead_barrier (l : Fin 6) (o : Retirement) (b : Fin 4) :
    (p.retireHead l o).barrier b = p.barrier b := by
  rw [Part.retireHead_eq]
  rfl

/-! ## Barriers -/

/-- Leaving a barrier changes the barriers alone. -/
theorem Part.leaveBarrier_eq (l : Fin 6) (b : Fin 4) :
    p.leaveBarrier l b = { p with barriers := (p.leaveBarrier l b).barriers } := by
  unfold Part.leaveBarrier
  simp only
  split <;> rfl

/-- Leaving every barrier changes the barriers alone. -/
theorem Part.leaveBarriers_eq (l : Fin 6) : p.leaveBarriers l = { p with barriers := (p.leaveBarriers l).barriers } := by
  have key : ∀ (bs : List (Fin 4)) (q : Part), bs.foldl (fun r b => r.leaveBarrier l b) q =
      { q with barriers := (bs.foldl (fun r b => r.leaveBarrier l b) q).barriers } := by
    intro bs
    induction bs with
    | nil => exact fun q => rfl
    | cons b rest ih =>
      intro q
      rw [List.foldl_cons, ih (q.leaveBarrier l b), Part.leaveBarrier_eq]
  exact key allFour p

@[simp] theorem Part.leaveBarriers_lane (l m : Fin 6) : (p.leaveBarriers l).lane m = p.lane m := by
  rw [Part.leaveBarriers_eq]
  rfl

@[simp] theorem Part.leaveBarriers_link (l : Fin 6) : (p.leaveBarriers l).link = p.link := by
  rw [Part.leaveBarriers_eq]

end Sys2Proof.Machine
end

