-- ==== Sys2Proof/Laws/Sets.lean ====
section
/-! SUPPORT. Membership in the sets of lanes and inputs, and what the effective maps, the suppression test and the
latched test of the fault inputs say in terms of it. -/

namespace Sys2Proof.Machine

/-! ## Membership -/

theorem inSet_withoutMember {n : Nat} (s : BitVec n) (i j : Fin n) :
    inSet (withoutMember s i) j = (inSet s j && decide (j ≠ i)) := by
  simp only [inSet, withoutMember, single, BitVec.getLsbD_and, BitVec.getLsbD_not, BitVec.getLsbD_twoPow]
  have hj := j.isLt
  by_cases h : j = i
  · subst h
    simp
  · have : i.val ≠ j.val := fun e => h (Fin.ext e.symm)
    simp [h, this, hj]

theorem inSet_withMember {n : Nat} (s : BitVec n) (i j : Fin n) :
    inSet (withMember s i) j = (inSet s j || decide (j = i)) := by
  simp only [inSet, withMember, single, BitVec.getLsbD_or, BitVec.getLsbD_twoPow]
  have hj := j.isLt
  by_cases h : j = i
  · subst h
    simp
  · have : i.val ≠ j.val := fun e => h (Fin.ext e.symm)
    simp [h, this]

theorem inSet_single {n : Nat} (i j : Fin n) : inSet (single i : BitVec n) j = decide (j = i) := by
  simp only [inSet, single, BitVec.getLsbD_twoPow]
  by_cases h : j = i
  · subst h
    simp
  · have : i.val ≠ j.val := fun e => h (Fin.ext e.symm)
    simp [h, this]

theorem inSet_and {n : Nat} (s t : BitVec n) (i : Fin n) : inSet (s &&& t) i = (inSet s i && inSet t i) := by
  simp [inSet]

theorem inSet_not {n : Nat} (s : BitVec n) (i : Fin n) : inSet (~~~s) i = !(inSet s i) := by
  simp [inSet]

/-- Two sets with the same members are one. -/
theorem set_ext {n : Nat} {s t : BitVec n} (h : ∀ i : Fin n, inSet s i = inSet t i) : s = t :=
  BitVec.eq_of_getLsbD_eq (fun i hi => h ⟨i, hi⟩)

theorem mem_lanesOf (s : LaneSet) (l : Fin 6) : l ∈ lanesOf s ↔ inSet s l = true := by
  rw [lanesOf, List.mem_filter]
  exact ⟨fun h => h.2, fun h => ⟨mem_allLanes l, h⟩⟩

theorem lanesOf_nodup (s : LaneSet) : (lanesOf s).Nodup := (by decide : allLanes.Nodup).filter _

/-- The lanes of a set come in ascending number. -/
theorem lanesOf_ascending (s : LaneSet) : (lanesOf s).Pairwise (· < ·) := List.Pairwise.filter _ (by decide)

/-- The lanes of a set of two, in ascending number. -/
theorem lanesOf_two : ∀ {l m : Fin 6}, l < m → lanesOf (single l ||| single m) = [l, m] := by
  decide

/-- The set of the lanes with a property holds exactly those. -/
theorem inSet_laneSetOf (f : Fin 6 → Bool) (l : Fin 6) : inSet (laneSetOf f) l = f l := by
  have key : ∀ (ls : List (Fin 6)) (s : LaneSet),
      inSet (ls.foldl (fun s l => if f l then withMember s l else s) s) l =
        (inSet s l || (decide (l ∈ ls) && f l)) := by
    intro ls
    induction ls with
    | nil => intro s; simp
    | cons m rest ih =>
      intro s
      rw [List.foldl_cons, ih]
      by_cases hlm : l = m
      · subst hlm
        cases hf : f l <;> simp [inSet_withMember]
      · cases hf : f m <;> simp [inSet_withMember, hlm]
  rw [laneSetOf, key]
  simp only [mem_allLanes, decide_true, Bool.true_and]
  simp [inSet]

/-! ## The maps of the fault inputs -/

variable (p : Part)

/-- A lane is in the effective map of an input that maps it, unless it is MERGED (R137). -/
theorem Part.inSet_effectiveMap (i : Fin 4) (l : Fin 6) :
    inSet (p.effectiveMap i) l = true ↔ inSet (p.fault i).lanes l = true ∧ (p.lane l).state ≠ .merged := by
  rw [Part.effectiveMap, inSet_and, inSet_not, Part.mergedLanes, inSet_laneSetOf]
  simp

/-- The effective map of an input that maps one lane, MERGED lanes apart, holds that lane alone. -/
theorem Part.effectiveMap_eq_single {i : Fin 4} {l : Fin 6}
    (h : ∀ m, (inSet (p.fault i).lanes m = true ∧ (p.lane m).state ≠ .merged) ↔ m = l) :
    p.effectiveMap i = single l := by
  refine set_ext (fun m => ?_)
  rw [Bool.eq_iff_iff, Part.inSet_effectiveMap, h m, inSet_single, decide_eq_true_eq]

/-- The effective map of an input that maps no lane, MERGED lanes apart, is empty. -/
theorem Part.effectiveMap_eq_zero {i : Fin 4}
    (h : ∀ m, ¬(inSet (p.fault i).lanes m = true ∧ (p.lane m).state ≠ .merged)) : p.effectiveMap i = 0 := by
  refine set_ext (fun m => ?_)
  rw [Bool.eq_iff_iff, Part.inSet_effectiveMap]
  exact ⟨fun hm => absurd hm (h m), fun hm => by simp [inSet] at hm⟩

/-- Some CYCLE input acts on the lane (R143). -/
theorem Part.cycleActive_iff (l : Fin 6) : p.cycleActive l = true ↔
    (p.lane l).state ≠ .merged ∧ ∃ i, (p.fault i).mode = .cycle ∧
      (p.fault i).qualified = (p.fault i).activeLevel ∧ inSet (p.fault i).lanes l = true := by
  unfold Part.cycleActive FaultInput.live
  simp only [List.any_eq_true, Bool.and_eq_true, decide_eq_true_eq, Part.inSet_effectiveMap]
  exact ⟨fun ⟨i, _, ⟨a, b⟩, c, d⟩ => ⟨d, i, a, b, c⟩, fun ⟨d, i, a, b, c⟩ => ⟨i, mem_allFour i, ⟨a, b⟩, c, d⟩⟩

/-- Some sticky LATCH input acts on the lane (R58). -/
theorem Part.faultLatched_iff (l : Fin 6) : p.faultLatched l = true ↔
    (p.lane l).state ≠ .merged ∧ ∃ i, (p.fault i).mode = .latch ∧ (p.fault i).sticky = true ∧
      inSet (p.fault i).lanes l = true := by
  unfold Part.faultLatched
  simp only [List.any_eq_true, Bool.and_eq_true, decide_eq_true_eq, Part.inSet_effectiveMap]
  exact ⟨fun ⟨i, _, ⟨a, b⟩, c, d⟩ => ⟨d, i, a, b, c⟩, fun ⟨d, i, a, b, c⟩ => ⟨i, mem_allFour i, ⟨a, b⟩, c, d⟩⟩

end Sys2Proof.Machine
end

