-- ==== Sys2Proof/Laws/Moves.lean ====
section
/-! SUPPORT. Everything an event or a request can do to the notification queue, the store, the regions, the barriers
and the fault inputs, said once: what it reaches is reached by primitive moves, none of which touches the tick
counter. -/

namespace Sys2Proof.Machine

/-- The primitive moves of the notification unit. -/
inductive NotificationUnit.Move : NotificationUnit → NotificationUnit → Prop
  | create (u stamp n) : Move u (u.create stamp n)
  | sendNext (u interval r) (h : u.sendNext interval = some r) : Move u r.2
  | acknowledge (u n interval stamp v) (h : u.acknowledge n interval stamp = some v) : Move u v
  | markAll (u interval) : Move u (u.markAll interval)
  | stall (u) : Move u u.stall
  | restart (u) : Move u u.restart
/-- The primitive moves of the part. `inner` is a change of the other blocks, under which each barrier and each fault
input keeps its law. -/
inductive Part.Move : Part → Part → Prop
  | inner (p q) (hn : q.notif = p.notif) (hs : q.store = p.store) (hr : q.regions = p.regions)
      (hb : ∀ b, (p.barrier b).WaitLaw → (q.barrier b).WaitLaw)
      (hf : ∀ i, (p.fault i).StickyLaw → (q.fault i).StickyLaw)
      (ht : q.timebase.count = p.timebase.count) : Move p q
  | notif (p u) (h : p.notif.Move u) : Move p { p with notif := u }
  | define (p) (r : Fin 16) (start size) (hd : (p.region r).defined = false) (hsize : 4 ≤ size)
      (hend : start + size ≤ Config.slots)
      (hfree : ∀ r', (p.region r').defined = true →
        runsOverlap start size (p.region r').start (p.region r').size = false) :
      Move p (p.setRegion r
        { defined := true, start := start, size := size, binding := .none, head := 0, count := 0, loaded := 0 })
  | delete (p) (r : Fin 16) (hd : (p.region r).defined = true) (hb : (p.region r).binding = .none) :
      Move p (p.setRegion r Region.reset)
  | bindLane (p) (r : Fin 16) (l : Fin 6) (hd : (p.region r).defined = true) (hb : (p.region r).binding = .none) :
      Move p (p.setRegion r { p.region r with binding := .lane l, head := 0, count := 0 })
  | bindPattern (p) (r : Fin 16) (k : Fin 8) (hd : (p.region r).defined = true) (hb : (p.region r).binding = .none) :
      Move p (p.setRegion r { p.region r with binding := .pattern k, loaded := 0 })
  | unbind (p) (r : Fin 16) (hd : (p.region r).defined = true) :
      Move p ((p.emptyRegion r).setRegion r { (p.emptyRegion r).region r with binding := .none })
  | empty (p) (r : Fin 16) (hd : (p.region r).defined = true) : Move p (p.emptyRegion r)
  | enqueue (p) (l : Fin 6) (r : Fin 16) (segs) (h : p.laneRegion l = some r)
      (hroom : (p.region r).count + segs.length ≤ (p.region r).size) (hsegs : ∀ g ∈ segs, g.inRange = true) :
      Move p (p.enqueue r segs)
  | load (p) (k : Fin 8) (r : Fin 16) (segs) (h : p.patternRegion k = some r)
      (hroom : (p.region r).loaded + segs.length ≤ (p.region r).size) (hsegs : ∀ g ∈ segs, g.inRange = true) :
      Move p (p.load r segs)
  | pop (p) (l : Fin 6) (r : Fin 16) (h : p.laneRegion l = some r) (hc : 0 < (p.region r).count) :
      Move p ({ p with store := p.store.erase ((p.region r).queueSlot 0) }.setRegion r
        { p.region r with head := ((p.region r).head + 1) % (p.region r).size, count := (p.region r).count - 1 })

/-- A part reached from another by primitive moves. -/
inductive Part.Moves : Part → Part → Prop
  | refl (p) : Moves p p
  | step (p q r) (h : Moves p q) (m : Part.Move q r) : Moves p r

namespace Part.Moves

variable {p q : Part}

/-- What every primitive move keeps, moves keep. -/
theorem keeps {P : Part → Prop} (hm : ∀ a b, Part.Move a b → P a → P b) (h : Part.Moves p q) : P p → P q := by
  induction h with
  | refl => exact id
  | step b c _ m ih => exact fun hp => hm b c m (ih hp)

theorem trans {r : Part} (h : Part.Moves p q) (h' : Part.Moves q r) : Part.Moves p r := by
  induction h' with
  | refl => exact h
  | step b c _ m ih => exact .step _ _ _ ih m

/-- A change of the other blocks alone. -/
theorem same {r : Part} (h : Part.Moves p q) (hn : r.notif = q.notif) (hs : r.store = q.store)
    (hr : r.regions = q.regions) (hb : r.barriers = q.barriers) (hf : r.faults = q.faults)
    (ht : r.timebase.count = q.timebase.count) : Part.Moves p r :=
  .step _ _ _ h (.inner _ _ hn hs hr (fun b hw => by simpa only [Part.barrier, hb] using hw)
    (fun i hw => by simpa only [Part.fault, hf] using hw) ht)

theorem setLane (h : Part.Moves p q) (l : Fin 6) (x : Lane) : Part.Moves p (q.setLane l x) :=
  h.same rfl rfl rfl rfl rfl rfl

theorem updLane (h : Part.Moves p q) (l : Fin 6) (f : Lane → Lane) : Part.Moves p (q.updLane l f) :=
  h.same rfl rfl rfl rfl rfl rfl

theorem setPattern (h : Part.Moves p q) (k : Fin 8) (x : Pattern) : Part.Moves p (q.setPattern k x) :=
  h.same rfl rfl rfl rfl rfl rfl

theorem raiseUse (h : Part.Moves p q) (k : Fin 8) : Part.Moves p (q.raiseUse k) := h.setPattern _ _

theorem lowerUse (h : Part.Moves p q) (k : Fin 8) : Part.Moves p (q.lowerUse k) := h.setPattern _ _

theorem setTrigger (h : Part.Moves p q) (i : Fin 4) (x : TriggerInput) : Part.Moves p (q.setTrigger i x) :=
  h.same rfl rfl rfl rfl rfl rfl

theorem setPair (h : Part.Moves p q) (k : Fin 3) (x : Pair) : Part.Moves p (q.setPair k x) :=
  h.same rfl rfl rfl rfl rfl rfl

theorem setLink (h : Part.Moves p q) (k : Link) : Part.Moves p { q with link := k } := h.same rfl rfl rfl rfl rfl rfl

theorem driveLines (h : Part.Moves p q) : Part.Moves p q.driveLines := h.same rfl rfl rfl rfl rfl rfl

theorem notify (h : Part.Moves p q) (n : Notification) : Part.Moves p (q.notify n) :=
  .step _ _ _ h (.notif _ _ (.create _ _ _))

/-- A barrier replaced by one that keeps its law. -/
theorem setBarrier (h : Part.Moves p q) (b : Fin 4) (x : Barrier) (hx : (q.barrier b).WaitLaw → x.WaitLaw) :
    Part.Moves p (q.setBarrier b x) := by
  refine .step _ _ _ h (.inner _ _ rfl rfl rfl (fun b' hw => ?_) (fun _ hw => hw) rfl)
  by_cases hb : b' = b
  · subst hb
    rw [Part.setBarrier_barrier_self]
    exact hx hw
  · rw [Part.setBarrier_barrier_of_ne _ _ hb]
    exact hw

/-- A fault input replaced by one that keeps its law. -/
theorem setFault (h : Part.Moves p q) (i : Fin 4) (x : FaultInput) (hx : (q.fault i).StickyLaw → x.StickyLaw) :
    Part.Moves p (q.setFault i x) := by
  refine .step _ _ _ h (.inner _ _ rfl rfl rfl (fun _ hw => hw) (fun i' hw => ?_) rfl)
  by_cases hi : i' = i
  · subst hi
    rw [Part.setFault_fault_self]
    exact hx hw
  · rw [Part.setFault_fault_of_ne _ _ hi]
    exact hw

/-! ## Queues and reports -/

theorem reportTag (h : Part.Moves p q) (l : Fin 6) (tag : Option Byte) (o : Retirement) (k : Option (Fin 8)) :
    Part.Moves p (q.reportTag l tag o k) := by
  unfold Part.reportTag
  split
  · exact h.notify _
  · exact h

theorem retireHead (h : Part.Moves p q) (l : Fin 6) (o : Retirement) : Part.Moves p (q.retireHead l o) := by
  unfold Part.retireHead
  split
  · rename_i g hg
    refine Part.Moves.trans (h.reportTag l g.tag o none) ?_
    have hq : (q.reportTag l g.tag o none).queueHead l = some g := by
      cases g.tag <;> exact hg
    generalize q.reportTag l g.tag o none = r at hq
    unfold Part.popHead
    cases hr : r.laneRegion l with
    | none => exact .refl r
    | some i =>
      have hc : 0 < (r.region i).count := by
        refine Nat.pos_of_ne_zero (fun h0 => ?_)
        simp [Part.queueHead, hr, h0] at hq
      have hm := Part.Moves.step _ _ _ (.refl r) (.pop r l i hr hc)
      simp only
      split
      · exact hm.notify _
      · exact hm
  · exact h

theorem leaveBarrier (h : Part.Moves p q) (l : Fin 6) (b : Fin 4) : Part.Moves p (q.leaveBarrier l b) := by
  unfold Part.leaveBarrier
  simp only
  split
  · refine h.setBarrier _ _ (fun hw => ?_)
    obtain ⟨ha, hc, ht⟩ := hw
    refine ⟨?_, ?_, ?_⟩
    · simp only [withoutMember]
      rw [BitVec.and_assoc, BitVec.and_comm (~~~single l), ← BitVec.and_assoc, ha]
      exact BitVec.zero_and
    · intro h0
      simp only at h0 ⊢
      rw [if_pos h0]
    · intro h0
      simp only at h0 ⊢
      rw [ht h0, ite_self]
  · exact h

/-- A fold of moves is a move. -/
theorem foldl {α : Type} (f : Part → α → Part) (hf : ∀ q a, Part.Moves p q → Part.Moves p (f q a)) (as : List α)
    (h : Part.Moves p q) : Part.Moves p (as.foldl f q) := by
  induction as generalizing q with
  | nil => exact h
  | cons a rest ih => exact ih (hf q a h)

theorem forLanes (h : Part.Moves p q) (s : LaneSet) (f : Fin 6 → Part → Part)
    (hf : ∀ l r, Part.Moves p r → Part.Moves p (f l r)) : Part.Moves p (Machine.forLanes s f q) :=
  Part.Moves.foldl _ (fun r l hr => hf l r hr) _ h

theorem leaveBarriers (h : Part.Moves p q) (l : Fin 6) : Part.Moves p (q.leaveBarriers l) :=
  Part.Moves.foldl _ (fun _ b hr => hr.leaveBarrier l b) _ h

/-! ## Lanes -/

theorem beginPeriod (h : Part.Moves p q) (l : Fin 6) (s : Shape) (held : Bool) :
    Part.Moves p (q.beginPeriod l s held) := by
  unfold Part.beginPeriod
  cases s <;> exact h.setLane _ _

theorem boundary (h : Part.Moves p q) (l : Fin 6) : Part.Moves p (q.boundary l) := by
  unfold Part.boundary
  simp only
  split
  · exact h
  · split <;> exact (h.setLane _ _).beginPeriod _ _ _

theorem beginHeld (h : Part.Moves p q) (l : Fin 6) : Part.Moves p (q.beginHeld l) := by
  unfold Part.beginHeld
  split
  · exact h
  · exact (h.updLane _ _).beginPeriod _ _ _
  · exact (h.updLane _ _).beginPeriod _ _ _

theorem startTimed (h : Part.Moves p q) (l : Fin 6) (body : SegmentBody) : Part.Moves p (q.startTimed l body) := by
  unfold Part.startTimed
  split
  · exact (h.updLane _ _).beginPeriod _ _ _
  · exact (h.updLane _ _).beginPeriod _ _ _
  · exact h

theorem enterStarved (h : Part.Moves p q) (l : Fin 6) : Part.Moves p (q.enterStarved l) := by
  unfold Part.enterStarved
  simp only
  split
  · exact ((h.updLane _ _).beginHeld _).notify _
  · exact (h.updLane _ _).notify _

theorem dropTrim (h : Part.Moves p q) (l : Fin 6) : Part.Moves p (q.dropTrim l) := by
  unfold Part.dropTrim
  split
  · exact (h.updLane _ _).notify _
  · exact h

theorem arrive (h : Part.Moves p q) (l : Fin 6) (b : Fin 4) (hl : inSet (q.barrier b).members l = true) :
    Part.Moves p (q.arrive l b).1 := by
  unfold Part.arrive
  refine (h.updLane _ _).setBarrier _ _ (fun hw => ?_)
  obtain ⟨ha, hc, ht⟩ := hw
  simp only [Part.updLane, Part.setLane_barrier] at ha hc ht
  have hsub : single l &&& ~~~(q.barrier b).members = 0 := by
    have hl' : (q.barrier b).members.getLsbD l.val = true := hl
    ext i hi
    simp only [single, BitVec.getElem_and, BitVec.getElem_twoPow, BitVec.getElem_not]
    by_cases hil : i = l.val
    · subst hil
      simp [← BitVec.getLsbD_eq_getElem, hl']
    · simp [hil]
  have hne : withMember (q.barrier b).arrived l ≠ 0 := by
    intro h0
    have hb := congrArg (fun s => s.getLsbD l.val) h0
    simp [withMember, single] at hb
  refine ⟨?_, ?_, ?_⟩
  · simp only [withMember]
    rw [BitVec.and_comm, BitVec.and_or_distrib_left, BitVec.and_comm, ha, BitVec.and_comm, hsub]
    exact BitVec.or_zero
  · exact fun h0 => absurd h0 hne
  · intro h0
    simp only at h0 ⊢
    rw [if_pos h0, ht h0, ite_self]

theorem processHead (h : Part.Moves p q) (l : Fin 6) : Part.Moves p (q.processHead l).1 := by
  unfold Part.processHead
  split
  · exact h.enterStarved _
  · split
    · exact h.startTimed _ _
    · exact h.startTimed _ _
    · split
      · rename_i hl
        exact h.arrive _ _ hl
      · exact (h.notify _).retireHead _ _
    · split
      · exact (h.raiseUse _).setLane _ _
      · exact (h.notify _).retireHead _ _
    · exact (h.notify _).retireHead _ _

theorem completeCall (h : Part.Moves p q) (l : Fin 6) (k : Fin 8) : Part.Moves p (q.completeCall l k) :=
  ((h.setLane _ _).lowerUse _).retireHead _ _

theorem processPattern (h : Part.Moves p q) (l : Fin 6) : Part.Moves p (q.processPattern l).1 := by
  unfold Part.processPattern
  split
  · exact h
  · split
    · split
      · simp only
        split
        · exact h.startTimed _ _
        · exact h.startTimed _ _
        · exact ((h.setLane _ _).notify _).reportTag _ _ _ _
        · exact h.setLane _ _
        · exact h.setLane _ _
      · exact h.setLane _ _
    · split
      · exact h.setLane _ _
      · exact h.completeCall _ _

theorem run (h : Part.Moves p q) (t : Task) : Part.Moves p (t.run q).1 := by
  cases t with
  | begin l => exact h.setLane _ _
  | head l => exact h.processHead l
  | pattern l => exact h.processPattern l
  | release b cause lanes =>
    refine Part.Moves.forLanes ((h.notify _).setBarrier _ _ (fun hw => ?_)) _ _ (fun l _ hr => hr.setLane l _)
    obtain ⟨ha, hc, ht⟩ := hw
    simp only [Part.notify_barrier] at ha hc ht
    refine ⟨?_, ?_, ?_⟩
    · simp only [Barrier.letGo]
      rw [BitVec.and_assoc, BitVec.and_comm (~~~_), ← BitVec.and_assoc, ha]
      exact BitVec.zero_and
    · intro h0
      simp only [Barrier.letGo] at h0 ⊢
      simp [h0]
    · intro h0
      simp only [Barrier.letGo] at h0 ⊢
      simp [h0]
  | released l => exact h.retireHead _ _

theorem runTasks (n : Nat) (tasks : List Task) (h : Part.Moves p q) :
    Part.Moves p (Machine.runTasks n tasks q) := by
  induction n generalizing tasks q with
  | zero => exact h
  | succ n ih =>
    cases tasks with
    | nil => exact h
    | cons t rest =>
      rw [runTasks_cons]
      exact ih _ (h.run t)

theorem perform (h : Part.Moves p q) (tasks : List Task) : Part.Moves p (q.perform tasks) := runTasks _ _ h

theorem endCurrent (h : Part.Moves p q) (l : Fin 6) : Part.Moves p (q.endCurrent l) := by
  unfold Part.endCurrent
  simp only
  split
  · split
    · split
      · exact ((h.reportTag _ _ _ _).lowerUse _).retireHead _ _
      · exact (h.lowerUse _).retireHead _ _
    · exact h.retireHead _ _
  · exact h

theorem join (h : Part.Moves p q) (l : Fin 6) : Part.Moves p (q.join l) := by
  have hj : Part.Moves p (q.joinTasks l).1 := by
    unfold Part.joinTasks
    simp only
    split
    · exact (h.dropTrim _).setLane _ _
    · split
      · split
        · exact ((h.dropTrim _).reportTag _ _ _ _).setLane _ _
        · exact (h.dropTrim _).setLane _ _
      · exact ((h.dropTrim _).setLane _ _).retireHead _ _
  exact hj.perform _

theorem completeStop (h : Part.Moves p q) (l : Fin 6) : Part.Moves p (q.completeStop l) :=
  (((h.dropTrim l).endCurrent l).updLane l _).notify _

theorem stopNow (h : Part.Moves p q) (l : Fin 6) (cause : StopCause) : Part.Moves p (q.stopNow l cause) :=
  (((h.leaveBarriers l).endCurrent l).updLane l _).notify _

theorem softStop (h : Part.Moves p q) (l : Fin 6) (cause : StopCause) : Part.Moves p (q.softStop l cause) := by
  have hs := h.updLane l (fun y => { y with state := .stopping, stopCause := cause })
  unfold Part.softStop
  simp only
  split
  · split
    · exact hs.completeStop l
    · exact hs
  · split
    · split
      · exact hs.completeStop l
      · exact hs
    · exact h.stopNow l cause
  · exact h.stopNow l cause
  · exact h.stopNow l cause
  all_goals exact h

theorem hardStop (h : Part.Moves p q) (l : Fin 6) : Part.Moves p (q.hardStop l) := by
  unfold Part.hardStop
  split
  · exact ((h.leaveBarriers l).endCurrent l).updLane l _
  · exact h

theorem halt (h : Part.Moves p q) (l : Fin 6) (i : Fin 4) : Part.Moves p (q.halt l i) :=
  ((h.leaveBarriers l).endCurrent l).updLane l _

/-! ## Triggers, barriers and faults -/

theorem deliverEdge (h : Part.Moves p q) (i : Fin 4) (d : Direction) (synthetic : Bool) :
    Part.Moves p (q.deliverEdge i d synthetic) := by
  unfold Part.deliverEdge
  simp only
  split
  · exact (h.notify _).perform _
  · exact h.perform _

theorem timeOutBarrier (h : Part.Moves p q) (b : Fin 4) : Part.Moves p (q.timeOutBarrier b) := by
  unfold Part.timeOutBarrier
  split
  · exact h.perform _
  · unfold Part.stopBarrier
    exact Part.Moves.forLanes (h.notify _) _ _ (fun l r hr => (hr.hardStop l).notify _)

theorem latchLane (h : Part.Moves p q) (i : Fin 4) (l : Fin 6) : Part.Moves p (q.latchLane i l) := by
  unfold Part.latchLane
  split
  all_goals first | exact h.halt _ _ | exact h | exact h.setLane _ _

/-- What a mode asks at a qualification to active, after the record and the sticky flag. -/
theorem faultLanes (h : Part.Moves p q) (f : Fin 6 → Part → Part) (n : Notification) (s : LaneSet)
    (hf : ∀ l r, Part.Moves p r → Part.Moves p (f l r)) : Part.Moves p (Machine.forLanes s f (q.notify n)) :=
  (h.notify n).forLanes s f hf

/-- Settings or a qualification that may leave the input live ACTIVE, and the acts that follow it. -/
theorem faultActs (h : Part.Moves p q) (i : Fin 4) (x : FaultInput) (hx : x.mode ≠ .off) :
    Part.Moves p ((q.setFault i x).faultActs i) := by
  have hsticky : Part.Moves p
      (let r := (q.setFault i x).recordFirstFault i
       r.setFault i { r.fault i with sticky := true }) := by
    have hr : ((q.setFault i x).recordFirstFault i).fault i = x := by
      unfold Part.recordFirstFault
      split
      · exact Part.setFault_fault_self _ _ _
      · exact Part.setFault_fault_self _ _ _
    simp only [hr]
    have heq : ((q.setFault i x).recordFirstFault i).setFault i { x with sticky := true } =
        { q.setFault i { x with sticky := true } with
          firstFault := ((q.setFault i x).recordFirstFault i).firstFault } := by
      unfold Part.recordFirstFault
      split <;> simp [Part.setFault]
    rw [heq]
    exact (h.setFault i _ (fun _ _ _ => rfl)).same rfl rfl rfl rfl rfl rfl
  unfold Part.faultActs
  simp only [Part.setFault_fault_self]
  cases hm : x.mode with
  | off => exact absurd hm hx
  | cycle => exact faultLanes hsticky _ _ _ (fun l r hr => hr.setLane _ _)
  | latch => exact faultLanes hsticky _ _ _ (fun l r hr => hr.latchLane _ _)

theorem qualifyActive (h : Part.Moves p q) (i : Fin 4) : Part.Moves p (q.qualifyActive i) := by
  unfold Part.qualifyActive Part.qualifyFault
  by_cases hm : (q.fault i).mode = .off
  · have hfa : ∀ r : Part, (r.fault i).mode = .off → r.faultActs i = r := by
      intro r hr
      simp [Part.faultActs, hr]
    rw [hfa _ (by simp [hm])]
    exact h.setFault i _ (fun _ hne => absurd hm hne)
  · exact h.faultActs i _ hm

theorem qualifyInactive (h : Part.Moves p q) (i : Fin 4) (hd : (q.fault i).sample ≠ (q.fault i).activeLevel) :
    Part.Moves p (q.qualifyFault i) :=
  h.setFault i _ (fun _ _ hl => absurd (by simpa [FaultInput.live] using hl) hd)

end Part.Moves
end Sys2Proof.Machine
end

