-- ==== Sys2Proof/Laws/StepMoves.lean ====
section
/-! SUPPORT. Requests and events are made of primitive moves; a command is a run of moves, resets and ends of ticks, so
that a law kept by each of these is kept by every step (`step_run`, `Part.Run.keeps`). -/

namespace Sys2Proof.Machine

namespace Part.Moves

variable {p q : Part}

/-! ## Requests -/

/-- A segment that decodes is in range. -/
def DecodesInRange : Prop := ∀ (r : RawSegment) (g : Segment), decodeSegment r = some g → g.inRange = true

/-- The segments of a request that are admitted are in range. -/
theorem decodeSegments_inRange (hd : DecodesInRange) {admits : Segment → Bool} {i : Nat} {raws : List RawSegment}
    {segs : List Segment} (h : decodeSegments admits i raws = .ok segs) : ∀ g ∈ segs, g.inRange = true := by
  induction raws generalizing i segs with
  | nil =>
    simp only [decodeSegments, Except.ok.injEq] at h
    subst h
    simp
  | cons r rest ih =>
    unfold decodeSegments at h
    split at h
    · simp at h
    · rename_i g hg
      split at h
      · split at h
        · rename_i gs hgs
          simp only [Except.ok.injEq] at h
          subst h
          intro x hx
          rcases List.mem_cons.mp hx with hx | hx
          · exact hx ▸ hd _ _ hg
          · exact ih hgs x hx
        · simp at h
      · simp at h

theorem doSync (h : Part.Moves p q) : Part.Moves p (Machine.doSync q).1 :=
  Part.Moves.trans (.step _ _ _ h (.notif q _ (.restart _)))
    (Part.Moves.setLink (.refl _) { q.link with synced := true, cache := none })

theorem doGetLinkStats (h : Part.Moves p q) (a : Byte) : Part.Moves p (Machine.doGetLinkStats a q).1 := by
  unfold Machine.doGetLinkStats
  split
  · exact h
  · exact h
  · exact h.setLink _

theorem doSetLinkTiming (h : Part.Moves p q) (a b : Byte) : Part.Moves p (Machine.doSetLinkTiming a b q).1 := by
  unfold Machine.doSetLinkTiming
  split
  · exact h
  · split
    · exact h
    · exact h.setLink _

theorem doSetTimebase (h : Part.Moves p q) (a : Byte) : Part.Moves p (Machine.doSetTimebase a q).1 := by
  unfold Machine.doSetTimebase
  split
  · exact h
  · split
    · exact h
    · exact h.same rfl rfl rfl rfl rfl rfl

theorem doSetPair (hq : Part.Moves p q) (a b c d e f g h : Byte) :
    Part.Moves p (Machine.doSetPair a b c d e f g h q).1 := by
  unfold Machine.doSetPair
  split
  all_goals first | exact hq | skip
  unfold configurePair
  simp only
  split
  · exact hq
  · split
    · exact hq
    · exact (hq.setPair _ _).setLane _ _

theorem doDefineRegion (h : Part.Moves p q) (a : Byte) (start size : Nat) :
    Part.Moves p (Machine.doDefineRegion a start size q).1 := by
  unfold Machine.doDefineRegion
  split
  · exact h
  · split
    · exact h
    · split
      · exact h
      · rename_i hsz
        split
        · exact h
        · rename_i hd
          split
          · exact h
          · rename_i hf
            simp only [Bool.or_eq_true, decide_eq_true_eq, not_or, Nat.not_lt] at hsz
            refine .step _ _ _ h (.define _ _ _ _ (by simpa using hd) (by omega) (by omega) (fun r' hr' => ?_))
            have hmem : r' ∈ allRegions := mem_allRegions r'
            have := List.find?_eq_none.mp hf r' hmem
            simpa [hr'] using this

theorem doDeleteRegion (h : Part.Moves p q) (a : Byte) : Part.Moves p (Machine.doDeleteRegion a q).1 := by
  unfold Machine.doDeleteRegion
  split
  · exact h
  · split
    · exact h
    · rename_i hd
      split
      · exact h
      · rename_i hb
        exact .step _ _ _ h (.delete _ _ (by simpa using hd) (by simpa using hb))

theorem doBindRegion (h : Part.Moves p q) (a b c : Byte) : Part.Moves p (Machine.doBindRegion a b c q).1 := by
  unfold Machine.doBindRegion
  split
  · exact h
  · split
    · exact h
    · simp only
      split
      · exact h
      · rename_i hd
        split
        · exact h
        · rename_i hb
          split
          · split
            · exact h
            · split
              · exact h
              · refine Part.Moves.setLane (.step _ _ _ h (.bindLane _ _ _ (by simpa using hd) (by simpa using hb))) _ _
          · split
            · exact h
            · refine Part.Moves.setPattern (.step _ _ _ h (.bindPattern _ _ _ (by simpa using hd) (by simpa using hb)))
                _ _

theorem emptyRegion (h : Part.Moves p q) (r : Fin 16) (hd : (q.region r).defined = true) :
    Part.Moves p (q.emptyRegion r) := .step _ _ _ h (.empty _ _ hd)

theorem doUnbindRegion (h : Part.Moves p q) (a : Byte) : Part.Moves p (Machine.doUnbindRegion a q).1 := by
  unfold Machine.doUnbindRegion
  split
  · exact h
  · split
    · exact h
    · rename_i r _ hd
      have hu := Part.Moves.step _ _ _ h (.unbind _ r (by simpa using hd))
      split
      · exact h
      · split
        · exact h
        · exact hu.setLane _ _
      · split
        · exact h
        · exact hu.setPattern _ _

theorem doClearRegion (h : Part.Moves p q) (a : Byte) : Part.Moves p (Machine.doClearRegion a q).1 := by
  unfold Machine.doClearRegion
  split
  · exact h
  · split
    · exact h
    · rename_i r _ hd
      have he := h.emptyRegion r (by simpa using hd)
      split
      · exact h
      · split
        · exact he
        · exact h
      · split
        · exact h
        · exact he.setPattern _ _

/-- The region found for a pattern is defined. -/
theorem patternRegion_defined {k : Fin 8} {r : Fin 16} (h : q.patternRegion k = some r) :
    (q.region r).defined = true := by
  have := List.find?_some h
  simp only [Bool.and_eq_true] at this
  exact this.1

theorem doPatternBegin (h : Part.Moves p q) (a : Byte) : Part.Moves p (Machine.doPatternBegin a q).1 := by
  unfold Machine.doPatternBegin
  split
  · exact h
  · split
    · exact h
    · rename_i hr
      split
      · exact h
      · split
        · exact h
        · exact (h.emptyRegion _ (patternRegion_defined hr)).setPattern _ _

theorem doPatternDiscard (h : Part.Moves p q) (a : Byte) : Part.Moves p (Machine.doPatternDiscard a q).1 := by
  unfold Machine.doPatternDiscard
  split
  · exact h
  · split
    · exact h
    · rename_i hr
      split
      · exact h
      · split
        · exact h
        · exact (h.emptyRegion _ (patternRegion_defined hr)).setPattern _ _

theorem doPatternData (hd : DecodesInRange) (h : Part.Moves p q) (a : Byte) (raws : List RawSegment) :
    Part.Moves p (Machine.doPatternData a raws q).1 := by
  unfold Machine.doPatternData
  split
  · exact h
  · split
    · exact h
    · rename_i hs
      split
      · exact h
      · split
        · exact h
        · rename_i hr
          simp only
          split
          · exact h
          · rename_i hroom
            exact .step _ _ _ h (.load _ _ _ _ hr (by omega) (decodeSegments_inRange hd hs))

theorem doPatternEnd (h : Part.Moves p q) (a : Byte) : Part.Moves p (Machine.doPatternEnd a q).1 := by
  unfold Machine.doPatternEnd
  split
  · exact h
  · split
    · exact h
    · split
      · exact h.setPattern _ _
      · exact h

theorem resumeStarved (h : Part.Moves p q) (l : Fin 6) : Part.Moves p (q.resumeStarved l) := by
  unfold Part.resumeStarved
  split
  · split
    · exact h.perform _
    · split
      · exact (h.beginHeld _).setLane _ _
      · exact h.setLane _ _
  · exact h

theorem doAppend (hd : DecodesInRange) (h : Part.Moves p q) (a : Byte) (raws : List RawSegment) :
    Part.Moves p (Machine.doAppend a raws q).1 := by
  unfold Machine.doAppend
  split
  · exact h
  · split
    · exact h
    · rename_i hs
      split
      · exact h
      · split
        · exact h
        · split
          · exact h
          · rename_i hr
            simp only
            split
            · exact h
            · rename_i hroom
              exact Part.Moves.resumeStarved
                (.step _ _ _ h (.enqueue _ _ _ _ hr (by omega) (decodeSegments_inRange hd hs))) _

theorem doStart (h : Part.Moves p q) (a b : Byte) : Part.Moves p (Machine.doStart a b q).1 := by
  unfold Machine.doStart
  split
  · exact h
  · exact h
  · split
    · exact h
    · unfold Part.startLanes
      simp only
      split
      · exact (h.forLanes _ _ (fun l r hr => hr.setLane _ _)).perform _
      · exact h.forLanes _ _ (fun l r hr => hr.setLane _ _)

theorem doStop (h : Part.Moves p q) (a b : Byte) : Part.Moves p (Machine.doStop a b q).1 := by
  unfold Machine.doStop
  split
  · exact h
  · exact h
  · split
    · exact h
    · unfold Part.stopLanes
      simp only
      split
      · exact h.forLanes _ _ (fun l r hr => hr.softStop _ _)
      · exact h.forLanes _ _ (fun l r hr => hr.hardStop _)

theorem doSetLane (h : Part.Moves p q) (a b : Byte) (m : Nat) (c : Byte) :
    Part.Moves p (Machine.doSetLane a b m c q).1 := by
  unfold Machine.doSetLane
  split
  · exact h
  · exact h
  · split
    · exact h
    · split
      · exact h
      · split
        · exact h
        · exact h.setLane _ _

theorem doGetLane (h : Part.Moves p q) (a : Byte) : Part.Moves p (Machine.doGetLane a q).1 := by
  unfold Machine.doGetLane
  split <;> exact h

theorem doTrim (h : Part.Moves p q) (a b : Byte) (c d : Nat) : Part.Moves p (Machine.doTrim a b c d q).1 := by
  unfold Machine.doTrim
  split
  · exact h
  · split
    · exact h
    · simp only
      split
      · exact h
      · split
        · exact h
        · split
          · exact h
          · split
            · exact h
            · exact h.setLane _ _

theorem doSetTrigger (h : Part.Moves p q) (a b c : Byte) : Part.Moves p (Machine.doSetTrigger a b c q).1 := by
  unfold Machine.doSetTrigger
  split
  · exact h
  · exact h
  · exact h
  · exact h.setTrigger _ _

theorem doFireTrigger (h : Part.Moves p q) (a : Byte) : Part.Moves p (Machine.doFireTrigger a q).1 := by
  unfold Machine.doFireTrigger
  split
  · exact h
  · exact h.deliverEdge _ _ _

theorem doSetBarrier (h : Part.Moves p q) (a b c d : Byte) (m : Nat) (e : Byte) :
    Part.Moves p (Machine.doSetBarrier a b c d m e q).1 := by
  unfold Machine.doSetBarrier
  split
  all_goals first | exact h | skip
  simp only
  split
  · exact h
  · rename_i ha
    have ha' := Decidable.not_not.mp ha
    exact h.setBarrier _ _ (fun hw => ⟨by simp [ha'], hw.2.1, fun _ => hw.2.1 ha'⟩)

theorem doReleaseBarrier (h : Part.Moves p q) (a : Byte) : Part.Moves p (Machine.doReleaseBarrier a q).1 := by
  unfold Machine.doReleaseBarrier
  split
  · exact h
  · simp only
    split
    · exact h
    · exact h.perform _

theorem doGetBarrier (h : Part.Moves p q) (a : Byte) : Part.Moves p (Machine.doGetBarrier a q).1 := by
  unfold Machine.doGetBarrier
  split <;> exact h

theorem doSetFault (h : Part.Moves p q) (a b c d e : Byte) : Part.Moves p (Machine.doSetFault a b c d e q).1 := by
  unfold Machine.doSetFault
  split
  · exact h
  · exact h
  · split
    · exact h
    · split
      · exact h
      · exact h
      · rename_i m' s' _ _
        unfold configureFault
        split
        · exact h
        · simp only [Part.setFault_fault_self]
          split
          · rename_i hact
            simp only [Bool.and_eq_true, decide_eq_true_eq] at hact
            exact h.faultActs _ _ hact.2
          · rename_i hact
            refine h.setFault _ _ (fun _ hm hl => absurd ?_ hact)
            simp only [Bool.and_eq_true, decide_eq_true_eq]
            exact ⟨hl, hm⟩

theorem doClearFault (h : Part.Moves p q) (a : Byte) : Part.Moves p (Machine.doClearFault a q).1 := by
  unfold Machine.doClearFault
  split
  · exact h
  · rename_i s hs
    split
    · exact h
    · rename_i hf
      have hstill : ∀ i : Fin 4, inSet s i = true → ¬((q.fault i).mode ≠ .off ∧ (q.fault i).live = true) := by
        intro i hi ⟨hm, hl⟩
        have hmem : i ∈ allFour := mem_allFour i
        have := List.find?_eq_none.mp hf i hmem
        simp [hi, FaultInput.stillActive, hm, hl] at this
      simp only
      unfold Part.clearFaults
      simp only
      have hfold : Part.Moves p (allFour.foldl
          (fun r i => if inSet s i then r.setFault i { r.fault i with sticky := false } else r) q) := by
        have key : ∀ (is : List (Fin 4)) (r : Part),
            (∀ i, (r.fault i).mode = (q.fault i).mode ∧ (r.fault i).live = (q.fault i).live) → Part.Moves p r →
            Part.Moves p (is.foldl
              (fun r i => if inSet s i then r.setFault i { r.fault i with sticky := false } else r) r) := by
          intro is
          induction is with
          | nil => exact fun r _ hr => hr
          | cons i rest ih =>
            intro r hsame hr
            refine ih _ ?_ ?_
            · intro j
              dsimp only
              split
              · by_cases hj : j = i
                · subst hj
                  rw [Part.setFault_fault_self]
                  exact hsame j
                · rw [Part.setFault_fault_of_ne _ _ hj]
                  exact hsame j
              · exact hsame j
            · dsimp only
              split
              · rename_i hi
                refine hr.setFault _ _ (fun _ hm hl => absurd ⟨?_, ?_⟩ (hstill i hi))
                · rw [← (hsame i).1]
                  exact hm
                · rw [← (hsame i).2]
                  exact hl
              · exact hr
        exact key allFour q (fun _ => ⟨rfl, rfl⟩) h
      have hl := Part.Moves.foldl (fun r (l : Fin 6) => r.updLane l (fun x => x.clearSources s))
        (fun r l hr => hr.setLane _ _) allLanes hfold
      split
      · exact hl.same rfl rfl rfl rfl rfl rfl
      · exact hl

/-- Steps 4 to 7 of the dispatcher. -/
theorem runRequest (hd : DecodesInRange) (h : Part.Moves p q) (k : RequestKind) (payload : List Byte) :
    Part.Moves p (Machine.runRequest k payload q).1 := by
  have none_ : ∀ f : Part → Answered, Part.Moves p (f q).1 → Part.Moves p (withNone payload f q).1 := by
    intro f hf
    unfold withNone
    split
    · exact hf
    · exact h
  have one : ∀ f : Byte → Part → Answered, (∀ a, Part.Moves p (f a q).1) → Part.Moves p (withOne payload f q).1 := by
    intro f hf
    unfold withOne
    split
    · exact hf _
    · exact h
  have two : ∀ f : Byte → Byte → Part → Answered, (∀ a b, Part.Moves p (f a b q).1) →
      Part.Moves p (withTwo payload f q).1 := by
    intro f hf
    unfold withTwo
    split
    · exact hf _ _
    · exact h
  have three : ∀ f : Byte → Byte → Byte → Part → Answered, (∀ a b c, Part.Moves p (f a b c q).1) →
      Part.Moves p (withThree payload f q).1 := by
    intro f hf
    unfold withThree
    split
    · exact hf _ _ _
    · exact h
  have segs : ∀ f : Byte → List RawSegment → Part → Answered, (∀ a raws, Part.Moves p (f a raws q).1) →
      Part.Moves p (withSegments payload f q).1 := by
    intro f hf
    unfold withSegments
    split
    · exact h
    · split
      · split
        · exact hf _ _
        · exact h
      · exact h
  cases k with
  | sync => exact none_ _ h.doSync
  | reset => exact none_ _ (h.setLink _)
  | getStatus => exact none_ _ h
  | getLinkStats => exact one _ h.doGetLinkStats
  | setLinkTiming => exact two _ h.doSetLinkTiming
  | setTimebase => exact one _ h.doSetTimebase
  | setPair =>
    show Part.Moves p (runSetPair payload q).1
    unfold runSetPair
    split
    · exact h.doSetPair _ _ _ _ _ _ _ _
    · exact h
  | defineRegion =>
    show Part.Moves p (runDefineRegion payload q).1
    unfold runDefineRegion
    split
    · exact h.doDefineRegion _ _ _
    · exact h
  | deleteRegion => exact one _ h.doDeleteRegion
  | bindRegion => exact three _ h.doBindRegion
  | unbindRegion => exact one _ h.doUnbindRegion
  | clearRegion => exact one _ h.doClearRegion
  | getRegions => exact none_ _ h
  | append => exact segs _ (h.doAppend hd)
  | start => exact two _ h.doStart
  | stop => exact two _ h.doStop
  | setLane =>
    show Part.Moves p (runSetLane payload q).1
    unfold runSetLane
    split
    · exact h.doSetLane _ _ _ _
    · exact h
  | getLane => exact one _ h.doGetLane
  | trim =>
    show Part.Moves p (runTrim payload q).1
    unfold runTrim
    split
    · exact h.doTrim _ _ _ _
    · exact h
  | patternBegin => exact one _ h.doPatternBegin
  | patternData => exact segs _ (h.doPatternData hd)
  | patternEnd => exact one _ h.doPatternEnd
  | patternDiscard => exact one _ h.doPatternDiscard
  | getPatterns => exact none_ _ h
  | setTrigger => exact three _ h.doSetTrigger
  | fireTrigger => exact one _ h.doFireTrigger
  | getTriggers => exact none_ _ h
  | setBarrier =>
    show Part.Moves p (runSetBarrier payload q).1
    unfold runSetBarrier
    split
    · exact h.doSetBarrier _ _ _ _ _ _
    · exact h
  | releaseBarrier => exact one _ h.doReleaseBarrier
  | getBarrier => exact one _ h.doGetBarrier
  | setFault =>
    show Part.Moves p (runSetFault payload q).1
    unfold runSetFault
    split
    · exact h.doSetFault _ _ _ _ _
    · exact h
  | clearFault => exact one _ h.doClearFault
  | getFaults => exact none_ _ h

/-! ## Dispatcher, transmitter and receiver -/

theorem placeReply (h : Part.Moves p q) (r : Reply) : Part.Moves p (q.placeReply r) := h.setLink _

theorem placeCached (h : Part.Moves p q) (f : RequestFrame) (r : Reply) : Part.Moves p (q.placeCached f r) :=
  h.setLink _

theorem execute (hd : DecodesInRange) (h : Part.Moves p q) (f : RequestFrame) : Part.Moves p (q.execute f) := by
  have hnew : Part.Moves p (q.executeNew f) := by
    unfold Part.executeNew
    split
    · exact h.placeCached _ _
    · simp only
      split
      · exact (h.runRequest hd _ _).placeReply _
      · exact (h.runRequest hd _ _).placeCached _ _
  unfold Part.execute Part.executeSynced
  split
  · split
    · exact hnew
    · split
      · split
        · exact h.placeReply _
        · exact h.placeReply _
      · exact hnew
  · exact h.placeReply _

theorem dispatch (hd : DecodesInRange) (h : Part.Moves p q) : Part.Moves p q.dispatch := by
  unfold Part.dispatch
  split
  · exact h
  · split
    · exact h
    · exact (h.setLink _).execute hd _

theorem arbitrate (h : Part.Moves p q) : Part.Moves p q.arbitrate := by
  unfold Part.arbitrate
  split
  · exact h
  · split
    · exact h.setLink _
    · unfold Part.beginNotify
      split
      · split
        · rename_i r hr
          exact Part.Moves.setLink (.step _ _ _ h (.notif q _ (.sendNext _ _ r hr))) _
        · exact h
      · exact h

theorem settle (hd : DecodesInRange) (h : Part.Moves p q) : Part.Moves p q.settle :=
  (((h.dispatch hd).arbitrate).dispatch hd).driveLines

theorem event (hd : DecodesInRange) (f : Part → Part) (hf : ∀ r, Part.Moves p r → Part.Moves p (f r))
    (h : Part.Moves p q) : Part.Moves p (q.event f) := by
  unfold Part.event
  split
  · exact (hf q h).settle hd
  · exact h

theorem eventWhen (hd : DecodesInRange) (due : Bool) (f : Part → Part) (hf : due = true → Part.Moves p (f q))
    (h : Part.Moves p q) : Part.Moves p (q.eventWhen due f) := by
  unfold Part.eventWhen
  split
  · rename_i hdue
    unfold Part.event
    split
    · exact (hf hdue).settle hd
    · exact h
  · exact h

theorem bufferRequest (h : Part.Moves p q) (f : RequestFrame) : Part.Moves p (q.bufferRequest f) := by
  unfold Part.bufferRequest
  split
  · exact h.setLink _
  · exact h.setLink _

theorem acknowledge (h : Part.Moves p q) (n : Byte) : Part.Moves p (q.acknowledge n) := by
  unfold Part.acknowledge
  split
  · rename_i u hu
    exact .step _ _ _ h (.notif _ _ (.acknowledge _ _ _ _ _ hu))
  · exact h.setLink _

theorem completeFrame (h : Part.Moves p q) : Part.Moves p q.completeFrame := by
  have hh : Part.Moves p q.toHunting := h.setLink _
  unfold Part.completeFrame
  split
  · split
    · simp only
      split
      · unfold Part.sortFrame
        split
        · exact hh.bufferRequest _
        · split
          · split
            · exact hh.acknowledge _
            · exact hh.setLink _
          · exact hh.setLink _
      · exact hh.setLink _
    · exact hh
  · exact h

theorem dropGap (h : Part.Moves p q) : Part.Moves p q.dropGap :=
  Part.Moves.setLink (q := q.toHunting) (h.setLink _) _

theorem lengthEvent (hd : DecodesInRange) (h : Part.Moves p q) : Part.Moves p q.lengthEvent :=
  eventWhen hd _ _ (fun _ => Part.Moves.setLink (q := q.toHunting) (h.setLink _) _) h

theorem frameEvent (hd : DecodesInRange) (h : Part.Moves p q) : Part.Moves p q.frameEvent :=
  eventWhen hd _ _ (fun _ => h.completeFrame) h

theorem receiveByte (hd : DecodesInRange) (h : Part.Moves p q) (data : Byte) (stopBit : Level) (idle : Bool) :
    Part.Moves p (q.receiveByte data stopBit idle) := by
  have htake : ∀ r, Part.Moves p r → Part.Moves p (r.takeByte data) := by
    intro r hr
    unfold Part.takeByte
    split
    · split
      · exact hr.setLink _
      · exact hr
    · exact hr.setLink _
  unfold Part.receiveByte
  split
  · exact (htake _ ((h.lengthEvent hd).frameEvent hd)).setLink _
  · exact h

/-! ## Events and the tick -/

theorem takeEdge (h : Part.Moves p q) (i : Fin 4) : Part.Moves p (q.takeEdge i) := by
  unfold Part.takeEdge
  simp only
  split
  · exact (h.setTrigger _ _).deliverEdge _ _ _
  · exact h.setTrigger _ _

theorem stallChannel (h : Part.Moves p q) : Part.Moves p q.stallChannel :=
  Part.Moves.forLanes (.step _ _ _ h (.notif _ _ (.stall _))) _ _ (fun _ _ hr => hr.softStop _ _)

theorem expire (h : Part.Moves p q) : Part.Moves p q.expire := by
  unfold Part.expire
  split
  · exact Part.Moves.setLink (.step _ _ _ h (.notif _ _ (.markAll _ _))) _
  · exact h.stallChannel

theorem edgeEvent (hd : DecodesInRange) (h : Part.Moves p q) (i : Fin 4) : Part.Moves p (q.edgeEvent i) :=
  eventWhen hd _ _ (fun _ => h.takeEdge i) h

theorem activeEvent (hd : DecodesInRange) (h : Part.Moves p q) (i : Fin 4) : Part.Moves p (q.activeEvent i) :=
  eventWhen hd _ _ (fun _ => h.qualifyActive i) h

theorem inactiveEvent (hd : DecodesInRange) (h : Part.Moves p q) (i : Fin 4) : Part.Moves p (q.inactiveEvent i) :=
  eventWhen hd _ _ (fun hdue => h.qualifyInactive i (by
    simp only [FaultInput.inactiveDue, Bool.and_eq_true, decide_eq_true_eq] at hdue
    exact hdue.2)) h

theorem boundaryEvent (hd : DecodesInRange) (h : Part.Moves p q) (l : Fin 6) : Part.Moves p (q.boundaryEvent l) :=
  eventWhen hd _ _ (fun _ => h.boundary l) h

theorem joinEvent (hd : DecodesInRange) (h : Part.Moves p q) (l : Fin 6) : Part.Moves p (q.joinEvent l) :=
  eventWhen hd _ _ (fun _ => h.join l) h

theorem heldEvent (hd : DecodesInRange) (h : Part.Moves p q) (l : Fin 6) : Part.Moves p (q.heldEvent l) := by
  unfold Part.heldEvent
  split
  · exact event hd _ (fun r hr => hr.join l) h
  · exact eventWhen hd _ _ (fun _ => h.beginHeld l) h

theorem stopEvent (hd : DecodesInRange) (h : Part.Moves p q) (l : Fin 6) : Part.Moves p (q.stopEvent l) :=
  eventWhen hd _ _ (fun _ => h.completeStop l) h

theorem timeoutEvent (hd : DecodesInRange) (h : Part.Moves p q) (b : Fin 4) : Part.Moves p (q.timeoutEvent b) :=
  eventWhen hd _ _ (fun _ => h.timeOutBarrier b) h

theorem expiryEvent (hd : DecodesInRange) (h : Part.Moves p q) : Part.Moves p q.expiryEvent :=
  eventWhen hd _ _ (fun _ => h.expire) h

theorem activationEvent (hd : DecodesInRange) (h : Part.Moves p q) (o : Fin 6) : Part.Moves p (q.activationEvent o) :=
  eventWhen hd _ _ (fun _ => h.setPair _ _) h

theorem gapEvent (hd : DecodesInRange) (h : Part.Moves p q) : Part.Moves p q.gapEvent :=
  eventWhen hd _ _ (fun _ => h.dropGap) h

theorem acceptStart (h : Part.Moves p q) (start : StartBit) : Part.Moves p (q.acceptStart start) := by
  unfold Part.acceptStart
  split
  · exact h
  · split
    · exact h.setLink _
    · exact h

theorem takeDue (hd : DecodesInRange) (h : Part.Moves p q) : Part.Moves p q.takeDue := by
  unfold Part.takeDue
  refine Part.Moves.foldl _ (fun r o hr => hr.activationEvent hd o) _ ?_
  refine Part.Moves.gapEvent hd ?_
  refine Part.Moves.expiryEvent hd ?_
  refine Part.Moves.foldl _ (fun r b hr => hr.timeoutEvent hd b) _ ?_
  refine Part.Moves.foldl _
    (fun r l hr => (((hr.boundaryEvent hd l).joinEvent hd l).heldEvent hd l).stopEvent hd l) _ ?_
  refine Part.Moves.foldl _ (fun r i hr => (hr.activeEvent hd i).inactiveEvent hd i) _ ?_
  refine Part.Moves.foldl _ (fun r i hr => hr.edgeEvent hd i) _ ?_
  exact (h.lengthEvent hd).frameEvent hd

end Part.Moves

/-- A part reached by moves, resets and the ends of ticks: what a command can do. -/
inductive Part.Run : Part → Part → Prop
  | refl (p) : Run p p
  | moves (p q r) (h : Run p q) (m : Part.Moves q r) : Run p r
  | clock (p q) (h : Run p q) (s : Pins) : Run p (q.nextTick s)
  | pass (p q) (h : Run p q) (phase pin) : Run p { q with resetPhase := phase, resetPin := pin }
  | reset (p cause straps first phase pin) : Run p (Part.atReset cause straps first phase pin)

/-- What every primitive move, every end of a tick and every reset keeps, a run keeps. -/
theorem Part.Run.keeps {P : Part → Prop} (hmove : ∀ p q, Part.Move p q → P p → P q)
    (hclock : ∀ p s, P p → P (p.nextTick s))
    (hpass : ∀ (p : Part) phase pin, P p → P { p with resetPhase := phase, resetPin := pin })
    (hreset : ∀ cause straps first phase pin, P (Part.atReset cause straps first phase pin)) {p q : Part}
    (h : Part.Run p q) : P p → P q := by
  induction h with
  | refl => exact id
  | moves _ _ _ m ih => exact fun hp => m.keeps hmove (ih hp)
  | clock _ _ s ih => exact fun hp => hclock _ s (ih hp)
  | pass _ _ phase pin ih => exact fun hp => hpass _ phase pin (ih hp)
  | reset => exact fun _ => hreset _ _ _ _ _

/-- Moves are a run. -/
theorem Part.Moves.run_of {p q : Part} (h : Part.Moves p q) : Part.Run p q := .moves _ _ _ (.refl p) h

/-- An event after which the part settles. -/
theorem Part.Run.event (hd : Part.Moves.DecodesInRange) {p : Part} (f : Part → Part) (hf : Part.Run p (f p)) :
    Part.Run p (p.event f) := by
  unfold Part.event
  split
  · exact .moves _ _ _ hf (Part.Moves.settle hd (.refl _))
  · exact .refl _

/-- The end of a frame sent. -/
theorem Part.Run.finishFrame (p : Part) : Part.Run p p.finishFrame := by
  unfold Part.finishFrame
  split
  · exact .refl _
  · split
    · exact .reset _ _ _ _ _ _
    · exact (Part.Moves.setLink (.refl p) _).run_of

/-- RESETN going LOW. -/
theorem Part.Run.pinLow (p : Part) : Part.Run p p.pinLow := by
  unfold Part.pinLow
  split
  · exact .reset _ _ _ _ _ _
  · exact .pass _ _ (.refl p) _ _

/-- The end of a reset. -/
theorem Part.Run.endReset (p : Part) (straps : Straps) (first : Pins) : Part.Run p (p.endReset straps first) := by
  unfold Part.endReset
  split
  · exact .reset _ _ _ _ _ _
  · exact .refl _

/-- A tick. -/
theorem Part.Run.tick (hd : Part.Moves.DecodesInRange) (p : Part) (s : Pins) (start : StartBit) :
    Part.Run p (p.tick s start) := by
  unfold Part.tick
  split
  · exact .moves _ _ _ (.clock _ _ (Part.Moves.takeDue hd (Part.Moves.acceptStart (.refl p) start)).run_of s)
      (Part.Moves.settle hd (.refl _))
  · unfold Part.resetTick
    split
    · exact .pass _ _ (.refl p) _ _
    · exact .refl _

/-- The part after a command that is `f` of the part before. -/
theorem run_of_act {c : Instr} {s t : State} (f : Part → Part) (hx : exec c s = s.act f)
    (hf : s.part.Run (f s.part)) (h : exec c s = .next t) : s.part.Run t.part := by
  rw [hx] at h
  have ht : { s with part := f s.part } = t := Host.Outcome.next.inj h
  rw [← ht]
  exact hf

/-- Every command is a run. -/
theorem exec_run (hd : Part.Moves.DecodesInRange) (c : Instr) (s t : State) (h : exec c s = .next t) :
    s.part.Run t.part := by
  have r : Part.Moves s.part s.part := .refl _
  cases hc : requestOf c with
  | some f =>
    exact run_of_act (fun p => p.event (fun q => q.bufferRequest f)) (exec_request hc s)
      (Part.Run.event hd (fun q => q.bufferRequest f) (r.bufferRequest f).run_of) h
  | none =>
    cases c <;> simp only [requestOf, reduceCtorEq] at hc
    case frameComplete => exact run_of_act (fun p => p.frameEvent) rfl (r.frameEvent hd).run_of h
    case lengthError => exact run_of_act (fun p => p.lengthEvent) rfl (r.lengthEvent hd).run_of h
    case gapTimeout =>
      exact run_of_act (fun p => p.gapEvent) rfl (r.gapEvent hd).run_of h
    case frameSent =>
      exact run_of_act (fun p => p.event Part.finishFrame) rfl (.event hd _ (Part.Run.finishFrame _)) h
    case powerOnReset =>
      exact run_of_act (fun p => p.beginReset .powerOn 0 p.resetPin) rfl (.reset _ _ _ _ _ _) h
    case pinReset => exact run_of_act (fun p => p.pinLow) rfl (.pinLow _) h
    case resetEnd straps first => exact run_of_act (fun p => p.endReset straps first) rfl (.endReset _ _ _) h
    case triggerEdge i => exact run_of_act (fun p => p.edgeEvent i) rfl (r.edgeEvent hd i).run_of h
    case faultQualifyActive i => exact run_of_act (fun p => p.activeEvent i) rfl (r.activeEvent hd i).run_of h
    case faultQualifyInactive i => exact run_of_act (fun p => p.inactiveEvent i) rfl (r.inactiveEvent hd i).run_of h
    case periodBoundary l => exact run_of_act (fun p => p.boundaryEvent l) rfl (r.boundaryEvent hd l).run_of h
    case join l => exact run_of_act (fun p => p.joinEvent l) rfl (r.joinEvent hd l).run_of h
    case heldBoundary l => exact run_of_act (fun p => p.heldEvent l) rfl (r.heldEvent hd l).run_of h
    case softStopComplete l => exact run_of_act (fun p => p.stopEvent l) rfl (r.stopEvent hd l).run_of h
    case barrierTimeout b => exact run_of_act (fun p => p.timeoutEvent b) rfl (r.timeoutEvent hd b).run_of h
    case retransmitTimeout => exact run_of_act (fun p => p.expiryEvent) rfl (r.expiryEvent hd).run_of h
    case byteReceived d b i =>
      exact run_of_act (fun p => p.event (fun q => q.receiveByte d b i)) rfl
        (.event hd _ (r.receiveByte hd d b i).run_of) h
    case tick x => exact run_of_act (fun p => p.tick x.samples x.start) rfl (.tick hd _ x.samples x.start) h
    case delayedActivation o => exact run_of_act (fun p => p.activationEvent o) rfl (r.activationEvent hd o).run_of h

/-- Every step is a run: what every primitive move, every end of a tick and every reset keeps, every step keeps. -/
theorem step_run (hd : Part.Moves.DecodesInRange) (s t : State) (h : step s = .next t) : s.part.Run t.part := by
  unfold step at h
  split at h
  · cases h
    exact .refl _
  · rename_i rest _
    exact exec_run hd _ { s with pending := rest } t h

end Sys2Proof.Machine
end

