-- ==== Sys2Proof/Laws/LaneLaws.lean ====
section
/-! SUPPORT. The laws that bind lanes to barriers, patterns and fault inputs (R101, R123, R141), lane by lane, and the
changes that keep them: of one lane, of the notification queue, of a period. -/

namespace Sys2Proof.Machine

/-- The arrived set of barrier `b` holds lane `l`. -/
def Part.waitsAt (p : Part) (l : Fin 6) (b : Fin 4) : Bool := inSet (p.barrier b).arrived l

/-- The input may hold lane `l` HALTED (R141): it is a LATCH input, sticky, and maps the lane. -/
def FaultInput.holds (f : FaultInput) (l : Fin 6) : Prop :=
  f.mode = .latch ∧ f.sticky = true ∧ inSet f.lanes l = true

/-- The laws of one lane. -/
structure Part.LaneOk (p : Part) (l : Fin 6) : Prop where
  wait : (p.lane l).state = .waiting ↔ ∃ b, p.waitsAt l b = true
  one : ∀ b b', p.waitsAt l b = true → p.waitsAt l b' = true → b = b'
  play : (p.lane l).PlayLaw
  halt : (p.lane l).state = .halted ↔ (p.lane l).haltSources ≠ 0
  srcs : ∀ i, inSet (p.lane l).haltSources i = true → (p.fault i).holds l

theorem Part.laneLaws_iff (p : Part) : p.LaneLaws ↔ (∀ l, p.LaneOk l) ∧ p.UseLaw := by
  constructor
  · rintro ⟨⟨w1, w2⟩, pl, u, h⟩
    exact ⟨fun l => ⟨w1 l, w2 l, pl l, (h l).1, (h l).2⟩, u⟩
  · rintro ⟨h, u⟩
    exact ⟨⟨fun l => (h l).wait, fun l => (h l).one⟩, fun l => (h l).play, u, fun l => ⟨(h l).halt, (h l).srcs⟩⟩

theorem Part.LaneOk.congr {p q : Part} {l : Fin 6} (h : p.LaneOk l) (hx : q.lane l = p.lane l)
    (hb : ∀ b, q.waitsAt l b = p.waitsAt l b) (hf : ∀ i, (p.fault i).holds l → (q.fault i).holds l) : q.LaneOk l where
  wait := by simpa only [hx, hb] using h.wait
  one := by simpa only [hb] using h.one
  play := by simpa only [hx] using h.play
  halt := by simpa only [hx] using h.halt
  srcs := fun i hi => hf i (h.srcs i (by simpa only [hx] using hi))

theorem countP_lanes (f : Fin 6 → Bool) : allLanes.countP f =
    (f 0).toNat + (f 1).toNat + (f 2).toNat + (f 3).toNat + (f 4).toNat + (f 5).toNat := by
  simp only [allLanes, List.countP_cons, List.countP_nil]
  cases f 0 <;> cases f 1 <;> cases f 2 <;> cases f 3 <;> cases f 4 <;> cases f 5 <;> rfl

theorem countP_lanes_of_ne (f g : Fin 6 → Bool) (l : Fin 6) (h : ∀ m, m ≠ l → f m = g m) :
    allLanes.countP f + (g l).toNat = allLanes.countP g + (f l).toNat := by
  rw [countP_lanes, countP_lanes]
  match l with
  | 0 => rw [h 1 (by decide), h 2 (by decide), h 3 (by decide), h 4 (by decide), h 5 (by decide)]; omega
  | 1 => rw [h 0 (by decide), h 2 (by decide), h 3 (by decide), h 4 (by decide), h 5 (by decide)]; omega
  | 2 => rw [h 0 (by decide), h 1 (by decide), h 3 (by decide), h 4 (by decide), h 5 (by decide)]; omega
  | 3 => rw [h 0 (by decide), h 1 (by decide), h 2 (by decide), h 4 (by decide), h 5 (by decide)]; omega
  | 4 => rw [h 0 (by decide), h 1 (by decide), h 2 (by decide), h 3 (by decide), h 5 (by decide)]; omega
  | 5 => rw [h 0 (by decide), h 1 (by decide), h 2 (by decide), h 3 (by decide), h 4 (by decide)]; omega

/-- A change of lane `l` alone keeps the laws where the lane keeps its own and the use counts follow its CALL. -/
theorem Part.LaneLaws.of_lane {p q : Part} (l : Fin 6) (h : p.LaneLaws) (hl : ∀ m, m ≠ l → q.lane m = p.lane m)
    (hb : ∀ m, m ≠ l → ∀ b, q.waitsAt m b = p.waitsAt m b)
    (hf : ∀ m, m ≠ l → ∀ i, (p.fault i).holds m → (q.fault i).holds m)
    (ok : q.LaneOk l)
    (hu : ∀ k, (q.pattern k).useCount + ((p.lane l).calls k).toNat =
      (p.pattern k).useCount + ((q.lane l).calls k).toNat)
    (hr : ∀ k, 0 < (q.pattern k).useCount → (q.pattern k).state = .ready) : q.LaneLaws := by
  rw [Part.laneLaws_iff] at h ⊢
  obtain ⟨ho, use⟩ := h
  refine ⟨fun m => ?_, fun k => ⟨?_, hr k⟩⟩
  · by_cases hm : m = l
    · exact hm ▸ ok
    · exact (ho m).congr (hl m hm) (hb m hm) (hf m hm)
  · have := countP_lanes_of_ne (fun m => (q.lane m).calls k) (fun m => (p.lane m).calls k) l
      (fun m hm => by simp only [hl m hm])
    have h1 := (use k).1
    have h2 := hu k
    omega

/-- All that the lane laws speak of is as it was, or holds no less. -/
structure Part.SameLanes (p q : Part) : Prop where
  lane : ∀ l, q.lane l = p.lane l
  barrier : ∀ b, (q.barrier b).arrived = (p.barrier b).arrived
  pattern : ∀ k, q.pattern k = p.pattern k
  fault : ∀ i l, (p.fault i).holds l → (q.fault i).holds l

theorem Part.LaneLaws.same {p q : Part} (h : p.LaneLaws) (s : p.SameLanes q) : q.LaneLaws := by
  refine h.of_lane 0 (fun m _ => s.lane m) (fun m _ b => by simp only [Part.waitsAt, s.barrier])
    (fun m _ i => s.fault i m) ?_ (fun k => by rw [s.pattern, s.lane]) (fun k => ?_)
  · exact ((Part.laneLaws_iff p).mp h |>.1 0).congr (s.lane 0) (fun b => by simp only [Part.waitsAt, s.barrier])
      (fun i => s.fault i 0)
  · rw [s.pattern]
    exact ((Part.laneLaws_iff p).mp h |>.2 k).2

theorem Part.SameLanes.of_eq {p q : Part} (hl : q.lanes = p.lanes) (hb : q.barriers = p.barriers)
    (hp : q.patterns = p.patterns) (hf : q.faults = p.faults) : p.SameLanes q :=
  ⟨fun l => by simp only [Part.lane, hl], fun b => by simp only [Part.barrier, hb],
   fun k => by simp only [Part.pattern, hp], fun i l => by simp only [Part.fault, hf, imp_self]⟩

theorem Part.LaneLaws.ok {p : Part} (h : p.LaneLaws) (l : Fin 6) : p.LaneOk l := ((Part.laneLaws_iff p).mp h).1 l

theorem Part.LaneLaws.use {p : Part} (h : p.LaneLaws) : p.UseLaw := ((Part.laneLaws_iff p).mp h).2

theorem Part.LaneLaws.notify {p : Part} (h : p.LaneLaws) (n : Notification) : (p.notify n).LaneLaws :=
  h.same (.of_eq rfl rfl rfl rfl)

theorem Part.retireHead_same (p : Part) (l : Fin 6) (o : Retirement) : p.SameLanes (p.retireHead l o) := by
  rw [Part.retireHead_eq]; exact .of_eq rfl rfl rfl rfl

theorem Part.LaneLaws.retireHead {p : Part} (h : p.LaneLaws) (l : Fin 6) (o : Retirement) :
    (p.retireHead l o).LaneLaws := h.same (p.retireHead_same l o)

theorem Part.LaneLaws.reportTag {p : Part} (h : p.LaneLaws) (l : Fin 6) (t) (o : Retirement) (k) :
    (p.reportTag l t o k).LaneLaws := by
  rw [Part.reportTag_eq]; exact h.same (.of_eq rfl rfl rfl rfl)

/-- A lane set whose CALL keeps its pattern. -/
theorem Part.LaneLaws.setLane {p : Part} (h : p.LaneLaws) (l : Fin 6) (x : Lane)
    (hc : ∀ k, x.calls k = (p.lane l).calls k) (ok : (p.setLane l x).LaneOk l) : (p.setLane l x).LaneLaws :=
  h.of_lane l (fun _ hm => Part.setLane_lane_of_ne _ _ hm) (fun _ _ _ => rfl) (fun _ _ _ => id) ok
    (fun k => by simp [hc k]) (fun k => (h.use k).2)

/-- What the laws see of a lane. -/
def Lane.SameLaws (x y : Lane) : Prop :=
  y.state = x.state ∧ (∀ k, y.calls k = x.calls k) ∧ (y.call = none ↔ x.call = none) ∧ y.playsHeld = x.playsHeld ∧
  y.starve = x.starve ∧ y.haltSources = x.haltSources

theorem Part.LaneLaws.setLane_same {p : Part} (h : p.LaneLaws) (l : Fin 6) (x : Lane)
    (s : (p.lane l).SameLaws x) : (p.setLane l x).LaneLaws := by
  obtain ⟨h1, h2, h3, h4, h5, h6⟩ := s
  refine h.setLane l x h2 ?_
  have o := h.ok l
  constructor
  · rw [Part.setLane_lane_self, h1]; exact o.wait
  · exact o.one
  · rw [Part.setLane_lane_self]
    have := o.play
    unfold Lane.PlayLaw at this ⊢
    rw [h1, h4, h5]
    simpa only [ne_eq, h3] using this
  · rw [Part.setLane_lane_self, h1, h6]; exact o.halt
  · rw [Part.setLane_lane_self, h6]; exact o.srcs

/-- The state binds the lane to no barrier and to no fault input: neither WAITING nor HALTED. -/
def LaneState.loose (s : LaneState) : Prop := s ≠ .waiting ∧ s ≠ .halted

/-- A loose lane takes another loose state. -/
theorem Part.LaneLaws.setLane_loose {p : Part} (h : p.LaneLaws) (l : Fin 6) (x : Lane)
    (h0 : (p.lane l).state.loose) (h1 : x.state.loose) (hc : ∀ k, x.calls k = (p.lane l).calls k)
    (hs : x.haltSources = (p.lane l).haltSources) (hp : x.PlayLaw) : (p.setLane l x).LaneLaws := by
  refine h.setLane l x hc ?_
  have o := h.ok l
  constructor
  · rw [Part.setLane_lane_self]
    have : ¬ ∃ b, p.waitsAt l b = true := fun hb => h0.1 (o.wait.mpr hb)
    exact ⟨fun hw => absurd hw h1.1, fun hb => absurd hb this⟩
  · exact o.one
  · rw [Part.setLane_lane_self]; exact hp
  · rw [Part.setLane_lane_self, hs]
    exact ⟨fun hh => absurd hh h1.2, fun hh => absurd (o.halt.mpr hh) h0.2⟩
  · rw [Part.setLane_lane_self, hs]; exact o.srcs

/-- Outside RUNNING and STOPPING no lane is inside a CALL. -/
theorem Lane.PlayLaw.call_none {x : Lane} (h : x.PlayLaw) (hs : ¬(x.state = .running ∨ x.state = .stopping)) :
    x.call = none := by
  cases hc : x.call with
  | none => rfl
  | some c => exact absurd (h.1 (by simp [hc])).1 hs

/-- Nor does one that plays a held period. -/
theorem Lane.PlayLaw.call_none_of_held {x : Lane} (h : x.PlayLaw) (hs : x.playsHeld = true) : x.call = none := by
  cases hc : x.call with
  | none => rfl
  | some c => simp [(h.1 (by simp [hc])).2] at hs

/-! ## Periods -/

theorem Part.beginPeriod_set (p : Part) (l : Fin 6) (s : Shape) (held : Bool) : ∃ x,
    p.beginPeriod l s held = p.setLane l x ∧ x.state = (p.lane l).state ∧ x.call = (p.lane l).call ∧
    x.starve = (p.lane l).starve ∧ x.haltSources = (p.lane l).haltSources ∧ x.playsHeld = held := by
  cases s <;> exact ⟨_, rfl, rfl, rfl, rfl, rfl, rfl⟩

theorem Lane.setRepeats_calls (x : Lane) (n : Nat) (k : Fin 8) : (x.setRepeats n).calls k = x.calls k := by
  unfold Lane.setRepeats Lane.calls
  cases x.call <;> rfl

theorem Lane.setRepeats_call (x : Lane) (n : Nat) : (x.setRepeats n).call = none ↔ x.call = none := by
  unfold Lane.setRepeats
  split <;> simp_all

theorem Lane.setRepeats_rest (x : Lane) (n : Nat) : (x.setRepeats n).state = x.state ∧
    (x.setRepeats n).starve = x.starve ∧ (x.setRepeats n).haltSources = x.haltSources ∧
    (x.setRepeats n).period = x.period := by
  unfold Lane.setRepeats
  split <;> simp

theorem Lane.calls_congr {x y : Lane} (h : x.call = y.call) (k : Fin 8) : x.calls k = y.calls k := by
  unfold Lane.calls
  rw [h]

/-- The lane after a timed segment has started. -/
theorem Part.startTimed_set (p : Part) (l : Fin 6) (body : SegmentBody) (hh : (p.lane l).playsHeld = false) : ∃ x,
    p.startTimed l body = p.setLane l x ∧ (p.lane l).SameLaws x := by
  unfold Part.startTimed
  split
  · rename_i period onTime alternate a repeats
    obtain ⟨x, he, h1, h2, h3, h4, h5⟩ := Part.beginPeriod_set
      (p.updLane l (fun x => (x.setRepeats repeats).setOnTimes onTime alternate)) l (.pulse period a) false
    simp only [Part.updLane_lane_self, Lane.setOnTimes] at h1 h2 h3 h4
    obtain ⟨r1, r2, r3, _⟩ := (p.lane l).setRepeats_rest repeats
    refine ⟨x, by rw [he]; simp [Part.updLane], ?_, fun k => ?_, ?_, ?_, ?_, ?_⟩
    · rw [h1, r1]
    · rw [Lane.calls_congr h2]; exact (p.lane l).setRepeats_calls repeats k
    · rw [h2]; exact (p.lane l).setRepeats_call repeats
    · rw [h5, hh]
    · rw [h3, r2]
    · rw [h4, r3]
  · rename_i code unit repeats
    obtain ⟨x, he, h1, h2, h3, h4, h5⟩ := Part.beginPeriod_set
      (p.updLane l (fun x => (x.setRepeats repeats).setOnTimes 0 none)) l (.level unit code) false
    simp only [Part.updLane_lane_self, Lane.setOnTimes] at h1 h2 h3 h4
    obtain ⟨r1, r2, r3, _⟩ := (p.lane l).setRepeats_rest repeats
    refine ⟨x, by rw [he]; simp [Part.updLane], ?_, fun k => ?_, ?_, ?_, ?_, ?_⟩
    · rw [h1, r1]
    · rw [Lane.calls_congr h2]; exact (p.lane l).setRepeats_calls repeats k
    · rw [h2]; exact (p.lane l).setRepeats_call repeats
    · rw [h5, hh]
    · rw [h3, r2]
    · rw [h4, r3]
  · refine ⟨p.lane l, ?_, rfl, fun _ => rfl, Iff.rfl, rfl, rfl, rfl⟩
    simp [Part.setLane, Part.lane]

/-- A held period begun. -/
theorem Part.beginHeld_set (p : Part) (l : Fin 6) : ∃ x,
    p.beginHeld l = p.setLane l x ∧ x.state = (p.lane l).state ∧ x.call = (p.lane l).call ∧
    x.starve = (p.lane l).starve ∧ x.haltSources = (p.lane l).haltSources ∧
    (x.playsHeld = true ∨ x.playsHeld = (p.lane l).playsHeld) := by
  unfold Part.beginHeld
  split
  · refine ⟨p.lane l, ?_, rfl, rfl, rfl, rfl, .inr rfl⟩
    simp [Part.setLane, Part.lane]
  · rename_i period a primary alternate _
    obtain ⟨x, he, h1, h2, h3, h4, h5⟩ := Part.beginPeriod_set
      (p.updLane l (fun x => x.setOnTimes primary alternate)) l (.pulse period a) true
    simp only [Part.updLane_lane_self, Lane.setOnTimes] at h1 h2 h3 h4
    exact ⟨x, by rw [he]; simp [Part.updLane], h1, h2, h3, h4, .inl h5⟩
  · rename_i unit code _
    obtain ⟨x, he, h1, h2, h3, h4, h5⟩ := Part.beginPeriod_set
      (p.updLane l (fun x => x.setOnTimes 0 none)) l (.level unit code) true
    simp only [Part.updLane_lane_self, Lane.setOnTimes] at h1 h2 h3 h4
    exact ⟨x, by rw [he]; simp [Part.updLane], h1, h2, h3, h4, .inl h5⟩

theorem Part.LaneLaws.beginHeld {p : Part} (h : p.LaneLaws) (l : Fin 6) (hs : (p.lane l).state = .starved)
    (hh : (p.lane l).starve = .hold) : (p.beginHeld l).LaneLaws := by
  obtain ⟨x, he, h1, h2, h3, h4, h5⟩ := p.beginHeld_set l
  have hcall : (p.lane l).call = none := (h.ok l).play.call_none (by simp [hs])
  rw [he]
  refine h.setLane_loose l x (by simp [hs, LaneState.loose]) (by simp [h1, hs, LaneState.loose])
    (fun k => Lane.calls_congr h2 k) h4 ⟨fun hc => absurd (h2.trans hcall) hc, fun _ => ?_⟩
  exact .inr (.inr ⟨h1.trans hs, h3.trans hh⟩)

theorem Part.LaneLaws.boundary {p : Part} (h : p.LaneLaws) (l : Fin 6) (hh : (p.lane l).playsHeld = false) :
    (p.boundary l).LaneLaws := by
  unfold Part.boundary
  simp only
  split
  · exact h
  · rename_i q _
    obtain ⟨r1, r2, r3, r4⟩ := (p.lane l).setRepeats_rest ((p.lane l).repeatsLeft - 1)
    have key : ∀ (y : Lane) (s : Shape), (p.lane l).SameLaws y → ((p.setLane l y).beginPeriod l s false).LaneLaws := by
      intro y s ⟨y1, y2, y3, y4, y5, y6⟩
      obtain ⟨x, he, h1, h2, h3, h4, h5⟩ := (p.setLane l y).beginPeriod_set l s false
      rw [he, Part.setLane_setLane]
      rw [Part.setLane_lane_self] at h1 h2 h3 h4
      refine h.setLane_same l x ⟨h1.trans y1, fun k => (Lane.calls_congr h2 k).trans (y2 k), ?_, h5.trans hh.symm,
        h3.trans y5, h4.trans y6⟩
      rw [h2]; exact y3
    have hy : (p.lane l).SameLaws ((p.lane l).setRepeats ((p.lane l).repeatsLeft - 1)) :=
      ⟨r1, fun k => Lane.setRepeats_calls _ _ k, Lane.setRepeats_call _ _, by simp only [Lane.playsHeld, r4], r2, r3⟩
    split
    · refine key _ _ ?_
      generalize (p.lane l).setRepeats ((p.lane l).repeatsLeft - 1) = y at hy
      obtain ⟨y1, y2, y3, y4, y5, y6⟩ := hy
      unfold Lane.commitTrim
      split
      · exact ⟨y1, y2, y3, y4, y5, y6⟩
      · exact ⟨y1, y2, y3, y4, y5, y6⟩
    · exact key _ _ hy

end Sys2Proof.Machine
end

