-- ==== Sys2Proof/Laws/LaneLawsStops.lean ====
section
/-! SUPPORT. The lane laws are kept by departures from barriers, by stops and by halts. -/

namespace Sys2Proof.Machine

/-! ## Leaving barriers, ends of segments, stops -/

theorem Part.leaveBarrier_waitsAt (p : Part) (l : Fin 6) (b : Fin 4) (m : Fin 6) (c : Fin 4) :
    (p.leaveBarrier l b).waitsAt m c = (p.waitsAt m c && !(decide (m = l) && decide (c = b))) := by
  unfold Part.leaveBarrier
  simp only
  by_cases hc : c = b
  · subst hc
    split
    · simp only [Part.waitsAt, Part.setBarrier_barrier_self, inSet_withoutMember]
      by_cases hm : m = l <;> simp [hm]
    · rename_i hn
      by_cases hm : m = l
      · subst hm; simp [Part.waitsAt, hn]
      · simp [hm]
  · split
    · simp [Part.waitsAt, Part.setBarrier_barrier_of_ne _ _ hc, hc]
    · simp [hc]

theorem Part.leaveBarriers_waitsAt (p : Part) (l m : Fin 6) (b : Fin 4) :
    (p.leaveBarriers l).waitsAt m b = (p.waitsAt m b && decide (m ≠ l)) := by
  have hb : b = 0 ∨ b = 1 ∨ b = 2 ∨ b = 3 := by revert b; decide
  simp only [Part.leaveBarriers, allFour, List.foldl_cons, List.foldl_nil, Part.leaveBarrier_waitsAt]
  by_cases hm : m = l
  · rcases hb with h | h | h | h <;> subst h <;> simp [hm]
  · simp [hm]

/-- What the end of the current segment does, as far as the laws see: the use count of the CALL's pattern falls. -/
theorem Part.endCurrent_same (p : Part) (l : Fin 6) :
    (match (p.lane l).call with
      | some c => if (p.lane l).hasCurrent = true then p.lowerUse c.pattern else p
      | none => p).SameLanes (p.endCurrent l) := by
  unfold Part.endCurrent
  simp only
  cases hc : (p.lane l).call with
  | none =>
    simp only
    split
    · exact p.retireHead_same l _
    · exact .of_eq rfl rfl rfl rfl
  | some c =>
    simp only
    split
    · have tr : ∀ {a b c : Part}, a.SameLanes b → b.SameLanes c → a.SameLanes c := fun h h' =>
        ⟨fun l => (h'.1 l).trans (h.1 l), fun b => (h'.2 b).trans (h.2 b), fun k => (h'.3 k).trans (h.3 k),
          fun i l hi => h'.4 i l (h.4 i l hi)⟩
      refine tr ?_ (Part.retireHead_same _ l _)
      split
      · rw [Part.reportTag_eq]; exact .of_eq rfl rfl rfl rfl
      · exact .of_eq rfl rfl rfl rfl
    · exact .of_eq rfl rfl rfl rfl

/-- The lane `l` of `p` leaves whatever it waits at, its segment ends, and it becomes `x`, which plays nothing. -/
theorem Part.LaneLaws.takeOut {p q : Part} (h : p.LaneLaws) (l : Fin 6) (x : Lane)
    (hq : q = p ∧ (p.lane l).state ≠ .waiting ∨ q = p.leaveBarriers l)
    (hx : x.call = none ∧ x.playsHeld = false ∧ x.state ≠ .waiting)
    (hh : (x.state = .halted ↔ x.haltSources ≠ 0) ∧ ∀ i, inSet x.haltSources i = true → (p.fault i).holds l) :
    ((q.endCurrent l).setLane l x).LaneLaws := by
  have o := h.ok l
  have hql : q.lane = p.lane := by
    rcases hq with ⟨hq, _⟩ | hq <;> subst hq
    · rfl
    · exact funext fun m => Part.leaveBarriers_lane p l m
  have hqp : q.pattern = p.pattern := by
    rcases hq with ⟨hq, _⟩ | hq <;> subst hq
    · rfl
    · rw [Part.leaveBarriers_eq]; rfl
  have hqf : q.fault = p.fault := by
    rcases hq with ⟨hq, _⟩ | hq <;> subst hq
    · rfl
    · rw [Part.leaveBarriers_eq]; rfl
  have hqb : ∀ m, m ≠ l → ∀ b, q.waitsAt m b = p.waitsAt m b := by
    intro m hm b
    rcases hq with ⟨hq, _⟩ | hq <;> subst hq
    · rfl
    · simp [Part.leaveBarriers_waitsAt, hm]
  have hqn : ∀ b, q.waitsAt l b = false := by
    intro b
    rcases hq with ⟨hq, hw⟩ | hq <;> subst hq
    · exact Bool.eq_false_iff.mpr (fun hb => hw (o.wait.mpr ⟨b, hb⟩))
    · simp [Part.leaveBarriers_waitsAt]
  have e := q.endCurrent_same l
  -- the use counts after the end of the segment
  have huse : ∀ k, ((q.endCurrent l).pattern k).useCount + ((p.lane l).calls k).toNat = (p.pattern k).useCount ∧
      ((q.endCurrent l).pattern k).state = (p.pattern k).state := by
    intro k
    cases hc : (p.lane l).call with
    | none =>
      have e' := e.pattern k
      simp only [hql, hc] at e'
      rw [e', hqp]
      simp [Lane.calls, hc]
    | some c =>
      have hcur : (p.lane l).hasCurrent = true := by
        obtain ⟨hs, hheld⟩ := o.play.1 (by simp [hc])
        rcases hs with hs | hs <;> simp [Lane.hasCurrent, hs, hheld, hc]
      have e' := e.pattern k
      simp only [hql, hc, hcur, if_true] at e'
      rw [e']
      have hpos : (p.lane l).calls c.pattern = true := by simp [Lane.calls, hc]
      by_cases hk : k = c.pattern
      · subst hk
        have hcount := (h.use c.pattern).1
        have hge : 0 < allLanes.countP (fun m => (p.lane m).calls c.pattern) :=
          List.countP_pos_iff.mpr ⟨l, mem_allLanes l, hpos⟩
        simp only [Part.lowerUse, Part.setPattern_pattern_self, hqp, hpos, Bool.toNat_true]
        exact ⟨by omega, trivial⟩
      · simp only [Part.lowerUse, Part.setPattern_pattern_of_ne _ _ hk, hqp, Lane.calls, hc]
        simp [Ne.symm hk]
  have hlane : ∀ m, (q.endCurrent l).lane m = p.lane m := by
    intro m
    have := e.lane m
    rw [this, ← hql]
    split
    · split <;> rfl
    · rfl
  have hbar : ∀ m b, (q.endCurrent l).waitsAt m b = q.waitsAt m b := by
    intro m b
    simp only [Part.waitsAt, e.barrier b]
    congr 2
    split
    · split <;> rfl
    · rfl
  have hfau : ∀ i m, (p.fault i).holds m → ((q.endCurrent l).fault i).holds m := by
    intro i m hi
    apply e.fault i m
    rw [← hqf] at hi
    split
    · split <;> exact hi
    · exact hi
  refine h.of_lane l (fun m hm => (Part.setLane_lane_of_ne _ _ hm).trans (hlane m))
    (fun m hm b => (hbar m b).trans (hqb m hm b)) (fun m _ i hi => hfau i m hi) ?_ (fun k => ?_) (fun k hk => ?_)
  · constructor
    · rw [Part.setLane_lane_self]
      refine ⟨fun hw => absurd hw hx.2.2, fun ⟨b, hb⟩ => ?_⟩
      have hb' : (q.endCurrent l).waitsAt l b = true := hb
      rw [hbar, hqn] at hb'
      cases hb'
    · intro b b' hb
      have hb' : (q.endCurrent l).waitsAt l b = true := hb
      rw [hbar, hqn] at hb'
      cases hb'
    · rw [Part.setLane_lane_self]
      exact ⟨fun hc => absurd hx.1 hc, fun hc => by simp [hx.2.1] at hc⟩
    · rw [Part.setLane_lane_self]; exact hh.1
    · rw [Part.setLane_lane_self]; exact fun i hi => hfau i l (hh.2 i hi)
  · rw [Part.setLane_pattern, Part.setLane_lane_self]
    have := (huse k).1
    simp only [Lane.calls, hx.1, Bool.toNat_false, Nat.add_zero]
    exact this
  · rw [Part.setLane_pattern] at hk ⊢
    rw [(huse k).2]
    exact (h.use k).2 (by have := (huse k).1; omega)

theorem Part.LaneLaws.no_sources {p : Part} (h : p.LaneLaws) (l : Fin 6) (hs : (p.lane l).state ≠ .halted) :
    (p.lane l).haltSources = 0 :=
  Classical.byContradiction fun hn => hs ((h.ok l).halt.mpr hn)

theorem Lane.toStopped_facts (x : Lane) : x.toStopped.call = none ∧ x.toStopped.playsHeld = false ∧
    x.toStopped.state = .stopped ∧ x.toStopped.haltSources = x.haltSources := ⟨rfl, rfl, rfl, rfl⟩

/-- The lane stopped. -/
theorem Part.LaneLaws.toStopped {p q : Part} (h : p.LaneLaws) (l : Fin 6)
    (hq : q = p ∧ (p.lane l).state ≠ .waiting ∨ q = p.leaveBarriers l) (hs : (p.lane l).state ≠ .halted) :
    ((q.endCurrent l).updLane l Lane.toStopped).LaneLaws := by
  have hlane : (q.endCurrent l).lane l = p.lane l := by
    have e := (q.endCurrent_same l).lane l
    rw [e]
    have hql : q.lane l = p.lane l := by
      rcases hq with ⟨hq, _⟩ | hq <;> subst hq
      · rfl
      · exact Part.leaveBarriers_lane p l l
    rw [← hql]
    split
    · split <;> rfl
    · rfl
  unfold Part.updLane
  rw [hlane]
  have h0 := h.no_sources l hs
  refine h.takeOut l _ hq ⟨rfl, rfl, by simp [Lane.toStopped]⟩ ⟨?_, ?_⟩
  · simp [Lane.toStopped, Lane.idle, h0]
  · intro i hi
    simp [Lane.toStopped, Lane.idle, h0, inSet] at hi

theorem Part.LaneLaws.dropTrim {p : Part} (h : p.LaneLaws) (l : Fin 6) : (p.dropTrim l).LaneLaws := by
  unfold Part.dropTrim
  split
  · exact (h.setLane_same l { p.lane l with trim := none }
      ⟨rfl, fun _ => rfl, Iff.rfl, rfl, rfl, rfl⟩).notify _
  · exact h

theorem Part.dropTrim_lane_law (p : Part) (l : Fin 6) : (p.lane l).SameLaws ((p.dropTrim l).lane l) := by
  unfold Part.dropTrim
  split
  · rw [Part.notify_lane, Part.updLane_lane_self]
    exact ⟨rfl, fun _ => rfl, Iff.rfl, rfl, rfl, rfl⟩
  · exact ⟨rfl, fun _ => rfl, Iff.rfl, rfl, rfl, rfl⟩

theorem Part.LaneLaws.completeStop {p : Part} (h : p.LaneLaws) (l : Fin 6) (hs : (p.lane l).state.loose) :
    (p.completeStop l).LaneLaws := by
  unfold Part.completeStop
  have hs' : ((p.dropTrim l).lane l).state = (p.lane l).state := (p.dropTrim_lane_law l).1
  exact ((h.dropTrim l).toStopped l (.inl ⟨rfl, hs'.symm ▸ hs.1⟩) (hs'.symm ▸ hs.2)).notify _

theorem Part.LaneLaws.stopNow {p : Part} (h : p.LaneLaws) (l : Fin 6) (cause : StopCause)
    (hs : (p.lane l).state ≠ .halted) : (p.stopNow l cause).LaneLaws :=
  (h.toStopped l (.inr rfl) hs).notify _

theorem Part.LaneLaws.hardStop {p : Part} (h : p.LaneLaws) (l : Fin 6) : (p.hardStop l).LaneLaws := by
  unfold Part.hardStop
  split
  · rename_i hp
    exact h.toStopped l (.inr rfl) (fun hs => by simp [hs, LaneState.isPlaying] at hp)
  · exact h

theorem Part.LaneLaws.softStop {p : Part} (h : p.LaneLaws) (l : Fin 6) (cause : StopCause) :
    (p.softStop l cause).LaneLaws := by
  have o := h.ok l
  have fin : (p.lane l).state = .running ∨ ((p.lane l).state = .starved ∧ (p.lane l).starve = .hold) →
      (p.updLane l (fun y => { y with state := .stopping, stopCause := cause })).LaneLaws := by
    intro hs
    refine h.setLane_loose l _ ?_ (by simp [LaneState.loose]) (fun _ => rfl) rfl ?_
    · rcases hs with hs | ⟨hs, _⟩ <;> simp [hs, LaneState.loose]
    · exact ⟨fun hc => ⟨.inr rfl, (o.play.1 hc).2⟩, fun _ => .inr (.inl rfl)⟩
  have fin' : ∀ hs,
      ((p.updLane l (fun y => { y with state := .stopping, stopCause := cause })).completeStop l).LaneLaws :=
    fun hs => (fin hs).completeStop l (by simp [LaneState.loose])
  unfold Part.softStop
  simp only
  split
  · rename_i hs
    split
    · exact fin' (.inl hs)
    · exact fin (.inl hs)
  · rename_i hs
    split
    · rename_i hh
      split
      · exact fin' (.inr ⟨hs, hh⟩)
      · exact fin (.inr ⟨hs, hh⟩)
    · exact h.stopNow l cause (by simp [hs])
  · rename_i hs; exact h.stopNow l cause (by simp [hs])
  · rename_i hs; exact h.stopNow l cause (by simp [hs])
  all_goals exact h

theorem Part.LaneLaws.halt {p : Part} (h : p.LaneLaws) (l : Fin 6) (i : Fin 4) (hi : (p.fault i).holds l) :
    (p.halt l i).LaneLaws := by
  unfold Part.halt Part.updLane
  refine h.takeOut l _ (.inr rfl) ⟨rfl, rfl, by simp⟩ ⟨?_, ?_⟩
  · have : ∀ j : Fin 4, (single j : InputSet) ≠ 0 := by decide
    exact ⟨fun _ => this i, fun _ => rfl⟩
  · intro j hj
    have hj' : inSet (single i : InputSet) j = true := hj
    rw [inSet_single, decide_eq_true_eq] at hj'
    exact hj' ▸ hi

theorem Part.LaneLaws.latchLane {p : Part} (h : p.LaneLaws) (i : Fin 4) (l : Fin 6) (hi : (p.fault i).holds l) :
    (p.latchLane i l).LaneLaws := by
  unfold Part.latchLane
  split
  all_goals first | exact h.halt l i hi | exact h | skip
  rename_i hs
  have o := h.ok l
  refine h.setLane l _ (fun _ => rfl) ?_
  constructor
  · rw [Part.setLane_lane_self]; exact o.wait
  · exact o.one
  · rw [Part.setLane_lane_self]; exact o.play
  · rw [Part.setLane_lane_self]
    have : withMember (p.lane l).haltSources i ≠ 0 := by
      intro h0
      have := congrArg (fun s => inSet s i) h0
      simp [inSet_withMember] at this
      simp [inSet] at this
    exact ⟨fun _ => this, fun _ => hs⟩
  · rw [Part.setLane_lane_self]
    intro j hj
    simp only [inSet_withMember, Bool.or_eq_true, decide_eq_true_eq] at hj
    rcases hj with hj | hj
    · exact o.srcs j hj
    · exact hj ▸ hi

end Sys2Proof.Machine
end

