-- ==== Sys2Proof/Laws/LaneLawsJoins.lean ====
section
/-! SUPPORT. The lane laws are kept by arrivals, by the processing of segments, by releases, and so by whole joins. -/

namespace Sys2Proof.Machine

/-- The lane a task goes on with. -/
def Task.lane? : Task → Option (Fin 6)
  | .begin l => some l
  | .head l => some l
  | .pattern l => some l
  | .released l => some l
  | .release _ _ _ => none

/-- The lane of a task is as the task needs it. -/
def Task.Fits (t : Task) (lane : Fin 6 → Lane) : Prop :=
  match t with
  | .begin l => (lane l).state.loose ∧ (lane l).call = none ∧ (lane l).playsHeld = false
  | .head l => (lane l).state = .running ∧ (lane l).call = none ∧ (lane l).playsHeld = false
  | .released l => (lane l).state = .running ∧ (lane l).call = none ∧ (lane l).playsHeld = false
  | .pattern l => (lane l).state = .running ∧ (lane l).playsHeld = false
  | .release _ _ _ => True

theorem Task.Fits.congr {t : Task} {f g : Fin 6 → Lane} (h : t.Fits f) (hl : ∀ l, t.lane? = some l → g l = f l) :
    t.Fits g := by
  cases t <;> simp only [Task.Fits, Task.lane?, Option.some.injEq, forall_eq'] at h hl ⊢ <;>
    (rw [hl]; exact h)

theorem Task.Fits.not_waiting {t : Task} {f : Fin 6 → Lane} (h : t.Fits f) {l : Fin 6} (hl : t.lane? = some l) :
    (f l).state ≠ .waiting := by
  cases t <;> simp only [Task.Fits, Task.lane?, Option.some.injEq, reduceCtorEq] at h hl <;> subst hl
  · exact h.1.1
  · simp [h.1]
  · simp [h.1]
  · simp [h.1]

/-- A list of tasks that can be done: each fits, and no lane has two. -/
structure TasksFit (lane : Fin 6 → Lane) (ts : List Task) : Prop where
  fits : ∀ t ∈ ts, t.Fits lane
  once : (ts.filterMap Task.lane?).Nodup

/-- What one lane's task leaves. -/
structure LaneStep (l : Fin 6) (p : Part) (r : Part × List Task) : Prop where
  laws : r.1.LaneLaws
  others : ∀ m, m ≠ l → r.1.lane m = p.lane m
  fits : ∀ t ∈ r.2, t.Fits r.1.lane
  own : r.2.filterMap Task.lane? = [] ∨ r.2.filterMap Task.lane? = [l]

theorem LaneStep.done {l : Fin 6} {p q : Part} (h : q.LaneLaws) (ho : ∀ m, m ≠ l → q.lane m = p.lane m) :
    LaneStep l p (q, []) := ⟨h, ho, by simp, .inl rfl⟩

theorem LaneStep.next {l : Fin 6} {p q : Part} {t : Task} (h : q.LaneLaws) (ho : ∀ m, m ≠ l → q.lane m = p.lane m)
    (ht : t.Fits q.lane) (hl : t.lane? = some l) : LaneStep l p (q, [t]) :=
  ⟨h, ho, by simpa using ht, .inr (by simp [hl])⟩

theorem Part.LaneLaws.startTimed {p : Part} (h : p.LaneLaws) (l : Fin 6) (body : SegmentBody)
    (hh : (p.lane l).playsHeld = false) :
    (p.startTimed l body).LaneLaws ∧ ∀ m, m ≠ l → (p.startTimed l body).lane m = p.lane m := by
  obtain ⟨x, he, hx⟩ := p.startTimed_set l body hh
  rw [he]
  exact ⟨h.setLane_same l x hx, fun m hm => Part.setLane_lane_of_ne _ _ hm⟩

theorem Lane.idle_playsHeld (x : Lane) : x.idle.playsHeld = false := rfl

theorem Part.LaneLaws.enterStarved {p : Part} (h : p.LaneLaws) (l : Fin 6) (hs : (p.lane l).state = .running)
    (hc : (p.lane l).call = none) :
    (p.enterStarved l).LaneLaws ∧ ∀ m, m ≠ l → (p.enterStarved l).lane m = p.lane m := by
  have h1 : ∀ b, (p.updLane l (fun x => { x.idle with state := .starved, starve := b })).LaneLaws := by
    intro b
    refine h.setLane_loose l _ (by simp [hs, LaneState.loose]) (by simp [LaneState.loose]) (fun k => ?_) rfl ?_
    · simp [Lane.calls, Lane.idle, hc]
    · exact ⟨fun hn => absurd rfl hn, fun hn => by simp [Lane.playsHeld, Lane.idle] at hn⟩
  unfold Part.enterStarved
  simp only
  split
  · rename_i hb
    refine ⟨((h1 _).beginHeld l (by simp) (by simpa using hb)).notify _, fun m hm => ?_⟩
    obtain ⟨x, he, _⟩ := (p.updLane l (fun x =>
      { x.idle with state := .starved, starve := (p.lane l).starveBehaviour })).beginHeld_set l
    rw [Part.notify_lane, he, Part.setLane_lane_of_ne _ _ hm, Part.updLane_lane_of_ne _ _ hm]
  · exact ⟨(h1 _).notify _, fun m hm => by rw [Part.notify_lane, Part.updLane_lane_of_ne _ _ hm]⟩

theorem Part.LaneLaws.arrive {p : Part} (h : p.LaneLaws) (l : Fin 6) (b : Fin 4)
    (hs : (p.lane l).state = .running) (hc : (p.lane l).call = none) : LaneStep l p (p.arrive l b) := by
  have o := h.ok l
  have hno : ∀ c, p.waitsAt l c = false := fun c =>
    Bool.eq_false_iff.mpr (fun hb => by simp [o.wait.mpr ⟨c, hb⟩] at hs)
  have hw : ∀ (y : Lane) (t : Option Tick) (m : Fin 6) (c : Fin 4), ((p.setLane l y).setBarrier b
      { p.barrier b with arrived := withMember (p.barrier b).arrived l, counter := t }).waitsAt m c =
      (p.waitsAt m c || (decide (m = l) && decide (c = b))) := by
    intro y t m c
    by_cases hcb : c = b
    · subst hcb
      simp [Part.waitsAt, Part.setBarrier_barrier_self, inSet_withMember]
    · simp [Part.waitsAt, Part.setBarrier_barrier_of_ne _ _ hcb, hcb]
  have laws : (p.arrive l b).1.LaneLaws := by
    unfold Part.arrive Part.updLane
    simp only
    refine h.of_lane l (fun m hm => ?_) (fun m hm c => ?_) (fun _ _ _ => id) ?_ (fun k => ?_) (fun k => (h.use k).2)
    · rw [Part.setBarrier_lane, Part.setLane_lane_of_ne _ _ hm]
    · rw [hw]; simp [hm]
    · constructor
      · rw [Part.setBarrier_lane, Part.setLane_lane_self]
        refine ⟨fun _ => ⟨b, ?_⟩, fun _ => rfl⟩
        rw [hw]; simp
      · intro c c' h1 h2
        rw [hw] at h1 h2
        simp only [hno, Bool.false_or, decide_true, Bool.true_and, decide_eq_true_eq] at h1 h2
        rw [h1, h2]
      · rw [Part.setBarrier_lane, Part.setLane_lane_self]
        exact ⟨fun hn => absurd rfl hn, fun hn => by simp [Lane.playsHeld, Lane.idle] at hn⟩
      · rw [Part.setBarrier_lane, Part.setLane_lane_self]
        simp [Lane.idle, h.no_sources l (by simp [hs])]
      · rw [Part.setBarrier_lane, Part.setLane_lane_self]
        intro i hi
        simp [Lane.idle, h.no_sources l (by simp [hs]), inSet] at hi
    · rw [Part.setBarrier_lane, Part.setLane_lane_self]
      simp [Lane.calls, Lane.idle, hc]
  refine ⟨laws, fun m hm => ?_, fun t ht => ?_, .inl ?_⟩
  · simp [Part.arrive, Part.updLane, Part.setLane_lane_of_ne _ _ hm]
  · unfold Part.arrive at ht
    simp only at ht
    split at ht
    · simp only [List.mem_singleton] at ht; subst ht; trivial
    · simp at ht
  · unfold Part.arrive
    simp only
    split <;> rfl

theorem Part.LaneLaws.processHead {p : Part} (h : p.LaneLaws) (l : Fin 6) (hs : (p.lane l).state = .running)
    (hc : (p.lane l).call = none) (hh : (p.lane l).playsHeld = false) : LaneStep l p (p.processHead l) := by
  have o := h.ok l
  have goOn : ∀ n out, LaneStep l p (((p.notify n).retireHead l out), [.head l]) := fun n out =>
    .next ((h.notify n).retireHead l out) (fun m _ => by simp)
      (by simp only [Task.Fits, Part.retireHead_lane, Part.notify_lane]; exact ⟨hs, hc, hh⟩) rfl
  unfold Part.processHead
  split
  · have := h.enterStarved l hs hc
    exact .done this.1 this.2
  · rename_i g _
    split
    · have := h.startTimed l g.body hh; exact .done this.1 this.2
    · have := h.startTimed l g.body hh; exact .done this.1 this.2
    · split
      · exact h.arrive l _ hs hc
      · exact goOn _ _
    · rename_i k plays _
      split
      · rename_i hready
        unfold Part.updLane
        refine .next (h.of_lane l (fun m hm => ?_) (fun _ _ _ => rfl) (fun _ _ _ => id) ?_ (fun j => ?_) (fun j => ?_))
          (fun m hm => ?_) ?_ rfl
        · simp [Part.setLane_lane_of_ne _ _ hm]
        · constructor
          · rw [Part.setLane_lane_self]; exact o.wait
          · exact o.one
          · rw [Part.setLane_lane_self]
            exact ⟨fun _ => ⟨.inl hs, hh⟩, fun _ => .inl hs⟩
          · rw [Part.setLane_lane_self]; exact o.halt
          · rw [Part.setLane_lane_self]; exact o.srcs
        · rw [Part.setLane_pattern, Part.setLane_lane_self]
          by_cases hj : j = k
          · subst hj; simp [Part.raiseUse, Lane.calls, hc]
          · simp [Part.raiseUse, Part.setPattern_pattern_of_ne _ _ hj, Lane.calls, hc, Ne.symm hj]
        · rw [Part.setLane_pattern]
          by_cases hj : j = k
          · subst hj; simp [Part.raiseUse, hready]
          · simp only [Part.raiseUse, Part.setPattern_pattern_of_ne _ _ hj]; exact (h.use j).2
        · simp [Part.setLane_lane_of_ne _ _ hm]
        · simp only [Task.Fits, Part.setLane_lane_self, Part.raiseUse_lane]; exact ⟨hs, hh⟩
      · exact goOn _ _
    · exact goOn _ _

theorem Part.LaneLaws.completeCall {p : Part} (h : p.LaneLaws) (l : Fin 6) (c : CallPosition)
    (hc : (p.lane l).call = some c) : (p.completeCall l c.pattern).LaneLaws := by
  have o := h.ok l
  unfold Part.completeCall
  have key : ((p.updLane l (fun x => { x with call := none })).lowerUse c.pattern).LaneLaws := ?_
  exact key.retireHead l _
  refine h.of_lane l (fun m hm => ?_) (fun _ _ _ => rfl) (fun _ _ _ => id) ?_ (fun j => ?_) (fun j => ?_)
  · simp [Part.updLane, Part.setLane_lane_of_ne _ _ hm]
  · constructor
    · rw [Part.lowerUse_lane, Part.updLane_lane_self]; exact o.wait
    · exact o.one
    · rw [Part.lowerUse_lane, Part.updLane_lane_self]
      exact ⟨fun hn => absurd rfl hn, o.play.2⟩
    · rw [Part.lowerUse_lane, Part.updLane_lane_self]; exact o.halt
    · rw [Part.lowerUse_lane, Part.updLane_lane_self]; exact o.srcs
  · rw [Part.lowerUse_lane, Part.updLane_lane_self]
    by_cases hj : j = c.pattern
    · subst hj
      have hpos : (p.lane l).calls c.pattern = true := by simp [Lane.calls, hc]
      have hge : 0 < allLanes.countP (fun m => (p.lane m).calls c.pattern) :=
        List.countP_pos_iff.mpr ⟨l, mem_allLanes l, hpos⟩
      have := (h.use c.pattern).1
      simp only [Part.lowerUse, Part.setPattern_pattern_self, Part.updLane_pattern, hpos, Bool.toNat_true]
      simp only [Lane.calls, Bool.toNat_false]
      omega
    · simp [Part.lowerUse, Part.setPattern_pattern_of_ne _ _ hj, Lane.calls, hc, Ne.symm hj]
  · by_cases hj : j = c.pattern
    · subst hj
      simp only [Part.lowerUse, Part.setPattern_pattern_self, Part.updLane_pattern]
      intro hp
      exact (h.use _).2 (by omega)
    · simp only [Part.lowerUse, Part.setPattern_pattern_of_ne _ _ hj, Part.updLane_pattern]; exact (h.use j).2

/-- The call position moved on within its pattern. -/
theorem Part.LaneLaws.moveCall {p : Part} (h : p.LaneLaws) (l : Fin 6) (c d : CallPosition)
    (hc : (p.lane l).call = some c) (hd : d.pattern = c.pattern) :
    (p.updLane l (fun x => { x with call := some d })).LaneLaws := by
  refine h.setLane_same l _ ⟨rfl, fun k => ?_, ?_, rfl, rfl, rfl⟩
  · simp [Lane.calls, hc, hd]
  · simp [hc]

theorem Part.LaneLaws.processPattern {p : Part} (h : p.LaneLaws) (l : Fin 6) (hs : (p.lane l).state = .running)
    (hh : (p.lane l).playsHeld = false) : LaneStep l p (p.processPattern l) := by
  have moved : ∀ c d : CallPosition, (p.lane l).call = some c → d.pattern = c.pattern →
      LaneStep l p (p.updLane l (fun x => { x with call := some d }), [.pattern l]) := fun c d hc hd =>
    .next (h.moveCall l c d hc hd) (fun m hm => Part.updLane_lane_of_ne _ _ hm)
      (by simp only [Task.Fits, Part.updLane_lane_self]; exact ⟨hs, hh⟩) rfl
  unfold Part.processPattern
  split
  · exact .done h (fun _ _ => rfl)
  · rename_i c hc
    split
    · split
      · rename_i g _
        simp only
        split
        · have := h.startTimed l g.body hh; exact .done this.1 this.2
        · have := h.startTimed l g.body hh; exact .done this.1 this.2
        · have m := moved c { c with index := c.index + 1 } hc rfl
          refine .next ((m.laws.notify _).reportTag _ _ _ _) (fun j hj => ?_) ?_ rfl
          · rw [Part.reportTag_eq]; exact m.others j hj
          · simp only [Task.Fits]
            rw [Part.reportTag_eq]
            exact (m.fits (.pattern l) (by simp))
        · exact moved c _ hc rfl
        · exact moved c _ hc rfl
      · exact moved c _ hc rfl
    · split
      · exact moved c _ hc rfl
      · refine .next (h.completeCall l c hc) (fun m hm => ?_) ?_ rfl
        · simp [Part.completeCall, Part.updLane, Part.setLane_lane_of_ne _ _ hm]
        · simp only [Task.Fits, Part.completeCall, Part.retireHead_lane, Part.lowerUse_lane, Part.updLane_lane_self]
          exact ⟨hs, trivial, hh⟩

/-- One lane's task. -/
theorem Task.run_lane {t : Task} {p : Part} {l : Fin 6} (h : p.LaneLaws) (hl : t.lane? = some l) (ht : t.Fits p.lane) :
    LaneStep l p (t.run p) := by
  cases t <;> simp only [Task.lane?, Option.some.injEq, reduceCtorEq] at hl <;> subst hl <;> simp only [Task.Fits] at ht
  · rename_i l
    refine .next (h.setLane_loose l _ ht.1 (by simp [LaneState.loose]) (fun _ => rfl) rfl ?_)
      (fun m hm => Part.updLane_lane_of_ne _ _ hm) ?_ rfl
    · exact ⟨fun hn => absurd ht.2.1 hn, fun _ => .inl rfl⟩
    · simp only [Task.Fits, Part.updLane_lane_self]; exact ⟨trivial, ht.2.1, ht.2.2⟩
  · exact h.processHead _ ht.1 ht.2.1 ht.2.2
  · exact h.processPattern _ ht.1 ht.2
  · rename_i l
    exact .next (h.retireHead l _) (fun m _ => Part.retireHead_lane _ _ _ _)
      (by simp only [Task.Fits, Part.retireHead_lane]; exact ht) rfl

theorem forLanes_setRunning (s : LaneSet) (p : Part) :
    (∀ l, (forLanes s (fun l q => q.updLane l (fun x => { x with state := .running })) p).lane l =
      if inSet s l then { p.lane l with state := .running } else p.lane l) ∧
    (forLanes s (fun l q => q.updLane l (fun x => { x with state := .running })) p).barrier = p.barrier ∧
    (forLanes s (fun l q => q.updLane l (fun x => { x with state := .running })) p).pattern = p.pattern ∧
    (forLanes s (fun l q => q.updLane l (fun x => { x with state := .running })) p).fault = p.fault := by
  have key : ∀ (ls : List (Fin 6)) (q : Part),
      (∀ l, (ls.foldl (fun q l => q.updLane l (fun x => { x with state := .running })) q).lane l =
        if l ∈ ls then { q.lane l with state := .running } else q.lane l) ∧
      (ls.foldl (fun q l => q.updLane l (fun x => { x with state := .running })) q).barrier = q.barrier ∧
      (ls.foldl (fun q l => q.updLane l (fun x => { x with state := .running })) q).pattern = q.pattern ∧
      (ls.foldl (fun q l => q.updLane l (fun x => { x with state := .running })) q).fault = q.fault := by
    intro ls
    induction ls with
    | nil => intro q; simp
    | cons a rest ih =>
      intro q
      obtain ⟨i1, i2, i3, i4⟩ := ih (q.updLane a (fun x => { x with state := .running }))
      refine ⟨fun l => ?_, i2, i3, i4⟩
      rw [List.foldl_cons, i1]
      by_cases hl : l = a
      · subst hl; simp
      · simp [hl, Part.updLane_lane_of_ne _ _ hl]
  obtain ⟨k1, k2⟩ := key (lanesOf s) p
  refine ⟨fun l => ?_, k2⟩
  have := k1 l
  simp only [mem_lanesOf] at this
  exact this

/-- A release. -/
theorem Task.run_release {p : Part} (h : p.LaneLaws) (b : Fin 4) (cause : ReleaseCause) (lanes : LaneSet) :
    let r := (Task.release b cause lanes).run p
    r.1.LaneLaws ∧ (∀ m, (p.lane m).state ≠ .waiting → r.1.lane m = p.lane m) ∧ (∀ t ∈ r.2, t.Fits r.1.lane) ∧
      ∃ ls : List (Fin 6), r.2.filterMap Task.lane? = ls ∧ ls.Nodup ∧ ∀ l ∈ ls, (p.lane l).state = .waiting := by
  intro r
  generalize hg : lanes &&& (p.barrier b).arrived = gone
  have hsub : ∀ l, inSet gone l = true → p.waitsAt l b = true := by
    intro l hl
    rw [← hg, inSet_and, Bool.and_eq_true] at hl
    exact hl.2
  have hwait : ∀ l, inSet gone l = true → (p.lane l).state = .waiting := fun l hl =>
    (h.ok l).wait.mpr ⟨b, hsub l hl⟩
  have hr1 : r.1 = forLanes gone (fun l q => q.updLane l (fun x => { x with state := .running }))
        ((p.notify (.barrierReleased b cause gone)).setBarrier b ((p.barrier b).letGo gone p.now)) := by
    simp only [r, Task.run, hg]
  have hr2 : r.2 = (lanesOf gone).map Task.released := by simp only [r, Task.run, hg]
  obtain ⟨f1, f2, f3, f4⟩ := forLanes_setRunning gone
    ((p.notify (.barrierReleased b cause gone)).setBarrier b ((p.barrier b).letGo gone p.now))
  simp only [← hr1, Part.setBarrier_lane, Part.notify_lane] at f1 f2 f3 f4
  have f3' : r.1.pattern = p.pattern := f3
  have f4' : r.1.fault = p.fault := f4
  have hw : ∀ m c, r.1.waitsAt m c = (p.waitsAt m c && !(inSet gone m)) := by
    intro m c
    simp only [Part.waitsAt, f2]
    by_cases hc : c = b
    · subst hc
      simp [Part.setBarrier_barrier_self, Barrier.letGo, inSet_and, inSet_not]
    · rw [Part.setBarrier_barrier_of_ne _ _ hc, Part.notify_barrier]
      by_cases hm : inSet gone m = true
      · have hb := hsub m hm
        have : p.waitsAt m c = false := Bool.eq_false_iff.mpr (fun h' => hc ((h.ok m).one c b h' hb))
        simp only [Part.waitsAt] at this
        simp [this]
      · simp [hm]
  refine ⟨(Part.laneLaws_iff _).mpr ⟨fun m => ?_, fun k => ?_⟩, fun m hm => ?_, fun t ht => ?_, lanesOf gone, ?_,
    lanesOf_nodup _, fun l hl => hwait l ((mem_lanesOf _ _).mp hl)⟩
  · have o := h.ok m
    by_cases hm : inSet gone m = true
    · have hs := hwait m hm
      have hlane : r.1.lane m = { p.lane m with state := .running } := by rw [f1, if_pos hm]
      have hcall := o.play.call_none (by simp [hs])
      have hheld : (p.lane m).playsHeld = false := by
        cases hp : (p.lane m).playsHeld with
        | false => rfl
        | true => rcases o.play.2 hp with h' | h' | h' <;> simp [hs] at h'
      constructor
      · rw [hlane]
        simp only [hw, hm, Bool.not_true, Bool.and_false, Bool.false_eq_true, exists_false, reduceCtorEq]
      · intro c c' hc; simp [hw, hm] at hc
      · rw [hlane]; exact ⟨fun hn => absurd hcall hn, fun _ => .inl rfl⟩
      · rw [hlane]
        have h0 := h.no_sources m (by simp [hs])
        simp [h0]
      · rw [hlane, f4']; exact o.srcs
    · refine o.congr (by rw [f1, if_neg hm]) (fun c => by simp [hw, hm]) (fun i hi => by rw [f4']; exact hi)
  · rw [f3']
    refine ⟨?_, (h.use k).2⟩
    rw [(h.use k).1]
    congr 1
    funext m
    rw [f1]
    split <;> rfl
  · rw [f1, if_neg]
    exact fun hi => hm (hwait m hi)
  · rw [hr2, List.mem_map] at ht
    obtain ⟨l, hl, rfl⟩ := ht
    have hi := (mem_lanesOf _ _).mp hl
    have hs := hwait l hi
    have o := h.ok l
    simp only [Task.Fits, f1, if_pos hi]
    refine ⟨trivial, o.play.call_none (by simp [hs]), ?_⟩
    cases hp : (p.lane l).playsHeld with
    | false => exact hp
    | true => rcases o.play.2 hp with h' | h' | h' <;> simp [hs] at h'
  · rw [hr2]
    generalize lanesOf gone = ls
    induction ls with
    | nil => rfl
    | cons a rest ih => simp [Task.lane?, ih]

/-- Tasks that fit keep the laws. -/
theorem Part.LaneLaws.runTasks (n : Nat) : ∀ {p : Part} {ts : List Task}, p.LaneLaws → TasksFit p.lane ts →
    (Machine.runTasks n ts p).LaneLaws := by
  induction n with
  | zero => exact fun h _ => h
  | succ n ih =>
    intro p ts h hf
    cases ts with
    | nil => exact h
    | cons t rest =>
      rw [runTasks_cons]
      have ht := hf.fits t (by simp)
      have hrest : ∀ u ∈ rest, u.Fits p.lane := fun u hu => hf.fits u (by simp [hu])
      cases hl : t.lane? with
      | some l =>
        have st := Task.run_lane h hl ht
        have hnd := hf.once
        rw [List.filterMap_cons_some hl, List.nodup_cons] at hnd
        refine ih st.laws ⟨fun u hu => ?_, ?_⟩
        · rcases List.mem_append.mp hu with hu | hu
          · exact st.fits u hu
          · refine (hrest u hu).congr (fun m hm => st.others m ?_)
            intro hml
            subst hml
            exact hnd.1 (List.mem_filterMap.mpr ⟨u, hu, hm⟩)
        · rw [List.filterMap_append]
          rcases st.own with ho | ho <;> rw [ho]
          · simpa using hnd.2
          · simpa using hnd
      | none =>
        cases t <;> simp only [Task.lane?, reduceCtorEq] at hl
        rename_i b cause lanes
        obtain ⟨r1, r2, r3, ls, r4, r5, r6⟩ := Task.run_release h b cause lanes
        have hnd := hf.once
        rw [List.filterMap_cons_none rfl] at hnd
        refine ih r1 ⟨fun u hu => ?_, ?_⟩
        · rcases List.mem_append.mp hu with hu | hu
          · exact r3 u hu
          · exact (hrest u hu).congr (fun m hm => r2 m ((hrest u hu).not_waiting hm))
        · rw [List.filterMap_append, r4, List.nodup_append]
          refine ⟨r5, hnd, fun a ha c hc hac => ?_⟩
          subst hac
          obtain ⟨u, hu, hm⟩ := List.mem_filterMap.mp hc
          exact (hrest u hu).not_waiting hm (r6 a ha)

theorem Part.LaneLaws.perform {p : Part} {ts : List Task} (h : p.LaneLaws) (hf : TasksFit p.lane ts) :
    (p.perform ts).LaneLaws := h.runTasks _ hf

end Sys2Proof.Machine
end

