-- ==== Sys2Proof/Laws/LaneLawsSteps.lean ====
section
/-! SUPPORT. The lane laws are kept by what every request and every event does. -/

namespace Sys2Proof.Machine
namespace Part.LaneLaws

variable {p : Part}

theorem eqs {q : Part} (h : p.LaneLaws) (hl : q.lanes = p.lanes) (hb : q.barriers = p.barriers)
    (hp : q.patterns = p.patterns) (hf : q.faults = p.faults) : q.LaneLaws := h.same (.of_eq hl hb hp hf)

theorem link (h : p.LaneLaws) (k : Link) : { p with link := k }.LaneLaws := h.eqs rfl rfl rfl rfl

/-- A barrier's settings. -/
theorem setBarrier (h : p.LaneLaws) (b : Fin 4) (x : Barrier) (hx : x.arrived = (p.barrier b).arrived) :
    (p.setBarrier b x).LaneLaws := by
  refine h.same ⟨fun _ => rfl, fun c => ?_, fun _ => rfl, fun _ _ => id⟩
  by_cases hc : c = b
  · subst hc; rw [Part.setBarrier_barrier_self, hx]
  · rw [Part.setBarrier_barrier_of_ne _ _ hc]

/-- A fault input that holds the lanes it held. -/
theorem setFault (h : p.LaneLaws) (i : Fin 4) (x : FaultInput) (hx : ∀ l, (p.fault i).holds l → x.holds l) :
    (p.setFault i x).LaneLaws := by
  refine h.same ⟨fun _ => rfl, fun _ => rfl, fun _ => rfl, fun j l hj => ?_⟩
  by_cases hc : j = i
  · subst hc; rw [Part.setFault_fault_self]; exact hx l hj
  · rw [Part.setFault_fault_of_ne _ _ hc]; exact hj

/-- A pattern that keeps its use count, and its state while it is in use. -/
theorem setPattern (h : p.LaneLaws) (k : Fin 8) (x : Pattern) (hx : x.useCount = (p.pattern k).useCount)
    (hs : 0 < x.useCount → x.state = .ready) : (p.setPattern k x).LaneLaws := by
  refine h.of_lane 0 (fun _ _ => rfl) (fun _ _ _ => rfl) (fun _ _ _ => id) ?_ (fun j => ?_) (fun j => ?_)
  · exact (h.ok 0).congr rfl (fun _ => rfl) (fun _ => id)
  · by_cases hj : j = k
    · subst hj; simp [hx]
    · simp [Part.setPattern_pattern_of_ne _ _ hj]
  · by_cases hj : j = k
    · subst hj; simpa using hs
    · simp only [Part.setPattern_pattern_of_ne _ _ hj]; exact (h.use j).2

theorem not_in_use (h : p.LaneLaws) {k : Fin 8} (hs : (p.pattern k).state ≠ .ready) : (p.pattern k).useCount = 0 :=
  Nat.eq_zero_of_not_pos fun hp => hs ((h.use k).2 hp)

theorem emptyRegion (h : p.LaneLaws) (r : Fin 16) : (p.emptyRegion r).LaneLaws := h.eqs rfl rfl rfl rfl

theorem setRegion (h : p.LaneLaws) (r : Fin 16) (x : Region) : (p.setRegion r x).LaneLaws := h.eqs rfl rfl rfl rfl

/-! ## Requests -/

theorem doGetLinkStats (h : p.LaneLaws) (a : Byte) : (Machine.doGetLinkStats a p).1.LaneLaws := by
  unfold Machine.doGetLinkStats; split <;> exact h

theorem doSetLinkTiming (h : p.LaneLaws) (a b : Byte) : (Machine.doSetLinkTiming a b p).1.LaneLaws := by
  unfold Machine.doSetLinkTiming
  split
  · exact h
  · split
    · exact h
    · exact h.link _

theorem doSetTimebase (h : p.LaneLaws) (a : Byte) : (Machine.doSetTimebase a p).1.LaneLaws := by
  unfold Machine.doSetTimebase
  split
  · exact h
  · split
    · exact h
    · exact h.eqs rfl rfl rfl rfl

theorem idle_state (h : p.LaneLaws) {l : Fin 6} (hr : (p.lane l).state ≠ .running) (hs : (p.lane l).state ≠ .stopping)
    (hv : (p.lane l).state ≠ .starved) : (p.lane l).call = none ∧ (p.lane l).playsHeld = false := by
  have o := (h.ok l).play
  refine ⟨o.call_none (by simp [hr, hs]), ?_⟩
  cases hp : (p.lane l).playsHeld with
  | false => rfl
  | true => rcases o.2 hp with h' | h' | h' <;> simp_all

theorem quiet (h : p.LaneLaws) {l : Fin 6} {st : LaneState} (hs : (p.lane l).state = st)
    (hn : st ≠ .running ∧ st ≠ .stopping ∧ st ≠ .starved) :
    (p.lane l).call = none ∧ (p.lane l).playsHeld = false :=
  h.idle_state (hs ▸ hn.1) (hs ▸ hn.2.1) (hs ▸ hn.2.2)

theorem doSetPair (h : p.LaneLaws) (a b c d e f g k : Byte) : (Machine.doSetPair a b c d e f g k p).1.LaneLaws := by
  unfold Machine.doSetPair
  split
  all_goals first | exact h | skip
  rename_i kk mode _ _ _ _ _ _ _ _ _ _
  unfold configurePair
  simp only
  split
  · exact h
  · split
    · exact h
    · rename_i ho
      have h' : ∀ x, (p.setPair kk x).LaneLaws := fun x => h.eqs rfl rfl rfl rfl
      have ho' : oddLaneAllows (p.pair kk).mode mode (p.lane (oddLane kk)).state = true := by simpa using ho
      have hst : (p.lane (oddLane kk)).state = .unbound ∨ (p.lane (oddLane kk)).state = .merged ∨
          (p.lane (oddLane kk)).state = .stopped := by
        revert ho'
        generalize (p.lane (oddLane kk)).state = st
        cases (p.pair kk).mode <;> cases mode <;> cases st <;> simp [oddLaneAllows]
      have hi := h.idle_state (l := oddLane kk) (by rcases hst with h | h | h <;> simp [h])
        (by rcases hst with h | h | h <;> simp [h]) (by rcases hst with h | h | h <;> simp [h])
      refine (h' _).setLane_loose _ _ ?_ ?_ (fun _ => rfl) rfl ?_
      · rcases hst with h | h | h <;> simp [h, LaneState.loose]
      · cases (p.pair kk).mode <;> cases mode <;> simp only [oddLaneAfter] <;>
          rcases hst with h | h | h <;> simp [h, LaneState.loose]
      · simp only [Part.setPair_lane]
        refine ⟨fun hc => absurd hi.1 hc, fun hc => ?_⟩
        have hc' : (p.lane (oddLane kk)).playsHeld = true := hc
        simp [hi.2] at hc'

theorem doDefineRegion (h : p.LaneLaws) (a : Byte) (b c : Nat) : (Machine.doDefineRegion a b c p).1.LaneLaws := by
  unfold Machine.doDefineRegion
  split
  · exact h
  · split
    · exact h
    · split
      · exact h
      · split
        · exact h
        · split
          · exact h
          · exact h.setRegion _ _

theorem doDeleteRegion (h : p.LaneLaws) (a : Byte) : (Machine.doDeleteRegion a p).1.LaneLaws := by
  unfold Machine.doDeleteRegion
  split
  · exact h
  · split
    · exact h
    · split
      · exact h
      · exact h.setRegion _ _

theorem doBindRegion (h : p.LaneLaws) (a b c : Byte) : (Machine.doBindRegion a b c p).1.LaneLaws := by
  unfold Machine.doBindRegion
  split
  · exact h
  · split
    · exact h
    · simp only
      split
      · exact h
      · split
        · exact h
        · split
          · split
            · exact h
            · split
              · exact h
              · rename_i hs
                simp only [ne_eq, Decidable.not_not] at hs
                have hi := h.quiet hs (by simp)
                refine Part.LaneLaws.setLane_loose (h.setRegion _ _) _ _ ?_ ?_ (fun k => ?_) ?_ ?_
                · simp [hs, LaneState.loose]
                · simp [Lane.bind, Lane.toStopped, LaneState.loose]
                · simp [Lane.calls, Lane.bind, Lane.toStopped, Lane.idle, hi.1]
                · have := h.no_sources _ (hs ▸ (by simp : LaneState.unbound ≠ LaneState.halted))
                  simp [Lane.bind, this]
                · exact ⟨fun hn => absurd rfl hn, fun hn => by
                    simp [Lane.bind, Lane.toStopped, Lane.idle, Lane.playsHeld] at hn⟩
          · split
            · exact h
            · rename_i k _ hs
              simp only [ne_eq, Decidable.not_not] at hs
              exact (h.setRegion _ _).setPattern k _ (h.not_in_use (by simp [hs])).symm (fun h0 => absurd h0 (by simp))

theorem doUnbindRegion (h : p.LaneLaws) (a : Byte) : (Machine.doUnbindRegion a p).1.LaneLaws := by
  unfold Machine.doUnbindRegion
  split
  · exact h
  · split
    · exact h
    · split
      · exact h
      · split
        · exact h
        · rename_i hs
          simp only [ne_eq, Decidable.not_not] at hs
          have hi := h.quiet hs (by simp)
          refine Part.LaneLaws.setLane_loose ((h.emptyRegion _).setRegion _ _) _ _ ?_ ?_ (fun k => rfl) rfl ?_
          · simp [hs, LaneState.loose]
          · simp [LaneState.loose]
          · refine ⟨fun hn => absurd hi.1 hn, fun hn => ?_⟩
            have hn' := hi.2.symm.trans hn
            cases hn'
      · split
        · exact h
        · exact ((h.emptyRegion _).setRegion _ _).setPattern _ _ rfl (fun h0 => absurd h0 (by assumption))

theorem doClearRegion (h : p.LaneLaws) (a : Byte) : (Machine.doClearRegion a p).1.LaneLaws := by
  unfold Machine.doClearRegion
  split
  · exact h
  · split
    · exact h
    · split
      · exact h
      · split
        · exact h.emptyRegion _
        · exact h
      · split
        · exact h
        · exact (h.emptyRegion _).setPattern _ _ rfl (fun h0 => absurd h0 (by assumption))

theorem doPatternBegin (h : p.LaneLaws) (a : Byte) : (Machine.doPatternBegin a p).1.LaneLaws := by
  unfold Machine.doPatternBegin
  split
  · exact h
  · split
    · exact h
    · split
      · exact h
      · split
        · exact h
        · exact (h.emptyRegion _).setPattern _ _ rfl (fun h0 => absurd h0 (by assumption))

theorem doPatternDiscard (h : p.LaneLaws) (a : Byte) : (Machine.doPatternDiscard a p).1.LaneLaws := by
  unfold Machine.doPatternDiscard
  split
  · exact h
  · split
    · exact h
    · split
      · exact h
      · split
        · exact h
        · exact (h.emptyRegion _).setPattern _ _ rfl (fun h0 => absurd h0 (by assumption))

theorem doPatternEnd (h : p.LaneLaws) (a : Byte) : (Machine.doPatternEnd a p).1.LaneLaws := by
  unfold Machine.doPatternEnd
  split
  · exact h
  · split
    · exact h
    · split
      · exact h.setPattern _ _ rfl (fun _ => rfl)
      · exact h

theorem doPatternData (h : p.LaneLaws) (a : Byte) (raws : List RawSegment) :
    (Machine.doPatternData a raws p).1.LaneLaws := by
  unfold Machine.doPatternData
  split
  · exact h
  · split
    · exact h
    · split
      · exact h
      · split
        · exact h
        · simp only
          split
          · exact h
          · exact h.eqs rfl rfl rfl rfl

theorem one_task {t : Task} (h : t.Fits p.lane) : TasksFit p.lane [t] := by
  refine ⟨by simpa using h, ?_⟩
  rw [List.filterMap_cons]
  cases t.lane? <;> simp

theorem resumeStarved (h : p.LaneLaws) (l : Fin 6) : (p.resumeStarved l).LaneLaws := by
  have o := (h.ok l).play
  unfold Part.resumeStarved
  split
  · rename_i hs
    have hc := o.call_none (by simp [hs])
    split
    · rename_i hsafe
      refine h.perform (one_task ⟨by simp [hs, LaneState.loose], hc, ?_⟩)
      cases hp : (p.lane l).playsHeld with
      | false => rfl
      | true => rcases o.2 hp with h' | h' | h' <;> simp_all
    · rename_i hhold
      have go : ∀ q : Part, q.LaneLaws → (q.lane l).state = .starved → (q.lane l).call = none →
          (q.updLane l (fun x => { x with state := .running })).LaneLaws := fun q hq hqs hqc =>
        hq.setLane_loose l _ (by simp [hqs, LaneState.loose]) (by simp [LaneState.loose]) (fun _ => rfl) rfl
          ⟨fun hn => absurd hqc hn, fun _ => .inl rfl⟩
      split
      · obtain ⟨x, he, h1, h2, _⟩ := p.beginHeld_set l
        refine go _ (h.beginHeld l hs hhold) ?_ ?_
        · rw [he, Part.setLane_lane_self, h1, hs]
        · rw [he, Part.setLane_lane_self, h2, hc]
      · exact go p h hs hc
  · exact h

theorem doAppend (h : p.LaneLaws) (a : Byte) (raws : List RawSegment) : (Machine.doAppend a raws p).1.LaneLaws := by
  unfold Machine.doAppend
  split
  · exact h
  · split
    · exact h
    · split
      · exact h
      · split
        · exact h
        · split
          · exact h
          · simp only
            split
            · exact h
            · refine Part.LaneLaws.resumeStarved ?_ _
              exact h.eqs rfl rfl rfl rfl

/-- A fold over distinct lanes that changes each lane alone. -/
theorem fold_fresh (f : Lane → Lane) (ls : List (Fin 6)) (q : Part) :
    (∀ l, (ls.foldl (fun r m => r.updLane m f) q).lane l = if l ∈ ls ∧ ls.Nodup then f (q.lane l) else
      (ls.foldl (fun r m => r.updLane m f) q).lane l) ∧
    (∀ l, l ∉ ls → (ls.foldl (fun r m => r.updLane m f) q).lane l = q.lane l) := by
  induction ls generalizing q with
  | nil => simp
  | cons a rest ih =>
    obtain ⟨i1, i2⟩ := ih (q.updLane a f)
    rw [List.foldl_cons]
    refine ⟨fun l => ?_, fun l hl => ?_⟩
    · split
      · rename_i hh
        obtain ⟨hm, hn⟩ := hh
        rw [List.nodup_cons] at hn
        rcases List.mem_cons.mp hm with hm | hm
        · subst hm
          rw [i2 l hn.1, Part.updLane_lane_self]
        · rw [i1 l, if_pos ⟨hm, hn.2⟩, Part.updLane_lane_of_ne]
          rintro rfl; exact hn.1 (by assumption)
      · rfl
    · rw [i2 l (fun h => hl (List.mem_cons_of_mem _ h)), Part.updLane_lane_of_ne]
      intro e; subst e; exact hl (List.mem_cons_self ..)

theorem startRefusal_none {l : Fin 6} (h : p.startRefusal l = none) : (p.lane l).state = .stopped := by
  unfold Part.startRefusal at h
  split at h
  · cases h
  · split at h
    · cases h
    · rename_i hs
      simpa using hs

theorem foldl_keeps {α : Type} (P : Part → Prop) (f : Part → α → Part) (as : List α)
    (hf : ∀ a ∈ as, ∀ q, P q → P (f q a)) : ∀ q, P q → P (as.foldl f q) := by
  induction as with
  | nil => exact fun q h => h
  | cons a rest ih =>
    exact fun q h => ih (fun b hb => hf b (List.mem_cons_of_mem _ hb)) _ (hf a (List.mem_cons_self ..) q h)

theorem doStart (h : p.LaneLaws) (a b : Byte) : (Machine.doStart a b p).1.LaneLaws := by
  unfold Machine.doStart
  split
  · exact h
  · exact h
  · rename_i s src _ _
    split
    · exact h
    · rename_i hn
      have hst : ∀ l, inSet s l = true → (p.lane l).state = .stopped := fun l hl =>
        startRefusal_none (List.findSome?_eq_none_iff.mp hn l ((mem_lanesOf s l).mpr hl))
      unfold Part.startLanes
      split
      · have hfr : ∀ q : Part, q.LaneLaws → ∀ l, (q.updLane l Lane.freshStart).LaneLaws := fun q hq l =>
          hq.setLane_same l _ ⟨rfl, fun _ => rfl, Iff.rfl, rfl, rfl, rfl⟩
        have hlaws : (forLanes s (fun l r => r.updLane l Lane.freshStart) p).LaneLaws :=
          foldl_keeps Part.LaneLaws _ _ (fun l _ q hq => hfr q hq l) p h
        refine hlaws.perform ⟨fun t ht => ?_, ?_⟩
        · obtain ⟨l, hl, rfl⟩ := List.mem_map.mp ht
          have hs := hst l ((mem_lanesOf s l).mp hl)
          have hlane : (forLanes s (fun l r => r.updLane l Lane.freshStart) p).lane l = (p.lane l).freshStart := by
            have := (fold_fresh Lane.freshStart (lanesOf s) p).1 l
            rw [if_pos ⟨hl, lanesOf_nodup s⟩] at this
            exact this
          have hi := h.idle_state (l := l) (by simp [hs]) (by simp [hs]) (by simp [hs])
          simp only [Task.Fits, hlane]
          refine ⟨by simp [Lane.freshStart, hs, LaneState.loose], hi.1, hi.2⟩
        · have : ∀ ls : List (Fin 6), (ls.map Task.begin).filterMap Task.lane? = ls := by
            intro ls; induction ls with
            | nil => rfl
            | cons a r ih => simp [Task.lane?, ih]
          rw [this]; exact lanesOf_nodup s
      · rename_i i _
        -- each lane of the set is STOPPED or already ARMED
        have key : ∀ ls : List (Fin 6), (∀ l ∈ ls, inSet s l = true) → ∀ q : Part, q.LaneLaws →
            (∀ l, inSet s l = true → (q.lane l).state = .stopped ∨ (q.lane l).state = .armed) →
            (ls.foldl (fun r l => r.updLane l (fun x => x.arm i)) q).LaneLaws := by
          intro ls
          induction ls with
          | nil => exact fun _ q hq _ => hq
          | cons m rest ih =>
            intro hls q hq hqs
            have hm := hqs m (hls m (List.mem_cons_self ..))
            refine ih (fun l hl => hls l (List.mem_cons_of_mem _ hl)) _ ?_ ?_
            · have hi := hq.idle_state (l := m) (by rcases hm with h | h <;> simp [h])
                (by rcases hm with h | h <;> simp [h]) (by rcases hm with h | h <;> simp [h])
              refine hq.setLane_loose m _ (by rcases hm with h | h <;> simp [h, LaneState.loose])
                (by simp [Lane.arm, LaneState.loose]) (fun _ => rfl) rfl ⟨fun hc => absurd hi.1 hc, fun hc => ?_⟩
              have := hi.2.symm.trans hc
              cases this
            · intro l hl
              by_cases hlm : l = m
              · subst hlm; rw [Part.updLane_lane_self]; exact .inr rfl
              · rw [Part.updLane_lane_of_ne _ _ hlm]; exact hqs l hl
        exact key (lanesOf s) (fun l hl => (mem_lanesOf s l).mp hl) p h (fun l hl => .inl (hst l hl))

theorem doStop (h : p.LaneLaws) (a b : Byte) : (Machine.doStop a b p).1.LaneLaws := by
  unfold Machine.doStop
  split
  · exact h
  · exact h
  · split
    · exact h
    · unfold Part.stopLanes
      split
      · exact foldl_keeps Part.LaneLaws _ _ (fun l _ _ hq => hq.softStop l _) p h
      · exact foldl_keeps Part.LaneLaws _ _ (fun l _ q hq => hq.hardStop l) p h

theorem doSetLane (h : p.LaneLaws) (a b : Byte) (c : Nat) (d : Byte) : (Machine.doSetLane a b c d p).1.LaneLaws := by
  unfold Machine.doSetLane
  split
  · exact h
  · exact h
  · split
    · exact h
    · split
      · exact h
      · split
        · exact h
        · exact h.setLane_same _ _ ⟨rfl, fun _ => rfl, Iff.rfl, rfl, rfl, rfl⟩

theorem doGetLane (h : p.LaneLaws) (a : Byte) : (Machine.doGetLane a p).1.LaneLaws := by
  unfold Machine.doGetLane; split <;> exact h

theorem doTrim (h : p.LaneLaws) (a b : Byte) (c d : Nat) : (Machine.doTrim a b c d p).1.LaneLaws := by
  unfold Machine.doTrim
  split
  · exact h
  · split
    · exact h
    · simp only
      split
      · exact h
      · split
        · exact h
        · split
          · exact h
          · split
            · exact h
            · exact h.setLane_same _ _ ⟨rfl, fun _ => rfl, Iff.rfl, rfl, rfl, rfl⟩

theorem doSetTrigger (h : p.LaneLaws) (a b c : Byte) : (Machine.doSetTrigger a b c p).1.LaneLaws := by
  unfold Machine.doSetTrigger
  split
  · exact h
  · exact h
  · exact h
  · exact h.eqs rfl rfl rfl rfl

theorem deliverEdge (h : p.LaneLaws) (i : Fin 4) (d : Direction) (b : Bool) : (p.deliverEdge i d b).LaneLaws := by
  have harm : ∀ l, l ∈ lanesOf (p.armedOn i) → (p.lane l).state = .armed := by
    intro l hl
    have hl' := (mem_lanesOf _ _).mp hl
    rw [Part.armedOn, inSet_laneSetOf, Bool.and_eq_true, decide_eq_true_eq] at hl'
    exact hl'.1
  have hf : TasksFit p.lane (p.consumerBarriers i ++ p.consumerLanes i) := by
    refine ⟨fun t ht => ?_, ?_⟩
    · rcases List.mem_append.mp ht with ht | ht
      · obtain ⟨b, _, rfl⟩ := List.mem_map.mp ht; trivial
      · obtain ⟨l, hl, rfl⟩ := List.mem_map.mp ht
        have hs := harm l hl
        have hi := h.idle_state (l := l) (by simp [hs]) (by simp [hs]) (by simp [hs])
        exact ⟨by simp [hs, LaneState.loose], hi.1, hi.2⟩
    · have h1 : (p.consumerBarriers i).filterMap Task.lane? = [] := by
        rw [List.filterMap_eq_nil_iff]
        intro t ht
        obtain ⟨b, _, rfl⟩ := List.mem_map.mp ht; rfl
      have h2 : ∀ ls : List (Fin 6), (ls.map Task.begin).filterMap Task.lane? = ls := by
        intro ls; induction ls with
        | nil => rfl
        | cons a r ih => simp [Task.lane?, ih]
      rw [List.filterMap_append, h1, Part.consumerLanes, h2]
      exact lanesOf_nodup _
  unfold Part.deliverEdge
  simp only
  split
  · exact (h.notify _).perform hf
  · exact h.perform hf

theorem doFireTrigger (h : p.LaneLaws) (a : Byte) : (Machine.doFireTrigger a p).1.LaneLaws := by
  unfold Machine.doFireTrigger
  split
  · exact h
  · exact h.deliverEdge _ _ _

theorem doSetBarrier (h : p.LaneLaws) (a b c d : Byte) (e : Nat) (f : Byte) :
    (Machine.doSetBarrier a b c d e f p).1.LaneLaws := by
  unfold Machine.doSetBarrier
  split
  all_goals first | exact h | skip
  simp only
  split
  · exact h
  · exact h.setBarrier _ _ rfl

theorem releaseBarrier (h : p.LaneLaws) (b : Fin 4) (cause : ReleaseCause) : (p.releaseBarrier b cause).LaneLaws :=
  h.perform (one_task trivial)

theorem doReleaseBarrier (h : p.LaneLaws) (a : Byte) : (Machine.doReleaseBarrier a p).1.LaneLaws := by
  unfold Machine.doReleaseBarrier
  split
  · exact h
  · simp only
    split
    · exact h
    · exact h.releaseBarrier _ _

theorem doGetBarrier (h : p.LaneLaws) (a : Byte) : (Machine.doGetBarrier a p).1.LaneLaws := by
  unfold Machine.doGetBarrier; split <;> exact h

/-- The fault of an input in LATCH mode, being sticky, at the lanes of a set it maps. -/
theorem latchLanes (h : p.LaneLaws) (i : Fin 4) (s : LaneSet) (hs : ∀ l, inSet s l = true → (p.fault i).holds l) :
    (forLanes s (fun l r => r.latchLane i l) p).LaneLaws := by
  have key : ∀ ls : List (Fin 6), (∀ l ∈ ls, inSet s l = true) → ∀ q : Part, q.LaneLaws → q.fault i = p.fault i →
      (ls.foldl (fun r l => r.latchLane i l) q).LaneLaws := by
    intro ls
    induction ls with
    | nil => exact fun _ q hq _ => hq
    | cons m rest ih =>
      intro hls q hq hf
      refine ih (fun l hl => hls l (List.mem_cons_of_mem _ hl)) _ (hq.latchLane i m ?_) ?_
      · rw [hf]; exact hs m (hls m (List.mem_cons_self ..))
      · rw [← hf]
        have hhalt : (q.halt m i).fault i = q.fault i := by
          unfold Part.halt
          rw [Part.updLane_fault]
          have : ∀ r : Part, (r.endCurrent m).fault i = r.fault i := by
            intro r
            unfold Part.endCurrent
            simp only
            split
            · split
              · rw [Part.retireHead_eq]
                split
                · rw [Part.reportTag_eq]; rfl
                · rfl
              · rw [Part.retireHead_eq]; rfl
            · rfl
          rw [this, Part.leaveBarriers_eq]; rfl
        show (q.latchLane i m).fault i = q.fault i
        unfold Part.latchLane
        split <;> first | exact hhalt | rfl
  exact key (lanesOf s) (fun l hl => (mem_lanesOf s l).mp hl) p h rfl

/-- Settings or a qualification of an input, and the acts that follow. -/
theorem faultActs (h : p.LaneLaws) (i : Fin 4) : (p.faultActs i).LaneLaws := by
  have h1 : (p.recordFirstFault i).LaneLaws := by
    unfold Part.recordFirstFault
    split
    · exact h.eqs rfl rfl rfl rfl
    · exact h
  have hf1 : (p.recordFirstFault i).fault i = p.fault i := by
    unfold Part.recordFirstFault
    split <;> rfl
  have h2 : ((p.recordFirstFault i).setFault i { (p.recordFirstFault i).fault i with sticky := true }).LaneLaws :=
    h1.setFault i _ (fun l hl => ⟨hl.1, rfl, hl.2.2⟩)
  unfold Part.faultActs
  simp only
  split
  · exact h
  · have hsup : ∀ (q : Part) (l : Fin 6), q.LaneLaws → (q.suppressLane l).LaneLaws := fun q l hq =>
      hq.setLane_same l _ ⟨rfl, fun _ => rfl, Iff.rfl, rfl, rfl, rfl⟩
    exact foldl_keeps Part.LaneLaws _ _ (fun l _ q hq => hsup q l hq) _ (h2.notify _)
  · rename_i hm
    refine (h2.notify _).latchLanes i _ (fun l hl => ?_)
    rw [Part.notify_fault, Part.setFault_fault_self]
    refine ⟨by rw [hf1]; exact hm, rfl, ?_⟩
    rw [Part.effectiveMap, inSet_and, Bool.and_eq_true, Part.setFault_fault_self] at hl
    exact hl.1

theorem qualifyFault (h : p.LaneLaws) (i : Fin 4) : (p.qualifyFault i).LaneLaws := h.setFault i _ (fun _ hl => hl)

theorem doSetFault (h : p.LaneLaws) (a b c d e : Byte) : (Machine.doSetFault a b c d e p).1.LaneLaws := by
  unfold Machine.doSetFault
  split
  · exact h
  · exact h
  · split
    · exact h
    · split
      · exact h
      · exact h
      · unfold configureFault
        split
        · exact h
        · rename_i hs
          have h1 : ∀ x, (p.setFault _ x).LaneLaws := fun x => h.setFault _ x (fun l hl => absurd hl.2.1 hs)
          simp only
          split
          · exact Part.LaneLaws.faultActs (h1 _) _
          · exact h1 _

theorem clearFaults (h : p.LaneLaws) (s : InputSet) : (p.clearFaults s).LaneLaws := by
  -- the faults and lanes after
  have hfa : ∀ (is : List (Fin 4)) (q : Part),
      let r := is.foldl (fun r i => if inSet s i then r.setFault i { r.fault i with sticky := false } else r) q
      r.lane = q.lane ∧ r.barrier = q.barrier ∧ r.pattern = q.pattern ∧
      (∀ i, inSet s i = false → r.fault i = q.fault i) := by
    intro is
    induction is with
    | nil => intro q; exact ⟨rfl, rfl, rfl, fun _ _ => rfl⟩
    | cons a rest ih =>
      intro q
      simp only [List.foldl_cons]
      split
      · rename_i ha
        obtain ⟨i1, i2, i3, i4⟩ := ih (q.setFault a { q.fault a with sticky := false })
        refine ⟨i1, i2, i3, fun i hi => ?_⟩
        rw [i4 i hi, Part.setFault_fault_of_ne]
        intro e; subst e; simp [hi] at ha
      · exact ih q
  have hla : ∀ (ls : List (Fin 6)), ls.Nodup → ∀ (q : Part),
      let r := ls.foldl (fun r l => r.updLane l (fun x => x.clearSources s)) q
      (∀ l, r.lane l = if l ∈ ls then (q.lane l).clearSources s else q.lane l) ∧ r.barrier = q.barrier ∧
      r.pattern = q.pattern ∧ r.fault = q.fault := by
    intro ls
    induction ls with
    | nil => intro _ q; exact ⟨fun _ => by simp, rfl, rfl, rfl⟩
    | cons a rest ih =>
      intro hn q
      rw [List.nodup_cons] at hn
      simp only [List.foldl_cons]
      obtain ⟨i1, i2, i3, i4⟩ := ih hn.2 (q.updLane a (fun x => x.clearSources s))
      refine ⟨fun l => ?_, i2, i3, i4⟩
      rw [i1]
      by_cases hl : l = a
      · subst hl; simp [hn.1]
      · simp [hl, Part.updLane_lane_of_ne _ _ hl]
  unfold Part.clearFaults
  simp only
  generalize hq :
    allFour.foldl (fun r i => if inSet s i then r.setFault i { r.fault i with sticky := false } else r) p = q
  obtain ⟨a1, a2, a3, a4⟩ := hfa allFour p
  rw [hq] at a1 a2 a3 a4
  generalize hr : allLanes.foldl (fun r l => r.updLane l (fun x => x.clearSources s)) q = r
  obtain ⟨b1, b2, b3, b4⟩ := hla allLanes (by decide) q
  rw [hr] at b1 b2 b3 b4
  have hlane : ∀ l, r.lane l = (p.lane l).clearSources s := fun l => by rw [b1, if_pos (mem_allLanes l), a1]
  have hlaws : r.LaneLaws := by
    refine (Part.laneLaws_iff _).mpr ⟨fun l => ?_, fun k => ?_⟩
    · have o := h.ok l
      have hw : ∀ b, r.waitsAt l b = p.waitsAt l b := fun b => by simp only [Part.waitsAt, b2, a2]
      have hstate : (r.lane l).state = .waiting ↔ (p.lane l).state = .waiting := by
        rw [hlane]
        simp only [Lane.clearSources]
        split
        · rename_i hh
          simp only [Bool.and_eq_true, decide_eq_true_eq] at hh
          simp [hh.1]
        · rfl
      constructor
      · rw [hstate]; simpa only [hw] using o.wait
      · simpa only [hw] using o.one
      · rw [hlane]
        have op := o.play
        have hne : (p.lane l).state = .halted → (p.lane l).call = none ∧ (p.lane l).playsHeld = false :=
          fun hs => h.idle_state (by simp [hs]) (by simp [hs]) (by simp [hs])
        simp only [Lane.clearSources]
        split
        · rename_i hh
          simp only [Bool.and_eq_true, decide_eq_true_eq] at hh
          have := hne hh.1
          refine ⟨fun hc => absurd this.1 hc, fun hc => ?_⟩
          have := this.2.symm.trans hc
          cases this
        · exact op
      · rw [hlane]
        simp only [Lane.clearSources]
        by_cases hs : (p.lane l).state = .halted
        · by_cases h0 : (p.lane l).haltSources &&& ~~~s = 0
          · simp [hs]
          · simp [hs]
        · have := h.no_sources l hs
          simp [hs, this]
      · rw [hlane]
        intro i hi
        simp only [Lane.clearSources, inSet_and, inSet_not, Bool.and_eq_true, Bool.not_eq_true'] at hi
        rw [b4, a4 i hi.2]
        exact o.srcs i hi.1
    · rw [b3, a3]
      refine ⟨?_, (h.use k).2⟩
      rw [(h.use k).1]
      congr 1
      funext l
      rw [hlane]; rfl
  split
  · exact hlaws.eqs rfl rfl rfl rfl
  · exact hlaws

theorem doClearFault (h : p.LaneLaws) (a : Byte) : (Machine.doClearFault a p).1.LaneLaws := by
  unfold Machine.doClearFault
  split
  · exact h
  · split
    · exact h
    · exact h.clearFaults _

theorem runRequest (h : p.LaneLaws) (k : RequestKind) (payload : List Byte) :
    (Machine.runRequest k payload p).1.LaneLaws := by
  have none_ : ∀ (f : Part → Answered), (f p).1.LaneLaws → (withNone payload f p).1.LaneLaws := by
    intro f hf; unfold withNone; split <;> first | exact hf | exact h
  have one : ∀ (f : Byte → Part → Answered), (∀ a, (f a p).1.LaneLaws) → (withOne payload f p).1.LaneLaws := by
    intro f hf; unfold withOne; split <;> first | exact hf _ | exact h
  have two : ∀ (f : Byte → Byte → Part → Answered), (∀ a b, (f a b p).1.LaneLaws) →
      (withTwo payload f p).1.LaneLaws := by
    intro f hf; unfold withTwo; split <;> first | exact hf _ _ | exact h
  have three : ∀ (f : Byte → Byte → Byte → Part → Answered), (∀ a b c, (f a b c p).1.LaneLaws) →
      (withThree payload f p).1.LaneLaws := by
    intro f hf; unfold withThree; split <;> first | exact hf _ _ _ | exact h
  have segs : ∀ (f : Byte → List RawSegment → Part → Answered), (∀ a b, (f a b p).1.LaneLaws) →
      (withSegments payload f p).1.LaneLaws := by
    intro f hf; unfold withSegments
    split
    · exact h
    · split
      · split
        · exact hf _ _
        · exact h
      · exact h
  cases k with
  | sync => exact none_ _ (h.eqs rfl rfl rfl rfl)
  | reset => exact none_ _ (h.link _)
  | getStatus => exact none_ _ h
  | getLinkStats => exact one _ h.doGetLinkStats
  | setLinkTiming => exact two _ h.doSetLinkTiming
  | setTimebase => exact one _ h.doSetTimebase
  | setPair =>
    show (runSetPair payload p).1.LaneLaws
    unfold runSetPair; split <;> first | exact h.doSetPair _ _ _ _ _ _ _ _ | exact h
  | defineRegion =>
    show (runDefineRegion payload p).1.LaneLaws
    unfold runDefineRegion; split <;> first | exact h.doDefineRegion _ _ _ | exact h
  | deleteRegion => exact one _ h.doDeleteRegion
  | bindRegion => exact three _ h.doBindRegion
  | unbindRegion => exact one _ h.doUnbindRegion
  | clearRegion => exact one _ h.doClearRegion
  | getRegions => exact none_ _ h
  | append => exact segs _ h.doAppend
  | start => exact two _ h.doStart
  | stop => exact two _ h.doStop
  | setLane =>
    show (runSetLane payload p).1.LaneLaws
    unfold runSetLane; split <;> first | exact h.doSetLane _ _ _ _ | exact h
  | getLane => exact one _ h.doGetLane
  | trim =>
    show (runTrim payload p).1.LaneLaws
    unfold runTrim; split <;> first | exact h.doTrim _ _ _ _ | exact h
  | patternBegin => exact one _ h.doPatternBegin
  | patternData => exact segs _ h.doPatternData
  | patternEnd => exact one _ h.doPatternEnd
  | patternDiscard => exact one _ h.doPatternDiscard
  | getPatterns => exact none_ _ h
  | setTrigger => exact three _ h.doSetTrigger
  | fireTrigger => exact one _ h.doFireTrigger
  | getTriggers => exact none_ _ h
  | setBarrier =>
    show (runSetBarrier payload p).1.LaneLaws
    unfold runSetBarrier; split <;> first | exact h.doSetBarrier _ _ _ _ _ _ | exact h
  | releaseBarrier => exact one _ h.doReleaseBarrier
  | getBarrier => exact one _ h.doGetBarrier
  | setFault =>
    show (runSetFault payload p).1.LaneLaws
    unfold runSetFault; split <;> first | exact h.doSetFault _ _ _ _ _ | exact h
  | clearFault => exact one _ h.doClearFault
  | getFaults => exact none_ _ h

theorem dispatch (h : p.LaneLaws) : p.dispatch.LaneLaws := by
  unfold Part.dispatch
  split
  · exact h
  · split
    · exact h
    · rename_i f rest _
      have h' := h.link { p.link with buffer := rest }
      generalize { p with link := { p.link with buffer := rest } } = q at h'
      have hnew : (q.executeNew f).LaneLaws := by
        unfold Part.executeNew
        split
        · exact h'.link _
        · rename_i k _
          have hr := h'.runRequest k f.payload
          simp only
          split
          · exact hr.link _
          · exact hr.link _
      unfold Part.execute Part.executeSynced
      split
      · split
        · exact hnew
        · split
          · split <;> exact h'.link _
          · exact hnew
      · exact h'.link _

theorem arbitrate (h : p.LaneLaws) : p.arbitrate.LaneLaws := by
  unfold Part.arbitrate
  split
  · exact h
  · split
    · exact h.link _
    · unfold Part.beginNotify
      split
      · split
        · exact h.eqs rfl rfl rfl rfl
        · exact h
      · exact h

theorem settle (h : p.LaneLaws) : p.settle.LaneLaws :=
  Part.LaneLaws.eqs (h.dispatch.arbitrate.dispatch) rfl rfl rfl rfl

theorem event (h : p.LaneLaws) (f : Part → Part) (hf : (f p).LaneLaws) : (p.event f).LaneLaws := by
  unfold Part.event; split
  · exact hf.settle
  · exact h

theorem eventWhen (h : p.LaneLaws) (due : Bool) (f : Part → Part) (hf : due = true → (f p).LaneLaws) :
    (p.eventWhen due f).LaneLaws := by
  unfold Part.eventWhen; split
  · rename_i hd; exact h.event f (hf hd)
  · exact h

theorem bufferRequest (h : p.LaneLaws) (f : RequestFrame) : (p.bufferRequest f).LaneLaws := by
  unfold Part.bufferRequest; split <;> exact h.link _

theorem completeFrame (h : p.LaneLaws) : p.completeFrame.LaneLaws := by
  have hh : p.toHunting.LaneLaws := h.link _
  unfold Part.completeFrame
  split
  · split
    · simp only
      split
      · unfold Part.sortFrame
        split
        · exact hh.bufferRequest _
        · split
          · split
            · unfold Part.acknowledge
              split
              · exact hh.eqs rfl rfl rfl rfl
              · exact hh.link _
            · exact hh.link _
          · exact hh.link _
      · exact hh.link _
    · exact hh
  · exact h

theorem lengthEvent (h : p.LaneLaws) : p.lengthEvent.LaneLaws :=
  h.eventWhen _ _ (fun _ => Part.LaneLaws.link (p := p.toHunting) (h.link _) _)

theorem frameEvent (h : p.LaneLaws) : p.frameEvent.LaneLaws := h.eventWhen _ _ (fun _ => h.completeFrame)

theorem gapEvent (h : p.LaneLaws) : p.gapEvent.LaneLaws :=
  h.eventWhen _ _ (fun _ => Part.LaneLaws.link (p := p.toHunting) (h.link _) _)

theorem receiveByte (h : p.LaneLaws) (d : Byte) (b : Level) (i : Bool) : (p.receiveByte d b i).LaneLaws := by
  unfold Part.receiveByte
  split
  · refine Part.LaneLaws.link ?_ _
    have hr := h.lengthEvent.frameEvent
    unfold Part.takeByte
    split
    · split
      · exact hr.link _
      · exact hr
    · exact hr.link _
  · exact h

theorem join (h : p.LaneLaws) (l : Fin 6) (hs : (p.lane l).state = .running) : (p.join l).LaneLaws := by
  have hd := h.dropTrim l
  have sl := p.dropTrim_lane_law l
  have hs' : ((p.dropTrim l).lane l).state = .running := sl.1.trans hs
  have o := (hd.ok l).play
  unfold Part.join
  suffices hj : (p.joinTasks l).1.LaneLaws ∧ TasksFit (p.joinTasks l).1.lane (p.joinTasks l).2 by
    exact hj.1.perform hj.2
  have idle : ((p.dropTrim l).lane l).call = none → ((p.dropTrim l).updLane l Lane.idle).LaneLaws := by
    intro hc
    refine hd.setLane_loose l _ (by simp [hs', LaneState.loose]) (by simp [Lane.idle, hs', LaneState.loose])
      (fun k => ?_) rfl ⟨fun hn => absurd rfl hn, fun hn => by simp [Lane.playsHeld, Lane.idle] at hn⟩
    simp [Lane.calls, Lane.idle, hc]
  unfold Part.joinTasks
  simp only
  split
  · rename_i hheld
    have hc := o.call_none_of_held hheld
    refine ⟨idle hc, one_task ?_⟩
    simp only [Task.Fits, Part.updLane_lane_self]
    exact ⟨hs', rfl, rfl⟩
  · split
    · rename_i c hc
      have hq : ∀ q : Part, q.LaneLaws → q.lane l = (p.dropTrim l).lane l →
          (q.updLane l (fun y => { y.idle with call := some { c with index := c.index + 1, remaining := 0 } })).LaneLaws ∧
          TasksFit (q.updLane l (fun y =>
            { y.idle with call := some { c with index := c.index + 1, remaining := 0 } })).lane [.pattern l] := by
        intro q hq hql
        refine ⟨hq.setLane_loose l _ ?_ ?_ (fun k => ?_) rfl ⟨fun _ => ⟨.inl ?_, rfl⟩, fun hn => ?_⟩, one_task ?_⟩
        · simp [hql, hs', LaneState.loose]
        · simp [Lane.idle, hql, hs', LaneState.loose]
        · simp [Lane.calls, hql, hc]
        · simp [Lane.idle, hql, hs']
        · simp [Lane.playsHeld, Lane.idle] at hn
        · simp only [Task.Fits, Part.updLane_lane_self]
          exact ⟨by simp [Lane.idle, hql, hs'], rfl⟩
      split
      · exact hq _ (hd.reportTag _ _ _ _) (by rw [Part.reportTag_eq]; rfl)
      · exact hq _ hd rfl
    · rename_i hc
      refine ⟨(idle hc).retireHead _ _, one_task ?_⟩
      simp only [Task.Fits, Part.retireHead_lane, Part.updLane_lane_self]
      exact ⟨hs', rfl, rfl⟩

theorem stallChannel (h : p.LaneLaws) : p.stallChannel.LaneLaws :=
  foldl_keeps Part.LaneLaws _ _ (fun l _ _ hq => hq.softStop l _) _ (h.eqs rfl rfl rfl rfl)

theorem expire (h : p.LaneLaws) : p.expire.LaneLaws := by
  unfold Part.expire
  split
  · exact h.eqs rfl rfl rfl rfl
  · exact h.stallChannel

theorem timeOutBarrier (h : p.LaneLaws) (b : Fin 4) : (p.timeOutBarrier b).LaneLaws := by
  unfold Part.timeOutBarrier
  split
  · exact h.releaseBarrier _ _
  · exact foldl_keeps Part.LaneLaws _ _ (fun l _ q hq => (hq.hardStop l).notify _) _ (h.notify _)

theorem takeEdge (h : p.LaneLaws) (i : Fin 4) : (p.takeEdge i).LaneLaws := by
  unfold Part.takeEdge
  simp only
  have h' : ∀ x, (p.setTrigger i x).LaneLaws := fun x => h.eqs rfl rfl rfl rfl
  split
  · exact (h' _).deliverEdge _ _ _
  · exact h' _

theorem edgeEvent (h : p.LaneLaws) (i : Fin 4) : (p.edgeEvent i).LaneLaws := h.eventWhen _ _ (fun _ => h.takeEdge i)

theorem activeEvent (h : p.LaneLaws) (i : Fin 4) : (p.activeEvent i).LaneLaws :=
  h.eventWhen _ _ (fun _ => (h.qualifyFault i).faultActs i)

theorem inactiveEvent (h : p.LaneLaws) (i : Fin 4) : (p.inactiveEvent i).LaneLaws :=
  h.eventWhen _ _ (fun _ => h.qualifyFault i)

theorem boundaryEvent (h : p.LaneLaws) (l : Fin 6) : (p.boundaryEvent l).LaneLaws :=
  h.eventWhen _ _ (fun hd => h.boundary l (by
    simp only [Lane.boundaryDue, Bool.and_eq_true, Bool.not_eq_true'] at hd
    exact hd.1.2))

theorem joinEvent (h : p.LaneLaws) (l : Fin 6) : (p.joinEvent l).LaneLaws :=
  h.eventWhen _ _ (fun hd => h.join l (by
    simp only [Lane.joinDue, Bool.and_eq_true, decide_eq_true_eq] at hd
    exact hd.1.1))

theorem heldEvent (h : p.LaneLaws) (l : Fin 6) : (p.heldEvent l).LaneLaws := by
  unfold Part.heldEvent
  split
  · rename_i hd
    simp only [Lane.joinDue, Bool.and_eq_true, decide_eq_true_eq] at hd
    exact h.event _ (h.join l hd.2.1.1)
  · refine h.eventWhen _ _ (fun hd => ?_)
    simp only [Lane.heldDue, Bool.and_eq_true, decide_eq_true_eq] at hd
    exact h.beginHeld l hd.1.1 hd.1.2

theorem stopEvent (h : p.LaneLaws) (l : Fin 6) : (p.stopEvent l).LaneLaws :=
  h.eventWhen _ _ (fun hd => h.completeStop l (by
    simp only [Lane.stopDue, Bool.and_eq_true, decide_eq_true_eq] at hd
    simp [hd.1, LaneState.loose]))

theorem timeoutEvent (h : p.LaneLaws) (b : Fin 4) : (p.timeoutEvent b).LaneLaws :=
  h.eventWhen _ _ (fun _ => h.timeOutBarrier b)

theorem expiryEvent (h : p.LaneLaws) : p.expiryEvent.LaneLaws := h.eventWhen _ _ (fun _ => h.expire)

theorem activationEvent (h : p.LaneLaws) (o : Fin 6) : (p.activationEvent o).LaneLaws :=
  h.eventWhen _ _ (fun _ => h.eqs rfl rfl rfl rfl)

theorem acceptStart (h : p.LaneLaws) (s : StartBit) : (p.acceptStart s).LaneLaws := by
  unfold Part.acceptStart
  split
  · exact h
  · split
    · exact h.link _
    · exact h

theorem takeDue (h : p.LaneLaws) : p.takeDue.LaneLaws := by
  unfold Part.takeDue
  refine foldl_keeps Part.LaneLaws _ _ (fun o _ q hq => hq.activationEvent o) _ ?_
  refine Part.LaneLaws.gapEvent ?_
  refine Part.LaneLaws.expiryEvent ?_
  refine foldl_keeps Part.LaneLaws _ _ (fun b _ q hq => hq.timeoutEvent b) _ ?_
  refine foldl_keeps Part.LaneLaws _ _
    (fun l _ q hq => (((hq.boundaryEvent l).joinEvent l).heldEvent l).stopEvent l) _ ?_
  refine foldl_keeps Part.LaneLaws _ _ (fun i _ q hq => (hq.activeEvent i).inactiveEvent i) _ ?_
  refine foldl_keeps Part.LaneLaws _ _ (fun i _ q hq => hq.edgeEvent i) _ ?_
  exact h.lengthEvent.frameEvent

theorem nextTick (h : p.LaneLaws) (s : Pins) : (p.nextTick s).LaneLaws := by
  have hlane : ∀ l, (p.nextTick s).lane l = (p.lane l).advance := by
    intro l
    match l with
    | 0 => rfl
    | 1 => rfl
    | 2 => rfl
    | 3 => rfl
    | 4 => rfl
    | 5 => rfl
  have hfault : ∀ i l, (p.fault i).holds l → ((p.nextTick s).fault i).holds l := by
    have hts : ∀ (f : FaultInput) (v : Level) (l : Fin 6), f.holds l → (f.takeSample v).holds l := by
      intro f v l hf
      unfold FaultInput.takeSample
      split <;> exact hf
    intro i l hi
    match i with
    | 0 => exact hts _ _ l hi
    | 1 => exact hts _ _ l hi
    | 2 => exact hts _ _ l hi
    | 3 => exact hts _ _ l hi
  have hheld : ∀ x : Lane, x.advance.playsHeld = x.playsHeld := by
    intro x
    unfold Lane.advance Lane.playsHeld
    cases x.period <;> rfl
  refine (Part.laneLaws_iff _).mpr ⟨fun l => ?_, fun k => ?_⟩
  · have o := h.ok l
    constructor
    · rw [hlane]; exact o.wait
    · exact o.one
    · rw [hlane]
      unfold Lane.PlayLaw
      rw [hheld]; exact o.play
    · rw [hlane]; exact o.halt
    · rw [hlane]; exact fun i hi => hfault i l (o.srcs i hi)
  · refine ⟨?_, (h.use k).2⟩
    show (p.pattern k).useCount = _
    rw [(h.use k).1]
    congr 1
    funext l
    rw [hlane]; rfl

theorem atReset (cause straps first phase pin) : (Part.atReset cause straps first phase pin).LaneLaws := by
  have hl : ∀ l, (Part.atReset cause straps first phase pin).lane l = Lane.reset := by
    intro l; simp [Part.atReset, Part.lane]
  have hb : ∀ b, (Part.atReset cause straps first phase pin).barrier b = Barrier.reset := by
    intro b; simp [Part.atReset, Part.barrier]
  have hp : ∀ k, (Part.atReset cause straps first phase pin).pattern k = Pattern.reset := by
    intro b; simp [Part.atReset, Part.pattern]
  refine (Part.laneLaws_iff _).mpr ⟨fun l => ?_, fun k => ?_⟩
  · constructor
    · simp [hl, Part.waitsAt, hb, Lane.reset, Barrier.reset, inSet]
    · intro b b' h; simp [Part.waitsAt, hb, Barrier.reset, inSet] at h
    · rw [hl]; exact ⟨fun hn => absurd rfl hn, fun hn => by simp [Lane.playsHeld, Lane.reset] at hn⟩
    · simp [hl, Lane.reset]
    · intro i hi; simp [hl, Lane.reset, inSet] at hi
  · simp only [hp, hl]
    refine ⟨?_, fun h => by simp [Pattern.reset] at h⟩
    decide +revert

theorem finishFrame (h : p.LaneLaws) : p.finishFrame.LaneLaws := by
  unfold Part.finishFrame
  split
  · exact h
  · split
    · exact .atReset _ _ _ _ _
    · exact h.link _

theorem tick (h : p.LaneLaws) (s : Pins) (b : StartBit) : (p.tick s b).LaneLaws := by
  unfold Part.tick
  split
  · exact (((h.acceptStart b).takeDue).nextTick s).settle
  · unfold Part.resetTick
    split
    · exact h.eqs rfl rfl rfl rfl
    · exact h

end Part.LaneLaws
end Sys2Proof.Machine
end

