-- ==== Sys2Proof/Laws/PerInstr.lean ====
section
/-! SUPPORT. A statement for every command as syntax: the request frame that a well-formed request command brings fits
in a frame and carries the CRC of what precedes it (R188, R190). -/

namespace Sys2Proof.Laws.RequestFrames

/-- A well-formed request command brings a frame with a payload of at most 240 bytes whose CRC field is the CRC of its
LEN, TYPE, SEQ, CODE and PAYLOAD; an event brings none. -/
def Statement (i : Instr) : Prop :=
  i.wf = true → ∀ f, Machine.requestOf i = some f →
    f.payload.length ≤ maxPayload ∧
      f.crc = Machine.crc16 (Machine.frameBody Machine.typeRequest f.seq f.code f.payload)

/-- A command that brings this frame, with a payload that fits. -/
theorem of_frame {i : Instr} {seq code : Byte} {payload : List Byte}
    (hr : Machine.requestOf i = some (Machine.requestFrame seq code payload))
    (hl : i.wf = true → payload.length ≤ maxPayload) : Statement i := by
  intro hw f hf
  rw [hr] at hf
  have he := Option.some.inj hf
  rw [← he]
  exact ⟨hl hw, rfl⟩

/-- A command that brings no frame. -/
theorem of_event {i : Instr} (hr : Machine.requestOf i = none) : Statement i := by
  intro _ f hf
  rw [hr] at hf
  cases hf

/-- A payload of a header byte and segments of twelve bytes. -/
theorem segments_length (header : Byte) (segments : List RawSegment) :
    (Machine.segmentsPayload header segments).length = 1 + 12 * segments.length := by
  have h : ∀ s : List RawSegment, (s.flatMap Vector.toList).length = 12 * s.length := by
    intro s
    induction s with
    | nil => rfl
    | cons v rest ih =>
      simp only [List.flatMap_cons, List.length_append, Vector.length_toList, ih, List.length_cons]
      omega
  simp [Machine.segmentsPayload, h, Nat.add_comm]

theorem sync (seq : Byte) : Statement (.sync seq) := of_frame rfl (fun _ => Nat.le_of_ble_eq_true rfl)

theorem reset (seq : Byte) : Statement (.reset seq) := of_frame rfl (fun _ => Nat.le_of_ble_eq_true rfl)

theorem getStatus (seq : Byte) : Statement (.getStatus seq) := of_frame rfl (fun _ => Nat.le_of_ble_eq_true rfl)

theorem getLinkStats (seq clear : Byte) : Statement (.getLinkStats seq clear) :=
  of_frame rfl (fun _ => Nat.le_of_ble_eq_true rfl)

theorem setLinkTiming (seq interval limit : Byte) : Statement (.setLinkTiming seq interval limit) :=
  of_frame rfl (fun _ => Nat.le_of_ble_eq_true rfl)

theorem setTimebase (seq prescale : Byte) : Statement (.setTimebase seq prescale) :=
  of_frame rfl (fun _ => Nat.le_of_ble_eq_true rfl)

theorem setPair (seq pair mode deadA deadB topPolarity bottomPolarity topSafe bottomSafe : Byte) :
    Statement (.setPair seq pair mode deadA deadB topPolarity bottomPolarity topSafe bottomSafe) :=
  of_frame rfl (fun _ => Nat.le_of_ble_eq_true rfl)

theorem defineRegion (seq region : Byte) (start size : Word16) : Statement (.defineRegion seq region start size) :=
  of_frame rfl (fun _ => Nat.le_of_ble_eq_true rfl)

theorem deleteRegion (seq region : Byte) : Statement (.deleteRegion seq region) :=
  of_frame rfl (fun _ => Nat.le_of_ble_eq_true rfl)

theorem bindRegion (seq region kind target : Byte) : Statement (.bindRegion seq region kind target) :=
  of_frame rfl (fun _ => Nat.le_of_ble_eq_true rfl)

theorem unbindRegion (seq region : Byte) : Statement (.unbindRegion seq region) :=
  of_frame rfl (fun _ => Nat.le_of_ble_eq_true rfl)

theorem clearRegion (seq region : Byte) : Statement (.clearRegion seq region) :=
  of_frame rfl (fun _ => Nat.le_of_ble_eq_true rfl)

theorem getRegions (seq : Byte) : Statement (.getRegions seq) := of_frame rfl (fun _ => Nat.le_of_ble_eq_true rfl)

theorem append (seq lane : Byte) (segments : List RawSegment) : Statement (.append seq lane segments) :=
  of_frame rfl (fun h => by
    rw [segments_length]
    simpa [Instr.wf, segmentsFit] using h)

theorem start (seq lanes source : Byte) : Statement (.start seq lanes source) :=
  of_frame rfl (fun _ => Nat.le_of_ble_eq_true rfl)

theorem stop (seq lanes kind : Byte) : Statement (.stop seq lanes kind) :=
  of_frame rfl (fun _ => Nat.le_of_ble_eq_true rfl)

theorem setLane (seq lane policy : Byte) (mark : Word16) (linkLoss : Byte) :
    Statement (.setLane seq lane policy mark linkLoss) :=
  of_frame rfl (fun _ => Nat.le_of_ble_eq_true rfl)

theorem getLane (seq lane : Byte) : Statement (.getLane seq lane) :=
  of_frame rfl (fun _ => Nat.le_of_ble_eq_true rfl)

theorem trim (seq lane altFlag : Byte) (onTime alternate : Word16) :
    Statement (.trim seq lane altFlag onTime alternate) :=
  of_frame rfl (fun _ => Nat.le_of_ble_eq_true rfl)

theorem patternBegin (seq pattern : Byte) : Statement (.patternBegin seq pattern) :=
  of_frame rfl (fun _ => Nat.le_of_ble_eq_true rfl)

theorem patternData (seq pattern : Byte) (segments : List RawSegment) :
    Statement (.patternData seq pattern segments) :=
  of_frame rfl (fun h => by
    rw [segments_length]
    simpa [Instr.wf, segmentsFit] using h)

theorem patternEnd (seq pattern : Byte) : Statement (.patternEnd seq pattern) :=
  of_frame rfl (fun _ => Nat.le_of_ble_eq_true rfl)

theorem patternDiscard (seq pattern : Byte) : Statement (.patternDiscard seq pattern) :=
  of_frame rfl (fun _ => Nat.le_of_ble_eq_true rfl)

theorem getPatterns (seq : Byte) : Statement (.getPatterns seq) := of_frame rfl (fun _ => Nat.le_of_ble_eq_true rfl)

theorem setTrigger (seq input edges capture : Byte) : Statement (.setTrigger seq input edges capture) :=
  of_frame rfl (fun _ => Nat.le_of_ble_eq_true rfl)

theorem fireTrigger (seq input : Byte) : Statement (.fireTrigger seq input) :=
  of_frame rfl (fun _ => Nat.le_of_ble_eq_true rfl)

theorem getTriggers (seq : Byte) : Statement (.getTriggers seq) := of_frame rfl (fun _ => Nat.le_of_ble_eq_true rfl)

theorem setBarrier (seq barrier members mode trigger : Byte) (timeout : Word16) (action : Byte) :
    Statement (.setBarrier seq barrier members mode trigger timeout action) :=
  of_frame rfl (fun _ => Nat.le_of_ble_eq_true rfl)

theorem releaseBarrier (seq barrier : Byte) : Statement (.releaseBarrier seq barrier) :=
  of_frame rfl (fun _ => Nat.le_of_ble_eq_true rfl)

theorem getBarrier (seq barrier : Byte) : Statement (.getBarrier seq barrier) :=
  of_frame rfl (fun _ => Nat.le_of_ble_eq_true rfl)

theorem setFault (seq input activeLevel filter mode lanes : Byte) :
    Statement (.setFault seq input activeLevel filter mode lanes) :=
  of_frame rfl (fun _ => Nat.le_of_ble_eq_true rfl)

theorem clearFault (seq inputs : Byte) : Statement (.clearFault seq inputs) :=
  of_frame rfl (fun _ => Nat.le_of_ble_eq_true rfl)

theorem getFaults (seq : Byte) : Statement (.getFaults seq) := of_frame rfl (fun _ => Nat.le_of_ble_eq_true rfl)

theorem unknownRequest (seq code : Byte) (payload : List Byte) : Statement (.unknownRequest seq code payload) :=
  of_frame rfl (fun h => by
    simp only [Instr.wf, Bool.and_eq_true, decide_eq_true_eq] at h
    exact h.2)

theorem frameComplete : Statement .frameComplete := of_event rfl

theorem lengthError : Statement .lengthError := of_event rfl

theorem gapTimeout : Statement .gapTimeout := of_event rfl

theorem frameSent : Statement .frameSent := of_event rfl

theorem powerOnReset : Statement .powerOnReset := of_event rfl

theorem pinReset : Statement .pinReset := of_event rfl

theorem resetEnd (straps : Straps) (first : Pins) : Statement (.resetEnd straps first) := of_event rfl

theorem triggerEdge (input : Fin 4) : Statement (.triggerEdge input) := of_event rfl

theorem faultQualifyActive (input : Fin 4) : Statement (.faultQualifyActive input) := of_event rfl

theorem faultQualifyInactive (input : Fin 4) : Statement (.faultQualifyInactive input) := of_event rfl

theorem periodBoundary (lane : Fin 6) : Statement (.periodBoundary lane) := of_event rfl

theorem join (lane : Fin 6) : Statement (.join lane) := of_event rfl

theorem heldBoundary (lane : Fin 6) : Statement (.heldBoundary lane) := of_event rfl

theorem softStopComplete (lane : Fin 6) : Statement (.softStopComplete lane) := of_event rfl

theorem barrierTimeout (barrier : Fin 4) : Statement (.barrierTimeout barrier) := of_event rfl

theorem retransmitTimeout : Statement .retransmitTimeout := of_event rfl

theorem byteReceived (data : Byte) (stopBit : Level) (idleBefore : Bool) :
    Statement (.byteReceived data stopBit idleBefore) :=
  of_event rfl

theorem tick (inputs : TickInputs) : Statement (.tick inputs) := of_event rfl

theorem delayedActivation (line : Fin 6) : Statement (.delayedActivation line) := of_event rfl

end Sys2Proof.Laws.RequestFrames
end

