-- ==== Sys2Proof/Laws/Play.lean ====
section
/-! SUPPORT. What the operations that end or continue a lane's play do, each said once: the end of what a lane plays,
its departure from the barriers, a barrier's release, and the tasks that let a lane go on. -/

namespace Sys2Proof.Machine

/-! ## The pattern in play -/

/-- Some segment of a run of a pattern satisfies a test. -/
theorem Part.patternSegments_any (p : Part) (k : Fin 8) (f : Segment → Bool) (n : Nat) : ∀ i,
    (p.patternSegments k i n).any f = true ↔
      ∃ j g, i ≤ j ∧ j < i + n ∧ p.patternSegment k j = some g ∧ f g = true := by
  induction n with
  | zero =>
    intro i
    simp [Part.patternSegments]
    omega
  | succ n ih =>
    intro i
    rw [Part.patternSegments, List.any_append, Bool.or_eq_true, ih]
    constructor
    · rintro (h | ⟨j, g, a, b, c, d⟩)
      · obtain ⟨g, hg, hf⟩ := List.any_eq_true.mp h
        exact ⟨i, g, by omega, by omega, by simpa using hg, hf⟩
      · exact ⟨j, g, by omega, by omega, c, d⟩
    · rintro ⟨j, g, a, b, c, d⟩
      by_cases hj : j = i
      · subst hj
        left
        rw [c]
        simpa using d
      · exact .inr ⟨j, g, by omega, by omega, c, d⟩

/-- The last timed segment of a pattern: none after it is timed (R76). -/
theorem Part.lastTimed_iff (p : Part) (k : Fin 8) (i : Nat) : p.lastTimed k i = true ↔
    ∀ j g, i < j → j < p.loadedLength k → p.patternSegment k j = some g → g.isTimed = false := by
  simp only [Part.lastTimed, Bool.not_eq_true', Bool.eq_false_iff, ne_eq, Part.patternSegments_any]
  constructor
  · intro hn j g a b e
    rcases hg : g.isTimed with _ | _
    · simp
    · exact absurd ⟨j, g, by omega, by omega, e, hg⟩ hn
  · rintro hn ⟨j, g, a, b, e, f⟩
    exact absurd f (by simpa using hn j g (by omega) (by omega) e)

/-! ## The end of what a lane plays -/

/-- A lane that plays no segment of its own has nothing to retire. -/
theorem Part.endCurrent_none {p : Part} {l : Fin 6} (h : (p.lane l).hasCurrent = false) : p.endCurrent l = p := by
  simp [Part.endCurrent, h]

/-- A lane in a period plays a segment of its own unless the period is held. -/
theorem Lane.hasCurrent_playing {x : Lane} {d : Period} (hs : x.state = .running ∨ x.state = .stopping)
    (hd : x.period = some d) : x.hasCurrent = !d.held := by
  rcases hs with hs | hs <;> simp [Lane.hasCurrent, hs, hd, Lane.playsHeld]

/-- Its segment ends COMPLETED where its last period is over, and ABANDONED otherwise (R65, R79). -/
theorem Lane.outcome_playing {x : Lane} {d : Period} (hd : x.period = some d) (hh : d.held = false) :
    x.outcome = if d.shape.length ≤ d.phase ∧ x.repeatsLeft ≤ 1 then .completed else .abandoned := by
  simp [Lane.outcome, Lane.playedOut, Lane.periodOver, hd, Period.over, Lane.playsHeld, hh]

/-- The end of a queue segment in play. -/
theorem Part.endCurrent_queue {p : Part} {l : Fin 6} {d : Period}
    (hs : (p.lane l).state = .running ∨ (p.lane l).state = .stopping) (hd : (p.lane l).period = some d)
    (hh : d.held = false) (hc : (p.lane l).call = none) : p.endCurrent l = p.retireHead l
      (if d.shape.length ≤ d.phase ∧ (p.lane l).remaining ≤ 1 then .completed else .abandoned) := by
  have h1 := Lane.hasCurrent_playing hs hd
  have h2 := Lane.outcome_playing hd hh
  have h3 : (p.lane l).repeatsLeft = (p.lane l).remaining := by simp [Lane.repeatsLeft, hc]
  simp only [Part.endCurrent, h1, hh, hc, h2, h3]
  rfl

/-- The end of a CALL in play (R111). -/
theorem Part.endCurrent_call {p : Part} {l : Fin 6} {d : Period} {c : CallPosition} {h : Segment}
    (hs : (p.lane l).state = .running ∨ (p.lane l).state = .stopping) (hd : (p.lane l).period = some d)
    (hh : d.held = false) (hc : (p.lane l).call = some c) (hg : p.patternSegment c.pattern c.index = some h) :
    p.endCurrent l =
      ((p.reportTag l h.tag (if d.shape.length ≤ d.phase ∧ c.remaining ≤ 1 then .completed else .abandoned)
        (some c.pattern)).lowerUse c.pattern).retireHead l
          (if (d.shape.length ≤ d.phase ∧ c.remaining ≤ 1) ∧ c.plays ≤ 1 ∧ p.lastTimed c.pattern c.index = true then
            .completed else .abandoned) := by
  have h1 := Lane.hasCurrent_playing hs hd
  have h2 := Lane.outcome_playing hd hh
  have h3 : (p.lane l).repeatsLeft = c.remaining := by simp [Lane.repeatsLeft, hc]
  have h4 : (p.lane l).playedOut = decide (d.shape.length ≤ d.phase ∧ c.remaining ≤ 1) := by
    simp [Lane.playedOut, Lane.periodOver, hd, Period.over, Lane.playsHeld, hh, h3]
  simp only [Part.endCurrent, h1, hh, hc, h2, h3, hg, h4, Bool.not_false, if_true]
  congr 1
  simp [Bool.and_assoc, and_assoc]

/-! ## Barriers -/

/-- A lane's departure, written out (R131). -/
theorem Part.leaveBarriers_map (p : Part) (l : Fin 6) : p.leaveBarriers l =
    { p with barriers := p.barriers.map (fun (b : Barrier) =>
        if inSet b.arrived l = true then
          { b with arrived := b.arrived &&& ~~~single l,
                   counter := if b.arrived &&& ~~~single l = 0 then none else b.counter }
        else b) } := by
  have h1 : ∀ (q : Part) (b c : Fin 4), (q.leaveBarrier l b).barrier c = if c = b then
      (if inSet (q.barrier b).arrived l = true then
        { q.barrier b with
          arrived := (q.barrier b).arrived &&& ~~~single l
          counter := if (q.barrier b).arrived &&& ~~~single l = 0 then none else (q.barrier b).counter }
      else q.barrier b) else q.barrier c := by
    intro q b c
    unfold Part.leaveBarrier
    simp only [withoutMember]
    by_cases hc : c = b
    · subst hc
      split
      · simp
        rfl
      · simp
    · split <;> simp [hc, Part.setBarrier_barrier_of_ne]
  rw [Part.leaveBarriers_eq]
  congr 1
  refine Vector.ext (fun i hi => ?_)
  rw [Vector.getElem_map]
  show (p.leaveBarriers l).barrier ⟨i, hi⟩ = _
  have hget : p.barriers[i] = p.barrier ⟨i, hi⟩ := rfl
  rw [hget]
  generalize (⟨i, hi⟩ : Fin 4) = c
  have hb : c = 0 ∨ c = 1 ∨ c = 2 ∨ c = 3 := by
    revert c
    decide
  simp only [Part.leaveBarriers, allFour, List.foldl_cons, List.foldl_nil, h1]
  rcases hb with h | h | h | h <;> subst h <;> simp

/-- A barrier that lets every lane go is empty, with its counter idle. -/
theorem Barrier.letGo_all (x : Barrier) (now : Tick) :
    x.letGo x.arrived now = { x with arrived := 0, counter := none } := by
  have h : x.arrived &&& ~~~x.arrived = 0 := by simp
  unfold Barrier.letGo
  simp only [h]
  simp

/-- The release of the whole arrived set (R125). -/
theorem Task.run_release_all {p : Part} {b : Fin 4} {lanes : LaneSet} (cause : ReleaseCause)
    (h : (p.barrier b).arrived = lanes) : (Task.release b cause lanes).run p =
      (forLanes lanes (fun l q => q.updLane l (fun x => { x with state := .running }))
        ((p.notify (.barrierReleased b cause lanes)).setBarrier b { p.barrier b with arrived := 0, counter := none }),
       (lanesOf lanes).map Task.released) := by
  subst h
  simp only [Task.run, BitVec.and_self, Barrier.letGo_all]

/-- A released lane whose next segment is timed retires its BARRIER and starts that segment (R125). -/
theorem runTasks_released (n : Nat) (l : Fin 6) (rest : List Task) (p : Part) {h : Segment}
    (hq : (p.retireHead l .completed).queueHead l = some h) (ht : h.isTimed = true) :
    runTasks (n + 2) (.released l :: rest) p =
      runTasks n rest ((p.retireHead l .completed).startTimed l h.body) := by
  rw [runTasks_cons]
  simp only [Task.run, List.cons_append, List.nil_append]
  rw [runTasks_cons]
  simp only [Task.run, Part.processHead_timed hq ht, List.nil_append]

/-- The release of a barrier at which one lane waits, with the lane's next segment timed. -/
theorem runTasks_release_single (n : Nat) (b : Fin 4) (cause : ReleaseCause) (l : Fin 6) (rest : List Task) (p : Part)
    {h : Segment} (ha : (p.barrier b).arrived = single l)
    (hq : ((((p.notify (.barrierReleased b cause (single l))).setBarrier b
        { p.barrier b with arrived := 0, counter := none }).setLane l { p.lane l with state := .running }).retireHead l
          .completed).queueHead l = some h) (ht : h.isTimed = true) :
    runTasks (n + 3) (.release b cause (single l) :: rest) p = runTasks n rest
      (((((p.notify (.barrierReleased b cause (single l))).setBarrier b
        { p.barrier b with arrived := 0, counter := none }).setLane l { p.lane l with state := .running }).retireHead l
          .completed).startTimed l h.body) := by
  rw [runTasks_cons, Task.run_release_all _ ha]
  simp only [lanesOf_single, forLanes, List.foldl, List.map, List.cons_append, List.nil_append]
  show runTasks (n + 2) _ _ = _
  exact runTasks_released n l rest _ hq ht

/-- The arrival that completes the member set in mode ALL releases it (R126). -/
theorem runTasks_arrive_all (n : Nat) {q : Part} {l : Fin 6} {b : Fin 4} {g : Segment} (hq : q.queueHead l = some g)
    (hb : g.body = .barrier b) (hm : (q.barrier b).mode = .all)
    (ha : (q.barrier b).arrived ||| single l = (q.barrier b).members) :
    runTasks (n + 2) [.head l] q = runTasks n ((lanesOf (q.barrier b).members).map Task.released)
      (forLanes (q.barrier b).members (fun l q => q.updLane l (fun x => { x with state := .running }))
        (((q.setLane l { (q.lane l).idle with state := .waiting }).notify
          (.barrierReleased b .all (q.barrier b).members)).setBarrier b
            { q.barrier b with arrived := 0, counter := none })) := by
  have hin : inSet (q.barrier b).members l = true := by
    rw [← ha]
    show inSet (withMember _ l) l = true
    rw [inSet_withMember]
    simp
  rw [runTasks_cons]
  simp only [Task.run, Part.processHead, hq, hb]
  rw [if_pos hin]
  unfold Part.arrive
  simp only [hm, show withMember (q.barrier b).arrived l = (q.barrier b).members from ha, decide_true, Bool.and_self,
    if_true, List.append_nil]
  rw [runTasks_cons, Task.run_release_all (p := _) _ (by simp)]
  simp only [List.append_nil]
  congr 2
  simp only [Part.notify, Part.setBarrier, Part.updLane, Part.setLane, Vector.set_set]
  congr 1
  congr 1
  simp [Part.barrier]

/-- A lane that begins to run with a timed segment at the head of its queue starts it. -/
theorem runTasks_begin (n : Nat) (l : Fin 6) (rest : List Task) (p : Part) {h : Segment}
    (hq : p.queueHead l = some h) (ht : h.isTimed = true) :
    runTasks (n + 2) (.begin l :: rest) p = runTasks n rest
      ((p.setLane l { p.lane l with state := .running, armed := none }).startTimed l h.body) := by
  rw [runTasks_cons]
  simp only [Task.run, List.cons_append, List.nil_append]
  have hu : (p.updLane l (fun x => { x with state := .running, armed := none })).queueHead l = some h := hq
  rw [runTasks_cons]
  simp only [Task.run, Part.processHead_timed hu ht, List.nil_append]
  rfl

/-! ## Queues read the store and the regions alone -/

theorem Part.queueHead_congr {p q : Part} (l : Fin 6) (hs : q.store = p.store) (hr : q.regions = p.regions) :
    q.queueHead l = p.queueHead l := by
  have e : q.laneRegion l = p.laneRegion l := by
    unfold Part.laneRegion Part.region
    rw [hr]
  unfold Part.queueHead Part.region
  rw [e, hs, hr]

theorem Part.popHead_congr {p q : Part} (l : Fin 6) (hs : q.store = p.store) (hr : q.regions = p.regions) :
    (q.popHead l).store = (p.popHead l).store ∧ (q.popHead l).regions = (p.popHead l).regions := by
  have e : q.laneRegion l = p.laneRegion l := by
    unfold Part.laneRegion Part.region
    rw [hr]
  have e2 : ∀ r, q.region r = p.region r := by
    intro r
    unfold Part.region
    rw [hr]
  unfold Part.popHead
  rw [e]
  cases p.laneRegion l with
  | none => exact ⟨hs, hr⟩
  | some r =>
    simp only [e2]
    constructor
    · split <;> split <;> simp only [Part.notify, Part.setRegion, hs]
    · split <;> split <;> simp only [Part.notify, Part.setRegion, hr]

theorem Part.retireHead_congr {p q : Part} (l : Fin 6) (o : Retirement) (hs : q.store = p.store)
    (hr : q.regions = p.regions) : (q.retireHead l o).store = (p.retireHead l o).store ∧
      (q.retireHead l o).regions = (p.retireHead l o).regions := by
  unfold Part.retireHead
  rw [Part.queueHead_congr l hs hr]
  cases p.queueHead l with
  | none => exact ⟨hs, hr⟩
  | some g =>
    refine Part.popHead_congr l ?_ ?_
    · rw [Part.reportTag_eq, Part.reportTag_eq p]
      exact hs
    · rw [Part.reportTag_eq, Part.reportTag_eq p]
      exact hr

@[simp] theorem Part.startTimed_store (p : Part) (l : Fin 6) (b : SegmentBody) :
    (p.startTimed l b).store = p.store := by
  cases b <;> rfl

@[simp] theorem Part.startTimed_regions (p : Part) (l : Fin 6) (b : SegmentBody) :
    (p.startTimed l b).regions = p.regions := by
  cases b <;> rfl

end Sys2Proof.Machine
end

