-- ==== Sys2Proof/Laws/Store.lean ====
section
/-! SUPPORT. The segment store keeps its canonical form under every operation. -/

namespace Sys2Proof.Machine

/-- Cell by cell: what the canonical form of a store with a first cell says. -/
theorem Store.wf_cons {k : Nat} {g : Segment} {rest : Store} :
    Store.wf ((k, g) :: rest) = true ↔
      k < Config.slots ∧ (∀ c ∈ rest, k < c.1) ∧ Store.wf rest = true := by
  simp [Store.wf, and_assoc]

/-- The empty store is canonical. -/
theorem Store.wf_nil : Store.wf [] = true := rfl

/-- A filter of a canonical store is canonical. -/
theorem Store.wf_filter {st : Store} (f : Nat × Segment → Bool) (h : st.wf = true) : Store.wf (st.filter f) = true := by
  induction st with
  | nil => rfl
  | cons c rest ih =>
    obtain ⟨k, g⟩ := c
    obtain ⟨hk, hlt, hrest⟩ := Store.wf_cons.mp h
    by_cases hf : f (k, g) = true
    · rw [List.filter_cons_of_pos hf]
      exact Store.wf_cons.mpr ⟨hk, fun c hc => hlt c (List.mem_filter.mp hc).1, ih hrest⟩
    · rw [List.filter_cons_of_neg hf]
      exact ih hrest

/-- An erasure keeps the canonical form. -/
theorem Store.wf_erase {st : Store} (a : Nat) (h : st.wf = true) : (st.erase a).wf = true := Store.wf_filter _ h

/-- An erasure of a run keeps the canonical form. -/
theorem Store.wf_eraseRun {st : Store} (start size : Nat) (h : st.wf = true) : (st.eraseRun start size).wf = true :=
  Store.wf_filter _ h

/-- The cells of a store after a write are the cell written or were there before. -/
theorem Store.mem_write {st : Store} {a : Nat} {g : Segment} {c : Nat × Segment} (h : c ∈ st.write a g) :
    c = (a, g) ∨ c ∈ st := by
  induction st with
  | nil => simpa [Store.write] using h
  | cons d rest ih =>
    obtain ⟨k, e⟩ := d
    unfold Store.write at h
    split at h
    · simpa using h
    · split at h
      · rcases List.mem_cons.mp h with h | h
        · exact .inl h
        · exact .inr (List.mem_cons_of_mem _ h)
      · rcases List.mem_cons.mp h with h | h
        · exact .inr (h ▸ List.mem_cons_self)
        · rcases ih h with h | h
          · exact .inl h
          · exact .inr (List.mem_cons_of_mem _ h)

/-- A write into a slot of the store keeps the canonical form. -/
theorem Store.wf_write {st : Store} {a : Nat} (g : Segment) (h : st.wf = true) (ha : a < Config.slots) :
    (st.write a g).wf = true := by
  induction st with
  | nil => simp [Store.write, Store.wf, ha]
  | cons d rest ih =>
    obtain ⟨k, e⟩ := d
    obtain ⟨hk, hlt, hrest⟩ := Store.wf_cons.mp h
    unfold Store.write
    split
    · rename_i hak
      refine Store.wf_cons.mpr ⟨ha, fun c hc => ?_, h⟩
      rcases List.mem_cons.mp hc with hc | hc
      · exact hc ▸ hak
      · exact Nat.lt_trans hak (hlt c hc)
    · split
      · rename_i hak
        exact Store.wf_cons.mpr ⟨ha, fun c hc => hak ▸ hlt c hc, hrest⟩
      · refine Store.wf_cons.mpr ⟨hk, fun c hc => ?_, ih hrest⟩
        rcases Store.mem_write hc with hc | hc
        · subst hc
          simp only
          omega
        · exact hlt c hc

/-- Segments written into slots of the store keep the canonical form. -/
theorem Store.wf_writeSegments {slotAt : Nat → Nat} (segs : List Segment) (i : Nat) (st : Store)
    (hs : ∀ j, i ≤ j → j < i + segs.length → slotAt j < Config.slots) (h : st.wf = true) :
    Store.wf (writeSegments slotAt i segs st) = true := by
  induction segs generalizing i st with
  | nil => exact h
  | cons g rest ih =>
    refine ih (i + 1) _ (fun j hj hl => hs j (by omega) (by simp only [List.length_cons]; omega))
      (Store.wf_write g h (hs i (Nat.le_refl i) (by simp)))

/-- The store after a reset is canonical. -/
theorem Store.wf_reset : State.reset.part.store.wf = true := rfl

end Sys2Proof.Machine
end

