-- ==== Sys2Proof/Tests/Slice0.lean ====
section
/-! SUPPORT. The tests: ill-formed commands, single commands on small states, and for every statement that has
premises a state and operands that meet them, clause by clause, at boundary values. -/

namespace Sys2Proof.Tests

open Machine

/-! ## Small states -/

/-- The part after reset with the link SYNCED. -/
def linked : Part := { State.reset.part with link := { State.reset.part.link with synced := true } }

/-- A machine with this part and nothing pending. -/
def machine (p : Part) : State := { part := p, pending := [] }

/-- A tick with every input LOW and no start bit. -/
def quietTick : Instr := .tick { samples := Pins.allLow, start := .none }

/-- The part after one command; the part itself where the command does not answer a next state. -/
def after (c : Instr) (p : Part) : Part :=
  match exec c (machine p) with
  | .next t => t.part
  | _ => p

/-- Status, detail and payload of the last reply. -/
def replyOf (p : Part) : Option (Status × Byte × List Byte) :=
  p.link.cache.map (fun e => (e.reply.answer.status, e.reply.answer.detail, e.reply.answer.body))

/-- A pulse of 10 ticks, active for 4, twice. -/
def pulse : Segment := { tag := none, body := .pulse 10 4 none .edge 2 }

/-- The same with an alternate on-time of 6. -/
def pulseAlt : Segment := { tag := some 7, body := .pulse 10 4 (some 6) .center 2 }

/-- A barrier segment. -/
def gate : Segment := { tag := none, body := .barrier 0 }

/-- Region 0, of 4 slots from slot 0, with this binding, these segments and these counts. -/
def withRegion (b : Binding) (cells : Store) (count loaded : Nat) (p : Part) : Part :=
  { p with store := cells }.setRegion 0
    { defined := true, start := 0, size := 4, binding := b, head := 0, count := count, loaded := loaded }

/-- Lane 0 in a state, with a queue of one pulse. -/
def queued (st : LaneState) : Part :=
  let p := withRegion (.lane 0) [(0, pulse)] 1 0 linked
  p.setLane 0 { p.lane 0 with state := st }

/-- Lane 0 in a state with its queue full. -/
def full (st : LaneState) : Part :=
  let p := withRegion (.lane 0) [(0, pulse), (1, pulse), (2, pulse), (3, pulse)] 4 0 linked
  p.setLane 0 { p.lane 0 with state := st }

/-- Lane 0 with an empty queue. -/
def unqueued (st : LaneState) : Part :=
  let p := withRegion (.lane 0) [] 0 0 linked
  p.setLane 0 { p.lane 0 with state := st }

/-- The period of the pulse at a phase. -/
def playedAt (phase : Nat) : Period := { shape := .pulse 10 .edge, onTime := 4, phase := phase, held := false }

/-- Lane 0 in a state, playing the pulse of its queue at a phase with this many repeats left. -/
def playing (st : LaneState) (phase remaining : Nat) : Part :=
  let p := queued st
  p.setLane 0 { p.lane 0 with remaining := remaining, primary := 4, period := some (playedAt phase) }

/-- Pattern 0 in a state, with this many pulses loaded. -/
def patterned (st : PatternState) (cells : Store) (useCount : Nat) : Part :=
  let p := withRegion (.pattern 0) cells 0 cells.length linked
  p.setPattern 0 { state := st, useCount := useCount }

/-- Lane 0 STOPPED with this segment and a pulse behind it in its queue, and pattern 0 in a state, of one pulse. -/
def headed (g : Segment) (st : PatternState) : Part :=
  let p := withRegion (.lane 0) [(0, g), (1, pulse), (4, pulseAlt)] 2 0 linked
  let p := p.setRegion 1
    { defined := true, start := 4, size := 4, binding := .pattern 0, head := 0, count := 0, loaded := 1 }
  (p.setLane 0 { p.lane 0 with state := .stopped }).setPattern 0 { state := st, useCount := 0 }

/-- A call of pattern 0, played twice. -/
def call : Segment := { tag := none, body := .call 0 2 }

/-- Lane 0 in a state inside the CALL at the head of its queue, at the end of a period of pattern segment `index` of
two, with these plays and repeats left. -/
def calling (st : LaneState) (plays index remaining : Nat) : Part :=
  let p := withRegion (.lane 0) [(0, call), (1, pulse), (4, pulseAlt), (5, pulse)] 2 0 linked
  let p := p.setRegion 1
    { defined := true, start := 4, size := 4, binding := .pattern 0, head := 0, count := 0, loaded := 2 }
  let position : CallPosition := { pattern := 0, plays := plays, index := index, remaining := remaining }
  (p.setLane 0 { p.lane 0 with state := st, period := some (playedAt 10), call := some position }).setPattern 0
    { state := .ready, useCount := 1 }

/-- An entry of the notification queue. -/
def entry (st : EntryStatus) : Entry := { what := .underrun 0 .safe, stamp := 0, status := st }

/-- The part with these entries in its notification queue. -/
def told (entries : List Entry) : Part := { linked with notif := { linked.notif with queue := entries } }

/-- Input 0 live ACTIVE in a mode with this map. -/
def faulted (mode : FaultMode) (lanes : LaneSet) (sticky : Bool) : Part :=
  linked.setFault 0
    { linked.fault 0 with mode := mode, lanes := lanes, qualified := .high, sample := .high, sticky := sticky }

/-- Input 0 with a qualification due. -/
def qualifying (sample : Level) (mode : FaultMode) (p : Part) : Part :=
  p.setFault 0 { p.fault 0 with mode := mode, lanes := 1, sample := sample, due := true }

/-- A part that differs from the linked one outside the link is ready. -/
theorem ready_of {p : Part} (seq : Byte) (hl : p.link = linked.link) (hr : p.resetPhase = .ended) : p.Ready seq := by
  unfold Part.Ready Part.DispatcherFree
  rw [hl]
  exact ⟨⟨hr, rfl, rfl, rfl, fun _ h => by cases h⟩, rfl⟩

/-! ## Ill-formed commands -/

theorem test_append_wf :
    (Instr.append 1 0 (List.replicate 19 pulse.encode)).wf = true ∧
    (Instr.append 1 0 (List.replicate 20 pulse.encode)).wf = false := by decide

theorem test_patternData_wf :
    (Instr.patternData 1 0 (List.replicate 19 pulse.encode)).wf = true ∧
    (Instr.patternData 1 0 (List.replicate 20 pulse.encode)).wf = false := by decide

theorem test_unknownRequest_wf_code :
    (Instr.unknownRequest 1 0x7F []).wf = true ∧ (Instr.unknownRequest 1 0x01 []).wf = false := by decide

theorem test_unknownRequest_wf_length :
    (Instr.unknownRequest 1 0x7F (List.replicate 240 0)).wf = true ∧
    (Instr.unknownRequest 1 0x7F (List.replicate 241 0)).wf = false := by decide +kernel

/-! ## Encodings -/

theorem test_crc_of_nothing : crc16 [] = 0xFFFF := by decide
theorem test_crc_of_zero : crc16 [0x00] = 0xE1F0 := by decide
theorem test_crc_of_digits : crc16 [0x31, 0x32, 0x33, 0x34, 0x35, 0x36, 0x37, 0x38, 0x39] = 0x29B1 := by decide +kernel

theorem test_segment_pulse : decodeSegment #v[0x01, 0x03, 0x07, 0, 10, 0, 4, 0, 6, 0, 2, 1] = some pulseAlt := by decide
theorem test_segment_level :
    decodeSegment #v[0x02, 0x01, 0xFE, 2, 0xFF, 0xFF, 0, 1, 0, 0, 0, 0] =
      some { tag := some 0xFE, body := .level .two 65535 1 } := by decide
theorem test_segment_barrier : decodeSegment #v[0x03, 0, 0, 3, 0, 0, 0, 0, 0, 0, 0, 0] =
    some { tag := none, body := .barrier 3 } := by decide
theorem test_segment_call : decodeSegment #v[0x04, 0, 0, 7, 255, 0, 0, 0, 0, 0, 0, 0] =
    some { tag := none, body := .call 7 255 } := by decide
theorem test_segment_mark : decodeSegment #v[0x05, 1, 0, 0, 0, 0, 0, 0, 0, 0, 0, 0] =
    some { tag := some 0, body := .mark } := by decide
theorem test_segment_offends :
    decodeSegment #v[0x05, 0, 0, 0, 0, 0, 0, 0, 0, 0, 0, 0] = none ∧
    decodeSegment #v[0x05, 1, 0xFF, 0, 0, 0, 0, 0, 0, 0, 0, 0] = none ∧
    decodeSegment #v[0x01, 0, 0, 0, 1, 0, 1, 0, 0, 0, 1, 0] = none ∧
    decodeSegment #v[0x01, 0, 0, 0, 2, 0, 3, 0, 0, 0, 1, 0] = none ∧
    decodeSegment #v[0x06, 0, 0, 0, 0, 0, 0, 0, 0, 0, 0, 0] = none := by decide

/-! ## Single commands -/

theorem test_step_empty_queue : step (machine linked) = .next (machine linked) := rfl

theorem test_sync_reply : replyOf (after (.sync 1) State.reset.part) =
    some (.ok, 0, [0x73, 0x06, 0x01, 6, 0x08, 0x00, 16, 8, 4, 0, 0]) := by decide

theorem test_unsynced_reply : (after (.getStatus 1) State.reset.part).link.tx.isSome = true ∧
    (after (.getStatus 1) State.reset.part).link.cache = none := by decide

theorem test_reset_begins :
    (after .frameSent (after (.reset 1) linked)).resetPhase = .held 1024 ∧
    (after .frameSent (after (.reset 1) linked)).link.resetCause = .request := by decide

theorem test_timebase : replyOf (after (.setTimebase 1 8) linked) = some (.ok, 0, [8, 0, 0, 0, 0]) := by decide

theorem test_define_then_overlap :
    replyOf (after (.defineRegion 1 15 2044 4) linked) = some (.ok, 0, []) ∧
    replyOf (after (.defineRegion 1 3 3 4) (queued .stopped)) = some (.overlap, 0, []) := by decide

theorem test_append_reply : replyOf (after (.append 1 0 [pulseAlt.encode]) (queued .stopped)) =
    some (.ok, 0, [0, 2]) := by decide

theorem test_append_bad_segment :
    replyOf (after (.append 1 0 [pulse.encode, .replicate 12 0]) (queued .stopped)) =
    some (.badValue, 1, []) := by decide

theorem test_start_plays : ((after (.start 1 1 0) (queued .stopped)).lane 0).state = .running ∧
    (after (.start 1 1 0) (queued .stopped)).out 0 = .high := by decide

theorem test_boundary_then_join :
    ((after (.periodBoundary 0) (playing .running 10 2)).lane 0).remaining = 1 ∧
    ((after (.join 0) (playing .running 10 1)).lane 0).state = .starved := by decide

theorem test_soft_stop :
    ((after (.softStopComplete 0) (playing .stopping 10 1)).lane 0).state = .stopped := by decide

theorem test_fault_halts :
    ((after (.faultQualifyActive 0) (qualifying .high .latch (playing .running 3 2))).lane 0).state = .halted := by
  decide

theorem test_not_due_has_no_effect : (after (.periodBoundary 0) (playing .running 9 2)).lane 0 =
    (playing .running 9 2).lane 0 := by decide

theorem test_tick : (after quietTick (playing .running 8 2)).timebase.count = 1 ∧
    ((after quietTick (playing .running 8 2)).lane 0).period = some (playedAt 9) := by
  decide +kernel

theorem test_gap_timeout_counts :
    (after .gapTimeout
      { linked with link := { linked.link with rx := .inFrame [3], gap := some 160000 } }).link.counters.gap = 1 := by
  decide

/-- A start bit within 2 ms keeps the frame; without one the frame is dropped at the TICK that reaches 2 ms (R155). -/
theorem test_gap_runs_to_the_start_bit :
    let p := { linked with link := { linked.link with
      rx := .inFrame [3], gap := some 160000, awaitsIdle := false } }
    (after (.tick { samples := Pins.allLow, start := .begins true }) p).link.rx = .inFrame [3] ∧
    (after quietTick p).link.rx = .hunting := by decide +kernel

/-- An APPEND at the tick of a held boundary begins that held period, and the lane plays it out (R70, Log 6). -/
theorem test_append_waits_for_the_held_period :
    let v : Period := { playedAt 10 with held := true }
    let p := unqueued .starved
    let p := p.setLane 0 { p.lane 0 with starve := .hold, period := some v, record := some (.pulse 10 .edge 4 none) }
    let q := after (.append 1 0 [pulse.encode]) p
    (q.lane 0).state = .running ∧ (q.lane 0).period = some { v with phase := 0 } ∧
    ((after (.join 0) q).lane 0).period = some { v with phase := 0 } := by decide +kernel

theorem test_complete_sync_frame_is_executed :
    (after .frameComplete { State.reset.part with link := { State.reset.part.link with
      rx := .inFrame [3, 1, 1, 1, highByte (crc16 [3, 1, 1, 1]).toNat, byteOf (crc16 [3, 1, 1, 1]).toNat] } }
      ).link.synced = true := by decide +kernel

/-! ## Premises of the statements -/

/-- SyncRestartsTheChannel, ResetStopsDispatching, QueriesReportAndChangeNothing. -/
theorem test_ready_premises : State.reset.part.DispatcherFree 1 ∧ linked.Ready 1 ∧ (queued .stopped).Ready 0 :=
  ⟨⟨rfl, rfl, rfl, rfl, fun _ h => by cases h⟩, ready_of 1 rfl rfl, ready_of 0 rfl rfl⟩

/-- ResetStopsDispatching: a request that comes after the RESET, with the buffer free and full. -/
theorem test_ResetStopsDispatching_premises :
    let t : TxFrame := { bytes := [], resets := true }
    let f := requestFrame 1 (requestCode .getStatus) []
    let p := { linked with link := { linked.link with dispatchStopped := true, tx := some t, buffer := [f] } }
    let q := { p with link := { p.link with buffer := [f, f] } }
    requestOf (.getStatus 1) = some f ∧ (p.resetPhase = .ended ∧ p.link.dispatchStopped = true ∧
      p.link.tx.isSome = true ∧ p.link.buffer.length < 2) ∧ 2 ≤ q.link.buffer.length := ⟨rfl, by decide⟩

/-- EveryCommandAnswersANextState: the idle clause. -/
theorem test_idle_premises : State.reset.pending = [] := rfl

theorem test_LinkStatsAndTimingAreSet_premises : linked.Ready 1 ∧
    (1 < (2 : Byte).toNat ∧ 5 ≤ (5 : Byte).toNat ∧ (250 : Byte).toNat ≤ 250 ∧ 1 ≤ (1 : Byte).toNat ∧
      (15 : Byte).toNat ≤ 15 ∧ (4 : Byte).toNat < 5 ∧ 250 < (251 : Byte).toNat ∧ (0 : Byte).toNat < 1 ∧
      15 < (16 : Byte).toNat) := ⟨ready_of 1 rfl rfl, by decide⟩

theorem test_TimebaseIsSetWhileNoLanePlays_premises : linked.Ready 1 ∧ (queued .armed).Ready 1 ∧
    Prescale.ofByte 8 = some .by8 ∧ (∀ l, (linked.lane l).state = .unbound) ∧ Prescale.ofByte 3 = none ∧
    ((3 : Byte) ≠ 1 ∧ (3 : Byte) ≠ 2 ∧ (3 : Byte) ≠ 4 ∧ (3 : Byte) ≠ 8) ∧
    ((queued .armed).lane 0).state = .armed :=
  ⟨ready_of 1 rfl rfl, ready_of 1 rfl rfl, by decide⟩

theorem test_SetPairReplacesTheSettings_premises :
    let p := linked.setLane 1 { linked.lane 1 with state := .merged }
    let q := p.setPair 0 { p.pair 0 with mode := .complementary }
    let o := linked.setLane 1 { linked.lane 1 with state := .stopped }
    linked.Ready 1 ∧ q.Ready 1 ∧ (queued .halted).Ready 1 ∧ o.Ready 1 ∧
    (PairMode.ofByte 1 = some .complementary ∧ Polarity.ofByte 1 = some .activeLow ∧
      Polarity.ofByte 0 = some .activeHigh ∧ levelOfByte 1 = some .high ∧ levelOfByte 0 = some .low) ∧
    ((linked.lane (evenLane 0)).state = .unbound ∧ (linked.pair 0).mode = .independent ∧
      (linked.lane (oddLane 0)).state = .unbound) ∧
    (PairMode.ofByte 0 = some .independent ∧ (q.pair 0).mode = .complementary ∧
      (q.lane (evenLane 0)).state = .unbound ∧ (q.lane (oddLane 0)).state = .merged) ∧
    ((queued .halted).lane (evenLane 0)).state = .halted ∧
    ((o.lane (evenLane 0)).state = .unbound ∧ (o.pair 0).mode = .independent ∧
      (o.lane (oddLane 0)).state = .stopped) :=
  ⟨ready_of 1 rfl rfl, ready_of 1 rfl rfl, ready_of 1 rfl rfl, ready_of 1 rfl rfl, by decide⟩

theorem test_ValuesAreCheckedFieldByField_premises : linked.Ready 1 ∧
    (5 < (6 : Byte).toNat ∧ 3 < (4 : Byte).toNat ∧ 15 < (16 : Byte).toNat ∧ (15 : Byte).toNat ≤ 15 ∧
      7 < (8 : Byte).toNat ∧ (3 : Byte) ≠ 1 ∧ (3 : Byte) ≠ 2) ∧
    (63 < (64 : Byte).toNat ∧ (63 : Byte) ≠ 0 ∧ (63 : Byte).toNat ≤ 63 ∧ 4 < (5 : Byte).toNat ∧
      1 < (2 : Byte).toNat) ∧
    ((3 : Byte).toNat ≤ 3 ∧ (1 : Byte).toNat ≤ 1 ∧ (0 : Byte).toNat < 1 ∧ 15 < (16 : Byte).toNat ∧
      1 ≤ (1 : Byte).toNat ∧ 2 < (3 : Byte).toNat ∧ (2 : Byte).toNat ≤ 2 ∧ 63 < (64 : Byte).toNat) :=
  ⟨ready_of 1 rfl rfl, by decide⟩

theorem test_DefineRegionChecksItsValues_premises : linked.Ready 1 ∧
    (15 < (16 : Byte).toNat ∧ (15 : Byte).toNat ≤ 15 ∧ 2047 < (2048 : Word16).toNat ∧ (2047 : Word16).toNat ≤ 2047 ∧
      (3 : Word16).toNat < 4 ∧ 2048 < (2049 : Word16).toNat ∧ 2048 < (2045 : Word16).toNat + (4 : Word16).toNat ∧
      4 ≤ (4 : Word16).toNat ∧ (2048 : Word16).toNat ≤ 2048 ∧ (2044 : Word16).toNat + (4 : Word16).toNat ≤ 2048) :=
  ⟨ready_of 1 rfl rfl, by decide⟩

/-- The region law holds where region 0 alone is defined and fits. -/
theorem region_law_of {p : Part} (hd : (p.region 0).defined = true) (hz : ∀ r, r ≠ 0 → p.region r = Region.reset)
    (hg : 4 ≤ (p.region 0).size ∧ (p.region 0).start + (p.region 0).size ≤ Config.slots ∧
      (p.region 0).head < (p.region 0).size ∧ (p.region 0).count ≤ (p.region 0).size ∧
      (p.region 0).loaded ≤ (p.region 0).size ∧
      ((∀ l, (p.region 0).binding ≠ .lane l) → (p.region 0).count = 0) ∧
      ((∀ k, (p.region 0).binding ≠ .pattern k) → (p.region 0).loaded = 0)) : p.RegionLaw := by
  have hu : ∀ r, r ≠ 0 → (p.region r).defined = false := fun r h => by rw [hz r h]; rfl
  refine ⟨fun r => ?_, fun r r' hne h h' => ?_⟩
  · by_cases h0 : r = 0
    · rw [h0, if_pos hd]
      exact hg
    · rw [if_neg (by rw [hu r h0]; decide)]
      exact hz r h0
  · by_cases h0 : r = 0
    · rw [hu r' (fun e => hne (h0.trans e.symm))] at h'
      cases h'
    · rw [hu r h0] at h
      cases h

/-- It does with region 0 bound to lane 0, to pattern 0, or to nothing. -/
theorem region_law : (queued .stopped).RegionLaw ∧ (patterned .loading [(0, pulse)] 0).RegionLaw ∧
    (withRegion .none [] 0 0 linked).RegionLaw :=
  ⟨region_law_of rfl (by decide) (by decide), region_law_of rfl (by decide) (by decide),
    region_law_of rfl (by decide) (by decide)⟩

theorem test_DefineRegionIsCheckedAgainstTheTable_premises :
    let p := withRegion .none [] 0 0 linked
    p.Ready 1 ∧ p.RegionLaw ∧ (p.region 0).defined = true ∧ (p.region 1).defined = false ∧
    ((p.region 0).start ≤ 3 ∧ 3 < (p.region 0).start + (p.region 0).size ∧ (3 : Word16).toNat ≤ 3 ∧
      3 < (3 : Word16).toNat + (4 : Word16).toNat) ∧
    (∀ m < (0 : Fin 16), (p.region m).defined = false) ∧
    (p.region 0).start + (p.region 0).size ≤ (4 : Word16).toNat ∧ (∀ m, m ≠ 0 → (p.region m).defined = false) :=
  ⟨ready_of 1 rfl rfl, region_law.2.2, by decide⟩

theorem test_DeleteRegionMakesItUndefined_premises :
    linked.Ready 1 ∧ (queued .stopped).Ready 1 ∧ (withRegion .none [] 0 0 linked).Ready 1 ∧ 15 < (16 : Byte).toNat ∧
    (linked.region 15).defined = false ∧
    (((queued .stopped).region 0).defined = true ∧ ((queued .stopped).region 0).binding ≠ .none) ∧
    ((withRegion .none [] 0 0 linked).region 0).defined = true ∧
    ((withRegion .none [] 0 0 linked).region 0).binding = .none :=
  ⟨ready_of 1 rfl rfl, ready_of 1 rfl rfl, ready_of 1 rfl rfl, by decide⟩

theorem test_BindRegionServesALaneOrAPattern_premises :
    let p := withRegion .none [] 0 0 linked
    let m := p.setLane 5 { p.lane 5 with state := .merged }
    let n := (p.setLane 5 { p.lane 5 with state := .stopped }).setPattern 7 { state := .empty, useCount := 0 }
    linked.Ready 1 ∧ p.Ready 1 ∧ m.Ready 1 ∧ n.Ready 1 ∧ (queued .stopped).Ready 1 ∧
    (linked.region 15).defined = false ∧
    (((queued .stopped).region 0).defined = true ∧ ((queued .stopped).region 0).binding ≠ .none) ∧
    ((p.region 0).defined = true ∧ (p.region 0).binding = .none ∧ (p.lane 5).state = .unbound ∧
      (p.pattern 7).state = .unassigned) ∧
    (m.lane 5).state = .merged ∧ (n.lane 5).state = .stopped ∧ (n.pattern 7).state ≠ .unassigned :=
  ⟨ready_of 1 rfl rfl, ready_of 1 rfl rfl, ready_of 1 rfl rfl, ready_of 1 rfl rfl, ready_of 1 rfl rfl, by decide⟩

/-- UnbindRegionEmptiesAndFrees, ClearRegionEmptiesIt. -/
theorem test_UnbindAndClearRegion_premises :
    (queued .stopped).Ready 1 ∧ (queued .running).Ready 1 ∧ (patterned .ready [(0, pulse)] 0).Ready 1 ∧
    (patterned .ready [(0, pulse)] 1).Ready 1 ∧ (withRegion .none [] 0 0 linked).Ready 1 ∧
    (((queued .stopped).region 0).binding = .lane 0 ∧ ((queued .stopped).lane 0).state = .stopped) ∧
    (((queued .running).region 0).binding = .lane 0 ∧ ((queued .running).lane 0).state ≠ .stopped ∧
      ((queued .running).lane 0).state ≠ .halted) ∧
    (((patterned .ready [(0, pulse)] 0).region 0).binding = .pattern 0 ∧
      ((patterned .ready [(0, pulse)] 0).pattern 0).useCount = 0) ∧
    (((patterned .ready [(0, pulse)] 1).region 0).binding = .pattern 0 ∧
      0 < ((patterned .ready [(0, pulse)] 1).pattern 0).useCount) ∧
    ((queued .stopped).region 0).defined = true ∧ ((withRegion .none [] 0 0 linked).region 0).defined = true ∧
    ((withRegion .none [] 0 0 linked).region 0).binding = .none ∧
    ((withRegion .none [] 0 0 linked).region 15).defined = false ∧ ((queued .halted).lane 0).state = .halted :=
  ⟨ready_of 1 rfl rfl, ready_of 1 rfl rfl, ready_of 1 rfl rfl, ready_of 1 rfl rfl, ready_of 1 rfl rfl, by decide⟩

theorem test_StoreHoldsWhatWasWritten_premises :
    (queued .stopped).store.wf = true ∧ ((queued .stopped).region 0).defined = true ∧ (queued .stopped).RegionLaw ∧
    ((queued .stopped).region 0).count + [pulse, gate, pulse].length ≤ ((queued .stopped).region 0).size ∧
    (patterned .loading [(0, pulse)] 0).RegionLaw ∧
    ((patterned .loading [(0, pulse)] 0).region 0).loaded + [pulse, pulse, pulse].length ≤
      ((patterned .loading [(0, pulse)] 0).region 0).size :=
  ⟨by decide, by decide, region_law.1, by decide, region_law.2.1, by decide⟩

theorem test_SegmentsDecodeAsEncoded_premises :
    pulseAlt.inRange = true ∧ decodeSegment pulseAlt.encode = some pulseAlt ∧
    ({ tag := none, body := .pulse 65535 65535 (some 65535) .edge 65535 } : Segment).inRange = true ∧
    ({ tag := none, body := .pulse 2 0 (some 0) .center 1 } : Segment).inRange = true ∧
    decodeSegment #v[0x01, 0, 0, 0, 2, 0, 1, 0, 0, 0, 1, 0] =
      some { tag := none, body := .pulse 2 1 none .edge 1 } := by decide

theorem test_AppendJoinsTheTail_premises : (queued .stopped).Ready 1 ∧ (full .stopped).Ready 1 ∧
    (1 ≤ [pulse.encode].length ∧ (List.replicate 16 pulse.encode).length ≤ 16 ∧ 5 < (6 : Byte).toNat) ∧
    decodeSegments ((queued .stopped).admitsInQueue 0) 0 [pulse.encode] = .ok [pulse] ∧
    decodeSegments ((full .stopped).admitsInQueue 0) 0 [pulse.encode] = .ok [pulse] ∧
    decodeSegments (linked.admitsInQueue 0) 0 [.replicate 12 0] = .error 0 ∧
    (queued .stopped).laneRegion 0 = some 0 ∧ (full .stopped).laneRegion 0 = some 0 ∧
    (((queued .stopped).lane 0).state = .stopped ∧
      ((queued .stopped).region 0).count + [pulse].length ≤ ((queued .stopped).region 0).size) ∧
    ((full .stopped).region 0).size < ((full .stopped).region 0).count + [pulse].length :=
  ⟨ready_of 1 rfl rfl, ready_of 1 rfl rfl, by decide, by rfl, by rfl, by rfl, by decide⟩

/-- AppendJoinsTheTail: the clauses on UNBOUND, MERGED and STARVED lanes. -/
theorem test_AppendJoinsTheTail_premises_of_lanes :
    let p := unqueued .starved
    let h := p.setLane 0 { p.lane 0 with starve := .hold, period := some (playedAt 9) }
    let m := linked.setLane 1 { linked.lane 1 with state := .merged }
    p.Ready 1 ∧ h.Ready 1 ∧ linked.Ready 1 ∧ m.Ready 1 ∧
    decodeSegments (p.admitsInQueue 0) 0 [pulse.encode] = .ok [pulse] ∧
    decodeSegments (h.admitsInQueue 0) 0 [pulse.encode] = .ok [pulse] ∧
    decodeSegments (m.admitsInQueue 1) 0 [pulse.encode] = .ok [pulse] ∧
    ((p.lane 0).state = .starved ∧ p.laneRegion 0 = some 0 ∧ (p.lane 0).starve = .safe ∧
      (p.enqueue 0 [pulse]).queueHead 0 = some pulse ∧ pulse.isTimed = true ∧
      (p.region 0).count + 1 ≤ (p.region 0).size) ∧
    ((h.lane 0).state = .starved ∧ h.laneRegion 0 = some 0 ∧ (h.lane 0).starve = .hold ∧
      (h.lane 0).period = some (playedAt 9) ∧ (playedAt 9).phase < (playedAt 9).shape.length ∧
      (playedAt 10).shape.length ≤ (playedAt 10).phase) ∧
    ([] : List RawSegment).length = 0 ∧ 16 < (List.replicate 17 pulse.encode).length ∧
    (linked.lane 5).state = .unbound ∧ (m.lane 1).state = .merged :=
  ⟨ready_of 1 rfl rfl, ready_of 1 rfl rfl, ready_of 1 rfl rfl, ready_of 1 rfl rfl, by rfl, by rfl, by rfl, by decide⟩

theorem test_TimedSegmentStartsItsFirstPeriod_premises : (linked.lane 0).call = none ∧
    ((calling .running 1 0 0).lane 0).call = some { pattern := 0, plays := 1, index := 0, remaining := 0 } ∧
    (faulted .cycle 1 true).cycleActive 0 = true ∧ (faulted .cycle 2 true).cycleActive 0 = false := by decide

theorem test_StartBeginsOrArmsTheLanes_premises :
    let m := linked.setLane 1 { linked.lane 1 with state := .merged }
    let f := (queued .stopped).setFault 0 { linked.fault 0 with mode := .latch, lanes := 1, sticky := true }
    linked.Ready 1 ∧ m.Ready 1 ∧ (queued .running).Ready 1 ∧ (unqueued .stopped).Ready 1 ∧ f.Ready 1 ∧
    (queued .stopped).Ready 1 ∧ ((single 0 : LaneSet) ≠ 0 ∧ (3 : LaneSet) ≠ 0 ∧ (4 : Byte).toNat ≤ 4) ∧
    (linked.lane 0).state = .unbound ∧ (m.lane 1).state = .merged ∧
    ((queued .running).lane 0).state = .running ∧
    (((unqueued .stopped).lane 0).state = .stopped ∧ (unqueued .stopped).queueCount 0 = 0) ∧
    ((f.lane 0).state = .stopped ∧ 0 < f.queueCount 0 ∧ (f.fault 0).mode = .latch ∧ (f.fault 0).sticky = true ∧
      inSet (f.fault 0).lanes 0 = true) ∧
    (((queued .stopped).lane 0).state = .stopped ∧ 0 < (queued .stopped).queueCount 0 ∧
      (∀ i, ((queued .stopped).fault i).mode = .off) ∧ ∀ l : Fin 6, inSet (single 0) l = true → l = 0) ∧
    ((queued .stopped).queueHead 0 = some pulse ∧ pulse.isTimed = true) ∧
    (inSet (3 : LaneSet) 1 = true ∧ (∀ m < (1 : Fin 6), m = 0) ∧ ((queued .stopped).lane 1).state = .unbound) :=
  ⟨ready_of 1 rfl rfl, ready_of 1 rfl rfl, ready_of 1 rfl rfl, ready_of 1 rfl rfl, ready_of 1 rfl rfl,
    ready_of 1 rfl rfl, by decide⟩

theorem test_QueueHeadIsProcessedByItsKind_premises :
    let mark : Segment := { tag := some 254, body := .mark }
    let running := fun (p : Part) =>
      p.setLane 0 { p.lane 0 with record := none, trim := none, state := .running, armed := none }
    let m := headed mark .empty
    let b := headed gate .empty
    let w := b.setBarrier 0 { b.barrier 0 with members := 3, timeout := 1 }
    let o := b.setBarrier 0 { b.barrier 0 with members := 1, mode := .allThenTrigger }
    let c := headed call .ready
    let n := headed call .loading
    (m.Ready 1 ∧ b.Ready 1 ∧ w.Ready 1 ∧ o.Ready 1 ∧ c.Ready 1 ∧ n.Ready 1) ∧
    (∀ p ∈ [m, b, w, o, c, n], (p.lane 0).state = .stopped ∧ ∀ i, (p.fault i).mode = .off) ∧
    (m.queueHead 0 = some mark ∧
      (((running m).notify (.markReached 0 254 none)).retireHead 0 .completed).queueHead 0 = some pulse) ∧
    (b.queueHead 0 = some gate ∧ inSet (b.barrier 0).members 0 = false ∧
      (((running b).notify (.barrierPass 0 0)).retireHead 0 .completed).queueHead 0 = some pulse) ∧
    (w.queueHead 0 = some gate ∧ inSet (w.barrier 0).members 0 = true ∧
      (w.barrier 0).arrived ||| single 0 ≠ (w.barrier 0).members) ∧
    (o.queueHead 0 = some gate ∧ inSet (o.barrier 0).members 0 = true ∧ (o.barrier 0).mode ≠ .all) ∧
    (c.queueHead 0 = some call ∧ (c.pattern 0).state = .ready ∧ c.patternSegment 0 0 = some pulseAlt ∧
      pulseAlt.isTimed = true) ∧
    (n.queueHead 0 = some call ∧ (n.pattern 0).state ≠ .ready ∧
      (((running n).notify (.patternMissing 0 0)).retireHead 0 .missed).queueHead 0 = some pulse) :=
  ⟨⟨ready_of 1 rfl rfl, ready_of 1 rfl rfl, ready_of 1 rfl rfl, ready_of 1 rfl rfl, ready_of 1 rfl rfl,
    ready_of 1 rfl rfl⟩, by decide⟩

/-- Lane 0 STOPPED before a BARRIER, lane 1 WAITING at it, each with a pulse behind its BARRIER. -/
def meeting : Part :=
  let p := headed gate .empty
  let p := { p with store := [(0, gate), (1, pulse), (4, gate), (5, pulseAlt)] }.setRegion 1
    { defined := true, start := 4, size := 4, binding := .lane 1, head := 0, count := 2, loaded := 0 }
  (p.setLane 1 { p.lane 1 with state := .waiting }).setBarrier 0
    { p.barrier 0 with members := 3, arrived := single 1 }

/-- QueueHeadIsProcessedByItsKind: the arrival that completes the set, of one lane and of two. -/
theorem test_QueueHeadIsProcessedByItsKind_premises_of_releases :
    let o := headed gate .empty
    let o := o.setBarrier 0 { o.barrier 0 with members := single 0 }
    let x := { o.lane 0 with record := none, trim := none, state := .running, armed := none, remaining := 0,
                             call := none, primary := 0, alternate := none, period := none }
    let met := fun (p : Part) (set : LaneSet) =>
      ((p.setLane 0 x).notify (.barrierReleased 0 .all set)).setBarrier 0
        { p.barrier 0 with arrived := 0, counter := none }
    let d := meeting
    let r := ((met d (single 1 ||| single 0)).setLane 1 { d.lane 1 with state := .running }).retireHead 0 .completed
    let t := (r.startTimed 0 pulse.body).retireHead 1 .completed
    o.Ready 1 ∧ d.Ready 1 ∧
    ((o.lane 0).state = .stopped ∧ o.queueHead 0 = some gate ∧ (∀ i, (o.fault i).mode = .off) ∧
      (o.barrier 0).mode = .all ∧ (o.barrier 0).arrived = 0 ∧ (o.barrier 0).members = single 0 ∧
      ((met o (single 0)).retireHead 0 .completed).queueHead 0 = some pulse) ∧
    ((d.lane 0).state = .stopped ∧ d.queueHead 0 = some gate ∧ (∀ i, (d.fault i).mode = .off) ∧
      (d.barrier 0).mode = .all ∧ (d.barrier 0).arrived = single 1 ∧
      (d.barrier 0).members = single 1 ||| single 0 ∧ (0 : Fin 6) < 1 ∧ r.queueHead 0 = some pulse ∧
      t.queueHead 1 = some pulseAlt ∧ pulseAlt.isTimed = true) :=
  ⟨ready_of 1 rfl rfl, ready_of 1 rfl rfl, by decide⟩

theorem test_StopActsByTheLaneState_premises :
    let m := linked.setLane 1 { linked.lane 1 with state := .merged }
    let s := playing .starved 9 1
    let h := s.setLane 0 { s.lane 0 with starve := .hold }
    (linked.Ready 1 ∧ m.Ready 1 ∧ h.Ready 1 ∧ (playing .running 9 2).Ready 1 ∧ (playing .stopping 9 2).Ready 1 ∧
      (queued .waiting).Ready 1 ∧ (queued .armed).Ready 1 ∧ (queued .starved).Ready 1 ∧ (queued .stopped).Ready 1 ∧
      (queued .halted).Ready 1) ∧
    (linked.lane 5).state = .unbound ∧ (m.lane 1).state = .merged ∧
    ((h.lane 0).state = .starved ∧ (h.lane 0).starve = .hold ∧ (h.lane 0).period = some (playedAt 9)) ∧
    (((playing .running 9 2).lane 0).state = .running ∧ ((playing .running 9 2).lane 0).period = some (playedAt 9) ∧
      (playedAt 9).phase < (playedAt 9).shape.length ∧ (playedAt 9).held = false ∧
      ((playing .running 9 2).lane 0).call = none) ∧
    (((playing .stopping 9 2).lane 0).state = .stopping ∧ ((playing .stopping 9 2).lane 0).call = none ∧
      ((playing .stopping 9 2).lane 0).period = some (playedAt 9)) ∧
    (((queued .waiting).lane 0).state = .waiting ∧ ((queued .waiting).lane 0).period = none ∧
      ((queued .waiting).lane 0).call = none) ∧
    ((queued .armed).lane 0).state = .armed ∧
    (((queued .starved).lane 0).state = .starved ∧ ((queued .starved).lane 0).starve = .safe) ∧
    ((queued .stopped).lane 0).state = .stopped ∧ ((queued .halted).lane 0).state = .halted :=
  ⟨⟨ready_of 1 rfl rfl, ready_of 1 rfl rfl, ready_of 1 rfl rfl, ready_of 1 rfl rfl, ready_of 1 rfl rfl,
    ready_of 1 rfl rfl, ready_of 1 rfl rfl, ready_of 1 rfl rfl, ready_of 1 rfl rfl, ready_of 1 rfl rfl⟩, by decide⟩

/-- StopActsByTheLaneState: a hard stop under HOLD, in a held period, at the end of a period, and inside a CALL at its
last timed segment and before it. -/
theorem test_StopActsByTheLaneState_premises_of_hard_stops :
    let s := playing .starved 9 1
    let h := s.setLane 0 { s.lane 0 with starve := .hold }
    let v : Period := { playedAt 3 with held := true }
    let a := (queued .running).setLane 0 { (queued .running).lane 0 with period := some v }
    let c := calling .running 1 1 1
    let e := calling .stopping 1 0 2
    (h.Ready 1 ∧ a.Ready 1 ∧ c.Ready 1 ∧ e.Ready 1 ∧ (playing .running 10 1).Ready 1) ∧
    ((h.lane 0).state = .starved ∧ (h.lane 0).starve = .hold) ∧
    ((a.lane 0).state = .running ∧ (a.lane 0).period = some v ∧ v.held = true) ∧
    (((playing .running 10 1).lane 0).period = some (playedAt 10) ∧ (playedAt 10).held = false ∧
      (playedAt 10).shape.length ≤ (playedAt 10).phase ∧ ((playing .running 10 1).lane 0).remaining ≤ 1) ∧
    ((c.lane 0).state = .running ∧ (c.lane 0).period = some (playedAt 10) ∧
      (c.lane 0).call = some { pattern := 0, plays := 1, index := 1, remaining := 1 } ∧
      c.patternSegment 0 1 = some pulse ∧ c.loadedLength 0 = 2) ∧
    ((e.lane 0).state = .stopping ∧
      (e.lane 0).call = some { pattern := 0, plays := 1, index := 0, remaining := 2 } ∧
      e.patternSegment 0 0 = some pulseAlt ∧ ¬2 ≤ 1 ∧ e.patternSegment 0 1 = some pulse ∧ pulse.isTimed = true) :=
  ⟨⟨ready_of 1 rfl rfl, ready_of 1 rfl rfl, ready_of 1 rfl rfl, ready_of 1 rfl rfl, ready_of 1 rfl rfl⟩, by decide⟩

theorem test_RetirementRemovesElementZero_premises :
    (queued .running).laneRegion 0 = some 0 ∧ (queued .running).queueHead 0 = some pulse := by decide

theorem test_SetLaneReplacesItsSettings_premises :
    let m := linked.setLane 1 { linked.lane 1 with state := .merged }
    linked.Ready 1 ∧ m.Ready 1 ∧ (queued .stopped).Ready 1 ∧
    (5 < (6 : Byte).toNat ∧ (5 : Byte).toNat ≤ 5 ∧ 1 < (2 : Byte).toNat ∧ (1 : Byte).toNat ≤ 1 ∧
      2047 < (2048 : Word16).toNat ∧ (2047 : Word16).toNat ≤ 2047) ∧
    (UnderrunPolicy.byte .holdLast = 1 ∧ LinkLossPolicy.byte .stop = 1) ∧
    (linked.lane 5).state = .unbound ∧ (m.lane 1).state = .merged ∧ ((queued .stopped).lane 0).state = .stopped :=
  ⟨ready_of 1 rfl rfl, ready_of 1 rfl rfl, ready_of 1 rfl rfl, by decide⟩

theorem test_TrimIsStaged_premises :
    let p := playing .stopping 3 1
    let a := p.setLane 0 { p.lane 0 with alternate := some 6 }
    p.Ready 1 ∧ a.Ready 1 ∧ (playing .running 3 1).Ready 1 ∧ ((playing .running 3 1).lane 0).state = .running ∧
    (p.lane 0).state = .stopping ∧ (p.lane 0).period = some (playedAt 3) ∧ (a.lane 0).period = some (playedAt 3) ∧
    (playedAt 3).shape = .pulse 10 .edge ∧ (playedAt 3).held = false ∧
    ((10 : Word16).toNat ≤ 10 ∧ 10 < (11 : Word16).toNat ∧ 1 < (2 : Byte).toNat) ∧ (a.lane 0).alternate.isSome = true ∧
    (p.lane 0).alternate = none :=
  ⟨ready_of 1 rfl rfl, ready_of 1 rfl rfl, ready_of 1 rfl rfl, by decide⟩

/-- TrimIsStaged: the clauses on the lane's state. -/
theorem test_TrimIsStaged_premises_of_states :
    let m := linked.setLane 1 { linked.lane 1 with state := .merged }
    let h : Period := { playedAt 3 with held := true }
    let v : Period := { shape := .level 10 .one, onTime := 0, phase := 3, held := false }
    let a := (queued .running).setLane 0 { (queued .running).lane 0 with period := some h }
    let b := (queued .running).setLane 0 { (queued .running).lane 0 with period := some v }
    linked.Ready 1 ∧ m.Ready 1 ∧ (queued .stopped).Ready 1 ∧ (queued .running).Ready 1 ∧ a.Ready 1 ∧ b.Ready 1 ∧
    (linked.lane 0).state = .unbound ∧ (m.lane 1).state = .merged ∧ ((queued .stopped).lane 0).state = .stopped ∧
    (((queued .running).lane 0).state = .running ∧ ((queued .running).lane 0).period = none) ∧
    ((a.lane 0).period = some h ∧ h.held = true) ∧ ((b.lane 0).period = some v ∧ v.shape = .level 10 .one) :=
  ⟨ready_of 1 rfl rfl, ready_of 1 rfl rfl, ready_of 1 rfl rfl, ready_of 1 rfl rfl, ready_of 1 rfl rfl,
    ready_of 1 rfl rfl, by decide⟩

/-- PatternBeginEmptiesAndOpens, PatternDataAddsSegments, PatternEndMakesItReady, PatternDiscardEmptiesIt. -/
theorem test_Pattern_premises :
    let e := patterned .loading [] 0
    let l := patterned .loading [(0, pulse), (1, pulse), (2, pulse)] 0
    let n := patterned .loading [(0, pulse), (1, pulse), (2, pulse), (3, pulse)] 0
    let u := patterned .ready [(0, pulse)] 1
    linked.Ready 1 ∧ e.Ready 1 ∧ l.Ready 1 ∧ n.Ready 1 ∧ u.Ready 1 ∧
    decodeSegments admittedInPattern 0 [pulse.encode] = .ok [pulse] ∧
    decodeSegments admittedInPattern 0 [gate.encode] = .error 0 ∧ 7 < (8 : Byte).toNat ∧
    ((linked.pattern 7).state = .unassigned ∧ (linked.pattern 7).state ≠ .loading) ∧
    (([] : List RawSegment).length = 0 ∧ 16 < (List.replicate 17 pulse.encode).length ∧
      1 ≤ [pulse.encode].length ∧ (List.replicate 16 pulse.encode).length ≤ 16) ∧
    (e.patternRegion 0 = some 0 ∧ l.patternRegion 0 = some 0 ∧ n.patternRegion 0 = some 0 ∧
      u.patternRegion 0 = some 0) ∧
    ((e.pattern 0).state = .loading ∧ (l.pattern 0).state = .loading ∧ (n.pattern 0).state = .loading) ∧
    ((u.pattern 0).state = .ready ∧ 0 < (u.pattern 0).useCount ∧ (l.pattern 0).useCount = 0) ∧
    ((l.region 0).loaded + [pulse].length ≤ (l.region 0).size ∧
      (n.region 0).size < (n.region 0).loaded + [pulse].length) ∧
    (0 < l.loadedLength 0 ∧ l.patternSegment 0 0 = some pulse ∧ pulse.isTimed = true) ∧ e.loadedLength 0 = 0 :=
  ⟨ready_of 1 rfl rfl, ready_of 1 rfl rfl, ready_of 1 rfl rfl, ready_of 1 rfl rfl, ready_of 1 rfl rfl, by rfl,
    by rfl, by decide⟩

theorem test_SetTriggerReplacesItsSettings_premises : linked.Ready 1 ∧
    (3 < (4 : Byte).toNat ∧ (3 : Byte).toNat ≤ 3 ∧ 1 < (2 : Byte).toNat) ∧
    (EdgeSelection.byte .both = 3 ∧ flagByte true = 1) := ⟨ready_of 1 rfl rfl, by decide⟩

theorem test_EdgesAreDeliveredToTheirConsumers_premises :
    let t : TriggerInput := { edges := .rise, capture := true, qualified := .low, previous := .high, sample := .high }
    let p := queued .armed
    let p := (p.setLane 0 { p.lane 0 with armed := some 0 }).setTrigger 0 t
    let u := linked.setTrigger 0 t
    let n := linked.setTrigger 0 { t with edges := .fall }
    p.Ready 1 ∧ u.Ready 1 ∧ (p.resetPhase = .ended ∧ u.resetPhase = .ended ∧ n.resetPhase = .ended) ∧
    (t.sample ≠ t.qualified ∧ t.sample = t.previous) ∧
    (p.trigger 0 = t ∧ u.trigger 0 = t ∧ EdgeSelection.admits .rise .rise = true) ∧
    ((n.trigger 0).edges = .fall ∧ EdgeSelection.admits .fall .rise = false) ∧
    (∀ b, (p.barrier b).mode = .all) ∧ (∀ b, (u.barrier b).mode = .all) ∧ u.armedOn 0 = 0 ∧
    (p.armedOn 0 = single 0 ∧ p.queueHead 0 = some pulse ∧ pulse.isTimed = true) :=
  ⟨ready_of 1 rfl rfl, ready_of 1 rfl rfl, by decide⟩

theorem test_SetBarrierReplacesItsSettings_premises :
    let w := linked.setBarrier 0 { linked.barrier 0 with members := 1, arrived := 1 }
    linked.Ready 1 ∧ w.Ready 1 ∧
    (3 < (4 : Byte).toNat ∧ (3 : Byte).toNat ≤ 3 ∧ 63 < (64 : Byte).toNat ∧ (63 : Byte).toNat ≤ 63 ∧
      2 < (3 : Byte).toNat ∧ (2 : Byte).toNat ≤ 2 ∧ 1 < (2 : Byte).toNat) ∧
    (setByte (63 : LaneSet) = 63 ∧ ReleaseMode.byte .allThenTrigger = 2 ∧ TimeoutAction.byte .stop = 1) ∧
    (w.barrier 0).arrived ≠ 0 ∧ (linked.barrier 0).arrived = 0 := ⟨ready_of 1 rfl rfl, ready_of 1 rfl rfl, by decide⟩

/-- Lane 0 waits alone at barrier 0, with a pulse behind its BARRIER. -/
def waiting (action : TimeoutAction) : Part :=
  let p := withRegion (.lane 0) [(0, gate), (1, pulse)] 2 0 linked
  let p := { p with timebase := { p.timebase with count := 1024 } }
  (p.setLane 0 { p.lane 0 with state := .waiting }).setBarrier 0
    { members := 3, arrived := 1, mode := .all, trigger := 0, timeout := 1, action := action, counter := some 0 }

theorem test_ReleaseBarrierLetsTheLaneGo_premises :
    let p := waiting .release
    linked.Ready 1 ∧ p.Ready 1 ∧ (linked.barrier 3).arrived = 0 ∧ (p.barrier 0).arrived = single 0 ∧
    (((p.notify (.barrierReleased 0 .request (single 0))).setBarrier 0
      { p.barrier 0 with arrived := 0, counter := none }).retireHead 0 .completed).queueHead 0 = some pulse :=
  ⟨ready_of 1 rfl rfl, ready_of 1 rfl rfl, by decide⟩

/-- EdgesAreDeliveredToTheirConsumers: a barrier in mode TRIGGER, one in ALL_THEN_TRIGGER, and a barrier with a lane
ARMED on the same input. -/
theorem test_EdgesAreDeliveredToTheirConsumers_premises_of_barriers :
    let t : TriggerInput := { edges := .both, capture := false, qualified := .low, previous := .high, sample := .high }
    let w := (waiting .release).setTrigger 0 t
    let p := w.setBarrier 0 { w.barrier 0 with mode := .trigger }
    let a := w.setBarrier 0 { w.barrier 0 with mode := .allThenTrigger, members := single 0 }
    let d := { p with store := [(0, gate), (1, pulse), (4, pulseAlt)] }.setRegion 1
      { defined := true, start := 4, size := 4, binding := .lane 2, head := 0, count := 1, loaded := 0 }
    let d := d.setLane 2 { d.lane 2 with state := .armed, armed := some 0 }
    let freed := fun (p : Part) =>
      (((p.notify (.barrierReleased 0 .trigger (single 0))).setBarrier 0
        { p.barrier 0 with arrived := 0, counter := none }).setLane 0 { p.lane 0 with state := .running }).retireHead 0
          .completed
    (p.Ready 1 ∧ a.Ready 1 ∧ d.Ready 1) ∧ (p.resetPhase = .ended ∧ t.sample ≠ t.qualified ∧ t.sample = t.previous) ∧
    (∀ q ∈ [p, a, d], (∀ b, b ≠ 0 → (q.barrier b).mode = .all) ∧ (q.barrier 0).trigger = 0 ∧
      (q.barrier 0).arrived = single 0 ∧ (freed q).queueHead 0 = some pulse) ∧
    ((p.barrier 0).mode = .trigger ∧ p.armedOn 0 = 0) ∧
    ((a.barrier 0).mode = .allThenTrigger ∧ (a.barrier 0).members = single 0 ∧ a.armedOn 0 = 0) ∧
    (d.armedOn 0 = single 2 ∧ ((freed d).startTimed 0 pulse.body).queueHead 2 = some pulseAlt) :=
  ⟨⟨ready_of 1 rfl rfl, ready_of 1 rfl rfl, ready_of 1 rfl rfl⟩, by decide⟩

/-- EdgesAreDeliveredToTheirConsumers: barrier 3 in ALL_THEN_TRIGGER with an empty member set, without and with a lane
ARMED on its input; barrier 1 in TRIGGER with no lane and barrier 2 with an incomplete set stay. -/
theorem test_EdgesAreDeliveredToTheirConsumers_premises_of_an_empty_member_set :
    let t : TriggerInput := { edges := .both, capture := true, qualified := .low, previous := .high, sample := .high }
    let empty := fun (p : Part) =>
      (((p.setTrigger 0 t).setBarrier 3 { p.barrier 3 with mode := .allThenTrigger }).setBarrier 1
        { p.barrier 1 with mode := .trigger }).setBarrier 2 { p.barrier 2 with mode := .allThenTrigger, members := 3 }
    let u := empty linked
    let p := empty (queued .armed)
    let d := p.setLane 0 { p.lane 0 with armed := some 0 }
    (u.Ready 1 ∧ d.Ready 1) ∧ (u.resetPhase = .ended ∧ t.sample ≠ t.qualified ∧ t.sample = t.previous) ∧
    (∀ q ∈ [u, d], ((q.barrier 0).mode = .all ∧ ((q.barrier 1).mode = .trigger ∧ (q.barrier 1).arrived = 0) ∧
        ((q.barrier 2).mode = .allThenTrigger ∧ (q.barrier 2).arrived ≠ (q.barrier 2).members)) ∧
      (q.barrier 3).trigger = 0 ∧ (q.barrier 3).mode = .allThenTrigger ∧ (q.barrier 3).members = 0 ∧
      (q.barrier 3).arrived = 0) ∧
    u.armedOn 0 = 0 ∧ (d.armedOn 0 = single 0 ∧ d.queueHead 0 = some pulse ∧ pulse.isTimed = true) :=
  ⟨⟨ready_of 1 rfl rfl, ready_of 1 rfl rfl⟩, by decide⟩

/-- An edge at a barrier in ALL_THEN_TRIGGER with an empty member set releases the empty set, and at one in TRIGGER
without a lane nothing (R117, R127, Log 13). -/
theorem test_an_edge_releases_the_empty_member_set :
    let p := (linked.setBarrier 3 { linked.barrier 3 with mode := .allThenTrigger }).setBarrier 1
      { linked.barrier 1 with mode := .trigger }
    p.deliverEdge 0 .rise false = p.notify (.barrierReleased 3 .trigger 0) := by decide +kernel

theorem test_BarrierTimeoutActs_premises :
    let p := waiting .release
    let q := waiting .stop
    p.resetPhase = .ended ∧ (p.barrier 0).counter = some 0 ∧ 0 < (p.barrier 0).timeout ∧
    1024 * (p.barrier 0).timeout ≤ (p.timebase.count - 0).toNat ∧ (p.barrier 0).arrived = single 0 ∧
    ((p.barrier 0).action = .release ∧ (((p.notify (.barrierReleased 0 .timeout (single 0))).setBarrier 0
      { p.barrier 0 with arrived := 0, counter := none }).retireHead 0 .completed).queueHead 0 = some pulse) ∧
    ((q.barrier 0).action = .stop ∧ (q.lane 0).state = .waiting ∧ (q.lane 0).call = none ∧
      (q.lane 0).period = none) := by decide

theorem test_SetFaultReplacesItsSettings_premises :
    (faulted .off 0 true).Ready 1 ∧ (faulted .off 0 false).Ready 1 ∧
    (1 ≤ (1 : Byte).toNat ∧ (15 : Byte).toNat ≤ 15) ∧ ((faulted .off 0 true).fault 0).sticky = true ∧
    ((faulted .off 0 false).fault 0).sticky = false ∧ ((faulted .off 0 false).fault 0).qualified ≠ .low ∧
    ((faulted .off 0 false).fault 0).qualified = .high ∧
    (0 : LaneSet) &&& ~~~(faulted .off 0 false).mergedLanes = 0 := ⟨ready_of 1 rfl rfl, ready_of 1 rfl rfl, by decide⟩

theorem test_ClearFaultFreesTheLanes_premises :
    let p := faulted .latch 1 true
    let q := p.setFault 0 { p.fault 0 with qualified := .low, sample := .low }
    p.Ready 1 ∧ q.Ready 1 ∧ (1 : InputSet) ≠ 0 ∧
    (inSet (1 : InputSet) 0 = true ∧ (p.fault 0).mode ≠ .off ∧ (p.fault 0).live = true) ∧
    (∀ i, (q.fault i).live = false) := ⟨ready_of 1 rfl rfl, ready_of 1 rfl rfl, by decide⟩

theorem test_UnknownRequestsAreAnswered_premises : linked.Ready 1 ∧
    (Instr.unknownRequest 1 0xFF (List.replicate 240 0)).wf = true := ⟨ready_of 1 rfl rfl, by decide +kernel⟩

/-- UnknownRequestsAreAnswered: GET_STATUS with a byte of payload, and APPEND with none. -/
theorem test_UnknownRequestsAreAnswered_premises_of_lengths :
    let crc := fun (bytes : List Byte) => [highByte (crc16 bytes).toNat, byteOf (crc16 bytes).toNat]
    let p := { linked with link := { linked.link with rx := .inFrame ([4, 1, 1, 3, 0] ++ crc [4, 1, 1, 3, 0]) } }
    p.link.rx = .inFrame (byteOf (([0] : List Byte).length + 3) :: 1 :: 1 :: 3 ::
      ([0] ++ crc [4, 1, 1, 3, 0])) ∧
    (p.resetPhase = .ended ∧ p.link.synced = true ∧ p.link.dispatchStopped = false ∧ p.link.buffer = [] ∧
      p.link.slot = none ∧ p.link.cache = none) ∧
    (([0] : List Byte).length ≤ 240 ∧ ([0] : List Byte).length ≠ 0) ∧
    crc16 [4, 1, 1, 3, 0] = highByte (crc16 [4, 1, 1, 3, 0]).toNat ++ byteOf (crc16 [4, 1, 1, 3, 0]).toNat ∧
    (∀ n, 1 ≤ n → n ≤ 16 → ([] : List Byte).length ≠ 1 + 12 * n) :=
  ⟨by decide +kernel, by decide, by decide, by decide +kernel, fun n _ _ h => by simp at h; omega⟩

theorem test_RequestsPassTheFirstChecks_premises :
    let f := requestFrame 1 (requestCode .getStatus) []
    let r : Reply := { seq := 1, code := 3, answer := okWith [], resets := false }
    let e : CacheEntry := { seq := 1, crc := f.crc, reply := r }
    let c := { linked with link := { linked.link with cache := some e } }
    let b := { linked with link := { linked.link with
      buffer := [f, f], slot := some r, tx := some r.frame } }
    requestOf (.getStatus 1) = some f ∧ State.reset.part.resetPhase = .ended ∧
    (State.reset.part.link.dispatchStopped = false ∧ State.reset.part.link.buffer = [] ∧
      State.reset.part.link.slot = none ∧ State.reset.part.link.synced = false ∧ f.code ≠ 0x01) ∧
    (c.link.synced = true ∧ c.link.cache = some e ∧ e.seq = f.seq ∧ e.crc = f.crc) ∧
    (requestOf (.getLane 1 0) = some (requestFrame 1 (requestCode .getLane) [0]) ∧
      e.crc ≠ (requestFrame 1 (requestCode .getLane) [0]).crc) ∧
    (b.link.buffer.length = 2 ∧ b.link.slot.isSome = true ∧ b.link.tx.isSome = true) := by
  refine ⟨rfl, rfl, by decide, by decide +kernel, by decide +kernel, by decide⟩

theorem test_CompleteFramesAreSorted_premises :
    State.reset.part.resetPhase = .ended ∧ (3 : Byte).toNat = ([] : List Byte).length + 3 ∧
    (243 : Byte).toNat = (List.replicate 240 (0 : Byte)).length + 3 ∧ (243 : Byte).toNat ≤ 243 ∧
    crc16 [3, 1, 1, 1] ≠ (0 : Byte) ++ (0 : Byte) ∧
    (highByte (crc16 [3, 1, 1, 1]).toNat ++ byteOf (crc16 [3, 1, 1, 1]).toNat = crc16 [3, 1, 1, 1]) ∧
    State.reset.part.link.buffer.length < 2 ∧
    ((told [entry (.inFlight 0 false)]).notif.acknowledge 0 20 0).isSome = true ∧
    ((told []).notif.acknowledge 0 20 0) = none ∧ (4 : Byte) ≠ 3 ∧ (2 : Byte) ≠ 1 ∧ (2 : Byte) ≠ 4 := by decide +kernel

theorem test_AcknowledgementIsCumulative_premises :
    let u := (told [entry (.inFlight 254 true), entry (.inFlight 255 false), entry .pending]).notif
    u.queue = [entry (.inFlight 254 true)] ++ entry (.inFlight 255 false) :: [entry .pending] ∧
    (entry (.inFlight 255 false)).status = .inFlight 255 false ∧
    (∀ d ∈ [entry (.inFlight 254 true)], ∃ m b, d.status = .inFlight m b ∧ m ≠ 255) ∧
    (∀ d ∈ u.queue, ∀ b, d.status ≠ .inFlight 0 b) := by
  refine ⟨rfl, rfl, ?_, by decide⟩
  intro d hd
  rw [List.mem_singleton.mp hd]
  exact ⟨254, true, rfl, by decide⟩

/-- AcknowledgementIsCumulative: with a tally, for which there is room, and without one. -/
theorem test_AcknowledgementIsCumulative_premises_of_the_tally :
    let u := { (told [entry (.inFlight 255 false), entry (.inFlight 0 false)]).notif with lostCount := 1 }
    u.queue = [] ++ entry (.inFlight 255 false) :: [entry (.inFlight 0 false)] ∧
    [entry (.inFlight 0 false)].length < 32 ∧ u.lostCount ≠ 0 ∧
    ((told []).notif.lostCount = 0 ∧ (told []).notif.lostKinds = 0) ∧
    (u.acknowledge 255 20 9).map (fun v => (v.queue.getLast?, v.lostCount)) =
      some (some { what := .lost 1 0, stamp := 9, status := .pending }, 0) := by decide +kernel

theorem test_BytesAreHuntedJoinedOrDropped_premises :
    let r := State.reset.part
    let w := { r with link := { r.link with awaitsIdle := false, rx := .inFrame [], gap := some 160000 } }
    let h := { r with link := { r.link with awaitsIdle := false } }
    r.resetPhase = .ended ∧ w.resetPhase = .ended ∧ (r.link.awaitsIdle = true ∧ h.link.awaitsIdle = false) ∧
    (r.link.receiving = false ∧ { r.link with receiving := true }.receiving = true) ∧
    (r.link.rx = .hunting ∧ (0x5B : Byte) ≠ 0x5A ∧ h.link.rx = .hunting) ∧
    (w.link.rx = .inFrame [] ∧ w.link.lengthDue = false ∧ w.link.frameDue = false) ∧
    ((2 : Byte).toNat < 3 ∧ 243 < (244 : Byte).toNat) ∧ w.link.gap = some 160000 := by decide

theorem test_TransmitterPassesToTheNextFrame_premises :
    let t : TxFrame := { bytes := [], resets := false }
    let r : Reply := { seq := 1, code := 3, answer := okWith [], resets := false }
    let p := { linked with link := { linked.link with tx := some t } }
    let a := { p with link := { p.link with slot := some r } }
    let b := { p with notif := { p.notif with channel := .stalled } }
    let c := { p with notif := { p.notif with queue := [entry (.inFlight 0 false), entry (.inFlight 1 true)] } }
    let d := { p with notif := { p.notif with queue :=
      [entry (.inFlight 0 false), entry (.inFlight 1 false), entry (.inFlight 2 false), entry .pending] } }
    (p.resetPhase = .ended ∧ p.link.tx = some t ∧ t.resets = false ∧ p.link.buffer = []) ∧ a.link.slot = some r ∧
    (p.link.slot = none ∧ b.notif.channel = .stalled) ∧ (p.link.synced = true ∧ p.notif.channel = .running) ∧
    (c.notif.queue = [entry (.inFlight 0 false)] ++ entry (.inFlight 1 true) :: [] ∧
      ∀ e ∈ [entry (.inFlight 0 false)], ∀ m, e.status ≠ .inFlight m true) ∧
    (d.notif.queue = [entry (.inFlight 0 false), entry (.inFlight 1 false), entry (.inFlight 2 false)] ++
      entry .pending :: [] ∧
      ∀ e ∈ [entry (.inFlight 0 false), entry (.inFlight 1 false), entry (.inFlight 2 false)],
        ∃ m, e.status = .inFlight m false) := by
  refine ⟨⟨rfl, rfl, rfl, rfl⟩, rfl, ⟨rfl, rfl⟩, ⟨rfl, rfl⟩, ⟨rfl, ?_⟩, ⟨rfl, ?_⟩⟩
  · intro e he m h
    rw [List.mem_singleton.mp he] at h
    cases h
  · intro e he
    simp only [List.mem_cons, List.not_mem_nil, or_false] at he
    rcases he with h | h | h <;> rw [h] <;> exact ⟨_, rfl⟩

theorem test_ResetsBeginAndEnd_premises :
    let t : TxFrame := { bytes := [], resets := true }
    let p := { linked with link := { linked.link with tx := some t } }
    linked.resetPhase = .ended ∧ ({ linked with resetPhase := .held 0 } : Part).resetPhase = .held 0 ∧
    ({ linked with resetPhase := .held 0 } : Part).resetPhase ≠ .ended ∧ p.link.tx = some t ∧ t.resets = true := by
  decide

theorem test_FaultsActOnTheirLanes_premises :
    let a := qualifying .low .latch linked
    let b := qualifying .high .off linked
    let c := qualifying .high .cycle linked
    let d := qualifying .high .latch (playing .running 9 2)
    (a.resetPhase = .ended ∧ (a.fault 0).due = true ∧ (a.fault 0).sample ≠ (a.fault 0).activeLevel) ∧
    ((b.fault 0).due = true ∧ (b.fault 0).sample = (b.fault 0).activeLevel ∧ (b.fault 0).mode = .off) ∧
    ((c.fault 0).due = true ∧ (c.fault 0).sample = (c.fault 0).activeLevel ∧
      (∀ m, inSet (c.fault 0).lanes m = true ∧ (c.lane m).state ≠ .merged ↔ m = 0) ∧
      (c.fault 0).mode = .cycle) ∧
    ((d.fault 0).due = true ∧ (d.fault 0).sample = (d.fault 0).activeLevel ∧
      (∀ m, inSet (d.fault 0).lanes m = true ∧ (d.lane m).state ≠ .merged ↔ m = 0) ∧
      (d.fault 0).mode = .latch ∧ (d.lane 0).state = .running ∧ (d.lane 0).period = some (playedAt 9) ∧
      (playedAt 9).phase < (playedAt 9).shape.length ∧ (playedAt 9).held = false ∧ (d.lane 0).call = none) := by
  decide

/-- FaultsActOnTheirLanes: a map that names no lane, and LATCH on a lane in each state. -/
theorem test_FaultsActOnTheirLanes_premises_of_states :
    let v : Period := { playedAt 3 with held := true }
    let latch := fun (p : Part) => qualifying .high .latch p
    let e := (latch linked).setLane 0 { linked.lane 0 with state := .merged }
    let a := latch ((queued .running).setLane 0 { (queued .running).lane 0 with period := some v })
    let c := latch (calling .running 1 1 1)
    let d := latch (calling .stopping 2 1 1)
    (∀ p ∈ [e, a, c, d], (p.fault 0).due = true ∧ (p.fault 0).sample = (p.fault 0).activeLevel ∧
      (p.fault 0).mode = .latch ∧ inSet (p.fault 0).lanes 0 = true ∧ ∀ m, m ≠ 0 → inSet (p.fault 0).lanes m = false) ∧
    (e.lane 0).state = .merged ∧ ((a.lane 0).state = .running ∧ (a.lane 0).period = some v ∧ v.held = true) ∧
    ((c.lane 0).state = .running ∧ (c.lane 0).period = some (playedAt 10) ∧ (playedAt 10).held = false ∧
      (c.lane 0).call = some { pattern := 0, plays := 1, index := 1, remaining := 1 } ∧
      c.patternSegment 0 1 = some pulse ∧ (playedAt 10).shape.length ≤ (playedAt 10).phase ∧ c.loadedLength 0 = 2) ∧
    ((d.lane 0).state = .stopping ∧
      (d.lane 0).call = some { pattern := 0, plays := 2, index := 1, remaining := 1 } ∧
      d.patternSegment 0 1 = some pulse ∧ 1 < 2) ∧
    (∀ st ∈ [LaneState.armed, .starved, .halted, .stopped, .unbound],
      ((latch (queued st)).lane 0).state = st ∧ ((latch (queued st)).fault 0).due = true) ∧
    (((latch (queued .waiting)).lane 0).state = .waiting ∧ ((latch (queued .waiting)).lane 0).period = none ∧
      ((latch (queued .waiting)).lane 0).call = none) := by decide +kernel

theorem test_BoundaryBeginsTheNextPeriod_premises :
    let p := playing .running 10 2
    let v : Period := { shape := .level 10 .one, onTime := 0, phase := 10, held := false }
    let q := p.setLane 0 { p.lane 0 with period := some v }
    let t := p.setLane 0 { p.lane 0 with trim := some { onTime := 10, alternate := none } }
    p.resetPhase = .ended ∧
    ((p.lane 0).state = .running ∧ (p.lane 0).call = none ∧ (p.lane 0).period = some (playedAt 10) ∧
      (playedAt 10).held = false ∧ (playedAt 10).shape.length ≤ (playedAt 10).phase ∧ 1 < (p.lane 0).remaining ∧
      (playedAt 10).shape = .pulse 10 .edge ∧ (p.lane 0).trim = none) ∧
    ((q.lane 0).period = some v ∧ v.shape = .level 10 .one ∧ v.shape.length ≤ v.phase) ∧
    (t.lane 0).trim = some { onTime := 10, alternate := none } ∧
    (((calling .running 1 0 2).lane 0).state = .running ∧
      ((calling .running 1 0 2).lane 0).period = some (playedAt 10) ∧
      ((calling .running 1 0 2).lane 0).call = some { pattern := 0, plays := 1, index := 0, remaining := 2 }) := by
  decide

theorem test_JoinGoesOnOrStarves_premises :
    let p := playing .running 10 1
    let q := (p.setLane 0 { p.lane 0 with remaining := 0, primary := 0, alternate := none,
                                          period := none }).retireHead 0 .completed
    let p' := withRegion (.lane 0) [(0, pulse), (1, pulseAlt)] 2 0 p
    let q' := (p'.setLane 0 { p'.lane 0 with remaining := 0, primary := 0, alternate := none,
                                             period := none }).retireHead 0 .completed
    (p.resetPhase = .ended ∧ (p.lane 0).state = .running ∧ (p.lane 0).call = none ∧ (p.lane 0).trim = none ∧
      (p.lane 0).period = some (playedAt 10) ∧ (playedAt 10).held = false ∧
      (playedAt 10).shape.length ≤ (playedAt 10).phase ∧ (p.lane 0).remaining ≤ 1) ∧
    (q.queueHead 0 = none ∧ (p.lane 0).policy = .safe) ∧
    ((p'.lane 0).state = .running ∧ q'.queueHead 0 = some pulseAlt ∧ pulseAlt.isTimed = true) := by decide

/-- JoinGoesOnOrStarves: after a held period, with a trim staged, and inside a CALL. -/
theorem test_JoinGoesOnOrStarves_premises_of_clauses :
    let h : Period := { playedAt 10 with held := true }
    let a := (queued .running).setLane 0 { (queued .running).lane 0 with period := some h }
    let p0 := ((playing .running 10 1).setLane 0 { (playing .running 10 1).lane 0 with
      trim := some { onTime := 10, alternate := none } })
    let c := calling .running 1 0 1
    let e := calling .running 1 1 1
    let y := { e.lane 0 with trim := none, remaining := 0, primary := 0, alternate := none, period := none,
                             call := none }
    (a.resetPhase = .ended ∧ (a.lane 0).state = .running ∧ (a.lane 0).period = some h ∧
      h.shape.length ≤ h.phase ∧ h.held = true ∧ a.queueHead 0 = some pulse) ∧
    (p0.lane 0).trim.isSome = true ∧
    ((c.lane 0).state = .running ∧ (c.lane 0).period = some (playedAt 10) ∧
      (c.lane 0).call = some { pattern := 0, plays := 1, index := 0, remaining := 1 } ∧
      c.patternSegment 0 0 = some pulseAlt ∧ 0 + 1 < c.loadedLength 0 ∧ c.patternSegment 0 (0 + 1) = some pulse ∧
      pulse.isTimed = true) ∧
    ((e.lane 0).call = some { pattern := 0, plays := 1, index := 1, remaining := 1 } ∧
      e.patternSegment 0 1 = some pulse ∧ pulse.tag = none ∧ e.loadedLength 0 ≤ 1 + 1 ∧
      (((e.setLane 0 y).setPattern 0 { e.pattern 0 with useCount := (e.pattern 0).useCount - 1 }).retireHead 0
        .completed).queueHead 0 = some pulse) := by decide

/-- JoinGoesOnOrStarves: HOLD_LAST with a record, the segments that take no time at the head of the queue, and inside a
CALL a MARK after the segment and a further play. -/
theorem test_JoinGoesOnOrStarves_premises_of_heads :
    let ends := fun (p : Part) => p.setLane 0 { p.lane 0 with state := .running, period := some (playedAt 10) }
    let y := fun (p : Part) => { p.lane 0 with remaining := 0, primary := 0, alternate := none, period := none,
                                               trim := none }
    let next := fun (p : Part) => (p.setLane 0 (y p)).retireHead 0 .completed
    let behind := fun (g : Segment) (st : PatternState) =>
      let p := headed g st
      ends ({ p with store := [(0, pulse), (1, g), (2, pulse), (4, pulseAlt)] }.setRegion 0
        { p.region 0 with count := 3 })
    let mark : Segment := { tag := some 254, body := .mark }
    let h := playing .running 10 1
    let h := h.setLane 0 { h.lane 0 with policy := .holdLast, record := some (.pulse 10 .edge 4 none) }
    let m := behind mark .empty
    let b := behind gate .empty
    let w := b.setBarrier 0 { b.barrier 0 with members := 3 }
    let c := behind call .ready
    let n := behind call .loading
    ((h.lane 0).policy = .holdLast ∧ (h.lane 0).record.isSome = true ∧ (next h).queueHead 0 = none) ∧
    (∀ p ∈ [m, b, w, c, n], (p.lane 0).state = .running ∧ (p.lane 0).period = some (playedAt 10) ∧
      (p.lane 0).call = none ∧ (p.lane 0).remaining ≤ 1) ∧
    ((next m).queueHead 0 = some mark ∧
      (((next m).notify (.markReached 0 254 none)).retireHead 0 .completed).queueHead 0 = some pulse) ∧
    ((next b).queueHead 0 = some gate ∧ inSet (b.barrier 0).members 0 = false ∧
      (((next b).notify (.barrierPass 0 0)).retireHead 0 .completed).queueHead 0 = some pulse) ∧
    ((next w).queueHead 0 = some gate ∧ inSet (w.barrier 0).members 0 = true ∧
      (w.barrier 0).arrived ||| single 0 ≠ (w.barrier 0).members) ∧
    ((next c).queueHead 0 = some call ∧ (c.pattern 0).state = .ready ∧ (next c).patternSegment 0 0 = some pulseAlt) ∧
    ((next n).queueHead 0 = some call ∧ (n.pattern 0).state ≠ .ready ∧
      (((next n).notify (.patternMissing 0 0)).retireHead 0 .missed).queueHead 0 = some pulse) := by decide

/-- JoinGoesOnOrStarves: inside a CALL, a MARK after the segment, and a further play. -/
theorem test_JoinGoesOnOrStarves_premises_of_plays :
    let mark : Segment := { tag := some 254, body := .mark }
    let c := calling .running 1 0 1
    let c := { c with store := [(0, call), (1, pulse), (4, pulse), (5, mark), (6, pulseAlt)] }.setRegion 1
      { c.region 1 with loaded := 3 }
    let e := calling .running 2 1 1
    ((c.lane 0).state = .running ∧ (c.lane 0).period = some (playedAt 10) ∧
      (c.lane 0).call = some { pattern := 0, plays := 1, index := 0, remaining := 1 } ∧ 0 + 2 < c.loadedLength 0 ∧
      c.patternSegment 0 0 = some pulse ∧ c.patternSegment 0 (0 + 1) = some mark ∧
      c.patternSegment 0 (0 + 2) = some pulseAlt) ∧
    ((e.lane 0).call = some { pattern := 0, plays := 2, index := 1, remaining := 1 } ∧ e.loadedLength 0 ≤ 1 + 1 ∧
      1 < 2 ∧ e.patternSegment 0 1 = some pulse ∧ e.patternSegment 0 0 = some pulseAlt) := by decide

theorem test_HeldPeriodRepeatsTheRecord_premises :
    let v : Period := { playedAt 10 with held := true }
    let p := unqueued .starved
    let a := p.setLane 0 { p.lane 0 with starve := .hold, period := some v, record := some (.level 5 .one) }
    let b := p.setLane 0 { p.lane 0 with starve := .hold, period := some v,
                                         record := some (.pulse 10 .edge 4 (some 6)) }
    (a.resetPhase = .ended ∧ (a.lane 0).state = .starved ∧ (a.lane 0).starve = .hold ∧ (a.lane 0).period = some v ∧
      v.shape.length ≤ v.phase ∧ (a.lane 0).record = some (.level 5 .one)) ∧
    ((b.lane 0).state = .starved ∧ (b.lane 0).starve = .hold ∧ (b.lane 0).period = some v ∧
      (b.lane 0).record = some (.pulse 10 .edge 4 (some 6))) := by decide

theorem test_SoftStopCompletes_premises :
    let p := playing .stopping 10 1
    p.resetPhase = .ended ∧ (p.lane 0).state = .stopping ∧ (p.lane 0).call = none ∧ (p.lane 0).trim = none ∧
    (p.lane 0).period = some (playedAt 10) ∧ (playedAt 10).held = false ∧
    (playedAt 10).shape.length ≤ (playedAt 10).phase ∧ (p.lane 0).remaining ≤ 1 ∧
    ¬((playing .stopping 10 2).lane 0).remaining ≤ 1 := by decide

/-- SoftStopCompletes: after a held period, and inside a CALL, at its last segment and before it. -/
theorem test_SoftStopCompletes_premises_of_clauses :
    let h : Period := { playedAt 10 with held := true }
    let a := (queued .stopping).setLane 0 { (queued .stopping).lane 0 with period := some h }
    let c := calling .stopping 1 1 1
    let e := calling .stopping 1 0 1
    (a.resetPhase = .ended ∧ (a.lane 0).state = .stopping ∧ (a.lane 0).period = some h ∧
      h.shape.length ≤ h.phase ∧ h.held = true) ∧
    ((c.lane 0).state = .stopping ∧ (c.lane 0).period = some (playedAt 10) ∧
      (c.lane 0).call = some { pattern := 0, plays := 1, index := 1, remaining := 1 } ∧
      c.patternSegment 0 1 = some pulse ∧ ∀ i, 1 < i → i < c.loadedLength 0 → False) ∧
    ((e.lane 0).call = some { pattern := 0, plays := 1, index := 0, remaining := 1 } ∧
      e.patternSegment 0 0 = some pulseAlt ∧ 1 < e.loadedLength 0 ∧ e.patternSegment 0 1 = some pulse ∧
      pulse.isTimed = true) := by
  refine ⟨by decide, ⟨rfl, rfl, rfl, by decide, fun i hi hl => ?_⟩, by decide⟩
  have hl' : i < 2 := hl
  omega

theorem test_LinesFollowTheirDemands_premises :
    let x := linked.pair 0
    let y := { x with mode := .complementary, deadA := 2, deadB := 2,
                      top := { x.top with wasRequested := true, since := some 2 },
                      bottom := { x.bottom with wasRequested := true, since := some 2 } }
    (10 ≤ 10 ∧ 9 < 10) ∧ x.mode = .independent ∧ y.mode = .complementary ∧ (x.deadA = 0 ∧ x.deadB = 0) ∧
    (y.top.since = some 2 ∧ y.deadA.toNat ≤ 2 ∧ y.bottom.since = some 2 ∧ y.deadB.toNat ≤ 2) ∧
    (x.top.wasRequested = false ∧ y.deadA ≠ 0 ∧ x.bottom.wasRequested = false ∧ y.deadB ≠ 0) ∧
    (0 + 1 < y.deadA.toNat ∧ 1 + 1 = y.deadA.toNat ∧ y.deadA.toNat ≤ 2) ∧
    (∀ st ∈ [LaneState.running, .stopping], ((playing st 3 1).lane 0).state = st ∧
      ((playing st 3 1).lane 0).suppressed = false ∧ ((playing st 3 1).lane 0).period = some (playedAt 3)) ∧
    (linked.lane 0).period = none := by decide

theorem test_DelayedActivationIsTaken_premises :
    let x := linked.pair 0
    let n : Line := { x.top with requested := true, wasRequested := true, since := some 1 }
    let p := linked.setPair 0 { x with mode := .complementary, deadA := 2, deadB := 2, top := n, bottom := n }
    p.resetPhase = .ended ∧ (p.pair 0).mode = .complementary ∧ (p.lane (evenLane 0)).anyDue = false ∧
    ((p.pair 0).top.requested = true ∧ (p.pair 0).top.wasRequested = true ∧
      (p.pair 0).top.activationTaken = false ∧ 0 < (p.pair 0).deadA.toNat ∧
      (p.pair 0).top.since = some ((p.pair 0).deadA.toNat - 1)) ∧
    ((p.pair 0).bottom.requested = true ∧ (p.pair 0).bottom.wasRequested = true ∧
      (p.pair 0).bottom.activationTaken = false ∧ 0 < (p.pair 0).deadB.toNat ∧
      (p.pair 0).bottom.since = some ((p.pair 0).deadB.toNat - 1)) := by decide

theorem test_TickAdvancesTime_premises : linked.resetPhase = .ended ∧ linked.takeDue = linked ∧
    (let p := { linked with link := { linked.link with awaitsIdle := false } }
     p.link.receiving = false ∧ { p with link := { p.link with receiving := true, gap := none } }.takeDue =
       { p with link := { p.link with receiving := true, gap := none } }) := by
  decide +kernel

theorem test_ExpiryMarksOrStalls_premises :
    let p := { linked with notif := { linked.notif with timer := some 0, expiries := 6 } }
    let q := { linked with notif := { linked.notif with timer := some 0, expiries := 7 } }
    p.resetPhase = .ended ∧ p.notif.timer = some 0 ∧ p.notif.expiries + 1 < p.link.stallLimit ∧
    (q.link.stallLimit ≤ q.notif.expiries + 1 ∧ ∀ l, (q.lane l).linkLoss = .continue) := by decide

/-- ExpiryMarksOrStalls: a lane with link-loss policy STOP, in a period, WAITING, ARMED, and at rest. -/
theorem test_ExpiryMarksOrStalls_premises_of_link_loss :
    let stalls := fun (p : Part) =>
      { p.setLane 0 { p.lane 0 with linkLoss := .stop } with
        notif := { p.notif with timer := some 0, expiries := 7 } }
    (∀ st ∈ [LaneState.running, .armed, .starved, .waiting, .stopping, .stopped, .halted, .unbound, .merged],
      let p := stalls (queued st)
      p.resetPhase = .ended ∧ p.notif.timer = some 0 ∧ p.link.stallLimit ≤ p.notif.expiries + 1 ∧
      (∀ m, (p.lane m).linkLoss = .stop ↔ m = 0) ∧ (p.lane 0).state = st ∧ (p.lane 0).starve = .safe ∧
      (p.lane 0).period = none ∧ (p.lane 0).call = none) ∧
    (((stalls (playing .running 9 2)).lane 0).period = some (playedAt 9) ∧
      (playedAt 9).phase < (playedAt 9).shape.length) := by decide

theorem test_CreatedNotificationsAreKeptOrCounted_premises :
    ((told (List.replicate 31 (entry .pending))).notif.queue.length < 32 ∧
      (told (List.replicate 31 (entry .pending))).notif.lostCount = 0 ∧
      (told (List.replicate 31 (entry .pending))).notif.lostKinds = 0) ∧
    32 ≤ (told (List.replicate 32 (entry .pending))).notif.queue.length := by decide +kernel

/-! The laws hold in a state in which blocks are in use. -/

theorem test_EveryStepKeepsThePairLaw_premises : (playing .running 3 2).NeverBothActive := by
  unfold Part.NeverBothActive Pair.NeverBothActive
  decide

theorem test_EveryStepKeepsTheNotificationLaws_premises :
    let u := { (told [entry (.inFlight 255 false), entry .pending]).notif with nextNumber := 0 }
    u.QueueLaw ∧ u.NumberLaw := by
  refine ⟨⟨by decide, by decide, [entry (.inFlight 255 false)], [entry .pending], rfl, by decide, by decide⟩,
    [entry (.inFlight 255 false)], [entry .pending], rfl, by decide, ?_⟩
  intro i hi
  match i, hi with
  | 0, _ => exact ⟨false, rfl⟩

/-- EveryStepKeepsTheStoreLaws, EveryStepKeepsTheRegionLaw. -/
theorem test_EveryStepKeepsTheStoreLaws_premises :
    (queued .stopped).RegionLaw ∧ (queued .stopped).StoreLaw ∧ (queued .stopped).SegmentLaw := by
  refine ⟨region_law.1, ⟨by decide, fun a => ?_⟩, by unfold Part.SegmentLaw; decide⟩
  have hz : ∀ r : Fin 16, r ≠ 0 → ((queued .stopped).region r).count = 0 ∧
      ((queued .stopped).region r).loaded = 0 := by decide
  have hr : (queued .stopped).store.read a = if 0 = a then some pulse else none := rfl
  rw [hr]
  by_cases ha : 0 = a
  · rw [if_pos ha]
    exact iff_of_true rfl ⟨0, .inl ⟨0, by decide, by rw [← ha]; decide⟩⟩
  · rw [if_neg ha]
    refine iff_of_false (by simp) ?_
    rintro ⟨r, ⟨i, hi, he⟩ | ⟨i, hi, he⟩⟩
    · by_cases h0 : r = 0
      · subst h0
        have hi' : i < 1 := hi
        rw [Nat.lt_one_iff.mp hi'] at he
        exact ha (he.trans (by decide)).symm
      · rw [(hz r h0).1] at hi
        exact Nat.not_lt_zero _ hi
    · by_cases h0 : r = 0
      · subst h0
        exact Nat.not_lt_zero _ hi
      · rw [(hz r h0).2] at hi
        exact Nat.not_lt_zero _ hi

theorem test_EveryStepKeepsTheBarrierAndFaultLaws_premises :
    (∀ b, ((waiting .release).barrier b).WaitLaw) ∧ (∀ i, ((faulted .latch 1 true).fault i).StickyLaw) ∧
    (waiting .release).LaneLaws ∧ (calling .running 1 0 1).LaneLaws := by
  refine ⟨?_, ?_, ⟨?_, ?_, ?_, ?_⟩, ?_, ?_, ?_, ?_⟩
  · unfold Barrier.WaitLaw; decide
  · unfold FaultInput.StickyLaw; decide
  · unfold Part.WaitingLaw; decide
  · unfold Lane.PlayLaw; decide
  · unfold Part.UseLaw; decide
  · unfold Part.HaltLaw; decide
  · unfold Part.WaitingLaw; decide
  · unfold Lane.PlayLaw; decide
  · unfold Part.UseLaw; decide
  · unfold Part.HaltLaw; decide

end Sys2Proof.Tests
end

section
/-! # The region requests DEFINE_REGION and DELETE_REGION (R37 to R39)

What a request's reply says is fixed by the command and the state (`Takes.answer_unique`), so that a request which
`runRequest` answers with another status is not refused with this one (`not_refuses_of_ready`). Below that, what
`doDefineRegion` and `doDeleteRegion` answer in each of their cases, and the two obligations from these. -/

namespace Sys2Proof.Machine

/-! ## The reply of a request taken at its arrival -/

/-- The reply cache holds the reply just given (R162). -/
theorem Part.replied_cache (p : Part) (f : RequestFrame) (a : Answer) :
    (p.replied f a).link.cache = some { seq := f.seq, crc := f.crc, reply := f.reply a false } := rfl

/-- A command takes the part to one part only. -/
theorem Becomes.part_unique {c : Instr} {s : State} {q q' : Part} (h : Becomes c s q) (h' : Becomes c s q') :
    q = q' := by
  have hs : { s with part := q } = { s with part := q' } := Host.Outcome.next.inj (h.symm.trans h')
  exact congrArg State.part hs

/-- A request has one answer: it can be read in the reply cache, where the reply was placed. -/
theorem Takes.answer_unique {c : Instr} {s : State} {q q' : Part} {a a' : Answer} (h : Takes c s q a)
    (h' : Takes c s q' a') : a = a' := by
  obtain ⟨f, hf, hq⟩ := h
  obtain ⟨f', hf', hq'⟩ := h'
  obtain rfl : f = f' := Option.some.inj (hf.symm.trans hf')
  have hcache : (q.replied f a).driveLines.link.cache = (q'.replied f a').driveLines.link.cache :=
    congrArg (fun p => p.link.cache) (hq.part_unique hq')
  simpa only [Part.driveLines_link, Part.replied_cache, RequestFrame.reply, Option.some.injEq, CacheEntry.mk.injEq,
    Reply.mk.injEq, true_and, and_true] using hcache

/-- A ready request that `runRequest` answers with another status is not refused with this one. -/
theorem not_refuses_of_ready {c : Instr} {s : State} {seq : Byte} {k : RequestKind} {payload : List Byte} {st : Status}
    (h : s.part.Ready seq) (hc : requestOf c = some (requestFrame seq (requestCode k) payload))
    (hst : (runRequest k payload s.part).2.status ≠ st)
    (hb : (runRequest k payload s.part).1.link.buffer = s.part.link.buffer) (hk : k ≠ .reset) (d : Byte) :
    ¬Refuses c s st d := by
  intro hrefused
  have htaken := takes_of_ready h hc rfl hb hk
  exact hst (congrArg Answer.status (htaken.answer_unique hrefused))

/-! ## DEFINE_REGION -/

section DefineRegion

variable {p : Part} {region : Byte} {start size : Nat} {r : Fin 16}

/-- DEFINE_REGION's payload is read back field by field (R189, R192). -/
theorem runRequest_defineRegion (p : Part) (region : Byte) (start size : Word16) :
    runRequest .defineRegion (region :: (bytes16 start ++ bytes16 size)) p =
      doDefineRegion region start.toNat size.toNat p := by
  simp only [runRequest, bytes16, List.cons_append, List.nil_append, runDefineRegion, field16_extract]

theorem doDefineRegion_bad_region (hr : 16 ≤ region.toNat) :
    doDefineRegion region start size p = p.refuse .badValue 1 := by
  simp only [doDefineRegion, finOfByte_none hr]

theorem doDefineRegion_bad_start (hr : region.toNat = r.val) (hs : Config.slots ≤ start) :
    doDefineRegion region start size p = p.refuse .badValue 2 := by
  simp only [doDefineRegion, finOfByte_of_eq hr, if_pos hs]

theorem doDefineRegion_bad_size (hr : region.toNat = r.val) (hs : start < Config.slots)
    (hz : size < 4 ∨ Config.slots < size ∨ Config.slots < start + size) :
    doDefineRegion region start size p = p.refuse .badValue 3 := by
  simp only [doDefineRegion, finOfByte_of_eq hr, if_neg (Nat.not_le.mpr hs), Bool.or_eq_true, decide_eq_true_eq,
    or_assoc, if_pos hz]

/-- What DEFINE_REGION does with values in range (R38): refused for a defined region, refused for an overlap with a
defined one, or taken. -/
theorem doDefineRegion_valid_cases (hr : region.toNat = r.val) (hs : start < Config.slots) (hmin : 4 ≤ size)
    (hfit : start + size ≤ Config.slots) :
    ((p.region r).defined = true ∧ doDefineRegion region start size p = p.refuse .wrongState 0) ∨
    (∃ r', (p.region r).defined = false ∧ (p.region r').defined = true ∧
      runsOverlap start size (p.region r').start (p.region r').size = true ∧
      doDefineRegion region start size p = p.refuse .overlap (byteOf r'.val)) ∨
    ((p.region r).defined = false ∧ doDefineRegion region start size p =
      (p.setRegion r { defined := true, start := start, size := size, binding := .none, head := 0, count := 0,
                       loaded := 0 }).done) := by
  have hz : ¬(size < 4 ∨ Config.slots < size ∨ Config.slots < start + size) := by omega
  simp only [doDefineRegion, finOfByte_of_eq hr, if_neg (Nat.not_le.mpr hs), Bool.or_eq_true, decide_eq_true_eq,
    or_assoc, if_neg hz]
  cases hd : (p.region r).defined with
  | true => exact .inl ⟨rfl, rfl⟩
  | false =>
    cases hfind : allRegions.find? (fun r' =>
        (p.region r').defined && runsOverlap start size (p.region r').start (p.region r').size) with
    | none => exact .inr (.inr ⟨rfl, rfl⟩)
    | some r' =>
      have hshares := List.find?_some hfind
      rw [Bool.and_eq_true] at hshares
      exact .inr (.inl ⟨r', rfl, hshares.1, hshares.2, rfl⟩)

/-- With values in range DEFINE_REGION's answer is not BAD_VALUE, and the link is as it was. -/
theorem doDefineRegion_valid_not_badValue (hr : region.toNat = r.val) (hs : start < Config.slots) (hmin : 4 ≤ size)
    (hfit : start + size ≤ Config.slots) :
    (doDefineRegion region start size p).2.status ≠ .badValue ∧
      (doDefineRegion region start size p).1.link = p.link := by
  obtain ⟨-, hrun⟩ | ⟨r', -, -, -, hrun⟩ | ⟨-, hrun⟩ := doDefineRegion_valid_cases (p := p) hr hs hmin hfit <;>
    rw [hrun] <;> exact ⟨nofun, rfl⟩

end DefineRegion

/-- DEFINE_REGION is refused where its execution turns it away. -/
theorem defineRegion_refuses {s : State} {seq region : Byte} {start size : Word16} {st : Status} {d : Byte}
    (h : s.part.Ready seq)
    (hrun : doDefineRegion region start.toNat size.toNat s.part = s.part.refuse st d) :
    Refuses (.defineRegion seq region start size) s st d :=
  refuses_of_ready (k := .defineRegion) h rfl ((runRequest_defineRegion _ _ _ _).trans hrun) nofun

/-- Settles O10: the three refusals from the cases of `doDefineRegion`; with values in range the answer has another
status, and a request has one answer. -/
theorem defineRegionChecksItsValues : Obligations.DefineRegionChecksItsValues := by
  intro s seq region start size hready
  have hnumber : region.toNat ≤ 15 → ∃ r : Fin 16, region.toNat = r.val :=
    fun h => ⟨⟨region.toNat, Nat.lt_succ_of_le h⟩, rfl⟩
  refine ⟨fun hr => ?region, fun hr hs => ?start, fun hr hs hz => ?size, fun hr hs hmin _ hfit detail => ?valid⟩
  case region => exact defineRegion_refuses hready (doDefineRegion_bad_region hr)
  case start =>
    obtain ⟨r, hr⟩ := hnumber hr
    exact defineRegion_refuses hready (doDefineRegion_bad_start hr hs)
  case size =>
    obtain ⟨r, hr⟩ := hnumber hr
    exact defineRegion_refuses hready (doDefineRegion_bad_size hr (Nat.lt_succ_of_le hs) hz)
  case valid =>
    obtain ⟨r, hr⟩ := hnumber hr
    obtain ⟨hstatus, hlink⟩ :=
      doDefineRegion_valid_not_badValue (p := s.part) hr (Nat.lt_succ_of_le hs) hmin hfit
    rw [← runRequest_defineRegion] at hstatus hlink
    exact not_refuses_of_ready hready rfl hstatus (congrArg Link.buffer hlink) nofun detail

/-! ## DELETE_REGION -/

section DeleteRegion

variable {p : Part} {region : Byte} {r : Fin 16}

theorem doDeleteRegion_bad_region (hr : 16 ≤ region.toNat) : doDeleteRegion region p = p.refuse .badValue 1 := by
  simp only [doDeleteRegion, finOfByte_none hr]

theorem doDeleteRegion_undefined (hr : region.toNat = r.val) (hd : (p.region r).defined = false) :
    doDeleteRegion region p = p.refuse .wrongState 0 := by
  simp only [doDeleteRegion, finOfByte_of_eq hr, hd, Bool.not_false, if_true]

theorem doDeleteRegion_bound (hr : region.toNat = r.val) (hd : (p.region r).defined = true)
    (hb : (p.region r).binding ≠ .none) : doDeleteRegion region p = p.refuse .wrongState 1 := by
  simp only [doDeleteRegion, finOfByte_of_eq hr, hd, Bool.not_true, Bool.false_eq_true, if_false, if_pos hb]

theorem doDeleteRegion_taken (hr : region.toNat = r.val) (hd : (p.region r).defined = true)
    (hb : (p.region r).binding = .none) : doDeleteRegion region p = (p.setRegion r Region.reset).done := by
  simp only [doDeleteRegion, finOfByte_of_eq hr, hd, Bool.not_true, Bool.false_eq_true, if_false,
    if_neg (not_not_intro hb)]

end DeleteRegion

/-- DELETE_REGION is refused where its execution turns it away. -/
theorem deleteRegion_refuses {s : State} {seq region : Byte} {st : Status} {d : Byte} (h : s.part.Ready seq)
    (hrun : doDeleteRegion region s.part = s.part.refuse st d) : Refuses (.deleteRegion seq region) s st d :=
  refuses_of_ready (k := .deleteRegion) (payload := [region]) h rfl hrun nofun

/-- Settles O12, by the four cases of `doDeleteRegion`. -/
theorem deleteRegionMakesItUndefined : Obligations.DeleteRegionMakesItUndefined := by
  intro s seq region hready
  refine ⟨fun hr => deleteRegion_refuses hready (doDeleteRegion_bad_region hr), fun r hr => ⟨fun hd => ?undefined,
    fun hd hb => ?bound, fun hd hb => ?taken⟩⟩
  case undefined => exact deleteRegion_refuses hready (doDeleteRegion_undefined hr hd)
  case bound => exact deleteRegion_refuses hready (doDeleteRegion_bound hr hd hb)
  case taken =>
    have hrun : runRequest .deleteRegion [region] s.part = (s.part.setRegion r Region.reset, okWith []) :=
      doDeleteRegion_taken hr hd hb
    exact takes_of_ready hready rfl hrun rfl nofun

end Sys2Proof.Machine
end

section
/-! # The load requests PATTERN_BEGIN and PATTERN_END (R102, R104)

What `doPatternBegin` and `doPatternEnd` answer in each of their cases, and the two obligations from these. The contents
that PATTERN_END looks for are said slot by slot (`Part.HoldsTimed`). -/

namespace Sys2Proof.Machine

/-! ## PATTERN_BEGIN -/

section PatternBegin

variable {p : Part} {pattern : Byte} {k : Fin 8}

theorem doPatternBegin_bad_pattern (hk : 8 ≤ pattern.toNat) : doPatternBegin pattern p = p.refuse .badValue 1 := by
  simp only [doPatternBegin, finOfByte_none hk]

/-- An UNASSIGNED pattern is turned away with NOT_BOUND, whatever the region table says of it. -/
theorem doPatternBegin_unassigned (hk : pattern.toNat = k.val) (hu : (p.pattern k).state = .unassigned) :
    doPatternBegin pattern p = p.refuse .notBound pattern := by
  simp only [doPatternBegin, finOfByte_of_eq hk]
  cases p.patternRegion k with
  | none => rfl
  | some r => exact if_pos hu

/-- A bound pattern that some lane plays is turned away with its use count (R101). -/
theorem doPatternBegin_in_use {r : Fin 16} (hk : pattern.toNat = k.val) (hr : p.patternRegion k = some r)
    (hu : (p.pattern k).state ≠ .unassigned) (hn : 0 < (p.pattern k).useCount) :
    doPatternBegin pattern p = p.refuse .inUse (byteOf (p.pattern k).useCount) := by
  simp only [doPatternBegin, finOfByte_of_eq hk, hr, if_neg hu, if_pos hn]

theorem doPatternBegin_taken {r : Fin 16} (hk : pattern.toNat = k.val) (hr : p.patternRegion k = some r)
    (hu : (p.pattern k).state ≠ .unassigned) (hn : (p.pattern k).useCount = 0) :
    doPatternBegin pattern p = ((p.emptyRegion r).setPattern k { p.pattern k with state := .loading }).done := by
  simp only [doPatternBegin, finOfByte_of_eq hk, hr, if_neg hu, if_neg (Nat.not_lt.mpr (Nat.le_of_eq hn))]

end PatternBegin

/-- PATTERN_BEGIN is refused where its execution turns it away. -/
theorem patternBegin_refuses {s : State} {seq pattern : Byte} {st : Status} {d : Byte} (h : s.part.Ready seq)
    (hrun : doPatternBegin pattern s.part = s.part.refuse st d) : Refuses (.patternBegin seq pattern) s st d :=
  refuses_of_ready (k := .patternBegin) (payload := [pattern]) h rfl hrun nofun

/-- Settles O26, by the four cases of `doPatternBegin`; the pattern's segments leave it by `Part.emptyRegion`. -/
theorem patternBeginEmptiesAndOpens : Obligations.PatternBeginEmptiesAndOpens := by
  intro s seq pattern hready
  refine ⟨fun hk => patternBegin_refuses hready (doPatternBegin_bad_pattern hk), fun k hk => ⟨fun hu => ?unassigned,
    fun r hr hu => ⟨fun hn => ?inUse, fun hn => ?taken⟩⟩⟩
  case unassigned => exact patternBegin_refuses hready (doPatternBegin_unassigned hk hu)
  case inUse => exact patternBegin_refuses hready (doPatternBegin_in_use hk hr hu hn)
  case taken =>
    have hrun : runRequest .patternBegin [pattern] s.part =
        ((s.part.emptyRegion r).setPattern k { s.part.pattern k with state := .loading }, okWith []) :=
      doPatternBegin_taken hk hr hu hn
    exact takes_of_ready hready rfl hrun rfl nofun

/-! ## PATTERN_END -/

/-- Pattern `k` holds a PULSE or a LEVEL among its loaded segments (R100, R104). -/
def Part.HoldsTimed (p : Part) (k : Fin 8) : Prop :=
  ∃ i g, i < p.loadedLength k ∧ p.patternSegment k i = some g ∧ g.isTimed = true

/-- The test that PATTERN_END makes of a pattern's contents finds exactly the patterns that hold a timed segment. -/
theorem Part.any_isTimed_iff (p : Part) (k : Fin 8) :
    (p.patternSegments k 0 (p.loadedLength k)).any Segment.isTimed = true ↔ p.HoldsTimed k := by
  simp only [Part.patternSegments_any, Part.HoldsTimed, Nat.zero_le, true_and, Nat.zero_add]

section PatternEnd

variable {p : Part} {pattern : Byte} {k : Fin 8}

theorem doPatternEnd_bad_pattern (hk : 8 ≤ pattern.toNat) : doPatternEnd pattern p = p.refuse .badValue 1 := by
  simp only [doPatternEnd, finOfByte_none hk]

theorem doPatternEnd_not_loading (hl : (p.pattern k).state ≠ .loading) :
    doPatternEnd (byteOf k.val) p = p.refuse .wrongState (byteOf k.val) := by
  simp only [doPatternEnd, finOfByte_pattern, if_pos hl]

theorem doPatternEnd_untimed (hl : (p.pattern k).state = .loading) (ht : ¬p.HoldsTimed k) :
    doPatternEnd (byteOf k.val) p = p.refuse .badValue 2 := by
  rw [← Part.any_isTimed_iff] at ht
  simp only [doPatternEnd, finOfByte_pattern, if_neg (not_not_intro hl), if_neg ht]

theorem doPatternEnd_taken (hl : (p.pattern k).state = .loading) (ht : p.HoldsTimed k) :
    doPatternEnd (byteOf k.val) p =
      (p.setPattern k { p.pattern k with state := .ready }, answerOk (natBytes16 (p.loadedLength k))) := by
  rw [← Part.any_isTimed_iff] at ht
  simp only [doPatternEnd, finOfByte_pattern, if_neg (not_not_intro hl), if_pos ht]

end PatternEnd

/-- PATTERN_END is refused where its execution turns it away. -/
theorem patternEnd_refuses {s : State} {seq pattern : Byte} {st : Status} {d : Byte} (h : s.part.Ready seq)
    (hrun : doPatternEnd pattern s.part = s.part.refuse st d) : Refuses (.patternEnd seq pattern) s st d :=
  refuses_of_ready (k := .patternEnd) (payload := [pattern]) h rfl hrun nofun

/-- Settles O28, by the four cases of `doPatternEnd`. -/
theorem patternEndMakesItReady : Obligations.PatternEndMakesItReady := by
  intro s seq k hready
  refine ⟨fun pattern hk => patternEnd_refuses hready (doPatternEnd_bad_pattern hk), fun hl => ?notLoading,
    fun hl ht => ?untimed, fun hl ht => ?taken⟩
  case notLoading => exact patternEnd_refuses hready (doPatternEnd_not_loading hl)
  case untimed => exact patternEnd_refuses hready (doPatternEnd_untimed hl ht)
  case taken =>
    have hrun : runRequest .patternEnd [byteOf k.val] s.part =
        (s.part.setPattern k { s.part.pattern k with state := .ready },
          okWith (natBytes16 (s.part.loadedLength k))) :=
      doPatternEnd_taken hl ht
    exact takes_of_ready hready rfl hrun rfl nofun

end Sys2Proof.Machine
end

section
/-! # The segment encoding (R26, R191)

Which bytes each part of the decoder accepts, and with what value; so decoding and encoding are inverse on the
segments with their fields in range. -/

namespace Sys2Proof.Machine

/-- A two-byte field is read back. -/
theorem field16_highByte_byteOf {n : Nat} (h : n ≤ 65535) : field16 (highByte n) (byteOf n) = n := by
  unfold field16 highByte byteOf
  rw [word16_toNat, BitVec.toNat_ofNat, BitVec.toNat_ofNat]
  omega

theorem field16_le (a b : Byte) : field16 a b ≤ 65535 := Nat.le_of_lt_succ (word16 a b).isLt

theorem field16_zero : field16 0 0 = 0 := rfl

/-- The flags byte holds its two flags. -/
theorem flagsByte_bits (tag alternate : Bool) :
    flagsByte tag alternate &&& 0xFC = 0 ∧ (flagsByte tag alternate).getLsbD 0 = tag ∧
      (flagsByte tag alternate).getLsbD 1 = alternate := by
  revert tag alternate
  decide

/-- A byte without flags above bit 1 is the flags byte of its two flags. -/
theorem eq_flagsByte : ∀ {b : Byte}, b &&& 0xFC = 0 → b = flagsByte (b.getLsbD 0) (b.getLsbD 1) := by
  decide

/-- A raw segment is its twelve bytes. -/
theorem RawSegment.eq_bytes (r : RawSegment) :
    r = #v[segByte r 0, segByte r 1, segByte r 2, segByte r 3, segByte r 4, segByte r 5, segByte r 6, segByte r 7,
           segByte r 8, segByte r 9, segByte r 10, segByte r 11] := by
  obtain ⟨⟨bytes⟩, hsize⟩ := r
  match bytes, hsize with
  | [_, _, _, _, _, _, _, _, _, _, _, _], _ => rfl

/-- Flags and tag byte of an encoded segment (R25, R191). -/
theorem tagOf_eq_some {r : RawSegment} {tag : Option Byte} : tagOf r = some tag ↔
    segByte r 1 = flagsByte tag.isSome (altPresent r) ∧ segByte r 2 = tag.getD 0 ∧ tag ≠ some 0xFF := by
  unfold tagOf altPresent
  constructor
  · intro h
    split at h
    case isFalse => cases h
    case isTrue hflags =>
      have hbyte := eq_flagsByte hflags
      split at h
      case isTrue htag =>
        split at h
        case isTrue => cases h
        case isFalse hne =>
          cases h
          rw [htag] at hbyte
          exact ⟨hbyte, rfl, fun he => hne (Option.some.inj he)⟩
      case isFalse htag =>
        split at h
        case isTrue hz =>
          cases h
          rw [eq_false_of_ne_true htag] at hbyte
          exact ⟨hbyte, hz, nofun⟩
        case isFalse => cases h
  · rintro ⟨hflags, htag, hne⟩
    obtain ⟨hhigh, hbit, -⟩ := flagsByte_bits tag.isSome ((segByte r 1).getLsbD 1)
    rw [← hflags] at hhigh hbit
    rw [if_pos hhigh, hbit, htag]
    cases tag with
    | none => rfl
    | some t => exact if_neg (fun he => hne (congrArg some he))

/-- `body` is in range whatever the tag, and is encoded as the kind's byte, flags and tag before the bytes 3 to 11 of
`r`. -/
def SegmentBody.EncodesAs (body : SegmentBody) (r : RawSegment) : Prop :=
  ∀ tag : Option Byte, tag ≠ some 0xFF → (body = .mark → tag.isSome = true) →
    ({ tag := tag, body := body } : Segment).inRange = true ∧
    ({ tag := tag, body := body } : Segment).encode =
      #v[body.kindByte, flagsByte tag.isSome (altPresent r), tag.getD 0, segByte r 3, segByte r 4, segByte r 5,
         segByte r 6, segByte r 7, segByte r 8, segByte r 9, segByte r 10, segByte r 11]

/-- Every tag that a segment of this kind may carry passes the range check as tag 0 does. -/
theorem inRange_any_tag {tag : Option Byte} {body : SegmentBody} (ht : tag ≠ some 0xFF)
    (hm : body = .mark → tag.isSome = true) :
    ({ tag := tag, body := body } : Segment).inRange = ({ tag := some 0, body := body } : Segment).inRange := by
  unfold Segment.inRange
  congr 1
  cases tag with
  | none => exact decide_eq_true (fun h => Bool.false_ne_true (hm h))
  | some t => exact decide_eq_true (fun h => ht (congrArg some h))

theorem alignment_byte_of_eq {b : Byte} {a : Alignment}
    (h : (if b = 0 then some Alignment.edge else if b = 1 then some .center else none) = some a) : b = a.byte := by
  split at h
  case isTrue hb => cases h; exact hb
  case isFalse =>
    split at h
    case isTrue hb => cases h; exact hb
    case isFalse => cases h

theorem levelCode_byte_of_eq {b : Byte} {c : LevelCode}
    (h : (if b = 0 then some LevelCode.zero else if b = 1 then some .one else if b = 2 then some .two else none) =
      some c) : b = c.byte := by
  split at h
  case isTrue hb => cases h; exact hb
  case isFalse =>
    split at h
    case isTrue hb => cases h; exact hb
    case isFalse =>
      split at h
      case isTrue hb => cases h; exact hb
      case isFalse => cases h

theorem byteOf_of_finOfByte {n : Nat} {b : Byte} {i : Fin n} (h : finOfByte n b = some i) : b = byteOf i.val := by
  unfold finOfByte at h
  split at h
  case isTrue => cases h; simp [byteOf]
  case isFalse => cases h

theorem pulseOf_encodesAs {r : RawSegment} {body : SegmentBody} (h : pulseOf r = some body) :
    body.kindByte = 1 ∧ body ≠ .mark ∧ body.EncodesAs r := by
  unfold pulseOf at h
  simp only at h
  split at h
  case h_1 => cases h
  case h_2 a ha =>
    rw [Option.ite_none_right_eq_some] at h
    simp only [Bool.and_eq_true, decide_eq_true_eq] at h
    obtain ⟨⟨⟨⟨hperiod, honTime⟩, hrepeats⟩, halternate⟩, hbody⟩ := h
    cases hbody
    have hp := field16_le (segByte r 3) (segByte r 4)
    have hr := field16_le (segByte r 9) (segByte r 10)
    refine ⟨rfl, nofun, fun tag ht hm => ⟨?_, ?_⟩⟩
    · rw [inRange_any_tag ht hm]
      cases hx : altPresent r with
      | true =>
        rw [hx] at halternate
        simpa [Segment.inRange, hperiod, hp, honTime, hrepeats, hr] using halternate
      | false => simp [Segment.inRange, hperiod, hp, honTime, hrepeats, hr]
    · rw [alignment_byte_of_eq ha]
      cases hx : altPresent r with
      | true => simp [Segment.encode, SegmentBody.kindByte]
      | false =>
        rw [hx] at halternate
        simp only [Bool.false_eq_true, if_false, decide_eq_true_eq] at halternate
        have h7 := highByte_field16 (segByte r 7) (segByte r 8)
        have h8 := byteOf_field16 (segByte r 7) (segByte r 8)
        rw [halternate] at h7 h8
        simp [Segment.encode, SegmentBody.kindByte, h7, h8]

theorem levelOf_encodesAs {r : RawSegment} {body : SegmentBody} (h : levelOf r = some body) :
    body.kindByte = 2 ∧ body ≠ .mark ∧ body.EncodesAs r := by
  unfold levelOf at h
  simp only at h
  split at h
  case h_1 => cases h
  case h_2 c hc =>
    split at h
    case isFalse => cases h
    case isTrue hrange =>
      simp only [Bool.and_eq_true, decide_eq_true_eq, Bool.not_eq_true', zeroBytes, List.all_cons, List.all_nil,
        and_true] at hrange
      obtain ⟨⟨⟨hunit, hrepeats⟩, halt⟩, h8, h9, h10, h11⟩ := hrange
      cases h
      have hu := field16_le (segByte r 4) (segByte r 5)
      have hr := field16_le (segByte r 6) (segByte r 7)
      refine ⟨rfl, nofun, fun tag ht hm => ⟨?_, ?_⟩⟩
      · rw [inRange_any_tag ht hm]
        simp [Segment.inRange, hunit, hrepeats, hu, hr]
      · rw [levelCode_byte_of_eq hc, halt, h8, h9, h10, h11]
        simp [Segment.encode, SegmentBody.kindByte]

theorem barrierOf_encodesAs {r : RawSegment} {body : SegmentBody} (h : barrierOf r = some body) :
    body.kindByte = 3 ∧ body ≠ .mark ∧ body.EncodesAs r := by
  unfold barrierOf at h
  split at h
  case h_1 => cases h
  case h_2 b hb =>
    split at h
    case isFalse => cases h
    case isTrue hrange =>
      simp only [Bool.and_eq_true, decide_eq_true_eq, Bool.not_eq_true', zeroBytes, List.all_cons, List.all_nil,
        and_true] at hrange
      obtain ⟨halt, h4, h5, h6, h7, h8, h9, h10, h11⟩ := hrange
      cases h
      refine ⟨rfl, nofun, fun tag ht hm => ⟨?_, ?_⟩⟩
      · rw [inRange_any_tag ht hm]
        rfl
      · rw [byteOf_of_finOfByte hb, halt, h4, h5, h6, h7, h8, h9, h10, h11]
        rfl

theorem callOf_encodesAs {r : RawSegment} {body : SegmentBody} (h : callOf r = some body) :
    body.kindByte = 4 ∧ body ≠ .mark ∧ body.EncodesAs r := by
  unfold callOf at h
  split at h
  case h_1 => cases h
  case h_2 k hk =>
    split at h
    case isFalse => cases h
    case isTrue hrange =>
      simp only [Bool.and_eq_true, decide_eq_true_eq, Bool.not_eq_true', zeroBytes, List.all_cons, List.all_nil,
        and_true] at hrange
      obtain ⟨⟨hplays, halt⟩, h5, h6, h7, h8, h9, h10, h11⟩ := hrange
      cases h
      have hpos : 1 ≤ (segByte r 4).toNat :=
        Nat.one_le_iff_ne_zero.mpr (fun hz => hplays (BitVec.eq_of_toNat_eq hz))
      have hmax : (segByte r 4).toNat ≤ 255 := Nat.le_of_lt_succ (segByte r 4).isLt
      refine ⟨rfl, nofun, fun tag ht hm => ⟨?_, ?_⟩⟩
      · rw [inRange_any_tag ht hm]
        simp [Segment.inRange, hpos, hmax]
      · rw [byteOf_of_finOfByte hk, halt, h5, h6, h7, h8, h9, h10, h11]
        simp [Segment.encode, SegmentBody.kindByte, byteOf]

theorem markOf_encodesAs {r : RawSegment} {body : SegmentBody} (h : markOf r = some body) :
    body = .mark ∧ (segByte r 1).getLsbD 0 = true ∧ body.EncodesAs r := by
  unfold markOf at h
  split at h
  case isFalse => cases h
  case isTrue hrange =>
    simp only [Bool.and_eq_true, decide_eq_true_eq, Bool.not_eq_true', zeroBytes, List.all_cons, List.all_nil,
      and_true] at hrange
    obtain ⟨⟨htag, halt⟩, h3, h4, h5, h6, h7, h8, h9, h10, h11⟩ := hrange
    cases h
    refine ⟨rfl, htag, fun tag ht hm => ⟨?_, ?_⟩⟩
    · rw [inRange_any_tag ht hm]
      rfl
    · rw [halt, h3, h4, h5, h6, h7, h8, h9, h10, h11]
      rfl

/-- The fields that twelve bytes give, by the kind their first byte names. -/
theorem encodesAs_of_kind {r : RawSegment} {body : SegmentBody}
    (h : (match (segByte r 0).toNat with
      | 1 => pulseOf r
      | 2 => levelOf r
      | 3 => barrierOf r
      | 4 => callOf r
      | 5 => markOf r
      | _ => none) = some body) :
    segByte r 0 = body.kindByte ∧ (body = .mark → (segByte r 1).getLsbD 0 = true) ∧ body.EncodesAs r := by
  have named {n : Nat} {b : Byte} (hn : (segByte r 0).toNat = n) (hb : b.toNat = n) : segByte r 0 = b :=
    BitVec.eq_of_toNat_eq (hn.trans hb.symm)
  split at h
  case h_1 hn =>
    obtain ⟨hk, hm, henc⟩ := pulseOf_encodesAs h
    exact ⟨named hn (hk ▸ rfl), fun he => absurd he hm, henc⟩
  case h_2 hn =>
    obtain ⟨hk, hm, henc⟩ := levelOf_encodesAs h
    exact ⟨named hn (hk ▸ rfl), fun he => absurd he hm, henc⟩
  case h_3 hn =>
    obtain ⟨hk, hm, henc⟩ := barrierOf_encodesAs h
    exact ⟨named hn (hk ▸ rfl), fun he => absurd he hm, henc⟩
  case h_4 hn =>
    obtain ⟨hk, hm, henc⟩ := callOf_encodesAs h
    exact ⟨named hn (hk ▸ rfl), fun he => absurd he hm, henc⟩
  case h_5 hn =>
    obtain ⟨rfl, htag, henc⟩ := markOf_encodesAs h
    exact ⟨named hn rfl, fun _ => htag, henc⟩
  case h_6 => cases h

/-- Twelve bytes that decode are those of a segment in range. -/
theorem inRange_of_decodeSegment {r : RawSegment} {g : Segment} (h : decodeSegment r = some g) :
    g.inRange = true ∧ r = g.encode := by
  unfold decodeSegment at h
  split at h
  case h_1 => cases h
  case h_2 tag htag =>
    obtain ⟨body, hbody, hg⟩ := Option.map_eq_some_iff.mp h
    obtain ⟨hflags, hbyte, hne⟩ := tagOf_eq_some.mp htag
    obtain ⟨hkind, hmark, henc⟩ := encodesAs_of_kind hbody
    have htagged : body = .mark → tag.isSome = true := by
      intro hm
      rw [← (flagsByte_bits tag.isSome (altPresent r)).2.1, ← hflags]
      exact hmark hm
    obtain ⟨hrange, hencode⟩ := henc tag hne htagged
    subst hg
    refine ⟨hrange, ?_⟩
    rw [hencode, ← hkind, ← hflags, ← hbyte]
    exact RawSegment.eq_bytes r

/-- Flags and tag of an encoded segment are read back. -/
theorem tagOf_encode {g : Segment} (h : g.inRange = true) : tagOf g.encode = some g.tag := by
  have htag : g.tag ≠ some 0xFF := by
    intro he
    simp [Segment.inRange, he] at h
  obtain ⟨tag, body⟩ := g
  cases body with
  | pulse period onTime alternate a repeats =>
    exact tagOf_eq_some.mpr ⟨congrArg (flagsByte tag.isSome) (flagsByte_bits tag.isSome alternate.isSome).2.2.symm, rfl, htag⟩
  | _ => exact tagOf_eq_some.mpr ⟨congrArg (flagsByte tag.isSome) (flagsByte_bits tag.isSome false).2.2.symm, rfl, htag⟩

theorem pulseOf_of_fields {r : RawSegment} {period onTime repeats : Nat} {alternate : Option Nat} {a : Alignment}
    (hpresent : altPresent r = alternate.isSome) (hperiod : field16 (segByte r 3) (segByte r 4) = period)
    (honTime : field16 (segByte r 5) (segByte r 6) = onTime)
    (halternate : field16 (segByte r 7) (segByte r 8) = alternate.getD 0)
    (hrepeats : field16 (segByte r 9) (segByte r 10) = repeats) (halign : segByte r 11 = a.byte) (hmin : 2 ≤ period)
    (hle : onTime ≤ period) (hale : ∀ n, alternate = some n → n ≤ period) (hone : 1 ≤ repeats) :
    pulseOf r = some (.pulse period onTime alternate a repeats) := by
  have ha : (if a.byte = 0 then some Alignment.edge else if a.byte = 1 then some .center else none) = some a := by
    cases a <;> rfl
  simp only [pulseOf, hpresent, hperiod, honTime, halternate, hrepeats, halign, ha]
  cases alternate with
  | none => simp [hmin, hle, hone]
  | some n => simp [hmin, hle, hone, hale n rfl]

theorem levelOf_of_fields {r : RawSegment} {code : LevelCode} {unit repeats : Nat} (hpresent : altPresent r = false)
    (hcode : segByte r 3 = code.byte) (hunit : field16 (segByte r 4) (segByte r 5) = unit)
    (hrepeats : field16 (segByte r 6) (segByte r 7) = repeats) (hzero : zeroBytes r [8, 9, 10, 11] = true)
    (hmin : 1 ≤ unit) (hone : 1 ≤ repeats) : levelOf r = some (.level code unit repeats) := by
  simp only [levelOf, hpresent, hcode, hunit, hrepeats, hzero]
  cases code <;> simp [LevelCode.byte, hmin, hone]

theorem barrierOf_of_fields {r : RawSegment} {b : Fin 4} (hpresent : altPresent r = false)
    (hb : segByte r 3 = byteOf b.val) (hzero : zeroBytes r [4, 5, 6, 7, 8, 9, 10, 11] = true) :
    barrierOf r = some (.barrier b) := by
  simp [barrierOf, hpresent, hb, hzero]

theorem callOf_of_fields {r : RawSegment} {k : Fin 8} {plays : Nat} (hpresent : altPresent r = false)
    (hk : segByte r 3 = byteOf k.val) (hplays : (segByte r 4).toNat = plays) (hone : 1 ≤ plays)
    (hzero : zeroBytes r [5, 6, 7, 8, 9, 10, 11] = true) : callOf r = some (.call k plays) := by
  have hne : segByte r 4 ≠ 0 := fun he => by simp [he] at hplays; omega
  simpa [callOf, hpresent, hk, hplays, hzero] using hne

theorem markOf_of_fields {r : RawSegment} (hpresent : altPresent r = false) (htag : (segByte r 1).getLsbD 0 = true)
    (hzero : zeroBytes r [3, 4, 5, 6, 7, 8, 9, 10, 11] = true) : markOf r = some .mark := by
  simp [markOf, hpresent, htag, hzero]

/-- Every segment in range is read back from its twelve bytes. -/
theorem decodeSegment_encode {g : Segment} (h : g.inRange = true) : decodeSegment g.encode = some g := by
  have htag := tagOf_encode h
  unfold decodeSegment
  rw [htag]
  obtain ⟨tag, body⟩ := g
  simp only [Segment.inRange, Bool.and_eq_true] at h
  obtain ⟨hmark, hfields⟩ := h
  have hnoAlternate : (flagsByte tag.isSome false).getLsbD 1 = false := (flagsByte_bits tag.isSome false).2.2
  cases body with
  | pulse period onTime alternate a repeats =>
    simp only [Bool.and_eq_true, decide_eq_true_eq] at hfields
    obtain ⟨⟨⟨⟨⟨hmin, hmax⟩, honTime⟩, halternate⟩, hrepeats⟩, hrepeatsMax⟩ := hfields
    have hale : ∀ n, alternate = some n → n ≤ period := by
      rintro n rfl
      simpa using halternate
    have haltMax : alternate.getD 0 ≤ 65535 := by
      cases alternate with
      | none => exact Nat.zero_le _
      | some n => exact Nat.le_trans (hale n rfl) hmax
    have hbody : pulseOf (Segment.encode ⟨tag, .pulse period onTime alternate a repeats⟩) =
        some (.pulse period onTime alternate a repeats) :=
      pulseOf_of_fields (flagsByte_bits tag.isSome alternate.isSome).2.2 (field16_highByte_byteOf hmax)
        (field16_highByte_byteOf (Nat.le_trans honTime hmax)) (field16_highByte_byteOf haltMax)
        (field16_highByte_byteOf hrepeatsMax) rfl hmin honTime hale hrepeats
    exact congrArg (Option.map _) hbody
  | level code unit repeats =>
    simp only [Bool.and_eq_true, decide_eq_true_eq] at hfields
    obtain ⟨⟨⟨hunit, hunitMax⟩, hrepeats⟩, hrepeatsMax⟩ := hfields
    have hbody : levelOf (Segment.encode ⟨tag, .level code unit repeats⟩) = some (.level code unit repeats) :=
      levelOf_of_fields hnoAlternate rfl (field16_highByte_byteOf hunitMax) (field16_highByte_byteOf hrepeatsMax) rfl
        hunit hrepeats
    exact congrArg (Option.map _) hbody
  | barrier b =>
    have hbody : barrierOf (Segment.encode ⟨tag, .barrier b⟩) = some (.barrier b) :=
      barrierOf_of_fields hnoAlternate rfl rfl
    exact congrArg (Option.map _) hbody
  | call k plays =>
    simp only [Bool.and_eq_true, decide_eq_true_eq] at hfields
    obtain ⟨hone, hplays⟩ := hfields
    have hbody : callOf (Segment.encode ⟨tag, .call k plays⟩) = some (.call k plays) :=
      callOf_of_fields hnoAlternate rfl (byteOf_toNat (Nat.lt_succ_of_le hplays)) hone rfl
    exact congrArg (Option.map _) hbody
  | mark =>
    have htagged : tag.isSome = true := by
      cases tag with
      | none => simp at hmark
      | some t => rfl
    have hbody : markOf (Segment.encode ⟨tag, .mark⟩) = some .mark :=
      markOf_of_fields hnoAlternate ((flagsByte_bits tag.isSome false).2.1.trans htagged) rfl
    exact congrArg (Option.map _) hbody

/-- Settles O17: the five kinds' fields, flags and tag are read back, and what is read was so encoded. -/
theorem segmentsDecodeAsEncoded : Obligations.SegmentsDecodeAsEncoded :=
  ⟨fun _ h => decodeSegment_encode h, fun _ _ h => inRange_of_decodeSegment h⟩

end Sys2Proof.Machine
end

section
/-! # The notification laws (R175, R176)

The numbers of a queue in queue order carry both laws: those of the entries IN_FLIGHT first, then none for each PENDING
entry. What each primitive move of the notification unit does to these numbers is said once
(`NotificationUnit.Move.window`), and both laws follow. -/

namespace Sys2Proof.Machine

/-- The number an entry is IN_FLIGHT under. -/
def Entry.number (e : Entry) : Option Byte :=
  match e.status with
  | .inFlight n _ => some n
  | .pending => none

theorem Entry.number_eq_none {e : Entry} : e.number = none ↔ e.status = .pending := by
  cases h : e.status <;> simp [Entry.number, h]

theorem Entry.number_eq_some {e : Entry} {n : Byte} : e.number = some n ↔ ∃ mark, e.status = .inFlight n mark := by
  cases h : e.status <;> simp [Entry.number, h]

theorem Entry.inFlight_eq (e : Entry) : e.inFlight = e.number.isSome := by
  cases h : e.status <;> simp [Entry.number, Entry.inFlight, h]

theorem Entry.hasNumber_iff {e : Entry} {n : Byte} : e.hasNumber n = true ↔ e.number = some n := by
  cases h : e.status <;> simp [Entry.number, Entry.hasNumber, h]

/-- The entries IN_FLIGHT hold the numbers `sent`, oldest first, and `waiting` PENDING entries follow them. -/
def Window (queue : List Entry) (sent : List Byte) (waiting : Nat) : Prop :=
  queue.map Entry.number = sent.map some ++ List.replicate waiting none

section Windows

variable {queue rest : List Entry} {sent : List Byte} {waiting : Nat} {e : Entry}

theorem Window.length (w : Window queue sent waiting) : queue.length = sent.length + waiting := by
  simpa using congrArg List.length w

theorem Window.inFlightCount (w : Window queue sent waiting) : inFlightCount queue = sent.length := by
  have hcount : Machine.inFlightCount queue = (queue.map Entry.number).countP Option.isSome := by
    rw [Machine.inFlightCount, List.countP_map]
    exact List.countP_congr (fun e _ => by simp [Entry.inFlight_eq])
  rw [hcount, w]
  simp [List.countP_append, List.countP_replicate, List.countP_map, List.countP_eq_length]

/-- A PENDING entry joins the tail. -/
theorem Window.append_pending (w : Window queue sent waiting) (he : e.status = .pending) :
    Window (queue ++ [e]) sent (waiting + 1) := by
  rw [Window, List.map_append, w, List.append_assoc, List.replicate_succ']
  simp [Entry.number_eq_none.mpr he]

/-- Entries changed but for their numbers. -/
theorem Window.map (w : Window queue sent waiting) {f : Entry → Entry} (hf : ∀ e, (f e).number = e.number) :
    Window (queue.map f) sent waiting := by
  rw [Window, List.map_map, ← w]
  exact List.map_congr_left (fun e _ => hf e)

/-- Every entry made PENDING. -/
theorem Window.all_pending (hq : ∀ e ∈ queue, e.status = .pending) : Window queue [] queue.length := by
  rw [Window, List.map_nil, List.nil_append, List.eq_replicate_iff]
  exact ⟨List.length_map _, by simpa using fun e he => Entry.number_eq_none.mpr (hq e he)⟩

/-- A window split at its first entry: that entry is the oldest IN_FLIGHT, or all are PENDING. -/
theorem Window.cons_cases (w : Window (e :: rest) sent waiting) :
    (∃ n tail, sent = n :: tail ∧ e.number = some n ∧ Window rest tail waiting) ∨
    (∃ fewer, sent = [] ∧ waiting = fewer + 1 ∧ e.number = none ∧ Window rest [] fewer) := by
  cases sent with
  | cons n tail =>
    obtain ⟨hn, htail⟩ := List.cons_eq_cons.mp w
    exact .inl ⟨n, tail, rfl, hn, htail⟩
  | nil =>
    cases waiting with
    | zero => simp [Window] at w
    | succ fewer =>
      obtain ⟨hn, htail⟩ := List.cons_eq_cons.mp w
      exact .inr ⟨fewer, rfl, rfl, hn, htail⟩

/-- A resend leaves the numbers as they are. -/
theorem resendOldest_number {r : TxFrame × List Entry} (h : resendOldest queue = some r) :
    r.2.map Entry.number = queue.map Entry.number := by
  induction queue generalizing r with
  | nil => cases h
  | cons e rest ih =>
    unfold resendOldest at h
    split at h
    case h_1 n he =>
      cases h
      simp [Entry.number, he]
    case h_2 =>
      obtain ⟨r', hr', rfl⟩ := Option.map_eq_some_iff.mp h
      simp [ih hr']

/-- The first sending of an entry gives the number to the oldest PENDING entry, which is then the youngest
IN_FLIGHT. -/
theorem Window.sendOldestPending {n : Byte} {r : TxFrame × List Entry} (w : Window queue sent waiting)
    (h : sendOldestPending n queue = some r) :
    ∃ fewer, waiting = fewer + 1 ∧ Window r.2 (sent ++ [n]) fewer := by
  induction queue generalizing r sent with
  | nil => cases h
  | cons e rest ih =>
    unfold Machine.sendOldestPending at h
    obtain ⟨m, tail, rfl, hm, wrest⟩ | ⟨fewer, rfl, rfl, hm, wrest⟩ := w.cons_cases
    · obtain ⟨mark, hstatus⟩ := Entry.number_eq_some.mp hm
      rw [hstatus] at h
      obtain ⟨r', hr', rfl⟩ := Option.map_eq_some_iff.mp h
      obtain ⟨fewer, rfl, w'⟩ := ih wrest hr'
      refine ⟨fewer, rfl, ?_⟩
      rw [Window] at w' ⊢
      simp [w', hm]
    · rw [Entry.number_eq_none.mp hm] at h
      cases h
      refine ⟨fewer, rfl, ?_⟩
      rw [Window] at wrest ⊢
      simpa [Entry.number] using wrest

/-- An acknowledgement removes the oldest numbers and leaves the PENDING entries. -/
theorem Window.removeThrough {n : Byte} {left : List Entry} (w : Window queue sent waiting)
    (h : removeThrough n queue = some left) : ∃ tail, tail <:+ sent ∧ Window left tail waiting := by
  induction queue generalizing left sent waiting with
  | nil => cases h
  | cons e rest ih =>
    unfold Machine.removeThrough at h
    split at h
    case isTrue hn =>
      cases h
      obtain ⟨m, tail, rfl, hm, wrest⟩ | ⟨fewer, rfl, rfl, hm, wrest⟩ := w.cons_cases
      · exact ⟨tail, List.suffix_cons m tail, wrest⟩
      · rw [Entry.hasNumber_iff.mp hn] at hm
        cases hm
    case isFalse =>
      obtain ⟨left', hleft', rfl⟩ := Option.map_eq_some_iff.mp h
      obtain ⟨m, tail, rfl, hm, wrest⟩ | ⟨fewer, rfl, rfl, hm, wrest⟩ := w.cons_cases
      · obtain ⟨tail', hsuffix, w'⟩ := ih wrest hleft'
        refine ⟨tail', hsuffix.trans (List.suffix_cons m tail), ?_⟩
        simpa [Entry.inFlight_eq, hm] using w'
      · obtain ⟨tail', hsuffix, w'⟩ := ih wrest hleft'
        obtain rfl := List.suffix_nil.mp hsuffix
        refine ⟨[], List.suffix_refl _, ?_⟩
        simp only [Entry.inFlight_eq, hm, Option.isSome_none, Bool.false_eq_true, if_false]
        rw [Window] at w' ⊢
        simpa [hm, List.replicate_succ] using w'

end Windows

theorem Entry.mark_number (e : Entry) : e.mark.number = e.number := by
  obtain ⟨what, stamp, status⟩ := e
  cases status <;> rfl

theorem Entry.unmark_number (e : Entry) : e.unmark.number = e.number := by
  obtain ⟨what, stamp, status⟩ := e
  cases status <;> rfl

/-- The LOST entry joins the PENDING ones, where there is room for it (R174). -/
theorem Window.appendLost {v : NotificationUnit} {sent : List Byte} {waiting : Nat} (w : Window v.queue sent waiting)
    (stamp : Tick) : ∃ waiting', Window (v.appendLost stamp).queue sent waiting' ∧
      ((v.appendLost stamp).queue.length ≤ v.queue.length ∨
        (v.appendLost stamp).queue.length ≤ Config.queueCapacity) ∧
      (v.appendLost stamp).nextNumber = v.nextNumber := by
  unfold NotificationUnit.appendLost
  split
  case isTrue hroom =>
    simp only [Bool.and_eq_true, decide_eq_true_eq] at hroom
    obtain ⟨hcapacity, -⟩ := hroom
    refine ⟨waiting + 1, w.append_pending rfl, .inr ?_, rfl⟩
    rw [List.length_append, List.length_singleton]
    exact hcapacity
  case isFalse => exact ⟨waiting, w, .inl (Nat.le_refl _), rfl⟩

/-- What a primitive move does to the numbers IN_FLIGHT: the oldest may leave, the next number may join where fewer
than 4 are out, or all are given back; no move fills the queue above its capacity. -/
theorem NotificationUnit.Move.window {u v : NotificationUnit} {sent : List Byte} {waiting : Nat} (h : u.Move v)
    (w : Window u.queue sent waiting) : ∃ sent' waiting', Window v.queue sent' waiting' ∧
      (v.queue.length ≤ u.queue.length ∨ v.queue.length ≤ Config.queueCapacity) ∧
      ((sent' <:+ sent ∧ v.nextNumber = u.nextNumber) ∨
        (sent' = sent ++ [u.nextNumber] ∧ v.nextNumber = u.nextNumber + 1 ∧ sent.length < Config.window) ∨
        sent' = []) := by
  have hsame : sent <:+ sent := List.suffix_refl sent
  cases h with
  | create stamp n =>
    unfold NotificationUnit.create
    split
    case isTrue hroom =>
      simp only [Bool.and_eq_true, decide_eq_true_eq] at hroom
      obtain ⟨hcapacity, -⟩ := hroom
      refine ⟨sent, waiting + 1, w.append_pending rfl, .inr ?_, .inl ⟨hsame, rfl⟩⟩
      rw [List.length_append, List.length_singleton]
      exact hcapacity
    case isFalse => exact ⟨sent, waiting, w, .inl (Nat.le_refl _), .inl ⟨hsame, rfl⟩⟩
  | sendNext interval r hr =>
    unfold NotificationUnit.sendNext at hr
    split at hr
    case h_1 r' hresend =>
      cases hr
      have hnumbers := resendOldest_number hresend
      refine ⟨sent, waiting, hnumbers.trans w, .inl (Nat.le_of_eq ?_), .inl ⟨hsame, rfl⟩⟩
      simpa using congrArg List.length hnumbers
    case h_2 =>
      split at hr
      case isFalse => cases hr
      case isTrue hcount =>
        split at hr
        case h_2 => cases hr
        case h_1 r' hsend =>
          cases hr
          obtain ⟨fewer, rfl, w'⟩ := w.sendOldestPending hsend
          refine ⟨_, fewer, w', .inl (Nat.le_of_eq ?_), .inr (.inl ⟨rfl, rfl, w.inFlightCount ▸ hcount⟩)⟩
          simp only [w'.length, w.length, List.length_append, List.length_singleton]
          omega
  | acknowledge n interval stamp _ hack =>
    obtain ⟨left, hleft, rfl⟩ := Option.map_eq_some_iff.mp hack
    obtain ⟨tail, hsuffix, w'⟩ := w.removeThrough hleft
    have hle : left.length ≤ u.queue.length := by
      rw [w'.length, w.length]
      exact Nat.add_le_add_right hsuffix.length_le _
    obtain ⟨waiting', hw, hlen, hnext⟩ := Window.appendLost (v := { u with
      queue := left, expiries := 0, channel := .running,
      timer := if 0 < inFlightCount left then some (intervalClocks interval) else none }) w' stamp
    exact ⟨tail, waiting', hw, hlen.imp_left (fun h => Nat.le_trans h hle), .inl ⟨hsuffix, hnext⟩⟩
  | markAll interval =>
    exact ⟨sent, waiting, w.map Entry.mark_number, .inl (Nat.le_of_eq (List.length_map _)), .inl ⟨hsame, rfl⟩⟩
  | stall =>
    exact ⟨sent, waiting, w.map Entry.unmark_number, .inl (Nat.le_of_eq (List.length_map _)), .inl ⟨hsame, rfl⟩⟩
  | restart =>
    refine ⟨[], u.restart.queue.length, Window.all_pending ?_, .inl (Nat.le_of_eq (List.length_map _)), .inr (.inr rfl)⟩
    simp [NotificationUnit.restart, Entry.renew]

/-! ## The two laws by windows -/

/-- A queue whose entries IN_FLIGHT come first has a window. -/
theorem window_of_split {older newer : List Entry} {sent : List Byte} (ho : older.map Entry.number = sent.map some)
    (hn : ∀ e ∈ newer, e.status = .pending) : Window (older ++ newer) sent newer.length := by
  have hnew := Window.all_pending hn
  rw [Window, List.map_append, ho]
  exact congrArg _ (by simpa [Window] using hnew)

/-- Entries IN_FLIGHT hold numbers. -/
theorem map_number_of_inFlight {es : List Entry} (h : ∀ e ∈ es, e.inFlight = true) :
    es.map Entry.number = (es.filterMap Entry.number).map some := by
  induction es with
  | nil => rfl
  | cons e rest ih =>
    have he := h e List.mem_cons_self
    rw [Entry.inFlight_eq] at he
    obtain ⟨n, hn⟩ := Option.isSome_iff_exists.mp he
    simp [hn, ih (fun d hd => h d (List.mem_cons_of_mem _ hd))]

/-- A window splits the queue. -/
theorem Window.split {queue : List Entry} {sent : List Byte} {waiting : Nat} (w : Window queue sent waiting) :
    ∃ older newer, queue = older ++ newer ∧ older.map Entry.number = sent.map some ∧
      ∀ e ∈ newer, e.status = .pending := by
  obtain ⟨older, newer, hq, hold, hnew⟩ := List.map_eq_append_iff.mp w
  refine ⟨older, newer, hq, hold, fun e he => Entry.number_eq_none.mp ?_⟩
  exact List.eq_of_mem_replicate (hnew ▸ List.mem_map_of_mem he)

theorem NotificationUnit.queueLaw_iff {u : NotificationUnit} : u.QueueLaw ↔
    u.queue.length ≤ Config.queueCapacity ∧ ∃ sent waiting, Window u.queue sent waiting ∧
      sent.length ≤ Config.window := by
  constructor
  · rintro ⟨hlen, hcount, older, newer, hq, hold, hnew⟩
    have w := window_of_split (map_number_of_inFlight hold) hnew
    rw [← hq] at w
    exact ⟨hlen, _, _, w, w.inFlightCount ▸ hcount⟩
  · rintro ⟨hlen, sent, waiting, w, hsent⟩
    obtain ⟨older, newer, hq, hold, hnew⟩ := w.split
    refine ⟨hlen, w.inFlightCount ▸ hsent, older, newer, hq, fun e he => ?_, hnew⟩
    have hmem : e.number ∈ sent.map some := hold ▸ List.mem_map_of_mem he
    obtain ⟨n, -, hn⟩ := List.mem_map.mp hmem
    simp [Entry.inFlight_eq, ← hn]

/-- The numbers end just before the next one, each greater by 1 than the one before it (R176). -/
def EndsBefore (sent : List Byte) (next : Byte) : Prop :=
  ∀ i (h : i < sent.length), sent[i] = next - BitVec.ofNat 8 (sent.length - i)

theorem EndsBefore.nil (next : Byte) : EndsBefore [] next := fun _ h => absurd h (Nat.not_lt_zero _)

theorem EndsBefore.suffix {sent tail : List Byte} {next : Byte} (h : EndsBefore sent next) (hs : tail <:+ sent) :
    EndsBefore tail next := by
  obtain ⟨pre, rfl⟩ := hs
  intro i hi
  have hget := h (pre.length + i) (by simp; omega)
  rw [List.getElem_append_right (Nat.le_add_right _ _)] at hget
  simpa [Nat.add_sub_add_left] using hget

theorem EndsBefore.snoc {sent : List Byte} {next : Byte} (h : EndsBefore sent next) :
    EndsBefore (sent ++ [next]) (next + 1) := by
  intro i hi
  simp only [List.length_append, List.length_singleton] at hi ⊢
  by_cases hlast : i = sent.length
  · subst hlast
    have hget : (sent ++ [next])[sent.length]'(by simp) = next := by simp
    rw [hget, Nat.add_sub_cancel_left]
    exact (BitVec.add_sub_cancel next 1#8).symm
  · have hlt : i < sent.length := by omega
    have hsub : sent.length + 1 - i = sent.length - i + 1 := by omega
    rw [List.getElem_append_left hlt, h i hlt, hsub, BitVec.ofNat_add]
    generalize BitVec.ofNat 8 (sent.length - i) = back
    bv_omega

theorem NotificationUnit.numberLaw_iff {u : NotificationUnit} : u.NumberLaw ↔
    ∃ sent waiting, Window u.queue sent waiting ∧ EndsBefore sent u.nextNumber := by
  constructor
  · rintro ⟨older, newer, hq, hnew, hold⟩
    let sent := List.ofFn (fun i : Fin older.length => u.nextNumber - BitVec.ofNat 8 (older.length - i.val))
    have hnumbers : older.map Entry.number = sent.map some := by
      refine List.ext_getElem (by simp [sent]) (fun i hi _ => ?_)
      have hi' : i < older.length := by simpa using hi
      simpa [sent] using Entry.number_eq_some.mpr (hold i hi')
    have w := window_of_split hnumbers hnew
    rw [← hq] at w
    exact ⟨sent, _, w, fun i hi => by simp [sent]⟩
  · rintro ⟨sent, waiting, w, hends⟩
    obtain ⟨older, newer, hq, hold, hnew⟩ := w.split
    have hlen : older.length = sent.length := by simpa using congrArg List.length hold
    refine ⟨older, newer, hq, hnew, fun i hi => Entry.number_eq_some.mp ?_⟩
    have hi' : i < sent.length := hlen ▸ hi
    rw [hlen, ← hends i hi']
    have hget : (older.map Entry.number)[i]'(by simpa using hi) = (sent.map some)[i]'(by simpa using hi') := by
      simp only [hold]
    simpa using hget

/-- Every primitive move keeps the law of the queue: numbers join only where fewer than 4 are out. -/
theorem NotificationUnit.Move.queueLaw {u v : NotificationUnit} (h : u.Move v) (law : u.QueueLaw) : v.QueueLaw := by
  obtain ⟨hlen, sent, waiting, w, hsent⟩ := queueLaw_iff.mp law
  obtain ⟨sent', waiting', w', hlen', hcases⟩ := h.window w
  refine queueLaw_iff.mpr ⟨hlen'.elim (fun hle => Nat.le_trans hle hlen) id, sent', waiting', w', ?_⟩
  obtain ⟨hsuffix, -⟩ | ⟨rfl, -, hlt⟩ | rfl := hcases
  · exact Nat.le_trans hsuffix.length_le hsent
  · rw [List.length_append]
    exact hlt
  · exact Nat.zero_le _

/-- Every primitive move keeps the law of the numbers: the one that joins is the next. -/
theorem NotificationUnit.Move.numberLaw {u v : NotificationUnit} (h : u.Move v) (law : u.NumberLaw) : v.NumberLaw := by
  obtain ⟨sent, waiting, w, hends⟩ := numberLaw_iff.mp law
  obtain ⟨sent', waiting', w', -, hcases⟩ := h.window w
  refine numberLaw_iff.mpr ⟨sent', waiting', w', ?_⟩
  obtain ⟨hsuffix, hnext⟩ | ⟨rfl, hnext, -⟩ | rfl := hcases
  · exact hnext ▸ hends.suffix hsuffix
  · exact hnext ▸ hends.snoc
  · exact EndsBefore.nil _

theorem NotificationUnit.queueLaw_reset : NotificationUnit.reset.QueueLaw :=
  queueLaw_iff.mpr ⟨Nat.zero_le _, [], 0, rfl, Nat.zero_le _⟩

theorem NotificationUnit.numberLaw_reset : NotificationUnit.reset.NumberLaw :=
  numberLaw_iff.mpr ⟨[], 0, rfl, EndsBefore.nil _⟩

end Sys2Proof.Machine
end

section
/-! # The region and store laws (R35, R36, R47, R48)

A read of the store after each operation on it, one region's law by itself, and what the primitive moves do to both
laws. -/

namespace Sys2Proof.Machine

/-! ## Reads of the store -/

theorem Store.read_write (st : Store) (a b : Nat) (g : Segment) :
    (st.write a g).read b = if b = a then some g else st.read b := by
  induction st with
  | nil => simp [Store.write, Store.read, eq_comm]
  | cons c rest ih =>
    obtain ⟨k, h⟩ := c
    unfold Store.write
    split
    case isTrue => simp [Store.read, eq_comm]
    case isFalse =>
      split
      case isTrue hk =>
        simp only [Store.read, hk, eq_comm (a := k) (b := b)]
        by_cases hb : b = k <;> simp [hb]
      case isFalse hk =>
        simp only [Store.read, ih]
        by_cases hb : b = a
        · simp [hb, Ne.symm hk]
        · simp [hb]

/-- A filter by slot keeps the contents of the slots it lets through. -/
theorem Store.read_filter (st : Store) (keep : Nat → Bool) (b : Nat) :
    Store.read (st.filter (fun c => keep c.1)) b = if keep b then st.read b else none := by
  induction st with
  | nil => simp [Store.read]
  | cons c rest ih =>
    obtain ⟨k, h⟩ := c
    by_cases hk : keep k = true
    · rw [List.filter_cons_of_pos (p := fun c : Nat × Segment => keep c.1) hk]
      simp only [Store.read, ih]
      by_cases hb : k = b
      · subst hb
        simp [hk]
      · simp [hb]
    · rw [List.filter_cons_of_neg (p := fun c : Nat × Segment => keep c.1) hk, ih]
      by_cases hb : k = b
      · subst hb
        simp [hk]
      · simp [Store.read, hb]

theorem Store.read_erase (st : Store) (a b : Nat) : (st.erase a).read b = if b = a then none else st.read b := by
  have h := Store.read_filter st (fun k => decide (k ≠ a)) b
  simpa [Store.erase] using h

theorem Store.read_eraseRun (st : Store) (start size b : Nat) :
    (st.eraseRun start size).read b = if start ≤ b ∧ b < start + size then none else st.read b := by
  have h := Store.read_filter st (fun k => decide (k < start) || decide (start + size ≤ k)) b
  rw [Store.eraseRun, h]
  by_cases hin : start ≤ b ∧ b < start + size
  · rw [if_pos hin, if_neg]
    simp
    omega
  · rw [if_neg hin, if_pos]
    simp
    omega

section WriteSegments

variable {slotAt : Nat → Nat}

/-- Slots that no segment is written into read as before. -/
theorem Store.read_writeSegments_of_ne {segs : List Segment} {i : Nat} {st : Store} {a : Nat}
    (ha : ∀ j, j < segs.length → a ≠ slotAt (i + j)) : Store.read (writeSegments slotAt i segs st) a = st.read a := by
  induction segs generalizing i st with
  | nil => rfl
  | cons g rest ih =>
    have hrest : ∀ j, j < rest.length → a ≠ slotAt (i + 1 + j) := by
      intro j hj
      have h := ha (j + 1) (by simpa using hj)
      rwa [Nat.add_right_comm i 1 j]
    have hi : a ≠ slotAt i := ha 0 (by simp)
    rw [writeSegments, ih hrest, Store.read_write, if_neg hi]

/-- Segments written into different slots stand there in index order. -/
theorem Store.read_writeSegments {segs : List Segment} {i : Nat} {st : Store}
    (hinj : ∀ j m, j < segs.length → m < segs.length → slotAt (i + j) = slotAt (i + m) → j = m) {j : Nat}
    (hj : j < segs.length) : Store.read (writeSegments slotAt i segs st) (slotAt (i + j)) = some segs[j] := by
  induction segs generalizing i st j with
  | nil => exact absurd hj (Nat.not_lt_zero _)
  | cons g rest ih =>
    rw [writeSegments]
    cases j with
    | zero =>
      rw [Store.read_writeSegments_of_ne, Nat.add_zero, Store.read_write, if_pos rfl]
      · rfl
      · intro m hm heq
        have h := hinj 0 (m + 1) (by simp) (by simpa using hm)
          (by rw [heq]; congr 1; omega)
        exact absurd h (by omega)
    | succ j =>
      have hj' : j < rest.length := by simpa using hj
      have hrest := ih (i := i + 1) (st := st.write (slotAt i) g) (j := j) (fun m n hm hn he => ?_) hj'
      · rwa [Nat.add_right_comm i 1 j] at hrest
      · have h := hinj (m + 1) (n + 1) (by simpa using hm) (by simpa using hn)
          (by rwa [Nat.add_right_comm i 1 m, Nat.add_right_comm i 1 n] at he)
        omega

/-- The slots that hold a segment after a writing of segments. -/
theorem Store.isSome_read_writeSegments {segs : List Segment} {i : Nat} {st : Store} {a : Nat} :
    (Store.read (writeSegments slotAt i segs st) a).isSome = true ↔
      (∃ j, i ≤ j ∧ j < i + segs.length ∧ a = slotAt j) ∨ (st.read a).isSome = true := by
  induction segs generalizing i st with
  | nil => simp [writeSegments]; omega
  | cons g rest ih =>
    rw [writeSegments, ih, Store.read_write]
    constructor
    · rintro (⟨j, hlo, hhi, rfl⟩ | h)
      · exact .inl ⟨j, by omega, by simp; omega, rfl⟩
      · split at h
        case isTrue ha => exact .inl ⟨i, Nat.le_refl i, by simp, ha⟩
        case isFalse => exact .inr h
    · rintro (⟨j, hlo, hhi, rfl⟩ | h)
      · by_cases hij : j = i
        · subst hij
          exact .inr (by simp)
        · exact .inl ⟨j, by omega, by simp at hhi; omega, rfl⟩
      · by_cases ha : a = slotAt i
        · exact .inr (by simp [ha])
        · exact .inr (by simpa [ha] using h)

theorem Store.mem_writeSegments {segs : List Segment} {i : Nat} {st : Store} {c : Nat × Segment}
    (h : c ∈ writeSegments slotAt i segs st) : c.2 ∈ segs ∨ c ∈ st := by
  induction segs generalizing i st with
  | nil => exact .inr h
  | cons g rest ih =>
    rcases ih h with hrest | hwrite
    · exact .inl (List.mem_cons_of_mem _ hrest)
    · rcases Store.mem_write hwrite with rfl | hst
      · exact .inl List.mem_cons_self
      · exact .inr hst

end WriteSegments

/-! ## One region -/

/-- The law of one descriptor (R36, R47, R48). -/
def Region.Ok (g : Region) : Prop :=
  if g.defined then
    4 ≤ g.size ∧ g.start + g.size ≤ Config.slots ∧ g.head < g.size ∧ g.count ≤ g.size ∧ g.loaded ≤ g.size ∧
      ((∀ l, g.binding ≠ .lane l) → g.count = 0) ∧ ((∀ k, g.binding ≠ .pattern k) → g.loaded = 0)
  else g = Region.reset

/-- Two runs of slots that share none. -/
def Region.Apart (g g' : Region) : Prop := g.start + g.size ≤ g'.start ∨ g'.start + g'.size ≤ g.start

/-- Slot `a` lies in the region. -/
def Region.Spans (g : Region) (a : Nat) : Prop := g.start ≤ a ∧ a < g.start + g.size

theorem Part.regionLaw_iff {p : Part} : p.RegionLaw ↔ (∀ r, (p.region r).Ok) ∧
    ∀ r r', r ≠ r' → (p.region r).defined = true → (p.region r').defined = true →
      (p.region r).Apart (p.region r') := Iff.rfl

theorem Region.ok_reset : Region.reset.Ok := rfl

/-- A region that is defined or holds something is defined, with the law of a defined one. -/
theorem Region.Ok.of_defined {g : Region} (h : g.Ok) (hd : g.defined = true) :
    4 ≤ g.size ∧ g.start + g.size ≤ Config.slots ∧ g.head < g.size ∧ g.count ≤ g.size ∧ g.loaded ≤ g.size ∧
      ((∀ l, g.binding ≠ .lane l) → g.count = 0) ∧ ((∀ k, g.binding ≠ .pattern k) → g.loaded = 0) := by
  rwa [Region.Ok, if_pos hd] at h

theorem Region.ok_of_defined {g : Region} (hd : g.defined = true)
    (h : 4 ≤ g.size ∧ g.start + g.size ≤ Config.slots ∧ g.head < g.size ∧ g.count ≤ g.size ∧ g.loaded ≤ g.size ∧
      ((∀ l, g.binding ≠ .lane l) → g.count = 0) ∧ ((∀ k, g.binding ≠ .pattern k) → g.loaded = 0)) : g.Ok := by
  rwa [Region.Ok, if_pos hd]

theorem Region.Ok.eq_reset {g : Region} (h : g.Ok) (hd : g.defined = false) : g = Region.reset := by
  rwa [Region.Ok, hd, if_neg Bool.false_ne_true] at h

/-- An unbound region holds nothing. -/
theorem Region.Ok.unbound {g : Region} (h : g.Ok) (hb : g.binding = .none) : g.count = 0 ∧ g.loaded = 0 := by
  rcases hd : g.defined with _ | _
  · rw [h.eq_reset hd]
    exact ⟨rfl, rfl⟩
  · obtain ⟨-, -, -, -, -, hcount, hloaded⟩ := h.of_defined hd
    exact ⟨hcount (fun l => by simp [hb]), hloaded (fun k => by simp [hb])⟩

/-- A region without queue or pattern holds no slot. -/
theorem Region.not_holdsSlot {g : Region} (hc : g.count = 0) (hl : g.loaded = 0) (a : Nat) : ¬g.HoldsSlot a := by
  rintro (⟨i, hi, -⟩ | ⟨i, hi, -⟩) <;> omega

theorem Region.queueSlot_spans {g : Region} (hsize : 0 < g.size) (i : Nat) : g.Spans (g.queueSlot i) := by
  have := Nat.mod_lt (g.head + i) hsize
  exact ⟨Nat.le_add_right _ _, Nat.add_lt_add_left this _⟩

/-- Different queue positions are different slots (R48). -/
theorem Region.queueSlot_inj {g : Region} {i j : Nat} (hi : i < g.size) (hj : j < g.size)
    (h : g.queueSlot i = g.queueSlot j) : i = j := by
  have hmod : (g.head + i) % g.size = (g.head + j) % g.size := Nat.add_left_cancel h
  have hdown : (i - j) % g.size = 0 := Nat.add_sub_add_left g.head i j ▸ Nat.sub_mod_eq_zero_of_mod_eq hmod
  have hup : (j - i) % g.size = 0 := Nat.add_sub_add_left g.head j i ▸ Nat.sub_mod_eq_zero_of_mod_eq hmod.symm
  rw [Nat.mod_eq_of_lt (by omega)] at hdown hup
  omega

/-- What a region holds lies in it. -/
theorem Region.HoldsSlot.spans {g : Region} {a : Nat} (h : g.HoldsSlot a) (hok : g.Ok) :
    g.defined = true ∧ g.Spans a := by
  rcases hd : g.defined with _ | _
  · rw [hok.eq_reset hd] at h
    exact absurd h (Region.not_holdsSlot rfl rfl a)
  · obtain ⟨hmin, -, -, hcount, hloaded, -, -⟩ := hok.of_defined hd
    refine ⟨rfl, ?_⟩
    rcases h with ⟨i, hi, rfl⟩ | ⟨i, hi, rfl⟩
    · exact Region.queueSlot_spans (by omega) i
    · exact ⟨Nat.le_add_right _ _, by omega⟩

/-- The positions of a queue that has grown (R51). -/
theorem Region.holdsSlot_enqueued {g : Region} {n a : Nat} :
    ({ g with count := g.count + n } : Region).HoldsSlot a ↔
      (∃ j, g.count ≤ j ∧ j < g.count + n ∧ a = g.queueSlot j) ∨ g.HoldsSlot a := by
  constructor
  · rintro (⟨i, hi, ha⟩ | hl)
    · by_cases hlt : i < g.count
      · exact .inr (.inl ⟨i, hlt, ha⟩)
      · exact .inl ⟨i, Nat.le_of_not_lt hlt, hi, ha⟩
    · exact .inr (.inr hl)
  · rintro (⟨j, -, hhi, ha⟩ | ⟨i, hi, ha⟩ | hl)
    · exact .inl ⟨j, hhi, ha⟩
    · exact .inl ⟨i, Nat.lt_add_right n hi, ha⟩
    · exact .inr hl

/-- The positions of a pattern that has grown (R103). -/
theorem Region.holdsSlot_loaded {g : Region} {n a : Nat} :
    ({ g with loaded := g.loaded + n } : Region).HoldsSlot a ↔
      (∃ j, g.loaded ≤ j ∧ j < g.loaded + n ∧ a = g.start + j) ∨ g.HoldsSlot a := by
  constructor
  · rintro (hq | ⟨i, hi, ha⟩)
    · exact .inr (.inl hq)
    · by_cases hlt : i < g.loaded
      · exact .inr (.inr ⟨i, hlt, ha⟩)
      · exact .inl ⟨i, Nat.le_of_not_lt hlt, hi, ha⟩
  · rintro (⟨j, -, hhi, ha⟩ | hq | ⟨i, hi, ha⟩)
    · exact .inr ⟨j, hhi, ha⟩
    · exact .inl hq
    · exact .inr ⟨i, Nat.lt_add_right n hi, ha⟩

/-- The positions of a queue whose element 0 has been removed (R49): every position moves down by one. -/
theorem Region.holdsSlot_popped {g : Region} {a : Nat} (hc : 0 < g.count) (hcs : g.count ≤ g.size)
    (hl : g.loaded = 0) :
    ({ g with head := (g.head + 1) % g.size, count := g.count - 1 } : Region).HoldsSlot a ↔
      a ≠ g.queueSlot 0 ∧ g.HoldsSlot a := by
  have hmoved : ∀ i, ({ g with head := (g.head + 1) % g.size, count := g.count - 1 } : Region).queueSlot i =
      g.queueSlot (i + 1) := by
    intro i
    simp only [Region.queueSlot, Nat.mod_add_mod]
    rw [Nat.add_assoc g.head 1 i, Nat.add_comm 1 i]
  constructor
  · rintro (⟨i, hi, rfl⟩ | ⟨i, hi, -⟩)
    · have hi' : i + 1 < g.count := Nat.add_lt_of_lt_sub hi
      rw [hmoved]
      refine ⟨fun he => ?_, .inl ⟨i + 1, hi', rfl⟩⟩
      exact Nat.succ_ne_zero i (Region.queueSlot_inj (by omega) (by omega) he)
    · exact absurd hi (by simp [hl])
  · rintro ⟨hne, ⟨i, hi, rfl⟩ | ⟨i, hi, -⟩⟩
    · obtain ⟨j, rfl⟩ : ∃ j, i = j + 1 := Nat.exists_eq_succ_of_ne_zero (fun hz => hne (by rw [hz]))
      exact .inl ⟨j, Nat.lt_sub_of_add_lt hi, (hmoved j).symm⟩
    · omega

/-! ## The region law under a change of one region -/

section RegionLaw

variable {p q : Part} {r : Fin 16}

/-- The region law where one descriptor has changed: its own law, and its place apart from the others. -/
theorem Part.RegionLaw.of_region (h : p.RegionLaw) (hother : ∀ r', r' ≠ r → q.region r' = p.region r')
    (hok : (q.region r).Ok)
    (hapart : ∀ r', r' ≠ r → (q.region r).defined = true → (p.region r').defined = true →
      (q.region r).Apart (p.region r')) : q.RegionLaw := by
  obtain ⟨hall, hdisjoint⟩ := Part.regionLaw_iff.mp h
  refine Part.regionLaw_iff.mpr ⟨fun r' => ?_, fun a b hab ha hb => ?_⟩
  · by_cases hr : r' = r
    · exact hr ▸ hok
    · exact hother r' hr ▸ hall r'
  · by_cases har : a = r
    · subst har
      rw [hother b hab.symm] at hb ⊢
      exact hapart b hab.symm ha hb
    · rw [hother a har] at ha ⊢
      by_cases hbr : b = r
      · subst hbr
        exact (hapart a har hb ha).symm
      · rw [hother b hbr] at hb ⊢
        exact hdisjoint a b hab ha hb

/-- A descriptor that keeps its place needs only its own law. -/
theorem Part.RegionLaw.of_same_place (h : p.RegionLaw) (hother : ∀ r', r' ≠ r → q.region r' = p.region r')
    (hok : (q.region r).Ok) (hd : (p.region r).defined = true) (hstart : (q.region r).start = (p.region r).start)
    (hsize : (q.region r).size = (p.region r).size) : q.RegionLaw :=
  h.of_region hother hok (fun r' hr _ hd' => by
    unfold Region.Apart
    rw [hstart, hsize]
    exact (Part.regionLaw_iff.mp h).2 r r' (Ne.symm hr) hd hd')

theorem Part.RegionLaw.congr (h : p.RegionLaw) (hr : q.regions = p.regions) : q.RegionLaw := by
  unfold Part.RegionLaw Part.region at h ⊢
  rwa [hr]

theorem Part.RegionLaw.ok (h : p.RegionLaw) (r : Fin 16) : (p.region r).Ok := (Part.regionLaw_iff.mp h).1 r

end RegionLaw

/-- Runs that do not overlap share no slot. -/
theorem apart_of_not_overlap {start size start' size' : Nat} (h : runsOverlap start size start' size' = false) :
    start + size ≤ start' ∨ start' + size' ≤ start := by
  simp only [runsOverlap, Bool.and_eq_false_iff, decide_eq_false_iff_not] at h
  omega

theorem laneRegion_defined {p : Part} {l : Fin 6} {r : Fin 16} (h : p.laneRegion l = some r) :
    (p.region r).defined = true ∧ (p.region r).binding = .lane l := by
  simpa using List.find?_some h

theorem patternRegion_bound {p : Part} {k : Fin 8} {r : Fin 16} (h : p.patternRegion k = some r) :
    (p.region r).defined = true ∧ (p.region r).binding = .pattern k := by
  simpa using List.find?_some h

/-! ## Regions and store after the operations on a region -/

section Operations

variable (p : Part) (r : Fin 16) (segs : List Segment)

@[simp] theorem Part.emptyRegion_region_self :
    (p.emptyRegion r).region r = { p.region r with head := 0, count := 0, loaded := 0 } :=
  Part.setRegion_region_self _ r _

theorem Part.emptyRegion_region_of_ne {r r' : Fin 16} (h : r' ≠ r) : (p.emptyRegion r).region r' = p.region r' :=
  Part.setRegion_region_of_ne _ _ h

@[simp] theorem Part.enqueue_region_self :
    (p.enqueue r segs).region r = { p.region r with count := (p.region r).count + segs.length } :=
  Part.setRegion_region_self _ r _

theorem Part.enqueue_region_of_ne {r r' : Fin 16} (h : r' ≠ r) : (p.enqueue r segs).region r' = p.region r' :=
  Part.setRegion_region_of_ne _ _ h

@[simp] theorem Part.load_region_self :
    (p.load r segs).region r = { p.region r with loaded := (p.region r).loaded + segs.length } :=
  Part.setRegion_region_self _ r _

theorem Part.load_region_of_ne {r r' : Fin 16} (h : r' ≠ r) : (p.load r segs).region r' = p.region r' :=
  Part.setRegion_region_of_ne _ _ h

theorem Part.enqueue_store :
    (p.enqueue r segs).store = writeSegments (p.region r).queueSlot (p.region r).count segs p.store := rfl

theorem Part.load_store :
    (p.load r segs).store = writeSegments (fun i => (p.region r).start + i) (p.region r).loaded segs p.store := rfl

theorem Part.emptyRegion_store :
    (p.emptyRegion r).store = p.store.eraseRun (p.region r).start (p.region r).size := rfl

end Operations

/-- A region emptied keeps its law, bound or not. -/
theorem Region.Ok.emptied {g : Region} (h : g.Ok) (hd : g.defined = true) (b : Binding) :
    ({ g with binding := b, head := 0, count := 0, loaded := 0 } : Region).Ok := by
  obtain ⟨hmin, hend, -⟩ := h.of_defined hd
  exact Region.ok_of_defined hd ⟨hmin, hend, Nat.lt_of_lt_of_le (Nat.zero_lt_succ 3) hmin, Nat.zero_le _,
    Nat.zero_le _, fun _ => rfl, fun _ => rfl⟩

/-- Every primitive move keeps the region law. -/
theorem Part.Move.regionLaw {p q : Part} (m : Part.Move p q) (h : p.RegionLaw) : q.RegionLaw := by
  cases m with
  | inner _ _ _ hr => exact h.congr hr
  | notif u hu => exact h.congr rfl
  | define r start size hd hsize hend hfree =>
    refine h.of_region (r := r) (fun r' => Part.setRegion_region_of_ne p _) ?_ (fun r' hr' _ hd' => ?_)
    · rw [Part.setRegion_region_self]
      exact Region.ok_of_defined rfl ⟨hsize, hend, Nat.lt_of_lt_of_le (Nat.zero_lt_succ 3) hsize, Nat.zero_le _,
        Nat.zero_le _, fun _ => rfl, fun _ => rfl⟩
    · rw [Part.setRegion_region_self]
      exact apart_of_not_overlap (hfree r' hd')
  | delete r hd hb =>
    refine h.of_region (r := r) (fun r' => Part.setRegion_region_of_ne p _) ?_ (fun r' _ hdef => ?_)
    · rw [Part.setRegion_region_self]
      exact Region.ok_reset
    · rw [Part.setRegion_region_self] at hdef
      exact absurd hdef Bool.false_ne_true
  | bindLane r l hd hb =>
    obtain ⟨hmin, hend, -, -, hloaded, -, -⟩ := (h.ok r).of_defined hd
    refine h.of_same_place (r := r) (fun r' => Part.setRegion_region_of_ne p _) ?_ hd (by simp) (by simp)
    rw [Part.setRegion_region_self]
    exact Region.ok_of_defined hd ⟨hmin, hend, Nat.lt_of_lt_of_le (Nat.zero_lt_succ 3) hmin, Nat.zero_le _, hloaded,
      fun hl => absurd rfl (hl l), fun _ => ((h.ok r).unbound hb).2⟩
  | bindPattern r k hd hb =>
    obtain ⟨hmin, hend, hhead, hcount, -, -, -⟩ := (h.ok r).of_defined hd
    refine h.of_same_place (r := r) (fun r' => Part.setRegion_region_of_ne p _) ?_ hd (by simp) (by simp)
    rw [Part.setRegion_region_self]
    exact Region.ok_of_defined hd ⟨hmin, hend, hhead, hcount, Nat.zero_le _, fun _ => ((h.ok r).unbound hb).1,
      fun hk => absurd rfl (hk k)⟩
  | unbind r hd =>
    refine h.of_same_place (r := r) (fun r' hr' => ?_) ?_ hd (by simp) (by simp)
    · rw [Part.setRegion_region_of_ne _ _ hr', Part.emptyRegion_region_of_ne _ hr']
    · rw [Part.setRegion_region_self, Part.emptyRegion_region_self]
      exact (h.ok r).emptied hd .none
  | empty r hd =>
    refine h.of_same_place (r := r) (fun r' => Part.emptyRegion_region_of_ne p) ?_ hd (by simp) (by simp)
    rw [Part.emptyRegion_region_self]
    exact (h.ok r).emptied hd _
  | enqueue l r segs hl hroom hsegs =>
    obtain ⟨hd, hb⟩ := laneRegion_defined hl
    obtain ⟨hmin, hend, hhead, hcount, hloaded, -, hnone⟩ := (h.ok r).of_defined hd
    refine h.of_same_place (r := r) (fun r' => Part.enqueue_region_of_ne p segs) ?_ hd (by simp) (by simp)
    rw [Part.enqueue_region_self]
    exact Region.ok_of_defined hd ⟨hmin, hend, hhead, hroom, hloaded, fun hl => absurd hb (hl l), hnone⟩
  | load k r segs hk hroom hsegs =>
    obtain ⟨hd, hb⟩ := patternRegion_bound hk
    obtain ⟨hmin, hend, hhead, hcount, hloaded, hnone, -⟩ := (h.ok r).of_defined hd
    refine h.of_same_place (r := r) (fun r' => Part.load_region_of_ne p segs) ?_ hd (by simp) (by simp)
    rw [Part.load_region_self]
    exact Region.ok_of_defined hd ⟨hmin, hend, hhead, hcount, hroom, hnone, fun hp => absurd hb (hp k)⟩
  | pop l r hl hc =>
    obtain ⟨hd, hb⟩ := laneRegion_defined hl
    obtain ⟨hmin, hend, hhead, hcount, hloaded, -, hnone⟩ := (h.ok r).of_defined hd
    refine h.of_same_place (r := r) (fun r' => Part.setRegion_region_of_ne _ _) ?_ hd (by simp) (by simp)
    rw [Part.setRegion_region_self]
    exact Region.ok_of_defined hd ⟨hmin, hend, Nat.mod_lt _ (Nat.lt_of_lt_of_le (Nat.zero_lt_succ 3) hmin),
      Nat.le_trans (Nat.sub_le _ _) hcount, hloaded, fun hl => absurd hb (hl l), hnone⟩

/-! ## The store law -/

/-- Some other region than `r` has slot `a` at one of its positions. -/
def Part.HeldOutside (p : Part) (r : Fin 16) (a : Nat) : Prop := ∃ r', r' ≠ r ∧ (p.region r').HoldsSlot a

section StoreLaw

variable {p q : Part} {r : Fin 16}

/-- What other regions hold does not lie in a defined region. -/
theorem Part.RegionLaw.heldOutside_not_spans (h : p.RegionLaw) (hd : (p.region r).defined = true) {a : Nat}
    (ho : p.HeldOutside r a) : ¬(p.region r).Spans a := by
  rintro ⟨hlo, hhi⟩
  obtain ⟨r', hne, hholds⟩ := ho
  obtain ⟨hd', hlo', hhi'⟩ := hholds.spans (h.ok r')
  have := (Part.regionLaw_iff.mp h).2 r' r hne hd' hd
  unfold Region.Apart at this
  omega

/-- The store law told from one region. -/
theorem Part.storeLaw_iff (r : Fin 16) : p.StoreLaw ↔ p.store.wf = true ∧
    ∀ a, (p.store.read a).isSome = true ↔ (p.region r).HoldsSlot a ∨ p.HeldOutside r a := by
  have hsplit : ∀ a, (∃ r', (p.region r').HoldsSlot a) ↔ (p.region r).HoldsSlot a ∨ p.HeldOutside r a := by
    intro a
    constructor
    · rintro ⟨r', hr'⟩
      by_cases he : r' = r
      · exact .inl (he ▸ hr')
      · exact .inr ⟨r', he, hr'⟩
    · rintro (hr | ⟨r', -, hr'⟩)
      · exact ⟨r, hr⟩
      · exact ⟨r', hr'⟩
  simp only [Part.StoreLaw, hsplit]

/-- The store law where one descriptor and the store have changed: the slots that are filled are those of the descriptor
and those that the other regions held. -/
theorem Part.StoreLaw.of_region (hother : ∀ r', r' ≠ r → q.region r' = p.region r') (hwf : q.store.wf = true)
    (hread : ∀ a, (q.store.read a).isSome = true ↔ (q.region r).HoldsSlot a ∨ p.HeldOutside r a) : q.StoreLaw := by
  refine (Part.storeLaw_iff r).mpr ⟨hwf, fun a => (hread a).trans (or_congr Iff.rfl ?_)⟩
  exact exists_congr (fun r' => and_congr_right (fun hr' => by rw [hother r' hr']))

theorem Part.StoreLaw.congr (h : p.StoreLaw) (hs : q.store = p.store) (hr : q.regions = p.regions) : q.StoreLaw := by
  unfold Part.StoreLaw Part.region at h ⊢
  rwa [hs, hr]

/-- A descriptor that holds nothing before and after. -/
theorem Part.StoreLaw.of_nothing (h : p.StoreLaw) (hother : ∀ r', r' ≠ r → q.region r' = p.region r')
    (hs : q.store = p.store) (hold : (p.region r).count = 0 ∧ (p.region r).loaded = 0)
    (hnew : (q.region r).count = 0 ∧ (q.region r).loaded = 0) : q.StoreLaw := by
  obtain ⟨hwf, hread⟩ := (Part.storeLaw_iff r).mp h
  refine .of_region hother (hs ▸ hwf) (fun a => ?_)
  rw [hs, hread]
  exact or_congr (iff_of_false (Region.not_holdsSlot hold.1 hold.2 a) (Region.not_holdsSlot hnew.1 hnew.2 a)) Iff.rfl

/-- A region emptied, its segments erased. -/
theorem Part.StoreLaw.of_emptied (h : p.StoreLaw) (hregion : p.RegionLaw) (hd : (p.region r).defined = true)
    (hother : ∀ r', r' ≠ r → q.region r' = p.region r')
    (hs : q.store = p.store.eraseRun (p.region r).start (p.region r).size)
    (hnew : (q.region r).count = 0 ∧ (q.region r).loaded = 0) : q.StoreLaw := by
  obtain ⟨hwf, hread⟩ := (Part.storeLaw_iff r).mp h
  refine .of_region hother (hs ▸ Store.wf_eraseRun _ _ hwf) (fun a => ?_)
  rw [hs, Store.read_eraseRun, or_iff_right (Region.not_holdsSlot hnew.1 hnew.2 a)]
  split
  case isTrue hin =>
    exact iff_of_false (by simp) (fun ho => hregion.heldOutside_not_spans hd ho hin)
  case isFalse hout =>
    rw [hread]
    exact or_iff_right (fun hholds => hout (hholds.spans (hregion.ok r)).2)

end StoreLaw

/-- Under the region law every primitive move keeps the store law. -/
theorem Part.Move.storeLaw {p q : Part} (m : Part.Move p q) (hregion : p.RegionLaw) (h : p.StoreLaw) : q.StoreLaw := by
  cases m with
  | inner _ _ hs hr => exact h.congr hs hr
  | notif u hu => exact h.congr rfl rfl
  | define r start size hd _ _ _ =>
    have hreset := (hregion.ok r).eq_reset hd
    exact h.of_nothing (r := r) (fun r' => Part.setRegion_region_of_ne p _) rfl (by simp [hreset, Region.reset]) (by simp)
  | delete r hd hb =>
    exact h.of_nothing (r := r) (fun r' => Part.setRegion_region_of_ne p _) rfl ((hregion.ok r).unbound hb)
      (by simp [Region.reset])
  | bindLane r l hd hb =>
    have hnone := (hregion.ok r).unbound hb
    exact h.of_nothing (r := r) (fun r' => Part.setRegion_region_of_ne p _) rfl hnone (by simp [hnone])
  | bindPattern r k hd hb =>
    have hnone := (hregion.ok r).unbound hb
    exact h.of_nothing (r := r) (fun r' => Part.setRegion_region_of_ne p _) rfl hnone (by simp [hnone])
  | unbind r hd =>
    refine h.of_emptied hregion hd (fun r' hr' => ?_) rfl (by simp)
    rw [Part.setRegion_region_of_ne _ _ hr', Part.emptyRegion_region_of_ne _ hr']
  | empty r hd => exact h.of_emptied hregion hd (fun r' => Part.emptyRegion_region_of_ne p) rfl (by simp)
  | enqueue l r segs hl hroom hsegs =>
    obtain ⟨hd, hb⟩ := laneRegion_defined hl
    obtain ⟨hmin, hend, hhead, hcount, hloaded, -, hnone⟩ := (hregion.ok r).of_defined hd
    obtain ⟨hwf, hread⟩ := (Part.storeLaw_iff r).mp h
    refine .of_region (r := r) (fun r' => Part.enqueue_region_of_ne p segs)
      (Store.wf_writeSegments _ _ _ (fun j _ _ => ?_) hwf) (fun a => ?_)
    · exact Nat.lt_of_lt_of_le (Region.queueSlot_spans (by omega) j).2 hend
    · rw [Part.enqueue_store, Store.isSome_read_writeSegments, hread, Part.enqueue_region_self, ← or_assoc]
      exact or_congr Region.holdsSlot_enqueued.symm Iff.rfl
  | load k r segs hk hroom hsegs =>
    obtain ⟨hd, hb⟩ := patternRegion_bound hk
    obtain ⟨-, hend, -⟩ := (hregion.ok r).of_defined hd
    obtain ⟨hwf, hread⟩ := (Part.storeLaw_iff r).mp h
    refine .of_region (r := r) (fun r' => Part.load_region_of_ne p segs)
      (Store.wf_writeSegments _ _ _ (fun j _ hj => ?_) hwf) (fun a => ?_)
    · exact Nat.lt_of_lt_of_le (Nat.add_lt_add_left (Nat.lt_of_lt_of_le hj hroom) _) hend
    · rw [Part.load_store, Store.isSome_read_writeSegments, hread, Part.load_region_self, ← or_assoc]
      exact or_congr Region.holdsSlot_loaded.symm Iff.rfl
  | pop l r hl hc =>
    obtain ⟨hd, hb⟩ := laneRegion_defined hl
    obtain ⟨hmin, -, -, hcount, -, -, hnone⟩ := (hregion.ok r).of_defined hd
    have hloaded : (p.region r).loaded = 0 := hnone (fun k => by simp [hb])
    obtain ⟨hwf, hread⟩ := (Part.storeLaw_iff r).mp h
    refine .of_region (p := p) (r := r) (fun r' => Part.setRegion_region_of_ne _ _) (Store.wf_erase _ hwf) (fun a => ?_)
    rw [Part.setRegion_region_self, Region.holdsSlot_popped hc hcount hloaded, Part.setRegion_store, Store.read_erase]
    split
    case isTrue ha =>
      refine iff_of_false (by simp) (not_or.mpr ⟨fun hn => hn.1 ha, fun ho => ?_⟩)
      exact hregion.heldOutside_not_spans hd ho (ha ▸ Region.queueSlot_spans (by omega) 0)
    case isFalse ha => simp [hread, ha]

/-- Every primitive move stores segments in range only. -/
theorem Part.Move.segmentLaw {p q : Part} (m : Part.Move p q) (h : p.SegmentLaw) : q.SegmentLaw := by
  cases m with
  | inner _ _ hs _ => exact fun c hc => h c (hs ▸ hc)
  | unbind r _ => exact fun c hc => h c (List.mem_filter.mp hc).1
  | empty r _ => exact fun c hc => h c (List.mem_filter.mp hc).1
  | pop l r _ _ => exact fun c hc => h c (List.mem_filter.mp hc).1
  | enqueue l r segs _ _ hsegs => exact fun c hc => (Store.mem_writeSegments hc).elim (hsegs _) (h c)
  | load k r segs _ _ hsegs => exact fun c hc => (Store.mem_writeSegments hc).elim (hsegs _) (h c)
  | notif | define | delete | bindLane | bindPattern => exact h

end Sys2Proof.Machine
end

section
/-! # The laws that every step keeps

Each law is carried through the moves, ticks and resets that a step is made of (`Part.Run.keeps`); the law of the pairs
comes from what every command ends with, and the lane laws from the events one by one. -/

namespace Sys2Proof.Machine

/-! ## What one step does -/

/-- Stored segments are in range, as decoding gives no others. -/
theorem decodesInRange : Part.Moves.DecodesInRange := fun _ _ h => (inRange_of_decodeSegment h).1

/-- What every primitive move, every end of a tick and every reset keeps, every step keeps. -/
theorem step_keeps {P : Part → Prop} {s t : State} (h : step s = .next t) (hmove : ∀ p q, Part.Move p q → P p → P q)
    (hclock : ∀ p s, P p → P (p.nextTick s))
    (hpass : ∀ (p : Part) phase pin, P p → P { p with resetPhase := phase, resetPin := pin })
    (hreset : ∀ cause straps first phase pin, P (Part.atReset cause straps first phase pin)) : P s.part → P t.part :=
  (step_run decodesInRange s t h).keeps hmove hclock hpass hreset

/-- A step idles, or executes a command on the part. -/
theorem step_cases {s t : State} (h : step s = .next t) :
    t = s ∨ ∃ (c : Instr) (rest : List Instr), exec c { s with pending := rest } = .next t := by
  unfold step at h
  split at h
  case h_1 => cases h; exact .inl rfl
  case h_2 c rest _ => exact .inr ⟨c, rest, h⟩

/-- The ways in which a command changes the part: an event, an event that is due, the two ends of a tick, a reset, or
one of the events that are made of others. -/
theorem exec_keeps {P : Part → Prop} {c : Instr} {s t : State} (h : exec c s = .next t) (f : Part → Part)
    (hx : exec c s = s.act f) (hf : P s.part → P (f s.part)) (hs : P s.part) : P t.part := by
  rw [hx] at h
  cases h
  exact hf hs

/-! ## Resets -/

section AtReset

variable (cause : ResetCause) (straps : Straps) (first : Pins) (phase : ResetPhase) (pin : Level)

@[simp] theorem Part.atReset_pair (k : Fin 3) : (Part.atReset cause straps first phase pin).pair k = Pair.reset := by
  revert k
  simp [Fin.forall_fin_succ, Part.atReset, Part.pair]

@[simp] theorem Part.atReset_region (r : Fin 16) :
    (Part.atReset cause straps first phase pin).region r = Region.reset := by
  simp [Part.atReset, Part.region]

@[simp] theorem Part.atReset_lane (l : Fin 6) : (Part.atReset cause straps first phase pin).lane l = Lane.reset := by
  simp [Part.atReset, Part.lane]

@[simp] theorem Part.atReset_pattern (k : Fin 8) :
    (Part.atReset cause straps first phase pin).pattern k = Pattern.reset := by
  simp [Part.atReset, Part.pattern]

@[simp] theorem Part.atReset_barrier (b : Fin 4) :
    (Part.atReset cause straps first phase pin).barrier b = Barrier.reset := by
  simp [Part.atReset, Part.barrier]

@[simp] theorem Part.atReset_trigger (i : Fin 4) :
    (Part.atReset cause straps first phase pin).trigger i = TriggerInput.reset (pinLevel first.trg i) := by
  match i with
  | 0 => rfl
  | 1 => rfl
  | 2 => rfl
  | 3 => rfl

@[simp] theorem Part.atReset_fault (i : Fin 4) :
    (Part.atReset cause straps first phase pin).fault i = FaultInput.reset (pinLevel first.flt i) := by
  match i with
  | 0 => rfl
  | 1 => rfl
  | 2 => rfl
  | 3 => rfl

theorem Part.atReset_regionLaw : (Part.atReset cause straps first phase pin).RegionLaw := by
  refine Part.regionLaw_iff.mpr ⟨fun r => ?_, fun r r' _ hd => ?_⟩
  · rw [Part.atReset_region]
    exact Region.ok_reset
  · rw [Part.atReset_region] at hd
    exact absurd hd Bool.false_ne_true

theorem Part.atReset_storeLaw : (Part.atReset cause straps first phase pin).StoreLaw := by
  refine ⟨rfl, fun a => iff_of_false Bool.false_ne_true ?_⟩
  rintro ⟨r, hr⟩
  rw [Part.atReset_region] at hr
  exact Region.not_holdsSlot rfl rfl a hr

theorem Part.atReset_segmentLaw : (Part.atReset cause straps first phase pin).SegmentLaw := fun _ hc => nomatch hc

theorem Barrier.waitLaw_reset : Barrier.reset.WaitLaw := ⟨by decide, fun _ => rfl, fun _ => rfl⟩

theorem FaultInput.stickyLaw_reset (sample : Level) : (FaultInput.reset sample).StickyLaw := fun h => absurd rfl h

end AtReset

/-! ## The end of a tick -/

section NextTick

variable (p : Part) (s : Pins)

@[simp] theorem Part.nextTick_pair (k : Fin 3) : (p.nextTick s).pair k = (p.pair k).closeTick := by
  match k with
  | 0 => rfl
  | 1 => rfl
  | 2 => rfl

@[simp] theorem Part.nextTick_lane (l : Fin 6) : (p.nextTick s).lane l = (p.lane l).advance := by
  match l with
  | 0 => rfl
  | 1 => rfl
  | 2 => rfl
  | 3 => rfl
  | 4 => rfl
  | 5 => rfl

@[simp] theorem Part.nextTick_trigger (i : Fin 4) :
    (p.nextTick s).trigger i = (p.trigger i).takeSample (pinLevel s.trg i) := by
  match i with
  | 0 => rfl
  | 1 => rfl
  | 2 => rfl
  | 3 => rfl

@[simp] theorem Part.nextTick_fault (i : Fin 4) :
    (p.nextTick s).fault i = (p.fault i).takeSample (pinLevel s.flt i) := by
  match i with
  | 0 => rfl
  | 1 => rfl
  | 2 => rfl
  | 3 => rfl

/-- A sample leaves the sticky flag and what the law asks of it. -/
theorem FaultInput.StickyLaw.takeSample {f : FaultInput} (h : f.StickyLaw) (level : Level) :
    (f.takeSample level).StickyLaw := by
  unfold FaultInput.takeSample
  split <;> exact h

end NextTick

/-! ## The pairs -/

theorem Polarity.level_inj {x : Polarity} {a b : Bool} (h : x.level a = x.level b) : a = b := by
  cases x <;> cases a <;> cases b <;> cases h <;> rfl

/-- A line driven to its active level is requested (R8, R10). -/
theorem Line.requested_of_level {x : Line} {requested : Bool} {dead : Nat}
    (h : (x.driveComplementary requested dead).level = (x.driveComplementary requested dead).polarity.level true) :
    requested = true := by
  have hactive : (requested && Line.delayOver { x with requested := requested } dead) = true := Polarity.level_inj h
  exact (Bool.and_eq_true_iff.mp hactive).1

/-- The lines of a pair driven at this tick are never both active: one demand does not ask for both (R12). -/
theorem Pair.drive_neverBothActive (x : Pair) (even odd : Option Demand) : (x.drive even odd).NeverBothActive := by
  unfold Pair.drive
  split
  case h_1 hmode => exact fun hcomp => absurd (hmode.symm.trans hcomp) nofun
  case h_2 =>
    rintro - ⟨htop, hbottom⟩
    have ht := of_decide_eq_true (Line.requested_of_level htop)
    have hb := of_decide_eq_true (Line.requested_of_level hbottom)
    exact absurd (ht.symm.trans hb) nofun

theorem Part.driveLines_pair (p : Part) (k : Fin 3) : p.driveLines.pair k = p.drivenPair k := by
  match k with
  | 0 => rfl
  | 1 => rfl
  | 2 => rfl

theorem Part.driveLines_neverBothActive (p : Part) : p.driveLines.NeverBothActive := fun k => by
  rw [Part.driveLines_pair]
  exact Pair.drive_neverBothActive _ _ _

theorem Part.settle_neverBothActive (p : Part) : p.settle.NeverBothActive := p.pump.driveLines_neverBothActive

theorem Part.atReset_neverBothActive (cause straps first phase pin) :
    (Part.atReset cause straps first phase pin).NeverBothActive := fun k => by
  rw [Part.atReset_pair]
  exact fun hmode => nomatch hmode

section PairLaw

variable {p : Part}

theorem Part.NeverBothActive.event (h : p.NeverBothActive) (f : Part → Part) : (p.event f).NeverBothActive := by
  unfold Part.event
  split
  · exact Part.settle_neverBothActive _
  · exact h

theorem Part.NeverBothActive.eventWhen (h : p.NeverBothActive) (due : Bool) (f : Part → Part) :
    (p.eventWhen due f).NeverBothActive := by
  unfold Part.eventWhen
  split
  · exact h.event f
  · exact h

theorem Part.NeverBothActive.heldEvent (h : p.NeverBothActive) (l : Fin 6) : (p.heldEvent l).NeverBothActive := by
  unfold Part.heldEvent
  split
  · exact h.event _
  · exact h.eventWhen _ _

theorem Part.NeverBothActive.pinLow (h : p.NeverBothActive) : p.pinLow.NeverBothActive := by
  unfold Part.pinLow
  split
  · exact Part.atReset_neverBothActive _ _ _ _ _
  · exact h

theorem Part.NeverBothActive.endReset (h : p.NeverBothActive) (straps : Straps) (first : Pins) :
    (p.endReset straps first).NeverBothActive := by
  unfold Part.endReset
  split
  · exact Part.atReset_neverBothActive _ _ _ _ _
  · exact h

theorem Part.NeverBothActive.tick (h : p.NeverBothActive) (s : Pins) (start : StartBit) :
    (p.tick s start).NeverBothActive := by
  unfold Part.tick
  split
  · exact Part.settle_neverBothActive _
  · unfold Part.resetTick
    split
    · exact h
    · exact h

end PairLaw

/-- Every command keeps R12's law: it settles, resets, or leaves the pairs alone. -/
theorem exec_neverBothActive {c : Instr} {s t : State} (hx : exec c s = .next t) (h : s.part.NeverBothActive) :
    t.part.NeverBothActive := by
  cases hc : requestOf c with
  | some f =>
    exact exec_keeps hx (fun p => p.event (fun q => q.bufferRequest f)) (exec_request hc s) (fun h => h.event _) h
  | none =>
    cases c <;> simp only [requestOf, reduceCtorEq] at hc
    case frameSent => exact exec_keeps hx (fun p => p.event Part.finishFrame) rfl (fun h => h.event _) h
    case powerOnReset =>
      exact exec_keeps hx (fun p => p.beginReset .powerOn 0 p.resetPin) rfl
        (fun _ => Part.atReset_neverBothActive _ _ _ _ _) h
    case pinReset => exact exec_keeps hx (fun p => p.pinLow) rfl (fun h => h.pinLow) h
    case resetEnd straps first =>
      exact exec_keeps hx (fun p => p.endReset straps first) rfl (fun h => h.endReset _ _) h
    case heldBoundary l => exact exec_keeps hx (fun p => p.heldEvent l) rfl (fun h => h.heldEvent l) h
    case byteReceived d b i =>
      exact exec_keeps hx (fun p => p.event (fun q => q.receiveByte d b i)) rfl (fun h => h.event _) h
    case tick x => exact exec_keeps hx (fun p => p.tick x.samples x.start) rfl (fun h => h.tick _ _) h
    all_goals
      cases hx
      exact Part.NeverBothActive.eventWhen h _ _

/-- Settles O55, by what every command ends with. -/
theorem everyStepKeepsThePairLaw : Obligations.EveryStepKeepsThePairLaw := by
  intro s t h hstep
  obtain rfl | ⟨c, rest, hx⟩ := step_cases hstep
  · exact h
  · exact exec_neverBothActive (s := { s with pending := rest }) hx h

/-- Settles O56, from what each move of the notification unit does to the window of numbers. -/
theorem everyStepKeepsTheNotificationLaws : Obligations.EveryStepKeepsTheNotificationLaws := by
  have hmove {L : NotificationUnit → Prop} (hL : ∀ u v, u.Move v → L u → L v) (p q : Part) (m : Part.Move p q)
      (h : L p.notif) : L q.notif := by
    cases m with
    | inner _ hn => exact hn ▸ h
    | notif u hu => exact hL _ _ hu h
    | _ => exact h
  intro s t hstep
  refine ⟨step_keeps (P := fun p => p.notif.QueueLaw) hstep (hmove fun _ _ m => m.queueLaw) (fun _ _ h => h)
    (fun _ _ _ h => h) (fun _ _ _ _ _ => NotificationUnit.queueLaw_reset), ?_⟩
  exact step_keeps (P := fun p => p.notif.NumberLaw) hstep (hmove fun _ _ m => m.numberLaw) (fun _ _ h => h)
    (fun _ _ _ h => h) (fun _ _ _ _ _ => NotificationUnit.numberLaw_reset)

/-- Settles O57, move by move. -/
theorem everyStepKeepsTheRegionLaw : Obligations.EveryStepKeepsTheRegionLaw := fun _ _ h hstep =>
  step_keeps hstep (fun _ _ m => m.regionLaw) (fun _ _ h => h.congr rfl) (fun _ _ _ h => h.congr rfl)
    Part.atReset_regionLaw h

/-- Settles O58: the store law together with the region law, and the segment law, move by move. -/
theorem everyStepKeepsTheStoreLaws : Obligations.EveryStepKeepsTheStoreLaws := by
  intro s t hstep
  refine ⟨fun hregion hstore => ?_, ?_⟩
  · exact (step_keeps (P := fun p => p.RegionLaw ∧ p.StoreLaw) hstep
      (fun _ _ m h => ⟨m.regionLaw h.1, m.storeLaw h.1 h.2⟩)
      (fun _ _ h => ⟨h.1.congr rfl, h.2.congr rfl rfl⟩) (fun _ _ _ h => ⟨h.1.congr rfl, h.2.congr rfl rfl⟩)
      (fun _ _ _ _ _ => ⟨Part.atReset_regionLaw _ _ _ _ _, Part.atReset_storeLaw _ _ _ _ _⟩)
      ⟨hregion, hstore⟩).2
  · exact step_keeps hstep (fun _ _ m => m.segmentLaw) (fun _ _ h => h) (fun _ _ _ h => h)
      Part.atReset_segmentLaw

/-! ## Barriers, fault inputs and lanes -/

theorem Part.Move.waitLaw {p q : Part} (m : Part.Move p q) (h : ∀ b, (p.barrier b).WaitLaw) (b : Fin 4) :
    (q.barrier b).WaitLaw := by
  cases m with
  | inner _ _ _ _ hb => exact hb b (h b)
  | _ => exact h b

theorem Part.Move.stickyLaw {p q : Part} (m : Part.Move p q) (h : ∀ i, (p.fault i).StickyLaw) (i : Fin 4) :
    (q.fault i).StickyLaw := by
  cases m with
  | inner _ _ _ _ _ hf => exact hf i (h i)
  | _ => exact h i

theorem Part.LaneLaws.pinLow {p : Part} (h : p.LaneLaws) : p.pinLow.LaneLaws := by
  unfold Part.pinLow
  split
  · exact .atReset _ _ _ _ _
  · exact h.eqs rfl rfl rfl rfl

theorem Part.LaneLaws.endReset {p : Part} (h : p.LaneLaws) (straps : Straps) (first : Pins) :
    (p.endReset straps first).LaneLaws := by
  unfold Part.endReset
  split
  · exact .atReset _ _ _ _ _
  · exact h

/-- Every command keeps the laws that bind lanes to barriers, patterns and fault inputs. -/
theorem exec_laneLaws {c : Instr} {s t : State} (hx : exec c s = .next t) (h : s.part.LaneLaws) :
    t.part.LaneLaws := by
  cases hc : requestOf c with
  | some f =>
    exact exec_keeps hx (fun p => p.event (fun q => q.bufferRequest f)) (exec_request hc s)
      (fun h => h.event _ (h.bufferRequest f)) h
  | none =>
    cases c <;> simp only [requestOf, reduceCtorEq] at hc
    case frameComplete => exact exec_keeps hx (fun p => p.frameEvent) rfl (fun h => h.frameEvent) h
    case lengthError => exact exec_keeps hx (fun p => p.lengthEvent) rfl (fun h => h.lengthEvent) h
    case gapTimeout => exact exec_keeps hx (fun p => p.gapEvent) rfl (fun h => h.gapEvent) h
    case frameSent => exact exec_keeps hx (fun p => p.event Part.finishFrame) rfl (fun h => h.event _ h.finishFrame) h
    case powerOnReset =>
      exact exec_keeps hx (fun p => p.beginReset .powerOn 0 p.resetPin) rfl (fun _ => .atReset _ _ _ _ _) h
    case pinReset => exact exec_keeps hx (fun p => p.pinLow) rfl (fun h => h.pinLow) h
    case resetEnd straps first =>
      exact exec_keeps hx (fun p => p.endReset straps first) rfl (fun h => h.endReset straps first) h
    case triggerEdge i => exact exec_keeps hx (fun p => p.edgeEvent i) rfl (fun h => h.edgeEvent i) h
    case faultQualifyActive i => exact exec_keeps hx (fun p => p.activeEvent i) rfl (fun h => h.activeEvent i) h
    case faultQualifyInactive i => exact exec_keeps hx (fun p => p.inactiveEvent i) rfl (fun h => h.inactiveEvent i) h
    case periodBoundary l => exact exec_keeps hx (fun p => p.boundaryEvent l) rfl (fun h => h.boundaryEvent l) h
    case join l => exact exec_keeps hx (fun p => p.joinEvent l) rfl (fun h => h.joinEvent l) h
    case heldBoundary l => exact exec_keeps hx (fun p => p.heldEvent l) rfl (fun h => h.heldEvent l) h
    case softStopComplete l => exact exec_keeps hx (fun p => p.stopEvent l) rfl (fun h => h.stopEvent l) h
    case barrierTimeout b => exact exec_keeps hx (fun p => p.timeoutEvent b) rfl (fun h => h.timeoutEvent b) h
    case retransmitTimeout => exact exec_keeps hx (fun p => p.expiryEvent) rfl (fun h => h.expiryEvent) h
    case byteReceived d b i =>
      exact exec_keeps hx (fun p => p.event (fun q => q.receiveByte d b i)) rfl (fun h => h.event _ (h.receiveByte d b i)) h
    case tick x => exact exec_keeps hx (fun p => p.tick x.samples x.start) rfl (fun h => h.tick x.samples x.start) h
    case delayedActivation o => exact exec_keeps hx (fun p => p.activationEvent o) rfl (fun h => h.activationEvent o) h

/-- Settles O59: barriers and fault inputs move by move, the lanes command by command. -/
theorem everyStepKeepsTheBarrierAndFaultLaws : Obligations.EveryStepKeepsTheBarrierAndFaultLaws := by
  intro s t hstep
  refine ⟨?waits, ?sticky, fun h => ?lanes⟩
  case waits =>
    exact step_keeps (P := fun p => ∀ b, (p.barrier b).WaitLaw) hstep (fun _ _ m => m.waitLaw) (fun _ _ h => h)
      (fun _ _ _ h => h) (fun _ _ _ _ _ b => Part.atReset_barrier _ _ _ _ _ b ▸ Barrier.waitLaw_reset)
  case sticky =>
    exact step_keeps (P := fun p => ∀ i, (p.fault i).StickyLaw) hstep (fun _ _ m => m.stickyLaw)
      (fun p s h i => Part.nextTick_fault p s i ▸ (h i).takeSample _) (fun _ _ _ h => h)
      (fun _ _ _ _ _ i => Part.atReset_fault _ _ _ _ _ i ▸ FaultInput.stickyLaw_reset _)
  case lanes =>
    obtain rfl | ⟨c, rest, hx⟩ := step_cases hstep
    · exact h
    · exact exec_laneLaws (s := { s with pending := rest }) hx h

/-- Settles O60, law by law; `State.reset` is the part after a power-on reset. -/
theorem lawsHoldAtReset : Obligations.LawsHoldAtReset := by
  have hlaws : ∀ cause straps first phase pin, (Part.atReset cause straps first phase pin).Laws :=
    fun cause straps first phase pin => ⟨Part.atReset_neverBothActive _ _ _ _ _, NotificationUnit.queueLaw_reset,
      NotificationUnit.numberLaw_reset, Part.atReset_regionLaw _ _ _ _ _, Part.atReset_storeLaw _ _ _ _ _,
      Part.atReset_segmentLaw _ _ _ _ _, fun b => Part.atReset_barrier _ _ _ _ _ b ▸ Barrier.waitLaw_reset,
      fun i => Part.atReset_fault _ _ _ _ _ i ▸ FaultInput.stickyLaw_reset _, .atReset _ _ _ _ _⟩
  exact ⟨hlaws _ _ _ _ _, hlaws⟩

end Sys2Proof.Machine
end

section
/-! # The machine and the link requests (R3, R158 to R168)

The codes that name nothing, a reply that stays outside the cache, and the requests SYNC, RESET, GET_LINK_STATS,
SET_LINK_TIMING and SET_TIMEBASE. -/

namespace Sys2Proof.Machine

/-! ## Codes that name nothing (R193) -/

theorem PairMode.ofByte_eq_none : ∀ {b : Byte}, PairMode.ofByte b = none ↔ 1 < b.toNat := by decide

theorem Polarity.ofByte_eq_none : ∀ {b : Byte}, Polarity.ofByte b = none ↔ 1 < b.toNat := by decide

theorem levelOfByte_eq_none : ∀ {b : Byte}, levelOfByte b = none ↔ 1 < b.toNat := by decide

theorem flagOfByte_eq_none : ∀ {b : Byte}, flagOfByte b = none ↔ 1 < b.toNat := by decide

theorem stopKindOfByte_eq_none : ∀ {b : Byte}, stopKindOfByte b = none ↔ 1 < b.toNat := by decide

theorem sourceOfByte_eq_none : ∀ {b : Byte}, sourceOfByte b = none ↔ 4 < b.toNat := by decide

theorem UnderrunPolicy.ofByte_eq_none : ∀ {b : Byte}, UnderrunPolicy.ofByte b = none ↔ 1 < b.toNat := by decide

theorem LinkLossPolicy.ofByte_eq_none : ∀ {b : Byte}, LinkLossPolicy.ofByte b = none ↔ 1 < b.toNat := by decide

theorem EdgeSelection.ofByte_eq_none : ∀ {b : Byte}, EdgeSelection.ofByte b = Option.none ↔ 3 < b.toNat := by decide

theorem ReleaseMode.ofByte_eq_none : ∀ {b : Byte}, ReleaseMode.ofByte b = none ↔ 2 < b.toNat := by decide

theorem TimeoutAction.ofByte_eq_none : ∀ {b : Byte}, TimeoutAction.ofByte b = none ↔ 1 < b.toNat := by decide

theorem FaultMode.ofByte_eq_none : ∀ {b : Byte}, FaultMode.ofByte b = none ↔ 2 < b.toNat := by decide

theorem Prescale.ofByte_eq_none : ∀ {b : Byte}, Prescale.ofByte b = none ↔ b ≠ 1 ∧ b ≠ 2 ∧ b ≠ 4 ∧ b ≠ 8 := by decide

theorem someLanes_eq_none : ∀ {b : Byte}, someLanes b = none ↔ b = 0 ∨ 63 < b.toNat := by decide

theorem someInputs_eq_none : ∀ {b : Byte}, someInputs b = none ↔ b = 0 ∨ 15 < b.toNat := by decide

theorem finOfByte_eq_none {n : Nat} {b : Byte} : finOfByte n b = none ↔ n ≤ b.toNat := by
  simp [finOfByte]

theorem setOfByte_eq_none {n : Nat} {b : Byte} : setOfByte n b = none ↔ 2 ^ n ≤ b.toNat := by
  simp [setOfByte]

/-- A code that names something. -/
theorem exists_of_eq_none_iff {α : Type} {o : Option α} {P : Prop} (h : o = none ↔ P) (hp : ¬P) : ∃ x, o = some x :=
  Option.ne_none_iff_exists'.mp (fun hn => hp (h.mp hn))

/-! ## The machine -/

/-- Settles O1: a step is defined so. -/
theorem stepTakesTheFrontCommand : Obligations.StepTakesTheFrontCommand := fun _ _ _ => rfl

/-- Settles O2, command by command: each is a change of the part. -/
theorem everyCommandAnswersANextState : Obligations.EveryCommandAnswersANextState := by
  refine ⟨fun c s => ?_, fun s hs => ?_⟩
  · cases hc : requestOf c with
    | some f => exact ⟨_, exec_request hc s⟩
    | none => cases c <;> exact ⟨_, rfl⟩
  · rw [step, hs]

/-! ## Replies outside the cache -/

/-- The part with a reply that does not enter the cache: begun where the transmitter is free, in the slot where not. -/
def Part.answered (p : Part) (r : Reply) : Part :=
  { p with link := { p.link with
      slot := if p.link.tx.isSome then some r else none
      tx := if p.link.tx.isSome then p.link.tx else some r.frame } }

/-- With the reply placed and nothing in the buffer, the transmitter takes it if it is free. -/
theorem placeReply_pump {q : Part} {r : Reply} (hb : q.link.buffer = []) :
    (q.placeReply r).arbitrate.dispatch = q.answered r := by
  obtain ⟨timebase, pairs, store, regions, lanes, patterns, triggers, barriers, faults, firstFault, sensePins, notif,
    ⟨rx, awaitsIdle, receiving, gap, buffer, slot, stopped, tx, synced, cache, counters, interval, stallLimit, straps,
      cause⟩, phase, pin⟩ := q
  simp only at hb
  subst hb
  cases tx <;> cases stopped <;> simp [Part.placeReply, Part.arbitrate, Part.dispatch, Part.answered]

/-- After a RESET a request is not taken, and a busy transmitter takes nothing either (R168). -/
theorem Part.settle_stopped {p : Part} (ht : p.link.tx.isSome = true) (hs : p.link.dispatchStopped = true) :
    p.settle = p.driveLines := by
  obtain ⟨t, ht⟩ := Option.isSome_iff_exists.mp ht
  simp [Part.settle, Part.pump, Part.dispatch, Part.arbitrate, hs, ht]

/-- A frame joins a buffer that has room (R158). -/
theorem Part.bufferRequest_room {p : Part} (f : RequestFrame) (h : p.link.buffer.length < 2) :
    p.bufferRequest f = { p with link := { p.link with buffer := p.link.buffer ++ [f] } } := if_pos h

/-- A link error counter stays at 255 (R159). -/
theorem countUp_eq (c : Byte) : countUp c = if c = 255 then 255 else c + 1 := by
  unfold countUp
  split
  case isTrue h => exact h
  case isFalse => rfl

/-- The part with a request dropped and counted as an overrun (R158). -/
def Part.overrun (p : Part) : Part :=
  { p with link := { p.link with counters := { p.link.counters with
      overrun := if p.link.counters.overrun = 255 then 255 else p.link.counters.overrun + 1 } } }

theorem Part.bufferRequest_full {p : Part} (f : RequestFrame) (h : 2 ≤ p.link.buffer.length) :
    p.bufferRequest f = p.overrun := by
  rw [Part.bufferRequest, if_neg (Nat.not_lt.mpr h), countUp_eq]
  rfl

/-- A request command that arrives while no reset lasts. -/
theorem becomes_of_arrival {c : Instr} {s : State} {f : RequestFrame} {q : Part} (hc : requestOf c = some f)
    (hp : s.part.resetPhase = .ended) (hq : (s.part.bufferRequest f).settle = q) : Becomes c s q := by
  rw [Becomes, exec_request hc, Part.event_ended hp, hq]

/-! ## SYNC and RESET -/

/-- Settles O3: SYNC passes the first check in either link state, and its reply enters the emptied cache. -/
theorem syncRestartsTheChannel : Obligations.SyncRestartsTheChannel := by
  intro s seq hfree p
  refine takes_of_run (f := requestFrame seq 0x01 []) (k := .sync) rfl rfl hfree (.inr rfl) ?_ hfree.2.2.1 (.inl nofun)
  have hlength : (p.notif.queue.map Entry.renew).length = p.notif.queue.length := List.length_map _
  show doSync p = _
  unfold doSync Part.identity
  simp only [NotificationUnit.restart, hlength]
  rfl

/-- Settles O4: the reply to RESET is placed outside the cache; once dispatching has stopped a request only meets the
buffer. -/
theorem resetStopsDispatching : Obligations.ResetStopsDispatching := by
  refine ⟨fun s seq hready => ?reset, fun s c f hphase hstopped htx hc => ⟨fun hroom => ?joins, fun hfull => ?dropped⟩⟩
  case reset =>
    have hx := exec_fresh (c := .reset seq) (f := requestFrame seq 0x02 []) rfl hready.1 (.inl hready.2)
    rw [Becomes, hx]
    congr 3
    exact placeReply_pump (q := { s.part with link := { s.part.link with dispatchStopped := true } })
      hready.1.2.2.1
  case joins =>
    refine becomes_of_arrival hc hphase ?_
    rw [Part.bufferRequest_room f hroom]
    exact Part.settle_stopped htx hstopped
  case dropped =>
    refine becomes_of_arrival hc hphase ?_
    rw [Part.bufferRequest_full f hfull]
    exact Part.settle_stopped (p := s.part.overrun) htx hstopped

/-! ## GET_LINK_STATS and SET_LINK_TIMING -/

/-- Settles O6, by the values of the clear flag and of the two settings. -/
theorem linkStatsAndTimingAreSet : Obligations.LinkStatsAndTimingAreSet := by
  intro s seq hready p
  refine ⟨fun clear => ⟨?cleared, fun hflag => ?badFlag⟩, fun interval limit => ⟨fun h1 h2 h3 h4 => ?taken,
    fun hi => ?badInterval, fun h1 h2 hl => ?badLimit⟩⟩
  case cleared =>
    rintro rfl
    exact takes_of_ready (k := .getLinkStats) (payload := [1]) hready rfl rfl rfl nofun
  case badFlag =>
    refine refuses_of_ready (k := .getLinkStats) (payload := [clear]) hready rfl ?_ nofun
    show doGetLinkStats clear p = _
    rw [doGetLinkStats, flagOfByte_none hflag]
  case taken =>
    refine takes_of_ready (k := .setLinkTiming) (payload := [interval, limit]) hready rfl ?_ rfl nofun
    show doSetLinkTiming interval limit p = _
    rw [doSetLinkTiming, if_neg (by simp; omega), if_neg (by simp; omega)]
    rfl
  case badInterval =>
    refine refuses_of_ready (k := .setLinkTiming) (payload := [interval, limit]) hready rfl ?_ nofun
    show doSetLinkTiming interval limit p = _
    rw [doSetLinkTiming, if_pos (by simpa using hi)]
  case badLimit =>
    refine refuses_of_ready (k := .setLinkTiming) (payload := [interval, limit]) hready rfl ?_ nofun
    show doSetLinkTiming interval limit p = _
    rw [doSetLinkTiming, if_neg (by simp; omega), if_pos (by simpa using hl)]

/-! ## SET_TIMEBASE -/

/-- The states that do not block SET_TIMEBASE (R3). -/
theorem LaneState.blocksTimebase_eq_false {x : LaneState} : x.blocksTimebase = false ↔
    x = .unbound ∨ x = .merged ∨ x = .stopped ∨ x = .halted := by
  cases x <;> simp [LaneState.blocksTimebase]

/-- A prescale is named by its number of clocks (R1, R3). -/
theorem Prescale.clocks_of_ofByte {b : Byte} {x : Prescale} (h : Prescale.ofByte b = some x) : byteOf x.clocks = b := by
  have hall : ∀ b : Byte, ∀ x ∈ Prescale.ofByte b, byteOf x.clocks = b := by decide
  exact hall b x h

/-- Settles O7: the value check, then the lowest lane that blocks. -/
theorem timebaseIsSetWhileNoLanePlays : Obligations.TimebaseIsSetWhileNoLanePlays := by
  intro s seq prescale hready p quiet
  refine ⟨fun x hx hquiet => ?taken, fun h1 h2 h4 h8 => ?badValue, fun l hvalue hplays hlow => ?blocked⟩
  case taken =>
    refine takes_of_ready (k := .setTimebase) (payload := [prescale]) hready rfl ?_ rfl nofun
    have hnone : allLanes.find? (fun l => (p.lane l).state.blocksTimebase) = none :=
      List.find?_eq_none.mpr (fun l _ => by simpa using LaneState.blocksTimebase_eq_false.mpr (hquiet l))
    show doSetTimebase prescale p = _
    simp only [doSetTimebase, hx, hnone, Prescale.clocks_of_ofByte hx]
    rfl
  case badValue =>
    refine refuses_of_ready (k := .setTimebase) (payload := [prescale]) hready rfl ?_ nofun
    show doSetTimebase prescale p = _
    rw [doSetTimebase, Prescale.ofByte_eq_none.mpr ⟨h1, h2, h4, h8⟩]
  case blocked =>
    obtain ⟨x, hx⟩ := Option.ne_none_iff_exists'.mp hvalue
    have hblocks : (p.lane l).state.blocksTimebase = true :=
      eq_true_of_ne_false (fun h => hplays (LaneState.blocksTimebase_eq_false.mp h))
    have hfind := find?_allLanes (P := fun l => (p.lane l).state.blocksTimebase) hblocks
      (fun m hm => LaneState.blocksTimebase_eq_false.mpr (hlow m hm))
    refine refuses_of_ready (k := .setTimebase) (payload := [prescale]) hready rfl ?_ nofun
    show doSetTimebase prescale p = _
    simp only [doSetTimebase, hx, hfind]
    rfl

end Sys2Proof.Machine
end

section
/-! # SET_PAIR, and the value checks of the requests (R14 to R16, R163)

Each request reads its fields in order; the first that names nothing gives the detail of the refusal. -/

namespace Sys2Proof.Machine

/-! ## SET_PAIR -/

/-- The states of the odd lane in which a change of mode is allowed (R15). -/
theorem oddLaneAllows_iff {fromMode toMode : PairMode} {x : LaneState} : oddLaneAllows fromMode toMode x = true ↔
    (fromMode = .independent ∧ (x = .unbound ∨ (toMode = .independent ∧ x = .stopped))) ∨
      (fromMode = .complementary ∧ x = .merged) := by
  cases fromMode <;> cases toMode <;> simp [oddLaneAllows]

/-- A change of mode merges or unmerges the odd lane (R16). -/
theorem oddLaneAfter_eq (fromMode toMode : PairMode) (x : LaneState) : oddLaneAfter fromMode toMode x =
    if fromMode = toMode then x else if toMode = .complementary then .merged else .unbound := by
  cases fromMode <;> cases toMode <;> rfl

section ConfigurePair

variable {p : Part} {k : Fin 3} {mode : PairMode} {deadA deadB : Byte} {topPolarity bottomPolarity : Polarity}
  {topSafe bottomSafe : Level}

theorem configurePair_even_refused
    (he : ¬((p.lane (evenLane k)).state = .unbound ∨ (p.lane (evenLane k)).state = .stopped)) :
    configurePair k mode deadA deadB topPolarity bottomPolarity topSafe bottomSafe p =
      p.refuse .wrongState (byteOf (evenLane k).val) := by
  simp only [configurePair]
  rw [if_pos (by simpa using he)]

theorem not_or_decide {P Q : Prop} [Decidable P] [Decidable Q] (h : P ∨ Q) : (!(decide P || decide Q)) = false := by
  obtain h | h := h
  · rw [decide_eq_true h, Bool.true_or, Bool.not_true]
  · rw [decide_eq_true h, Bool.or_true, Bool.not_true]

theorem configurePair_odd_refused
    (he : (p.lane (evenLane k)).state = .unbound ∨ (p.lane (evenLane k)).state = .stopped)
    (ho : oddLaneAllows (p.pair k).mode mode (p.lane (oddLane k)).state = false) :
    configurePair k mode deadA deadB topPolarity bottomPolarity topSafe bottomSafe p =
      p.refuse .wrongState (byteOf (oddLane k).val) := by
  simp only [configurePair]
  rw [if_neg (Bool.eq_false_iff.mp (not_or_decide he)), if_pos (by simp [ho])]

theorem configurePair_taken
    (he : (p.lane (evenLane k)).state = .unbound ∨ (p.lane (evenLane k)).state = .stopped)
    (ho : oddLaneAllows (p.pair k).mode mode (p.lane (oddLane k)).state = true) :
    configurePair k mode deadA deadB topPolarity bottomPolarity topSafe bottomSafe p =
      ((p.setPair k
        { p.pair k with mode := mode, deadA := deadA, deadB := deadB,
                        top := { (p.pair k).top with polarity := topPolarity, safeLevel := topSafe },
                        bottom := { (p.pair k).bottom with polarity := bottomPolarity, safeLevel := bottomSafe } }).setLane
          (oddLane k)
          { p.lane (oddLane k) with
            state := oddLaneAfter (p.pair k).mode mode (p.lane (oddLane k)).state }).done := by
  simp only [configurePair]
  rw [if_neg (Bool.eq_false_iff.mp (not_or_decide he)), if_neg (by simp [ho])]
  rfl

end ConfigurePair

/-- Settles O8, by the three cases of `configurePair`. -/
theorem setPairReplacesTheSettings : Obligations.SetPairReplacesTheSettings := by
  intro s seq k modeB deadA deadB topB bottomB topS bottomS mode topPolarity bottomPolarity topSafe bottomSafe hready
    p x even odd c evenAllows oddAllows hmode htop hbottom htopSafe hbottomSafe
  have hrun : runRequest .setPair [byteOf k.val, modeB, deadA, deadB, topB, bottomB, topS, bottomS] p =
      configurePair k mode deadA deadB topPolarity bottomPolarity topSafe bottomSafe p := by
    simp only [runRequest, runSetPair, doSetPair, finOfByte_pair, hmode, htop, hbottom, htopSafe, hbottomSafe]
  refine ⟨fun he => ?even, fun he ho => ?odd, fun he ho => ?taken⟩
  case even => exact refuses_of_ready hready rfl (hrun.trans (configurePair_even_refused he)) nofun
  case odd =>
    have hodd := eq_false_of_ne_true (fun h => ho (oddLaneAllows_iff.mp h))
    exact refuses_of_ready hready rfl (hrun.trans (configurePair_odd_refused he hodd)) nofun
  case taken =>
    rw [← oddLaneAfter_eq]
    exact takes_of_ready hready rfl (hrun.trans (configurePair_taken he (oddLaneAllows_iff.mpr ho))) rfl nofun

/-! ## Value checks -/

section ValueChecks

variable {p : Part}

theorem doSetFault_bad_input {input level filter mode lanes : Byte} (h : 3 < input.toNat) :
    doSetFault input level filter mode lanes p = p.refuse .badValue 1 := by
  simp only [doSetFault, finOfByte_none h]

theorem doSetFault_bad_level {input level filter mode lanes : Byte} (hi : input.toNat ≤ 3) (h : 1 < level.toNat) :
    doSetFault input level filter mode lanes p = p.refuse .badValue 2 := by
  obtain ⟨i, hi⟩ := exists_of_eq_none_iff (finOfByte_eq_none (n := 4)) (Nat.not_le.mpr (Nat.lt_succ_of_le hi))
  simp only [doSetFault, hi, levelOfByte_eq_none.mpr h]

/-- With input and level in range SET_FAULT checks filter length, mode and lanes. -/
theorem doSetFault_rest {input level filter mode lanes : Byte} (hi : input.toNat ≤ 3) (hl : level.toNat ≤ 1) :
    (filter.toNat < 1 ∨ 15 < filter.toNat → doSetFault input level filter mode lanes p = p.refuse .badValue 3) ∧
    (1 ≤ filter.toNat → filter.toNat ≤ 15 →
      (2 < mode.toNat → doSetFault input level filter mode lanes p = p.refuse .badValue 4) ∧
      (mode.toNat ≤ 2 → 63 < lanes.toNat → doSetFault input level filter mode lanes p = p.refuse .badValue 5)) := by
  obtain ⟨i, hi⟩ := exists_of_eq_none_iff (finOfByte_eq_none (n := 4)) (Nat.not_le.mpr (Nat.lt_succ_of_le hi))
  obtain ⟨a, ha⟩ := exists_of_eq_none_iff levelOfByte_eq_none (Nat.not_lt.mpr hl)
  simp only [doSetFault, hi, ha]
  refine ⟨fun hf => ?_, fun hmin hmax => ⟨fun hm => ?_, fun hm hlanes => ?_⟩⟩
  · rw [if_pos (by simpa using hf)]
  · rw [if_neg (by simp; omega), FaultMode.ofByte_eq_none.mpr hm]
  · obtain ⟨m, hm⟩ := exists_of_eq_none_iff FaultMode.ofByte_eq_none (Nat.not_lt.mpr hm)
    have hnone : setOfByte 6 lanes = none := setOfByte_eq_none.mpr hlanes
    rw [if_neg (by simp; omega), hm, hnone]

/-- SET_PAIR's fields in order (R14). -/
theorem doSetPair_bad {pair mode deadA deadB topP bottomP topS bottomS : Byte} :
    (2 < pair.toNat → doSetPair pair mode deadA deadB topP bottomP topS bottomS p = p.refuse .badValue 1) ∧
    (pair.toNat ≤ 2 →
      (1 < mode.toNat → doSetPair pair mode deadA deadB topP bottomP topS bottomS p = p.refuse .badValue 2) ∧
      (mode.toNat ≤ 1 →
        (1 < topP.toNat → doSetPair pair mode deadA deadB topP bottomP topS bottomS p = p.refuse .badValue 5) ∧
        (topP.toNat ≤ 1 →
          (1 < bottomP.toNat → doSetPair pair mode deadA deadB topP bottomP topS bottomS p = p.refuse .badValue 6) ∧
          (bottomP.toNat ≤ 1 →
            (1 < topS.toNat → doSetPair pair mode deadA deadB topP bottomP topS bottomS p = p.refuse .badValue 7) ∧
            (topS.toNat ≤ 1 → 1 < bottomS.toNat →
              doSetPair pair mode deadA deadB topP bottomP topS bottomS p = p.refuse .badValue 8))))) := by
  refine ⟨fun hk => by simp only [doSetPair, finOfByte_none hk], fun hk => ?_⟩
  obtain ⟨k, hk⟩ := exists_of_eq_none_iff (finOfByte_eq_none (n := 3)) (Nat.not_le.mpr (Nat.lt_succ_of_le hk))
  refine ⟨fun hm => by simp only [doSetPair, hk, PairMode.ofByte_eq_none.mpr hm], fun hm => ?_⟩
  obtain ⟨m, hm⟩ := exists_of_eq_none_iff PairMode.ofByte_eq_none (Nat.not_lt.mpr hm)
  refine ⟨fun ht => by simp only [doSetPair, hk, hm, Polarity.ofByte_eq_none.mpr ht], fun ht => ?_⟩
  obtain ⟨t, ht⟩ := exists_of_eq_none_iff Polarity.ofByte_eq_none (Nat.not_lt.mpr ht)
  refine ⟨fun hb => by simp only [doSetPair, hk, hm, ht, Polarity.ofByte_eq_none.mpr hb], fun hb => ?_⟩
  obtain ⟨b, hb⟩ := exists_of_eq_none_iff Polarity.ofByte_eq_none (Nat.not_lt.mpr hb)
  refine ⟨fun hs => by simp only [doSetPair, hk, hm, ht, hb, levelOfByte_eq_none.mpr hs], fun hs hz => ?_⟩
  obtain ⟨u, hs⟩ := exists_of_eq_none_iff levelOfByte_eq_none (Nat.not_lt.mpr hs)
  simp only [doSetPair, hk, hm, ht, hb, hs, levelOfByte_eq_none.mpr hz]

theorem bindTarget_bad {kind target : Byte} (h1 : kind ≠ 1) (h2 : kind ≠ 2) : bindTarget kind target = .error 2 := by
  unfold bindTarget
  split
  case h_1 h => exact absurd (BitVec.eq_of_toNat_eq h) h1
  case h_2 h => exact absurd (BitVec.eq_of_toNat_eq h) h2
  case h_3 => rfl

theorem bindTarget_bad_lane {target : Byte} (h : 5 < target.toNat) : bindTarget 1 target = .error 3 := by
  have hkind : (1 : Byte).toNat = 1 := rfl
  simp only [bindTarget, hkind, finOfByte_none h]

theorem bindTarget_bad_pattern {target : Byte} (h : 7 < target.toNat) : bindTarget 2 target = .error 3 := by
  have hkind : (2 : Byte).toNat = 2 := rfl
  simp only [bindTarget, hkind, finOfByte_none h]

theorem doBindRegion_bad_target {n kind target field : Byte} (hn : n.toNat ≤ 15)
    (h : bindTarget kind target = .error field) : doBindRegion n kind target p = p.refuse .badValue field := by
  obtain ⟨r, hr⟩ := exists_of_eq_none_iff (finOfByte_eq_none (n := 16)) (Nat.not_le.mpr (Nat.lt_succ_of_le hn))
  simp only [doBindRegion, hr, h]

theorem doTrim_bad_lane {n altFlag : Byte} {onTime alternate : Nat} (h : 5 < n.toNat) :
    doTrim n altFlag onTime alternate p = p.refuse .badValue 1 := by
  simp only [doTrim, finOfByte_none h]

theorem doStart_bad_lanes {lanes last : Byte} (h : lanes = 0 ∨ 63 < lanes.toNat) :
    doStart lanes last p = p.refuse .badValue 1 := by
  simp only [doStart, someLanes_eq_none.mpr h]

theorem doStop_bad_lanes {lanes last : Byte} (h : lanes = 0 ∨ 63 < lanes.toNat) :
    doStop lanes last p = p.refuse .badValue 1 := by
  simp only [doStop, someLanes_eq_none.mpr h]

/-- Lane sets that START and STOP take. -/
theorem exists_someLanes {lanes : Byte} (h0 : lanes ≠ 0) (h : lanes.toNat ≤ 63) : ∃ set, someLanes lanes = some set :=
  exists_of_eq_none_iff someLanes_eq_none (not_or.mpr ⟨h0, Nat.not_lt.mpr h⟩)

theorem doStart_bad_source {lanes last : Byte} (h0 : lanes ≠ 0) (h : lanes.toNat ≤ 63) (hl : 4 < last.toNat) :
    doStart lanes last p = p.refuse .badValue 2 := by
  obtain ⟨set, hset⟩ := exists_someLanes h0 h
  simp only [doStart, hset, sourceOfByte_eq_none.mpr hl]

theorem doStop_bad_kind {lanes last : Byte} (h0 : lanes ≠ 0) (h : lanes.toNat ≤ 63) (hl : 1 < last.toNat) :
    doStop lanes last p = p.refuse .badValue 2 := by
  obtain ⟨set, hset⟩ := exists_someLanes h0 h
  simp only [doStop, hset, stopKindOfByte_eq_none.mpr hl]

end ValueChecks

/-- TRIM's payload is read back field by field (R192). -/
theorem runRequest_trim (p : Part) (lane altFlag : Byte) (onTime alternate : Word16) :
    runRequest .trim (lane :: altFlag :: (bytes16 onTime ++ bytes16 alternate)) p =
      doTrim lane altFlag onTime.toNat alternate.toNat p := by
  simp only [runRequest, bytes16, List.cons_append, List.nil_append, runTrim, field16_extract]

/-- Settles O9, request by request. -/
theorem valuesAreCheckedFieldByField : Obligations.ValuesAreCheckedFieldByField := by
  intro s seq hready bad
  refine ⟨fun n hn => ?lane, fun n hn => ?barrierOrInput, fun n hn => ?region, fun n kind target hn => ?target,
    fun n altFlag onTime alternate hn => ?trim, fun lanes last hl => ?lanes, fun lanes last h0 hl => ?last,
    fun inputs hi => ?inputs, fun input level filter mode lanes => ?fault, ?pair⟩
  case lane =>
    have hrun : doGetLane n s.part = s.part.refuse .badValue 1 := by simp only [doGetLane, finOfByte_none hn]
    exact refuses_of_ready (k := .getLane) (payload := [n]) hready rfl hrun nofun
  case barrierOrInput =>
    have hget : doGetBarrier n s.part = s.part.refuse .badValue 1 := by simp only [doGetBarrier, finOfByte_none hn]
    have hrelease : doReleaseBarrier n s.part = s.part.refuse .badValue 1 := by simp only [doReleaseBarrier, finOfByte_none hn]
    have hfire : doFireTrigger n s.part = s.part.refuse .badValue 1 := by simp only [doFireTrigger, finOfByte_none hn]
    exact ⟨refuses_of_ready (k := .getBarrier) (payload := [n]) hready rfl hget nofun,
      refuses_of_ready (k := .releaseBarrier) (payload := [n]) hready rfl hrelease nofun,
      refuses_of_ready (k := .fireTrigger) (payload := [n]) hready rfl hfire nofun⟩
  case region =>
    have hunbind : doUnbindRegion n s.part = s.part.refuse .badValue 1 := by simp only [doUnbindRegion, finOfByte_none hn]
    have hclear : doClearRegion n s.part = s.part.refuse .badValue 1 := by simp only [doClearRegion, finOfByte_none hn]
    have hbind : ∀ kind target, doBindRegion n kind target s.part = s.part.refuse .badValue 1 := fun kind target => by
      simp only [doBindRegion, finOfByte_none hn]
    exact ⟨refuses_of_ready (k := .unbindRegion) (payload := [n]) hready rfl hunbind nofun,
      refuses_of_ready (k := .clearRegion) (payload := [n]) hready rfl hclear nofun, fun kind target =>
      refuses_of_ready (k := .bindRegion) (payload := [n, kind, target]) hready rfl (hbind kind target) nofun⟩
  case target =>
    have hrefuse {kind field : Byte} (h : bindTarget kind target = .error field) :
        Refuses (.bindRegion seq n kind target) s .badValue field :=
      refuses_of_ready (k := .bindRegion) (payload := [n, kind, target]) hready rfl (doBindRegion_bad_target hn h) nofun
    exact ⟨fun h1 h2 => hrefuse (bindTarget_bad h1 h2), fun ht => hrefuse (bindTarget_bad_lane ht),
      fun ht => hrefuse (bindTarget_bad_pattern ht)⟩
  case trim =>
    exact refuses_of_ready (k := .trim) hready rfl ((runRequest_trim _ _ _ _ _).trans (doTrim_bad_lane hn)) nofun
  case lanes =>
    exact ⟨refuses_of_ready (k := .start) (payload := [lanes, last]) hready rfl (doStart_bad_lanes hl) nofun,
      refuses_of_ready (k := .stop) (payload := [lanes, last]) hready rfl (doStop_bad_lanes hl) nofun⟩
  case last =>
    exact ⟨fun h => refuses_of_ready (k := .start) (payload := [lanes, last]) hready rfl
        (doStart_bad_source h0 hl h) nofun,
      fun h => refuses_of_ready (k := .stop) (payload := [lanes, last]) hready rfl (doStop_bad_kind h0 hl h) nofun⟩
  case inputs =>
    have hrun : doClearFault inputs s.part = s.part.refuse .badValue 1 := by
      simp only [doClearFault, someInputs_eq_none.mpr hi]
    exact refuses_of_ready (k := .clearFault) (payload := [inputs]) hready rfl hrun nofun
  case fault =>
    have hrefuse {d : Byte} (h : doSetFault input level filter mode lanes s.part = s.part.refuse .badValue d) :
        Refuses (.setFault seq input level filter mode lanes) s .badValue d :=
      refuses_of_ready (k := .setFault) (payload := [input, level, filter, mode, lanes]) hready rfl h nofun
    refine ⟨fun h => hrefuse (doSetFault_bad_input h), fun hi => ⟨fun h => hrefuse (doSetFault_bad_level hi h),
      fun hl => ?_⟩⟩
    obtain ⟨hfilter, hrest⟩ := doSetFault_rest (p := s.part) (filter := filter) (mode := mode) (lanes := lanes) hi hl
    exact ⟨fun h => hrefuse (hfilter h), fun hmin hmax => ⟨fun h => hrefuse ((hrest hmin hmax).1 h),
      fun hm h => hrefuse ((hrest hmin hmax).2 hm h)⟩⟩
  case pair =>
    intro pair mode deadA deadB topP bottomP topS bottomS c
    have hrefuse {d : Byte} (h : doSetPair pair mode deadA deadB topP bottomP topS bottomS s.part = s.part.refuse .badValue d) :
        Refuses c s .badValue d :=
      refuses_of_ready (k := .setPair) (payload := [pair, mode, deadA, deadB, topP, bottomP, topS, bottomS]) hready rfl
        h nofun
    obtain ⟨hpair, hrest⟩ := doSetPair_bad (p := s.part) (pair := pair) (mode := mode) (deadA := deadA) (deadB := deadB)
      (topP := topP) (bottomP := bottomP) (topS := topS) (bottomS := bottomS)
    exact ⟨fun h => hrefuse (hpair h), fun h1 => ⟨fun h => hrefuse ((hrest h1).1 h), fun h2 =>
      ⟨fun h => hrefuse (((hrest h1).2 h2).1 h), fun h3 => ⟨fun h => hrefuse ((((hrest h1).2 h2).2 h3).1 h), fun h4 =>
        ⟨fun h => hrefuse (((((hrest h1).2 h2).2 h3).2 h4).1 h),
          fun h5 h => hrefuse (((((hrest h1).2 h2).2 h3).2 h4).2 h5 h)⟩⟩⟩⟩⟩

end Sys2Proof.Machine
end

section
/-! # The remaining region and pattern requests (R38, R40 to R45, R103, R105), and what the store holds (R35)

What each request's execution answers in each of its cases, then the obligations from these. -/

namespace Sys2Proof.Machine

/-! ## DEFINE_REGION against the table -/

/-- Two runs that are not empty overlap where they share a slot. -/
theorem runsOverlap_iff {start size start' size' : Nat} (h : 0 < size) (h' : 0 < size') :
    runsOverlap start size start' size' = true ↔
      ∃ a, start ≤ a ∧ a < start + size ∧ start' ≤ a ∧ a < start' + size' := by
  simp only [runsOverlap, Bool.and_eq_true, decide_eq_true_eq]
  constructor
  · rintro ⟨hlo, hhi⟩
    exact ⟨max start start', by omega⟩
  · rintro ⟨a, ha⟩
    omega

section DefineAgainstTable

variable {p : Part} {start size : Nat} {r r' : Fin 16}

/-- Values in range leave DEFINE_REGION's value check with nothing to refuse (R37). -/
theorem defineRegion_values (hmin : 4 ≤ size) (hfit : start + size ≤ 2048) :
    ¬Config.slots ≤ start ∧ ¬(size < 4 ∨ Config.slots < size ∨ Config.slots < start + size) := by
  have hslots : Config.slots = 2048 := rfl
  omega

theorem doDefineRegion_defined (hmin : 4 ≤ size) (hfit : start + size ≤ 2048) (hd : (p.region r).defined = true) :
    doDefineRegion (byteOf r.val) start size p = p.refuse .wrongState 0 := by
  obtain ⟨hs, hz⟩ := defineRegion_values hmin hfit
  simp only [doDefineRegion, finOfByte_region, if_neg hs, Bool.or_eq_true, decide_eq_true_eq, or_assoc, if_neg hz,
    if_pos hd]

theorem doDefineRegion_overlap (hmin : 4 ≤ size) (hfit : start + size ≤ 2048) (hd : (p.region r).defined = false)
    (hfind : allRegions.find? (fun r' =>
      (p.region r').defined && runsOverlap start size (p.region r').start (p.region r').size) = some r') :
    doDefineRegion (byteOf r.val) start size p = p.refuse .overlap (byteOf r'.val) := by
  obtain ⟨hs, hz⟩ := defineRegion_values hmin hfit
  simp only [doDefineRegion, finOfByte_region, if_neg hs, Bool.or_eq_true, decide_eq_true_eq, or_assoc, if_neg hz,
    hd, Bool.false_eq_true, if_false, hfind]

theorem doDefineRegion_taken (hmin : 4 ≤ size) (hfit : start + size ≤ 2048) (hd : (p.region r).defined = false)
    (hfind : allRegions.find? (fun r' =>
      (p.region r').defined && runsOverlap start size (p.region r').start (p.region r').size) = none) :
    doDefineRegion (byteOf r.val) start size p =
      (p.setRegion r { defined := true, start := start, size := size, binding := .none, head := 0, count := 0,
                       loaded := 0 }).done := by
  obtain ⟨hs, hz⟩ := defineRegion_values hmin hfit
  simp only [doDefineRegion, finOfByte_region, if_neg hs, Bool.or_eq_true, decide_eq_true_eq, or_assoc, if_neg hz,
    hd, Bool.false_eq_true, if_false, hfind]

end DefineAgainstTable

/-- Settles O11, by the cases of `doDefineRegion`; the region law gives every defined region a slot, so that an overlap
of runs is a shared slot. -/
theorem defineRegionIsCheckedAgainstTheTable : Obligations.DefineRegionIsCheckedAgainstTheTable := by
  intro s seq r start size hready p shares hlaw _ hmin _ hfit
  have hshares : ∀ m, ((p.region m).defined && runsOverlap start.toNat size.toNat (p.region m).start
      (p.region m).size) = true ↔ shares m := by
    intro m
    rw [Bool.and_eq_true]
    refine and_congr_right (fun hd => ?_)
    obtain ⟨hsize, -⟩ := (hlaw.ok m).of_defined hd
    exact runsOverlap_iff (by omega) (by omega)
  have hnot : ∀ m, ¬shares m → ((p.region m).defined && runsOverlap start.toNat size.toNat (p.region m).start
      (p.region m).size) = false := fun m h => eq_false_of_ne_true (fun ht => h ((hshares m).mp ht))
  refine ⟨fun hd => ?defined, fun r' hd hr' hlow => ?overlap, fun hd hnone => ?taken⟩
  case defined => exact defineRegion_refuses hready (doDefineRegion_defined hmin hfit hd)
  case overlap =>
    have hfind := find?_allRegions ((hshares r').mpr hr') (fun m hm => hnot m (hlow m hm))
    exact defineRegion_refuses hready (doDefineRegion_overlap hmin hfit hd hfind)
  case taken =>
    have hfind : allRegions.find? (fun r' => (p.region r').defined &&
        runsOverlap start.toNat size.toNat (p.region r').start (p.region r').size) = none :=
      List.find?_eq_none.mpr (fun m _ => Bool.eq_false_iff.mp (hnot m (hnone m)))
    exact takes_of_ready hready rfl
      ((runRequest_defineRegion _ _ _ _).trans (doDefineRegion_taken hmin hfit hd hfind)) rfl nofun

/-! ## BIND_REGION -/

@[simp] theorem bindTarget_lane (l : Fin 6) : bindTarget 1 (byteOf l.val) = .ok (.lane l) := by
  have hkind : (1 : Byte).toNat = 1 := rfl
  simp only [bindTarget, hkind, finOfByte_lane]

@[simp] theorem bindTarget_pattern (k : Fin 8) : bindTarget 2 (byteOf k.val) = .ok (.pattern k) := by
  have hkind : (2 : Byte).toNat = 2 := rfl
  simp only [bindTarget, hkind, finOfByte_pattern]

section BindRegion

variable {p : Part} {r : Fin 16} {kind target : Byte} {t : BindTarget}

theorem doBindRegion_undefined (ht : bindTarget kind target = .ok t) (hd : (p.region r).defined = false) :
    doBindRegion (byteOf r.val) kind target p = p.refuse .wrongState 0 := by
  simp only [doBindRegion, finOfByte_region, ht, hd, Bool.not_false, if_true]

theorem doBindRegion_bound (ht : bindTarget kind target = .ok t) (hd : (p.region r).defined = true)
    (hb : (p.region r).binding ≠ .none) :
    doBindRegion (byteOf r.val) kind target p = p.refuse .wrongState 1 := by
  simp only [doBindRegion, finOfByte_region, ht, hd, Bool.not_true, Bool.false_eq_true, if_false, if_pos hb]

variable {l : Fin 6} {k : Fin 8} (hd : (p.region r).defined = true) (hb : (p.region r).binding = .none)

include hd hb

/-- A defined, unbound region and a lane: the lane must be UNBOUND (R40). -/
theorem doBindRegion_lane : doBindRegion (byteOf r.val) 1 (byteOf l.val) p =
    if (p.lane l).state = .merged then p.refuse .unavailable (byteOf l.val)
    else if (p.lane l).state ≠ .unbound then p.refuse .wrongState 2
    else ((p.setRegion r { p.region r with binding := .lane l, head := 0, count := 0 }).updLane l Lane.bind).done := by
  simp only [doBindRegion, finOfByte_region, bindTarget_lane, hd, Bool.not_true, Bool.false_eq_true, if_false,
    if_neg (not_not_intro hb)]

/-- A defined, unbound region and a pattern: the pattern must be UNASSIGNED (R40). -/
theorem doBindRegion_pattern : doBindRegion (byteOf r.val) 2 (byteOf k.val) p =
    if (p.pattern k).state ≠ .unassigned then p.refuse .wrongState 2
    else ((p.setRegion r { p.region r with binding := .pattern k, loaded := 0 }).setPattern k
      { state := .empty, useCount := 0 }).done := by
  simp only [doBindRegion, finOfByte_region, bindTarget_pattern, hd, Bool.not_true, Bool.false_eq_true, if_false,
    if_neg (not_not_intro hb)]

end BindRegion

/-- BIND_REGION is refused where its execution turns it away. -/
theorem bindRegion_refuses {s : State} {seq region kind target : Byte} {st : Status} {d : Byte} (h : s.part.Ready seq)
    (hrun : doBindRegion region kind target s.part = s.part.refuse st d) :
    Refuses (.bindRegion seq region kind target) s st d :=
  refuses_of_ready (k := .bindRegion) (payload := [region, kind, target]) h rfl hrun nofun

/-- BIND_REGION is taken where its execution takes it. -/
theorem bindRegion_takes {s : State} {seq region kind target : Byte} {q : Part} (h : s.part.Ready seq)
    (hrun : doBindRegion region kind target s.part = q.done) (hlink : q.link = s.part.link) :
    Takes (.bindRegion seq region kind target) s q (okWith []) :=
  takes_of_ready (k := .bindRegion) (payload := [region, kind, target]) h rfl hrun (congrArg Link.buffer hlink) nofun

/-- Settles O13, by the cases of `doBindRegion`. -/
theorem bindRegionServesALaneOrAPattern : Obligations.BindRegionServesALaneOrAPattern := by
  intro s seq r l k hready p g toLane toPattern
  refine ⟨fun hd => ⟨?_, ?_⟩, fun hd hb => ⟨?_, ?_⟩, fun hd hb => ⟨fun hm => ?merged, fun hm hu => ?laneState,
    fun hu => ?lane, fun hu => ?patternState, fun hu => ?pattern⟩⟩
  · exact bindRegion_refuses hready (doBindRegion_undefined (bindTarget_lane l) hd)
  · exact bindRegion_refuses hready (doBindRegion_undefined (bindTarget_pattern k) hd)
  · exact bindRegion_refuses hready (doBindRegion_bound (bindTarget_lane l) hd hb)
  · exact bindRegion_refuses hready (doBindRegion_bound (bindTarget_pattern k) hd hb)
  case merged => exact bindRegion_refuses hready ((doBindRegion_lane hd hb).trans (if_pos hm))
  case laneState =>
    exact bindRegion_refuses hready ((doBindRegion_lane hd hb).trans ((if_neg hm).trans (if_pos hu)))
  case lane =>
    have hm : ¬(p.lane l).state = .merged := by simp [hu]
    exact bindRegion_takes hready
      ((doBindRegion_lane hd hb).trans ((if_neg hm).trans (if_neg (not_not_intro hu)))) rfl
  case patternState => exact bindRegion_refuses hready ((doBindRegion_pattern hd hb).trans (if_pos hu))
  case pattern =>
    exact bindRegion_takes hready ((doBindRegion_pattern hd hb).trans (if_neg (not_not_intro hu))) rfl

/-! ## UNBIND_REGION -/

/-- A region emptied and unbound (R43). -/
theorem Part.unbind_eq (p : Part) (r : Fin 16) :
    (p.emptyRegion r).setRegion r { (p.emptyRegion r).region r with binding := .none } =
      { p with store := p.store.eraseRun (p.region r).start (p.region r).size }.setRegion r
        { p.region r with binding := .none, head := 0, count := 0, loaded := 0 } := by
  rw [Part.emptyRegion_region_self]
  exact Part.setRegion_setRegion _ _ _ _

section UnbindRegion

variable {p : Part} {r : Fin 16}

theorem doUnbindRegion_undefined (hd : (p.region r).defined = false) :
    doUnbindRegion (byteOf r.val) p = p.refuse .wrongState 0 := by
  simp only [doUnbindRegion, finOfByte_region, hd, Bool.not_false, if_true]

theorem doUnbindRegion_unbound (hd : (p.region r).defined = true) (hb : (p.region r).binding = .none) :
    doUnbindRegion (byteOf r.val) p = p.refuse .wrongState 1 := by
  simp only [doUnbindRegion, finOfByte_region, hd, Bool.not_true, Bool.false_eq_true, if_false, hb]

theorem doUnbindRegion_lane {l : Fin 6} (hd : (p.region r).defined = true) (hb : (p.region r).binding = .lane l) :
    doUnbindRegion (byteOf r.val) p =
      if (p.lane l).state ≠ .stopped then p.refuse .wrongState 2
      else (({ p with store := p.store.eraseRun (p.region r).start (p.region r).size }.setRegion r
        { p.region r with binding := .none, head := 0, count := 0, loaded := 0 }).setLane l
          { p.lane l with state := .unbound }).done := by
  rw [← Part.unbind_eq]
  simp only [doUnbindRegion, finOfByte_region, hd, Bool.not_true, Bool.false_eq_true, if_false, hb]
  rfl

theorem doUnbindRegion_pattern {k : Fin 8} (hd : (p.region r).defined = true)
    (hb : (p.region r).binding = .pattern k) : doUnbindRegion (byteOf r.val) p =
      if 0 < (p.pattern k).useCount then p.refuse .inUse (byteOf (p.pattern k).useCount)
      else (({ p with store := p.store.eraseRun (p.region r).start (p.region r).size }.setRegion r
        { p.region r with binding := .none, head := 0, count := 0, loaded := 0 }).setPattern k
          { p.pattern k with state := .unassigned }).done := by
  rw [← Part.unbind_eq]
  simp only [doUnbindRegion, finOfByte_region, hd, Bool.not_true, Bool.false_eq_true, if_false, hb]
  rfl

end UnbindRegion

/-- UNBIND_REGION is refused where its execution turns it away. -/
theorem unbindRegion_refuses {s : State} {seq region : Byte} {st : Status} {d : Byte} (h : s.part.Ready seq)
    (hrun : doUnbindRegion region s.part = s.part.refuse st d) : Refuses (.unbindRegion seq region) s st d :=
  refuses_of_ready (k := .unbindRegion) (payload := [region]) h rfl hrun nofun

/-- UNBIND_REGION is taken where its execution takes it. -/
theorem unbindRegion_takes {s : State} {seq region : Byte} {q : Part} (h : s.part.Ready seq)
    (hrun : doUnbindRegion region s.part = q.done) (hlink : q.link = s.part.link) :
    Takes (.unbindRegion seq region) s q (okWith []) :=
  takes_of_ready (k := .unbindRegion) (payload := [region]) h rfl hrun (congrArg Link.buffer hlink) nofun

/-- Settles O14, by the binding of the region. -/
theorem unbindRegionEmptiesAndFrees : Obligations.UnbindRegionEmptiesAndFrees := by
  intro s seq r hready p g c freed
  refine ⟨fun hd => unbindRegion_refuses hready (doUnbindRegion_undefined hd),
    fun hd hb => unbindRegion_refuses hready (doUnbindRegion_unbound hd hb),
    fun l hd hb => ⟨fun hs => ?laneState, fun hs => ?lane⟩, fun k hd hb => ⟨fun hu => ?inUse, fun hu => ?pattern⟩⟩
  case laneState => exact unbindRegion_refuses hready ((doUnbindRegion_lane hd hb).trans (if_pos hs))
  case lane =>
    exact unbindRegion_takes hready ((doUnbindRegion_lane hd hb).trans (if_neg (not_not_intro hs))) rfl
  case inUse => exact unbindRegion_refuses hready ((doUnbindRegion_pattern hd hb).trans (if_pos hu))
  case pattern =>
    exact unbindRegion_takes hready ((doUnbindRegion_pattern hd hb).trans (if_neg (Nat.not_lt.mpr (Nat.le_of_eq hu)))) rfl

/-! ## CLEAR_REGION -/

section ClearRegion

variable {p : Part} {r : Fin 16}

theorem doClearRegion_undefined (hd : (p.region r).defined = false) :
    doClearRegion (byteOf r.val) p = p.refuse .wrongState 0 := by
  simp only [doClearRegion, finOfByte_region, hd, Bool.not_false, if_true]

theorem doClearRegion_unbound (hd : (p.region r).defined = true) (hb : (p.region r).binding = .none) :
    doClearRegion (byteOf r.val) p = p.done := by
  simp only [doClearRegion, finOfByte_region, hd, Bool.not_true, Bool.false_eq_true, if_false, hb]

theorem doClearRegion_lane {l : Fin 6} (hd : (p.region r).defined = true) (hb : (p.region r).binding = .lane l) :
    doClearRegion (byteOf r.val) p =
      if (p.lane l).state = .stopped ∨ (p.lane l).state = .halted then (p.emptyRegion r).done
      else p.refuse .wrongState 2 := by
  simp only [doClearRegion, finOfByte_region, hd, Bool.not_true, Bool.false_eq_true, if_false, hb, Bool.or_eq_true,
    decide_eq_true_eq]

theorem doClearRegion_pattern {k : Fin 8} (hd : (p.region r).defined = true)
    (hb : (p.region r).binding = .pattern k) : doClearRegion (byteOf r.val) p =
      if 0 < (p.pattern k).useCount then p.refuse .inUse (byteOf (p.pattern k).useCount)
      else ((p.emptyRegion r).setPattern k { p.pattern k with state := .empty }).done := by
  simp only [doClearRegion, finOfByte_region, hd, Bool.not_true, Bool.false_eq_true, if_false, hb]

end ClearRegion

/-- CLEAR_REGION is refused where its execution turns it away. -/
theorem clearRegion_refuses {s : State} {seq region : Byte} {st : Status} {d : Byte} (h : s.part.Ready seq)
    (hrun : doClearRegion region s.part = s.part.refuse st d) : Refuses (.clearRegion seq region) s st d :=
  refuses_of_ready (k := .clearRegion) (payload := [region]) h rfl hrun nofun

/-- CLEAR_REGION is taken where its execution takes it. -/
theorem clearRegion_takes {s : State} {seq region : Byte} {q : Part} (h : s.part.Ready seq)
    (hrun : doClearRegion region s.part = q.done) (hlink : q.link = s.part.link) :
    Takes (.clearRegion seq region) s q (okWith []) :=
  takes_of_ready (k := .clearRegion) (payload := [region]) h rfl hrun (congrArg Link.buffer hlink) nofun

/-- Settles O15, by the binding of the region. -/
theorem clearRegionEmptiesIt : Obligations.ClearRegionEmptiesIt := by
  intro s seq r hready p g c emptied
  refine ⟨fun hd => clearRegion_refuses hready (doClearRegion_undefined hd),
    fun hd hb => clearRegion_takes hready (doClearRegion_unbound hd hb) rfl,
    fun l hd hb => ⟨fun hs hh => ?laneState, fun hs => ?lane⟩,
    fun k hd hb => ⟨fun hu => ?inUse, fun hu => ?pattern⟩⟩
  case laneState =>
    exact clearRegion_refuses hready ((doClearRegion_lane hd hb).trans (if_neg (not_or.mpr ⟨hs, hh⟩)))
  case lane => exact clearRegion_takes hready ((doClearRegion_lane hd hb).trans (if_pos hs)) rfl
  case inUse => exact clearRegion_refuses hready ((doClearRegion_pattern hd hb).trans (if_pos hu))
  case pattern =>
    exact clearRegion_takes hready ((doClearRegion_pattern hd hb).trans (if_neg (Nat.not_lt.mpr (Nat.le_of_eq hu)))) rfl

/-! ## The store -/

/-- Settles O16: the reads of `Store.write`, `Store.erase` and `Store.eraseRun`; the positions that an APPEND or a
PATTERN_DATA fills are different slots. -/
theorem storeHoldsWhatWasWritten : Obligations.StoreHoldsWhatWasWritten := by
  refine ⟨fun st a b g start size _ => ⟨Store.read_write .., Store.read_erase .., Store.read_eraseRun ..⟩,
    fun p r segs _ hd hlaw => ?_⟩
  intro g
  refine ⟨fun hroom => ⟨fun i hi => ?joined, fun a ha => ?_⟩, fun _ => ⟨fun i hi => ?added, fun a ha => ?_⟩⟩
  case joined =>
    rw [Part.enqueue_store]
    refine Store.read_writeSegments (fun j m hj hm he => ?_) hi
    have hlt {n : Nat} (hn : n < segs.length) : g.count + n < g.size := by omega
    exact Nat.add_left_cancel (Region.queueSlot_inj (g := g) (hlt hj) (hlt hm) he)
  case added =>
    rw [Part.load_store]
    exact Store.read_writeSegments (fun j m _ _ he => by omega) hi
  · rw [Part.enqueue_store]
    exact Store.read_writeSegments_of_ne ha
  · rw [Part.load_store]
    exact Store.read_writeSegments_of_ne ha

/-! ## PATTERN_DATA -/

/-- The payload of a request with 1 to 16 segments is read back segment by segment (R192). -/
theorem withSegments_payload {raws : List RawSegment} (hmin : 1 ≤ raws.length) (hmax : raws.length ≤ 16) (header : Byte)
    (f : Byte → List RawSegment → Part → Answered) (p : Part) :
    withSegments (segmentsPayload header raws) f p = f header raws p := by
  simp only [segmentsPayload, withSegments, splitSegments_flatMap]
  rw [if_pos (by simp [hmin, hmax])]

/-- No segment, or more than 16, is a bad payload length (R192). -/
theorem withSegments_badLength {raws : List RawSegment} (h : raws.length = 0 ∨ 16 < raws.length) (header : Byte)
    (f : Byte → List RawSegment → Part → Answered) (p : Part) :
    withSegments (segmentsPayload header raws) f p = p.refuse .badLength 0 := by
  simp only [segmentsPayload, withSegments, splitSegments_flatMap]
  rw [if_neg (by simp; omega)]
  rfl

section PatternData

variable {p : Part} {k : Fin 8} {raws : List RawSegment} {segs : List Segment} {r : Fin 16}

theorem doPatternData_bad_pattern {pattern : Byte} (h : 8 ≤ pattern.toNat) :
    doPatternData pattern raws p = p.refuse .badValue 255 := by
  simp only [doPatternData, finOfByte_none h]

theorem doPatternData_bad_segment {i : Nat} (h : decodeSegments admittedInPattern 0 raws = .error i) :
    doPatternData (byteOf k.val) raws p = p.refuse .badValue (byteOf i) := by
  simp only [doPatternData, finOfByte_pattern, h]

theorem doPatternData_not_loading (h : decodeSegments admittedInPattern 0 raws = .ok segs)
    (hl : (p.pattern k).state ≠ .loading) :
    doPatternData (byteOf k.val) raws p = p.refuse .wrongState (byteOf k.val) := by
  simp only [doPatternData, finOfByte_pattern, h, if_pos hl]

theorem doPatternData_loading (h : decodeSegments admittedInPattern 0 raws = .ok segs)
    (hl : (p.pattern k).state = .loading) (hr : p.patternRegion k = some r) :
    doPatternData (byteOf k.val) raws p =
      if (p.region r).size < (p.region r).loaded + segs.length then
        p.refuse .noRoom (byteOf ((p.region r).size - (p.region r).loaded))
      else (p.load r segs, answerOk (natBytes16 ((p.region r).loaded + segs.length))) := by
  simp only [doPatternData, finOfByte_pattern, h, if_neg (not_not_intro hl), hr]

end PatternData

/-- Settles O27, by the cases of `doPatternData`. -/
theorem patternDataAddsSegments : Obligations.PatternDataAddsSegments := by
  intro s seq k raws hready p c
  refine ⟨fun pattern hlen => ?length, fun hmin hmax => ?_⟩
  case length =>
    exact refuses_of_ready (k := .patternData) hready rfl (withSegments_badLength hlen pattern doPatternData p) nofun
  have hrun (pattern : Byte) : runRequest .patternData (segmentsPayload pattern raws) p = doPatternData pattern raws p :=
    withSegments_payload hmin hmax pattern doPatternData p
  have hrefuse {pattern : Byte} {st : Status} {d : Byte} (h : doPatternData pattern raws p = p.refuse st d) :
      Refuses (.patternData seq pattern raws) s st d :=
    refuses_of_ready hready rfl ((hrun pattern).trans h) nofun
  refine ⟨fun pattern hk => hrefuse (doPatternData_bad_pattern hk), fun i hi => hrefuse (doPatternData_bad_segment hi),
    fun segs hsegs => ⟨fun hl => hrefuse (doPatternData_not_loading hsegs hl), fun r hl hr =>
      ⟨fun hroom => ?noRoom, fun hroom => ?taken⟩⟩⟩
  case noRoom => exact hrefuse ((doPatternData_loading hsegs hl hr).trans (if_pos hroom))
  case taken =>
    exact takes_of_ready hready rfl ((hrun _).trans
      ((doPatternData_loading hsegs hl hr).trans (if_neg (Nat.not_lt.mpr hroom)))) rfl nofun

/-! ## PATTERN_DISCARD -/

section PatternDiscard

variable {p : Part} {pattern : Byte} {k : Fin 8}

theorem doPatternDiscard_bad_pattern (hk : 8 ≤ pattern.toNat) :
    doPatternDiscard pattern p = p.refuse .badValue 1 := by
  simp only [doPatternDiscard, finOfByte_none hk]

/-- An UNASSIGNED pattern is turned away with NOT_BOUND, whatever the region table says of it. -/
theorem doPatternDiscard_unassigned (hk : pattern.toNat = k.val) (hu : (p.pattern k).state = .unassigned) :
    doPatternDiscard pattern p = p.refuse .notBound pattern := by
  simp only [doPatternDiscard, finOfByte_of_eq hk]
  cases p.patternRegion k with
  | none => rfl
  | some r => exact if_pos hu

theorem doPatternDiscard_assigned {r : Fin 16} (hk : pattern.toNat = k.val) (hr : p.patternRegion k = some r)
    (hu : (p.pattern k).state ≠ .unassigned) : doPatternDiscard pattern p =
      if 0 < (p.pattern k).useCount then p.refuse .inUse (byteOf (p.pattern k).useCount)
      else ((p.emptyRegion r).setPattern k { p.pattern k with state := .empty }).done := by
  simp only [doPatternDiscard, finOfByte_of_eq hk, hr, if_neg hu]

end PatternDiscard

/-- PATTERN_DISCARD is refused where its execution turns it away. -/
theorem patternDiscard_refuses {s : State} {seq pattern : Byte} {st : Status} {d : Byte} (h : s.part.Ready seq)
    (hrun : doPatternDiscard pattern s.part = s.part.refuse st d) : Refuses (.patternDiscard seq pattern) s st d :=
  refuses_of_ready (k := .patternDiscard) (payload := [pattern]) h rfl hrun nofun

/-- Settles O29, by the cases of `doPatternDiscard`. -/
theorem patternDiscardEmptiesIt : Obligations.PatternDiscardEmptiesIt := by
  intro s seq pattern hready
  refine ⟨fun hk => patternDiscard_refuses hready (doPatternDiscard_bad_pattern hk), fun k hk => ⟨fun hu => ?unassigned,
    fun r hr hu => ⟨fun hn => ?inUse, fun hn => ?taken⟩⟩⟩
  case unassigned => exact patternDiscard_refuses hready (doPatternDiscard_unassigned hk hu)
  case inUse => exact patternDiscard_refuses hready ((doPatternDiscard_assigned hk hr hu).trans (if_pos hn))
  case taken =>
    have hrun : runRequest .patternDiscard [pattern] s.part =
        ((s.part.emptyRegion r).setPattern k { s.part.pattern k with state := .empty }, okWith []) :=
      (doPatternDiscard_assigned hk hr hu).trans (if_neg (Nat.not_lt.mpr (Nat.le_of_eq hn)))
    exact takes_of_ready hready rfl hrun rfl nofun

end Sys2Proof.Machine
end

section
/-! # The settings of lanes, triggers and barriers (R84, R89, R116, R132)

Each request reads its fields in order and then looks at the state of what it names. -/

namespace Sys2Proof.Machine

/-! ## Lanes that take no request -/

section Unplayable

variable {p : Part} {l : Fin 6}

theorem Part.unplayable_unbound (h : (p.lane l).state = .unbound) :
    p.unplayable l = some (answerRefuse .notBound (byteOf l.val)) := by
  simp only [Part.unplayable, h]

theorem Part.unplayable_merged (h : (p.lane l).state = .merged) :
    p.unplayable l = some (answerRefuse .unavailable (byteOf l.val)) := by
  simp only [Part.unplayable, h]

theorem Part.unplayable_none (hu : (p.lane l).state ≠ .unbound) (hm : (p.lane l).state ≠ .merged) :
    p.unplayable l = none := by
  unfold Part.unplayable
  split
  case h_1 h => exact absurd h hu
  case h_2 h => exact absurd h hm
  case h_3 => rfl

end Unplayable

/-! ## SET_LANE -/

/-- SET_LANE's payload is read back field by field (R189, R192). -/
theorem runRequest_setLane (p : Part) (lane policy : Byte) (mark : Word16) (linkLoss : Byte) :
    runRequest .setLane (lane :: policy :: (bytes16 mark ++ [linkLoss])) p =
      doSetLane lane policy mark.toNat linkLoss p := by
  simp only [runRequest, bytes16, List.cons_append, List.nil_append, runSetLane, field16_extract]

section SetLane

variable {p : Part} {lane policy linkLoss : Byte} {mark : Nat}

theorem doSetLane_bad_lane (h : 5 < lane.toNat) : doSetLane lane policy mark linkLoss p = p.refuse .badValue 1 := by
  simp only [doSetLane, finOfByte_none h]

theorem doSetLane_bad_policy (hl : lane.toNat ≤ 5) (h : 1 < policy.toNat) :
    doSetLane lane policy mark linkLoss p = p.refuse .badValue 2 := by
  obtain ⟨l, hl⟩ := exists_of_eq_none_iff (finOfByte_eq_none (n := 6)) (Nat.not_le.mpr (Nat.lt_succ_of_le hl))
  simp only [doSetLane, hl, UnderrunPolicy.ofByte_eq_none.mpr h]

/-- With lane and policy in range SET_LANE checks mark and link-loss policy. -/
theorem doSetLane_rest (hl : lane.toNat ≤ 5) (hp : policy.toNat ≤ 1) :
    (2047 < mark → doSetLane lane policy mark linkLoss p = p.refuse .badValue 3) ∧
    (mark ≤ 2047 → 1 < linkLoss.toNat → doSetLane lane policy mark linkLoss p = p.refuse .badValue 4) := by
  obtain ⟨l, hl⟩ := exists_of_eq_none_iff (finOfByte_eq_none (n := 6)) (Nat.not_le.mpr (Nat.lt_succ_of_le hl))
  obtain ⟨u, hu⟩ := exists_of_eq_none_iff UnderrunPolicy.ofByte_eq_none (Nat.not_lt.mpr hp)
  refine ⟨fun hm => ?_, fun hm hk => ?_⟩
  · simp only [doSetLane, hl, hu, if_pos hm]
  · simp only [doSetLane, hl, hu, if_neg (Nat.not_lt.mpr hm), LinkLossPolicy.ofByte_eq_none.mpr hk]

variable {l : Fin 6} {u : UnderrunPolicy} {k : LinkLossPolicy}

theorem doSetLane_unplayable {a : Answer} (hm : mark ≤ 2047) (ha : p.unplayable l = some a) :
    doSetLane (byteOf l.val) u.byte mark k.byte p = (p, a) := by
  simp only [doSetLane, finOfByte_lane, UnderrunPolicy.ofByte_byte, LinkLossPolicy.ofByte_byte,
    if_neg (Nat.not_lt.mpr hm), ha]

theorem doSetLane_taken (hm : mark ≤ 2047) (ha : p.unplayable l = none) :
    doSetLane (byteOf l.val) u.byte mark k.byte p =
      (p.setLane l { p.lane l with policy := u, lowWater := mark, linkLoss := k }).done := by
  simp only [doSetLane, finOfByte_lane, UnderrunPolicy.ofByte_byte, LinkLossPolicy.ofByte_byte,
    if_neg (Nat.not_lt.mpr hm), ha]
  rfl

end SetLane

/-- Settles O24, by the fields of SET_LANE in order and then the lane's state. -/
theorem setLaneReplacesItsSettings : Obligations.SetLaneReplacesItsSettings := by
  intro s seq lane policy mark linkLoss hready p c
  have hrefuse {st : Status} {d : Byte} (h : doSetLane lane policy mark.toNat linkLoss p = p.refuse st d) :
      Refuses c s st d :=
    refuses_of_ready (k := .setLane) hready rfl ((runRequest_setLane _ _ _ _ _).trans h) nofun
  refine ⟨fun hl => hrefuse (doSetLane_bad_lane hl), fun hl hp => hrefuse (doSetLane_bad_policy hl hp),
    fun hl hp hm => hrefuse ((doSetLane_rest hl hp).1 hm), fun hl hp hm hk => hrefuse ((doSetLane_rest hl hp).2 hm hk),
    fun l u k hl hu hk hm => ?_⟩
  obtain rfl := byteOf_of_finOfByte (finOfByte_of_eq hl)
  subst hu hk
  refine ⟨fun hs => hrefuse (doSetLane_unplayable hm (Part.unplayable_unbound hs)),
    fun hs => hrefuse (doSetLane_unplayable hm (Part.unplayable_merged hs)), fun hu hm' => ?taken⟩
  case taken =>
    exact takes_of_ready hready rfl
      ((runRequest_setLane _ _ _ _ _).trans (doSetLane_taken hm (Part.unplayable_none hu hm'))) rfl nofun

/-! ## TRIM -/

theorem Lane.pulsePlayed_idle {x : Lane} (h : x.period = none) : x.pulsePlayed = none := by
  simp only [Lane.pulsePlayed, h]

/-- A held period and a unit of a LEVEL are not periods of a PULSE that plays (R89). -/
theorem Lane.pulsePlayed_other {x : Lane} {d : Period} (h : x.period = some d)
    (hd : d.held = true ∨ ∃ unit code, d.shape = .level unit code) : x.pulsePlayed = none := by
  obtain ⟨shape, onTime, phase, held⟩ := d
  obtain rfl | ⟨unit, code, rfl⟩ := hd
  · cases shape <;> simp only [Lane.pulsePlayed, h]
  · simp only [Lane.pulsePlayed, h]

theorem Lane.pulsePlayed_pulse {x : Lane} {d : Period} {period : Nat} {a : Alignment} (h : x.period = some d)
    (hs : d.shape = .pulse period a) (hh : d.held = false) : x.pulsePlayed = some period := by
  obtain ⟨shape, onTime, phase, held⟩ := d
  subst hs hh
  simp only [Lane.pulsePlayed, h]

section TrimAlternate

variable {x : Lane} {period alternate : Nat}

theorem trimAlternate_bad_flag {altFlag : Byte} (h : 1 < altFlag.toNat) :
    trimAlternate x period altFlag alternate = .error 2 := by
  simp only [trimAlternate, flagOfByte_none h]

theorem trimAlternate_absent : trimAlternate x period 0 alternate = .ok none := rfl

/-- An alternate is taken where the lane has one in force and the period holds it. -/
theorem trimAlternate_present : trimAlternate x period 1 alternate =
    if x.alternate.isSome = true ∧ alternate ≤ period then .ok (some alternate) else .error 4 := by
  have hflag : flagOfByte 1 = some true := rfl
  simp only [trimAlternate, hflag, Bool.and_eq_true, decide_eq_true_eq]

end TrimAlternate

section Trim

variable {p : Part} {l : Fin 6} {altFlag : Byte} {onTime alternate : Nat}

theorem doTrim_unplayable {a : Answer} (ha : p.unplayable l = some a) :
    doTrim (byteOf l.val) altFlag onTime alternate p = (p, a) := by
  simp only [doTrim, finOfByte_lane, ha]

theorem doTrim_not_playing (ha : p.unplayable l = none) (hr : (p.lane l).state ≠ .running)
    (hs : (p.lane l).state ≠ .stopping) :
    doTrim (byteOf l.val) altFlag onTime alternate p = p.refuse .wrongState 0 := by
  simp only [doTrim, finOfByte_lane, ha, hr, hs, decide_false, Bool.or_self, Bool.not_false, if_true]

variable (hplays : (p.lane l).state = .running ∨ (p.lane l).state = .stopping)

include hplays

theorem Part.unplayable_none_of_plays : p.unplayable l = none :=
  Part.unplayable_none (fun h => by simp [h] at hplays) (fun h => by simp [h] at hplays)

theorem Part.plays_test :
    (!(decide ((p.lane l).state = .running) || decide ((p.lane l).state = .stopping))) = false := not_or_decide hplays

theorem doTrim_no_pulse (h : (p.lane l).pulsePlayed = none) :
    doTrim (byteOf l.val) altFlag onTime alternate p = p.refuse .wrongState 1 := by
  simp only [doTrim, finOfByte_lane, Part.unplayable_none_of_plays hplays, Part.plays_test hplays, Bool.false_eq_true, if_false, h]

/-- A lane that plays a PULSE checks the values of a TRIM against its period (R89). -/
theorem doTrim_pulse {period : Nat} (h : (p.lane l).pulsePlayed = some period) :
    (period < onTime → doTrim (byteOf l.val) altFlag onTime alternate p = p.refuse .badValue 3) ∧
    (∀ d, onTime ≤ period → trimAlternate (p.lane l) period altFlag alternate = .error d →
      doTrim (byteOf l.val) altFlag onTime alternate p = p.refuse .badValue d) ∧
    ∀ alt, onTime ≤ period → trimAlternate (p.lane l) period altFlag alternate = .ok alt →
      doTrim (byteOf l.val) altFlag onTime alternate p =
        (p.setLane l { p.lane l with trim := some { onTime := onTime, alternate := alt } },
          { status := .accepted, detail := 0, body := [] }) := by
  simp only [doTrim, finOfByte_lane, Part.unplayable_none_of_plays hplays, Part.plays_test hplays, Bool.false_eq_true, if_false, h]
  refine ⟨fun ho => if_pos ho, fun d ho ht => ?_, fun alt ho ht => ?_⟩
  · rw [if_neg (Nat.not_lt.mpr ho), ht]
  · rw [if_neg (Nat.not_lt.mpr ho), ht]

end Trim

/-- Settles O25, by what the lane plays and then by the values. -/
theorem trimIsStaged : Obligations.TrimIsStaged := by
  intro s seq altFlag l onTime alternate hready p x c accepted
  have hrun := runRequest_trim p (byteOf l.val) altFlag onTime alternate
  have hrefuse {st : Status} {d : Byte}
      (h : doTrim (byteOf l.val) altFlag onTime.toNat alternate.toNat p = p.refuse st d) : Refuses c s st d :=
    refuses_of_ready (k := .trim) hready rfl (hrun.trans h) nofun
  refine ⟨fun hs => hrefuse (doTrim_unplayable (Part.unplayable_unbound hs)),
    fun hs => hrefuse (doTrim_unplayable (Part.unplayable_merged hs)),
    fun hu hm hr hs => hrefuse (doTrim_not_playing (Part.unplayable_none hu hm) hr hs), fun hplays => ⟨fun hp => ?idle,
      fun d hp hd => ?other, fun d period a hp hs hh => ?pulse⟩⟩
  case idle => exact hrefuse (doTrim_no_pulse hplays (Lane.pulsePlayed_idle hp))
  case other => exact hrefuse (doTrim_no_pulse hplays (Lane.pulsePlayed_other hp hd))
  case pulse =>
    obtain ⟨honTime, hbad, hgood⟩ := doTrim_pulse (altFlag := altFlag) (onTime := onTime.toNat)
      (alternate := alternate.toNat) hplays (Lane.pulsePlayed_pulse hp hs hh)
    refine ⟨fun ho => hrefuse (honTime ho), fun ho hf => hrefuse (hbad 2 ho (trimAlternate_bad_flag hf)),
      fun ho hf ha => hrefuse (hbad 4 ho ?_), fun ho hf => ?absent, fun ho hf hsome ha => ?present⟩
    · rw [hf, trimAlternate_present, if_neg]
      rintro ⟨hsome, hle⟩
      obtain hnone | hgt := ha
      · exact absurd hsome (by simp [show (p.lane l).alternate = none from hnone])
      · omega
    case absent =>
      exact takes_of_ready hready rfl (hrun.trans (hgood none ho (by rw [hf, trimAlternate_absent]))) rfl nofun
    case present =>
      have halt := (trimAlternate_present (x := p.lane l)).trans (if_pos ⟨hsome, ha⟩)
      exact takes_of_ready hready rfl (hrun.trans (hgood _ ho (hf ▸ halt))) rfl nofun

/-! ## SET_TRIGGER -/

/-- Settles O30, by the fields of SET_TRIGGER in order. -/
theorem setTriggerReplacesItsSettings : Obligations.SetTriggerReplacesItsSettings := by
  intro s seq input edges capture hready p c
  have hrefuse {d : Byte} (h : doSetTrigger input edges capture p = p.refuse .badValue d) : Refuses c s .badValue d :=
    refuses_of_ready (k := .setTrigger) (payload := [input, edges, capture]) hready rfl h nofun
  have hinput (hi : input.toNat ≤ 3) : ∃ i, finOfByte 4 input = some i :=
    exists_of_eq_none_iff finOfByte_eq_none (Nat.not_le.mpr (Nat.lt_succ_of_le hi))
  refine ⟨fun hi => hrefuse ?_, fun hi he => hrefuse ?_, fun hi he hc => hrefuse ?_, fun i e b hi he hc => ?taken⟩
  · simp only [doSetTrigger, finOfByte_none hi]
  · obtain ⟨i, hi⟩ := hinput hi
    simp only [doSetTrigger, hi, EdgeSelection.ofByte_eq_none.mpr he]
  · obtain ⟨i, hi⟩ := hinput hi
    obtain ⟨e, he⟩ := exists_of_eq_none_iff EdgeSelection.ofByte_eq_none (Nat.not_lt.mpr he)
    simp only [doSetTrigger, hi, he, flagOfByte_none hc]
  case taken =>
    have hrun : runRequest .setTrigger [input, edges, capture] p =
        (p.setTrigger i { p.trigger i with edges := e, capture := b }).done := by
      simp only [runRequest, withThree, doSetTrigger, finOfByte_of_eq hi, he, hc, EdgeSelection.ofByte_byte,
        flagOfByte_flagByte]
    exact takes_of_ready hready rfl hrun rfl nofun

/-! ## SET_BARRIER -/

/-- SET_BARRIER's payload is read back field by field (R189, R192). -/
theorem runRequest_setBarrier (p : Part) (barrier members mode trigger : Byte) (timeout : Word16) (action : Byte) :
    runRequest .setBarrier (barrier :: members :: mode :: trigger :: (bytes16 timeout ++ [action])) p =
      doSetBarrier barrier members mode trigger timeout.toNat action p := by
  simp only [runRequest, bytes16, List.cons_append, List.nil_append, runSetBarrier, field16_extract]

section SetBarrier

variable {p : Part} {barrier members mode trigger action : Byte} {timeout : Nat}

/-- SET_BARRIER's fields in order (R132). -/
theorem doSetBarrier_bad : (3 < barrier.toNat →
      doSetBarrier barrier members mode trigger timeout action p = p.refuse .badValue 1) ∧
    (barrier.toNat ≤ 3 → (63 < members.toNat →
        doSetBarrier barrier members mode trigger timeout action p = p.refuse .badValue 2) ∧
      (members.toNat ≤ 63 → (2 < mode.toNat →
          doSetBarrier barrier members mode trigger timeout action p = p.refuse .badValue 3) ∧
        (mode.toNat ≤ 2 → (3 < trigger.toNat →
            doSetBarrier barrier members mode trigger timeout action p = p.refuse .badValue 4) ∧
          (trigger.toNat ≤ 3 → 1 < action.toNat →
            doSetBarrier barrier members mode trigger timeout action p = p.refuse .badValue 6)))) := by
  have hnumber {n : Byte} (h : n.toNat ≤ 3) : ∃ i, finOfByte 4 n = some i :=
    exists_of_eq_none_iff finOfByte_eq_none (Nat.not_le.mpr (Nat.lt_succ_of_le h))
  refine ⟨fun hb => by simp only [doSetBarrier, finOfByte_none hb], fun hb => ?_⟩
  obtain ⟨b, hb⟩ := hnumber hb
  refine ⟨fun hm => by simp only [doSetBarrier, hb, (setOfByte_eq_none (n := 6)).mpr hm], fun hm => ?_⟩
  obtain ⟨s, hm⟩ := exists_of_eq_none_iff (setOfByte_eq_none (n := 6)) (Nat.not_le.mpr (Nat.lt_succ_of_le hm))
  refine ⟨fun hr => by simp only [doSetBarrier, hb, hm, ReleaseMode.ofByte_eq_none.mpr hr], fun hr => ?_⟩
  obtain ⟨r, hr⟩ := exists_of_eq_none_iff ReleaseMode.ofByte_eq_none (Nat.not_lt.mpr hr)
  refine ⟨fun ht => by simp only [doSetBarrier, hb, hm, hr, finOfByte_none ht], fun ht ha => ?_⟩
  obtain ⟨t, ht⟩ := hnumber ht
  simp only [doSetBarrier, hb, hm, hr, ht, TimeoutAction.ofByte_eq_none.mpr ha]

theorem doSetBarrier_good {b : Fin 4} {m : LaneSet} {r : ReleaseMode} {i : Fin 4} {a : TimeoutAction}
    (hb : barrier.toNat = b.val) (ht : trigger.toNat = i.val) :
    doSetBarrier barrier (setByte m) r.byte trigger timeout a.byte p =
      if (p.barrier b).arrived ≠ 0 then p.refuse .wrongState 0
      else (p.setBarrier b { p.barrier b with members := m, mode := r, trigger := i, timeout := timeout,
                                              action := a }).done := by
  simp only [doSetBarrier, finOfByte_of_eq hb, setOfByte_lanes, ReleaseMode.ofByte_byte, finOfByte_of_eq ht,
    TimeoutAction.ofByte_byte]

end SetBarrier

/-- Settles O32, by the fields of SET_BARRIER in order and then the arrived set. -/
theorem setBarrierReplacesItsSettings : Obligations.SetBarrierReplacesItsSettings := by
  intro s seq barrier members mode trigger timeout action hready p c
  have hrefuse {st : Status} {d : Byte}
      (h : doSetBarrier barrier members mode trigger timeout.toNat action p = p.refuse st d) : Refuses c s st d :=
    refuses_of_ready (k := .setBarrier) hready rfl ((runRequest_setBarrier _ _ _ _ _ _ _).trans h) nofun
  obtain ⟨hbarrier, hrest⟩ := doSetBarrier_bad (p := p) (barrier := barrier) (members := members) (mode := mode)
    (trigger := trigger) (timeout := timeout.toNat) (action := action)
  refine ⟨fun hb => hrefuse (hbarrier hb), fun hb hm => hrefuse ((hrest hb).1 hm),
    fun hb hm hr => hrefuse (((hrest hb).2 hm).1 hr), fun hb hm hr ht => hrefuse ((((hrest hb).2 hm).2 hr).1 ht),
    fun hb hm hr ht ha => hrefuse ((((hrest hb).2 hm).2 hr).2 ht ha), fun b m r i a hb hm hr ht ha => ?_⟩
  subst hm hr ha
  refine ⟨fun harr => hrefuse ((doSetBarrier_good hb ht).trans (if_pos harr)), fun harr => ?taken⟩
  case taken =>
    exact takes_of_ready hready rfl ((runRequest_setBarrier _ _ _ _ _ _ _).trans
      ((doSetBarrier_good hb ht).trans (if_neg (not_not_intro harr)))) rfl nofun

end Sys2Proof.Machine
end

section
/-! # Periods and retirements (R25, R49, R53, R62, R68, R88, R97, R172)

The start of a timed segment, the boundary inside it and a held period, each written out as one change of the lane; a
retirement and the creation of a notification, written out. -/

namespace Sys2Proof.Machine

/-! ## The lane at a boundary -/

/-- A lane drives a pair where it is lane 2p of a pair in COMPLEMENTARY mode (R8). -/
theorem Part.drivesPair_iff {p : Part} {l : Fin 6} : p.drivesPair l = true ↔
    l = evenLane (pairOf l) ∧ (p.pair (pairOf l)).mode = .complementary := by
  simp only [Part.drivesPair, Bool.and_eq_true, decide_eq_true_eq]

/-- A PULSE period at its boundary, with the sense test in words (R96, R97). -/
theorem Lane.inPulse_eq (x : Lane) (p : Part) (l : Fin 6) (sns : Level) (cycle : Bool) (period : Nat) (a : Alignment)
    (held : Bool) : x.inPulse (p.drivesPair l) sns cycle period a held =
      { x with
        sense := if l = evenLane (pairOf l) ∧ (p.pair (pairOf l)).mode = .complementary ∧ x.alternate.isSome = true then
          sns else x.sense
        suppressed := cycle
        period := some { shape := .pulse period a, phase := 0, held := held,
                         onTime := if (l = evenLane (pairOf l) ∧ (p.pair (pairOf l)).mode = .complementary ∧
                           x.alternate.isSome = true) ∧ sns = .high then x.alternate.getD x.primary else x.primary }
        record := if held then x.record else some (.pulse period a x.primary x.alternate) } := by
  simp only [Lane.inPulse, Bool.and_eq_true, Part.drivesPair_iff, decide_eq_true_eq, and_assoc]

/-- Without an alternate the on-time played is the primary, whatever the sample. -/
theorem onTime_of_getD {P Q : Prop} [Decidable P] [Decidable Q] {o : Option Nat} {n : Nat} :
    (if (P ∧ o.isSome = true) ∧ Q then o.getD n else n) = if P ∧ Q then o.getD n else n := by
  cases o with
  | none => simp
  | some m => simp

/-! ## The start of a timed segment -/

theorem Lane.setRepeats_state (x : Lane) (n : Nat) : (x.setRepeats n).state = x.state := by
  unfold Lane.setRepeats
  split <;> rfl

/-- The start of a PULSE (R62, R87, R88). -/
theorem Part.startTimed_pulse (p : Part) (l : Fin 6) (period onTime : Nat) (alternate : Option Nat) (a : Alignment)
    (repeats : Nat) : p.startTimed l (.pulse period onTime alternate a repeats) =
      p.setLane l ((((p.lane l).setRepeats repeats).setOnTimes onTime alternate).inPulse (p.drivesPair l)
        (pinLevel p.sensePins (pairOf l)) (p.cycleActive l) period a false) :=
  Part.setLane_beginPulse (x := ((p.lane l).setRepeats repeats).setOnTimes onTime alternate)
    (iff_of_eq (congrArg (· = _) (Lane.setRepeats_state _ _))) period a false

/-- The start of a LEVEL (R62, R88). -/
theorem Part.startTimed_level (p : Part) (l : Fin 6) (code : LevelCode) (unit repeats : Nat) :
    p.startTimed l (.level code unit repeats) =
      p.setLane l ((((p.lane l).setRepeats repeats).setOnTimes 0 none).inLevel (p.cycleActive l) unit code false) :=
  Part.setLane_beginLevel (x := ((p.lane l).setRepeats repeats).setOnTimes 0 none)
    (iff_of_eq (congrArg (· = _) (Lane.setRepeats_state _ _))) unit code false

/-- Settles O19: the two starts, and `Part.cycleActive_iff`. -/
theorem timedSegmentStartsItsFirstPeriod : Obligations.TimedSegmentStartsItsFirstPeriod := by
  intro p l x y sampled sns
  refine ⟨Part.cycleActive_iff p l, fun period onTime alternate a repeats => ?pulse, fun code unit repeats => ?level⟩
  case pulse =>
    rw [Part.startTimed_pulse, Lane.inPulse_eq]
    cases hc : (p.lane l).call <;>
      simp only [y, x, Lane.setRepeats, Lane.setOnTimes, hc, ← and_assoc, onTime_of_getD] <;> rfl
  case level =>
    rw [Part.startTimed_level]
    cases hc : (p.lane l).call <;> simp only [y, x, Lane.setRepeats, Lane.setOnTimes, hc] <;> rfl

/-! ## A boundary inside a segment -/

theorem Lane.commitTrim_none {x : Lane} (h : x.trim = none) : x.commitTrim = x := by
  simp only [Lane.commitTrim, h]

theorem Lane.commitTrim_some {x : Lane} {t : Trim} (h : x.trim = some t) : x.commitTrim =
    { x with primary := t.onTime, alternate := if t.alternate.isSome then t.alternate else x.alternate,
             trim := none } := by
  simp only [Lane.commitTrim, h]

theorem Lane.commitTrim_state (x : Lane) : x.commitTrim.state = x.state := by
  unfold Lane.commitTrim
  split <;> rfl

/-- PERIOD_BOUNDARY of a PULSE: a staged trim comes into force (R88, R91). -/
theorem Part.boundary_pulse {p : Part} {l : Fin 6} {d : Period} {period : Nat} {a : Alignment}
    (hd : (p.lane l).period = some d) (hs : d.shape = .pulse period a) : p.boundary l =
      p.setLane l ((((p.lane l).setRepeats ((p.lane l).repeatsLeft - 1)).commitTrim).inPulse (p.drivesPair l)
        (pinLevel p.sensePins (pairOf l)) (p.cycleActive l) period a false) := by
  have hmerged : ((p.lane l).setRepeats ((p.lane l).repeatsLeft - 1)).commitTrim.state = .merged ↔
      (p.lane l).state = .merged := by rw [Lane.commitTrim_state, Lane.setRepeats_state]
  simp only [Part.boundary, hd, hs]
  exact Part.setLane_beginPulse hmerged period a false

/-- PERIOD_BOUNDARY of a LEVEL (R88). -/
theorem Part.boundary_level {p : Part} {l : Fin 6} {d : Period} {unit : Nat} {code : LevelCode}
    (hd : (p.lane l).period = some d) (hs : d.shape = .level unit code) : p.boundary l =
      p.setLane l (((p.lane l).setRepeats ((p.lane l).repeatsLeft - 1)).inLevel (p.cycleActive l) unit code false) := by
  simp only [Part.boundary, hd, hs]
  exact Part.setLane_beginLevel (iff_of_eq (congrArg (· = _) (Lane.setRepeats_state _ _))) unit code false

/-- A boundary is due where the period in progress is over and repeats are left (R62). -/
theorem Lane.boundaryDue_of {x : Lane} {d : Period} (hs : x.state = .running) (hd : x.period = some d)
    (hh : d.held = false) (hover : d.shape.length ≤ d.phase) (hr : 1 < x.repeatsLeft) : x.boundaryDue = true := by
  simp [Lane.boundaryDue, Lane.periodOver, Lane.playsHeld, Period.over, hs, hd, hh, hover, hr]

/-- Settles O46, by the shape of the period. -/
theorem boundaryBeginsTheNextPeriod : Obligations.BoundaryBeginsTheNextPeriod := by
  intro s l d hphase p x y hs hd hh hover hcall hqueue
  have hleft : 1 < x.repeatsLeft := by
    unfold Lane.repeatsLeft
    cases hc : x.call with
    | some c => exact hcall c hc
    | none => exact hqueue hc
  have hdue := Lane.boundaryDue_of hs hd hh hover hleft
  have hy : x.setRepeats (x.repeatsLeft - 1) = y := by
    unfold Lane.setRepeats Lane.repeatsLeft
    cases hc : x.call <;> simp only [y, hc]
  refine ⟨fun unit code hshape => ?level, fun period a primary alternate hshape hnone hsome => ?pulse⟩
  case level =>
    refine does_of_due (f := fun q => q.boundary l) rfl hphase hdue ((Part.boundary_level hd hshape).trans ?_)
    rw [show ((p.lane l).setRepeats ((p.lane l).repeatsLeft - 1)) = y from hy]
    rfl
  case pulse =>
    intro sampled sns
    refine does_of_due (f := fun q => q.boundary l) rfl hphase hdue ((Part.boundary_pulse hd hshape).trans ?_)
    have htrim : y.commitTrim = { y with trim := none, primary := primary, alternate := alternate } := by
      have hkeeps : y.trim = x.trim ∧ y.primary = x.primary ∧ y.alternate = x.alternate := by
        cases hc : x.call <;> simp only [y, hc, and_self]
      obtain ⟨ht, hprimary, halternate⟩ := hkeeps
      cases hx : x.trim with
      | none =>
        obtain ⟨rfl, rfl⟩ := hnone hx
        rw [Lane.commitTrim_none (ht.trans hx), ← hprimary, ← halternate, ← hx, ← ht]
      | some t =>
        obtain ⟨rfl, rfl⟩ := hsome t hx
        rw [Lane.commitTrim_some (ht.trans hx), ← halternate]
    rw [show ((p.lane l).setRepeats ((p.lane l).repeatsLeft - 1)) = y from hy, htrim, Lane.inPulse_eq]
    have hsense : y.sense = x.sense := by cases hc : x.call <;> simp only [y, hc]
    simp only [hsense]
    rfl

/-! ## Held periods -/

/-- A held period of a PULSE record (R68, R98). -/
theorem Part.beginHeld_pulse {p : Part} {l : Fin 6} {period primary : Nat} {a : Alignment} {alternate : Option Nat}
    (h : (p.lane l).record = some (.pulse period a primary alternate)) : p.beginHeld l =
      p.setLane l (((p.lane l).setOnTimes primary alternate).inPulse (p.drivesPair l)
        (pinLevel p.sensePins (pairOf l)) (p.cycleActive l) period a true) := by
  simp only [Part.beginHeld, h]
  exact Part.setLane_beginPulse (x := (p.lane l).setOnTimes primary alternate) Iff.rfl period a true

/-- A held unit of a LEVEL record (R68). -/
theorem Part.beginHeld_level {p : Part} {l : Fin 6} {unit : Nat} {code : LevelCode}
    (h : (p.lane l).record = some (.level unit code)) : p.beginHeld l =
      p.setLane l (((p.lane l).setOnTimes 0 none).inLevel (p.cycleActive l) unit code true) := by
  simp only [Part.beginHeld, h]
  exact Part.setLane_beginLevel (x := (p.lane l).setOnTimes 0 none) Iff.rfl unit code true

/-- Settles O48: the held periods of the two records; HELD_BOUNDARY in a STARVED lane is no join. -/
theorem heldPeriodRepeatsTheRecord : Obligations.HeldPeriodRepeatsTheRecord := by
  refine ⟨fun p l => ⟨fun unit code h => Part.beginHeld_level h, fun period a primary alternate h => ?pulse⟩,
    fun s l d hphase hs hh hd hover => ?boundary⟩
  case pulse => exact (Part.beginHeld_pulse h).trans (congrArg _ (Lane.inPulse_eq _ p l _ _ _ _ _))
  case boundary =>
    have hjoin : (s.part.lane l).joinDue = false := by simp [Lane.joinDue, hs]
    have hdue : (s.part.lane l).heldDue = true := by
      simp [Lane.heldDue, Lane.periodOver, Period.over, hs, hh, hd, hover]
    have hevent : s.part.heldEvent l = (s.part.beginHeld l).settle := by
      unfold Part.heldEvent
      rw [hjoin, Bool.and_false, if_neg Bool.false_ne_true, Part.eventWhen_due hphase hdue]
    exact congrArg (fun q => Host.Outcome.next { s with part := q }) hevent

/-! ## Retirements and notifications -/

/-- Settles O23, by the tag of the segment. -/
theorem retirementRemovesElementZero : Obligations.RetirementRemovesElementZero := by
  intro p l r g outcome hr hg d told gone
  have htold : told = p.reportTag l g.tag outcome none := by
    cases ht : g.tag <;> simp only [told, ht, Part.reportTag]
  have hkeeps : told.store = p.store ∧ told.regions = p.regions ∧ told.lanes = p.lanes := by
    rw [htold, Part.reportTag_eq]
    exact ⟨rfl, rfl, rfl⟩
  obtain ⟨hstore, hregions, hlanes⟩ := hkeeps
  have hregion : told.region r = d := by rw [Part.region, hregions]; rfl
  have hlane : told.lane l = p.lane l := by rw [Part.lane, hlanes]; rfl
  have hbound : told.laneRegion l = some r := by
    unfold Part.laneRegion Part.region
    rw [hregions]
    exact hr
  simp only [Part.retireHead, hg, ← htold, Part.popHead, hbound, hregion, hlane, Bool.and_eq_true, decide_eq_true_eq,
    hstore]
  rfl

/-- Settles O54, by the test that `NotificationUnit.create` makes. -/
theorem createdNotificationsAreKeptOrCounted : Obligations.CreatedNotificationsAreKeptOrCounted := by
  intro p n
  have hcapacity : Config.queueCapacity = 32 := rfl
  refine ⟨fun hlen hcount hkinds => ?kept, fun h => ?counted⟩
  case kept =>
    have hroom : (decide (p.notif.queue.length < Config.queueCapacity) && p.notif.tallyEmpty) = true := by
      simp [NotificationUnit.tallyEmpty, hcapacity, hlen, hcount, hkinds]
    simp only [Part.notify, NotificationUnit.create, hroom, if_true]
    rfl
  case counted =>
    have hfull : (decide (p.notif.queue.length < Config.queueCapacity) && p.notif.tallyEmpty) = false := by
      obtain hlen | hcount | hkinds := h
      · simp [hcapacity, Nat.not_lt.mpr hlen]
      · simp [NotificationUnit.tallyEmpty, hcount]
      · rw [NotificationUnit.tallyEmpty, decide_eq_false hkinds, Bool.and_false, Bool.and_false]
    have hmin : min (p.notif.lostCount + 1) Config.lostCountMax =
        if p.notif.lostCount < 65535 then p.notif.lostCount + 1 else 65535 := by
      have hmax : Config.lostCountMax = 65535 := rfl
      split <;> omega
    simp only [Part.notify, NotificationUnit.create, hfull, Bool.false_eq_true, if_false, hmin]
    rfl

end Sys2Proof.Machine
end

section
/-! # Stops and halts (R65, R73 to R83, R129, R139, R183)

The end of what a lane plays, said for each thing it can be playing; then STOP, SOFT_STOP_COMPLETE and the stops that
the stall of the channel makes. -/

namespace Sys2Proof.Machine

/-! ## The end of what a lane plays -/

section EndOfPlay

variable {p : Part} {l : Fin 6}

@[simp] theorem Part.reportTag_pattern (p : Part) (l : Fin 6) (t : Option Byte) (o : Retirement) (k : Option (Fin 8))
    (j : Fin 8) : (p.reportTag l t o k).pattern j = p.pattern j := by
  rw [Part.reportTag_eq]
  rfl

@[simp] theorem Part.reportTag_lane (p : Part) (l : Fin 6) (t : Option Byte) (o : Retirement) (k : Option (Fin 8))
    (m : Fin 6) : (p.reportTag l t o k).lane m = p.lane m := by
  rw [Part.reportTag_eq]
  rfl

@[simp] theorem Part.reportTag_link (p : Part) (l : Fin 6) (t : Option Byte) (o : Retirement) (k : Option (Fin 8)) :
    (p.reportTag l t o k).link = p.link := by
  rw [Part.reportTag_eq]

/-- The end of a segment changes no lane. -/
@[simp] theorem Part.endCurrent_lane (p : Part) (l m : Fin 6) : (p.endCurrent l).lane m = p.lane m := by
  unfold Part.endCurrent
  simp only
  split
  · split
    · rw [Part.retireHead_lane, Part.lowerUse_lane]
      split
      · exact Part.reportTag_lane ..
      · rfl
    · exact Part.retireHead_lane ..
  · rfl

/-- Nor the link. -/
@[simp] theorem Part.endCurrent_link (p : Part) (l : Fin 6) : (p.endCurrent l).link = p.link := by
  unfold Part.endCurrent
  simp only
  split
  · split
    · rw [Part.retireHead_link, Part.lowerUse_link]
      split
      · exact Part.reportTag_link ..
      · rfl
    · exact Part.retireHead_link ..
  · rfl

/-- A lane ARMED or STARVED plays nothing of its own. -/
theorem Part.endCurrent_idle (hs : (p.lane l).state = .armed ∨ (p.lane l).state = .starved) : p.endCurrent l = p := by
  refine Part.endCurrent_none ?_
  obtain hs | hs := hs <;> simp only [Lane.hasCurrent, hs]

/-- A held period retires nothing. -/
theorem Part.endCurrent_held {d : Period} (hs : (p.lane l).state = .running ∨ (p.lane l).state = .stopping)
    (hd : (p.lane l).period = some d) (hh : d.held = true) : p.endCurrent l = p :=
  Part.endCurrent_none (by rw [Lane.hasCurrent_playing hs hd, hh, Bool.not_true])

/-- The BARRIER that a WAITING lane waits at is ABANDONED (R77, R79). -/
theorem Part.endCurrent_waiting (hs : (p.lane l).state = .waiting) (hp : (p.lane l).period = none)
    (hc : (p.lane l).call = none) : p.endCurrent l = p.retireHead l .abandoned := by
  have hcurrent : (p.lane l).hasCurrent = true := by simp only [Lane.hasCurrent, hs]
  have houtcome : (p.lane l).outcome = .abandoned := by
    simp [Lane.outcome, Lane.playedOut, Lane.periodOver, hp]
  simp only [Part.endCurrent, hcurrent, if_true, hc, houtcome]

/-- The pattern segment of a CALL reported with its outcome, and the use count fallen (R101, R111). -/
def Part.callEnded (p : Part) (l : Fin 6) (c : CallPosition) (h : Segment) (o : Retirement) : Part :=
  (p.reportTag l h.tag o (some c.pattern)).setPattern c.pattern
    { p.pattern c.pattern with useCount := (p.pattern c.pattern).useCount - 1 }

theorem Part.lowerUse_reportTag (p : Part) (l : Fin 6) (c : CallPosition) (h : Segment) (o : Retirement) :
    (p.reportTag l h.tag o (some c.pattern)).lowerUse c.pattern = p.callEnded l c h o := by
  simp only [Part.lowerUse, Part.reportTag_pattern, Part.callEnded]

/-- The end of a CALL: COMPLETED where its last timed segment of its last play has been played, and ABANDONED otherwise
(R76, R79, R111). -/
theorem Part.endCurrent_call_cases {d : Period} {c : CallPosition} {h : Segment}
    (hs : (p.lane l).state = .running ∨ (p.lane l).state = .stopping) (hd : (p.lane l).period = some d)
    (hh : d.held = false) (hc : (p.lane l).call = some c) (hg : p.patternSegment c.pattern c.index = some h) :
    let ended := d.shape.length ≤ d.phase ∧ c.remaining ≤ 1
    let last := ∀ i g, c.index < i → i < p.loadedLength c.pattern → p.patternSegment c.pattern i = some g →
      g.isTimed = false
    let spoken := p.callEnded l c h (if ended then .completed else .abandoned)
    (ended → c.plays ≤ 1 → last → p.endCurrent l = spoken.retireHead l .completed) ∧
    (¬ended ∨ 1 < c.plays ∨ ¬last → p.endCurrent l = spoken.retireHead l .abandoned) := by
  intro ended last spoken
  rw [Part.endCurrent_call hs hd hh hc hg, Part.lowerUse_reportTag]
  have hiff : p.lastTimed c.pattern c.index = true ↔ last := Part.lastTimed_iff p c.pattern c.index
  refine ⟨fun he hplays hlast => ?_, fun hnot => ?_⟩
  · exact congrArg (spoken.retireHead l) (if_pos ⟨he, hplays, hiff.mpr hlast⟩)
  · refine congrArg (spoken.retireHead l) (if_neg ?_)
    rintro ⟨he, hplays, hlast⟩
    obtain hn | hn | hn := hnot
    · exact hn he
    · omega
    · exact hn (hiff.mp hlast)

end EndOfPlay

/-! ## The ways out of play -/

section WaysOut

variable {p : Part} {l : Fin 6}

/-- A hard stop of a lane that plays (R79). -/
theorem Part.hardStop_playing (h : (p.lane l).state.isPlaying = true) :
    p.hardStop l = ((p.leaveBarriers l).endCurrent l).setLane l (p.lane l).toStopped := by
  simp only [Part.hardStop, h, if_true, Part.updLane, Part.endCurrent_lane, Part.leaveBarriers_lane]

/-- A soft stop of a lane that is not in the middle of a period (R77). -/
theorem Part.stopNow_eq (cause : StopCause) : p.stopNow l cause =
    (((p.leaveBarriers l).endCurrent l).setLane l (p.lane l).toStopped).reportStopped l cause := by
  simp only [Part.stopNow, Part.updLane, Part.endCurrent_lane, Part.leaveBarriers_lane]

/-- A soft stop in the middle of a period waits for its end (R75). -/
theorem Part.softStop_period {d : Period} (cause : StopCause)
    (hs : (p.lane l).state = .running ∨ ((p.lane l).state = .starved ∧ (p.lane l).starve = .hold))
    (hd : (p.lane l).period = some d) (hp : d.phase < d.shape.length) :
    p.softStop l cause = p.setLane l { p.lane l with state := .stopping, stopCause := cause } := by
  have hplays : ((p.lane l).periodOver || (p.lane l).period.isNone) = false := by
    simp only [Lane.periodOver, hd, Period.over, decide_eq_false (Nat.not_le.mpr hp)]
    rfl
  obtain hs | ⟨hs, hh⟩ := hs
  · simp only [Part.softStop, hs, hplays, Bool.false_eq_true, if_false]
    rfl
  · simp only [Part.softStop, hs, hh, if_true, hplays, Bool.false_eq_true, if_false]
    rw [← hh]
    rfl

/-- A soft stop of a lane with no period in progress acts at once (R77). -/
theorem Part.softStop_now (cause : StopCause)
    (hs : (p.lane l).state = .armed ∨ (p.lane l).state = .waiting ∨
      ((p.lane l).state = .starved ∧ (p.lane l).starve = .safe)) : p.softStop l cause = p.stopNow l cause := by
  obtain hs | hs | ⟨hs, hh⟩ := hs
  · simp only [Part.softStop, hs]
  · simp only [Part.softStop, hs]
  · simp only [Part.softStop, hs, hh]
    rfl

/-- A soft stop of a lane that is being stopped or does not play does nothing (R78). -/
theorem Part.softStop_other (cause : StopCause)
    (hs : (p.lane l).state = .stopping ∨ (p.lane l).state = .stopped ∨ (p.lane l).state = .halted ∨
      (p.lane l).state = .unbound ∨ (p.lane l).state = .merged) : p.softStop l cause = p := by
  obtain hs | hs | hs | hs | hs := hs <;> simp only [Part.softStop, hs]

theorem Part.completeStop_link : (p.completeStop l).link = p.link := by
  have hdrop : (p.dropTrim l).link = p.link := by
    unfold Part.dropTrim
    split <;> rfl
  simp only [Part.completeStop, Part.reportStopped, Part.notify_link, Part.updLane_link, Part.endCurrent_link, hdrop]

theorem Part.hardStop_link : (p.hardStop l).link = p.link := by
  unfold Part.hardStop
  split
  · rw [Part.updLane_link, Part.endCurrent_link, Part.leaveBarriers_link]
  · rfl

theorem Part.stopNow_link (cause : StopCause) : (p.stopNow l cause).link = p.link := by
  rw [Part.stopNow_eq]
  simp only [Part.reportStopped, Part.notify_link, Part.setLane_link, Part.endCurrent_link, Part.leaveBarriers_link]

theorem Part.softStop_link (cause : StopCause) : (p.softStop l cause).link = p.link := by
  have hstopping {q : Part} (hq : q.link = p.link) {b : Bool} :
      (if b = true then q.completeStop l else q).link = p.link := by
    split
    · rw [Part.completeStop_link, hq]
    · exact hq
  cases hs : (p.lane l).state <;> simp only [Part.softStop, hs]
  case running => exact hstopping (Part.updLane_link ..)
  case starved =>
    split
    · exact hstopping (Part.updLane_link ..)
    · exact Part.stopNow_link cause
  case armed => exact Part.stopNow_link cause
  case waiting => exact Part.stopNow_link cause

end WaysOut

/-! ## STOP -/

@[simp] theorem someLanes_setByte {lanes : LaneSet} (h : lanes ≠ 0) : someLanes (setByte lanes) = some lanes := by
  simp only [someLanes, setOfByte_lanes, if_neg h]

section Stop

variable {s : State} {seq : Byte} {l : Fin 6}

/-- STOP of one lane that takes no request is refused. -/
theorem stop_refuses {kind : Byte} {k : StopKind} {st : Status} (h : s.part.Ready seq)
    (hk : stopKindOfByte kind = some k) (ha : s.part.unplayable l = some (answerRefuse st (byteOf l.val))) :
    Refuses (.stop seq (setByte (single l)) kind) s st (byteOf l.val) := by
  have hrun : doStop (setByte (single l)) kind s.part = s.part.refuse st (byteOf l.val) := by
    simp only [doStop, someLanes_setByte (single_ne_zero l), hk, lanesOf_single, List.findSome?_cons, ha]
    rfl
  exact refuses_of_ready (k := .stop) (payload := [setByte (single l), kind]) h rfl hrun nofun

/-- A soft STOP of one lane. -/
theorem softStop_takes {q : Part} (h : s.part.Ready seq) (hu : (s.part.lane l).state ≠ .unbound)
    (hm : (s.part.lane l).state ≠ .merged) (hq : s.part.softStop l .softStop = q) :
    Takes (.stop seq (setByte (single l)) 0) s q (okWith (bytes32 s.part.timebase.count)) := by
  have hkind : stopKindOfByte 0 = some .soft := rfl
  have hrun : doStop (setByte (single l)) 0 s.part = (q, okWith (bytes32 s.part.timebase.count)) := by
    simp only [doStop, someLanes_setByte (single_ne_zero l), hkind, lanesOf_single, List.findSome?_cons,
      Part.unplayable_none hu hm, List.findSome?_nil, Part.stopLanes, forLanes, List.foldl_cons, List.foldl_nil, hq]
    rfl
  exact takes_of_ready (k := .stop) (payload := [setByte (single l), 0]) h rfl hrun
    (congrArg Link.buffer (hq ▸ Part.softStop_link .softStop)) nofun

/-- A hard STOP of one lane. -/
theorem hardStop_takes {q : Part} (h : s.part.Ready seq) (hu : (s.part.lane l).state ≠ .unbound)
    (hm : (s.part.lane l).state ≠ .merged) (hq : s.part.hardStop l = q) :
    Takes (.stop seq (setByte (single l)) 1) s q (okWith (bytes32 s.part.timebase.count)) := by
  have hkind : stopKindOfByte 1 = some .hard := rfl
  have hrun : doStop (setByte (single l)) 1 s.part = (q, okWith (bytes32 s.part.timebase.count)) := by
    simp only [doStop, someLanes_setByte (single_ne_zero l), hkind, lanesOf_single, List.findSome?_cons,
      Part.unplayable_none hu hm, List.findSome?_nil, Part.stopLanes, forLanes, List.foldl_cons, List.foldl_nil, hq]
    rfl
  exact takes_of_ready (k := .stop) (payload := [setByte (single l), 1]) h rfl hrun
    (congrArg Link.buffer (hq ▸ Part.hardStop_link)) nofun

end Stop

/-- Settles O22, by the lane's state and by what it plays. -/
theorem stopActsByTheLaneState : Obligations.StopActsByTheLaneState := by
  intro s seq l hready p x soft hard reply stopped left freed retired told
  have hleft : p.leaveBarriers l = left := Part.leaveBarriers_map p l
  have hhard {q : Part} (hplays : x.state.isPlaying = true) (hend : left.endCurrent l = q) :
      Takes hard s (q.setLane l stopped) reply := by
    refine hardStop_takes hready ?_ ?_ ((Part.hardStop_playing hplays).trans (by rw [hleft, hend]; rfl))
    all_goals
      intro hs
      rw [show x.state = _ from hs] at hplays
      exact absurd hplays (by decide)
  have hsoft {q : Part} (hs : x.state = .armed ∨ x.state = .waiting ∨ (x.state = .starved ∧ x.starve = .safe))
      (hend : left.endCurrent l = q) : Takes soft s (told (q.setLane l stopped)) reply := by
    refine softStop_takes hready ?_ ?_ ((Part.softStop_now _ hs).trans ((Part.stopNow_eq _).trans
      (by rw [hleft, hend]; rfl)))
    all_goals
      intro hs'
      rw [show x.state = _ from hs'] at hs
      simp at hs
  refine ⟨fun hs => ?unbound, fun hs => ?merged, fun d hs hd hp => ?inPeriod, fun hs hp hc => ?waiting, fun hs => ?idle,
    fun hs => ?starved, fun d hs hd => ?playing, fun hs => ?stopping, fun hs => ?quiet⟩
  case unbound =>
    exact ⟨stop_refuses hready rfl (Part.unplayable_unbound hs), stop_refuses hready rfl (Part.unplayable_unbound hs)⟩
  case merged =>
    exact ⟨stop_refuses hready rfl (Part.unplayable_merged hs), stop_refuses hready rfl (Part.unplayable_merged hs)⟩
  case inPeriod =>
    refine softStop_takes hready ?_ ?_ (Part.softStop_period _ hs hd hp)
    all_goals
      intro hs'
      rw [show x.state = _ from hs'] at hs
      simp at hs
  case waiting =>
    have hend : left.endCurrent l = left.retireHead l .abandoned := Part.endCurrent_waiting (p := left) hs hp hc
    exact ⟨hsoft (.inr (.inl hs)) hend, hhard (by rw [hs]; rfl) hend⟩
  case idle =>
    have hend : left.endCurrent l = left := Part.endCurrent_idle (p := left) (hs.imp id And.left)
    refine ⟨hsoft (hs.imp id .inr) hend, hhard ?_ hend⟩
    obtain hs | ⟨hs, -⟩ := hs <;> rw [hs] <;> rfl
  case starved => exact hhard (by rw [hs]; rfl) (Part.endCurrent_idle (p := left) (.inr hs))
  case playing =>
    have hplays : x.state.isPlaying = true := by obtain hs | hs := hs <;> rw [hs] <;> rfl
    refine ⟨fun hh => hhard hplays (Part.endCurrent_held (p := left) hs hd hh),
      fun hh hc => hhard hplays (Part.endCurrent_queue (p := left) hs hd hh hc), fun c h hh hc hg => ?call⟩
    case call =>
      intro ended last spoken q
      have hq : left.callEnded l c h (if ended then .completed else .abandoned) = q := by
        simp only [q, spoken, Part.callEnded, Part.reportTag]
        cases h.tag <;> rfl
      obtain ⟨hcompleted, habandoned⟩ := Part.endCurrent_call_cases (p := left) hs hd hh hc hg
      rw [hq] at hcompleted habandoned
      exact ⟨fun he hplays' hlast => hhard hplays (hcompleted he hplays' hlast),
        fun hnot => hhard hplays (habandoned hnot)⟩
  case stopping =>
    exact softStop_takes hready (by simp [show (s.part.lane l).state = _ from hs])
      (by simp [show (s.part.lane l).state = _ from hs]) (Part.softStop_other _ (.inl hs))
  case quiet =>
    have hu : x.state ≠ .unbound := by obtain hs | hs := hs <;> simp [hs]
    have hm : x.state ≠ .merged := by obtain hs | hs := hs <;> simp [hs]
    refine ⟨softStop_takes hready hu hm (Part.softStop_other _ (.inr (hs.imp id .inl))), hardStop_takes hready hu hm ?_⟩
    have hnot : x.state.isPlaying = false := by obtain hs | hs := hs <;> rw [hs] <;> rfl
    simp only [Part.hardStop, show (s.part.lane l).state.isPlaying = false from hnot, Bool.false_eq_true, if_false]
    rfl

end Sys2Proof.Machine
end

section
/-! # Soft stops that complete, expiries, faults and barrier timeouts (R75, R81, R129, R135 to R149, R181, R183) -/

namespace Sys2Proof.Machine

/-! ## A staged trim is dropped -/

section DropTrim

variable (p : Part) (l : Fin 6)

/-- A dropped trim changes the lane and the notifications alone. -/
theorem Part.dropTrim_eq : p.dropTrim l = { p with lanes := (p.dropTrim l).lanes, notif := (p.dropTrim l).notif } := by
  unfold Part.dropTrim
  split <;> rfl

@[simp] theorem Part.dropTrim_lane_self : (p.dropTrim l).lane l = { p.lane l with trim := none } := by
  unfold Part.dropTrim
  split
  case isTrue => rw [Part.notify_lane, Part.updLane_lane_self]
  case isFalse h => rw [← Option.not_isSome_iff_eq_none.mp h]

@[simp] theorem Part.dropTrim_patternSegment (k : Fin 8) (i : Nat) :
    (p.dropTrim l).patternSegment k i = p.patternSegment k i := by
  rw [Part.dropTrim_eq]
  rfl

@[simp] theorem Part.dropTrim_loadedLength (k : Fin 8) : (p.dropTrim l).loadedLength k = p.loadedLength k := by
  rw [Part.dropTrim_eq]
  rfl

@[simp] theorem Part.dropTrim_pattern (k : Fin 8) : (p.dropTrim l).pattern k = p.pattern k := by
  rw [Part.dropTrim_eq]
  rfl

/-- SOFT_STOP_COMPLETE as one change of the lane (R75). -/
theorem Part.completeStop_eq : p.completeStop l =
    (((p.dropTrim l).endCurrent l).setLane l (p.lane l).toStopped).reportStopped l (p.lane l).stopCause := by
  simp only [Part.completeStop, Part.updLane, Part.endCurrent_lane, Part.dropTrim_lane_self]
  rfl

end DropTrim

/-- Settles O49, by what the stopping lane plays. -/
theorem softStopCompletes : Obligations.SoftStopCompletes := by
  intro s l d hphase p x p0 ends hs hd hover
  have hp0 : p.dropTrim l = p0 := rfl
  have hdue : x.stopDue = true := by simp [Lane.stopDue, Lane.periodOver, Period.over, hs, hd, hover]
  have hends {q : Part} (hq : (p.dropTrim l).endCurrent l = q) : ends q :=
    does_of_due (f := fun q => q.completeStop l) rfl hphase hdue ((Part.completeStop_eq p l).trans (by rw [hq]; rfl))
  have hstate : ((p.dropTrim l).lane l).state = .running ∨ ((p.dropTrim l).lane l).state = .stopping := by
    rw [Part.dropTrim_lane_self]
    exact .inr hs
  have hperiod : ((p.dropTrim l).lane l).period = some d := by
    rw [Part.dropTrim_lane_self]
    exact hd
  have hcall : ((p.dropTrim l).lane l).call = x.call := by rw [Part.dropTrim_lane_self]
  refine ⟨fun hh => ?held, fun hh hc => ?queue, fun c h hh hc hg => ?call⟩
  case held => exact hends (Part.endCurrent_held hstate hperiod hh)
  case queue =>
    refine hends ((Part.endCurrent_queue hstate hperiod hh (hcall.trans hc)).trans ?_)
    simp only [hover, true_and, Part.dropTrim_lane_self]
    rfl
  case call =>
    intro last told q
    obtain ⟨hcompleted, habandoned⟩ := Part.endCurrent_call_cases hstate hperiod hh (hcall.trans hc)
      ((Part.dropTrim_patternSegment ..).trans hg)
    have hq : (p.dropTrim l).callEnded l c h (if c.remaining ≤ 1 then .completed else .abandoned) = q := by
      cases ht : h.tag <;>
        simp only [q, told, Part.callEnded, Part.reportTag, hp0, ht, ← Part.dropTrim_pattern p l]
    simp only [hover, true_and, hq, Part.dropTrim_loadedLength, Part.dropTrim_patternSegment] at hcompleted habandoned
    refine ⟨fun he hplays hlast => hends (hcompleted he hplays hlast), fun hnot => hends (habandoned ?_)⟩
    exact hnot.imp (Nat.not_le.mpr ·) id

/-! ## The expiry of the retransmit timer -/

theorem Entry.mark_eq : Entry.mark = fun e => match e.status with
    | .inFlight n _ => { e with status := EntryStatus.inFlight n true }
    | .pending => e := by
  funext e
  unfold Entry.mark
  cases e.status <;> rfl

theorem Entry.unmark_eq : Entry.unmark = fun e => match e.status with
    | .inFlight n _ => { e with status := EntryStatus.inFlight n false }
    | .pending => e := by
  funext e
  unfold Entry.unmark
  cases e.status <;> rfl

/-- Settles O53: below the limit the marks; at it the stall, with the one lane that link loss stops. -/
theorem expiryMarksOrStalls : Obligations.ExpiryMarksOrStalls := by
  intro s hphase p expires marked q htimer
  have hdue : p.notif.timerDue = true := by simp [NotificationUnit.timerDue, htimer]
  have hexpires {r : Part} (hr : p.expire = r) : expires r := does_of_due (f := Part.expire) rfl hphase hdue hr
  have hunmark : p.notif.queue.map Entry.unmark = marked false := congrArg (List.map · _) Entry.unmark_eq
  have hstalled : ({ p with notif := p.notif.stall } : Part) = q := by
    simp only [NotificationUnit.stall, hunmark, q]
  have hstall (h : p.link.stallLimit ≤ p.notif.expiries + 1) :
      p.expire = forLanes p.linkLossLanes (fun l q => q.softStop l .linkLoss) q := by
    simp only [Part.expire, if_neg (Nat.not_lt.mpr h), Part.stallChannel, hstalled]
  refine ⟨fun h => hexpires ?marks, fun h hnone => hexpires ?stalls, fun h l hone => ?stops⟩
  case marks =>
    have hmark : p.notif.queue.map Entry.mark = marked true := congrArg (List.map · _) Entry.mark_eq
    simp only [Part.expire, if_pos h, Part.countRetransmit, NotificationUnit.markAll, hmark, intervalClocks, countUp_eq]
  case stalls =>
    have hlanes : p.linkLossLanes = 0 := set_ext (fun l => by
      rw [Part.linkLossLanes, inSet_laneSetOf, hnone l]
      simp [inSet])
    rw [hstall h, hlanes]
    rfl
  case stops =>
    intro x stopped left told
    have hlanes : p.linkLossLanes = single l := set_ext (fun m => by
      rw [Part.linkLossLanes, inSet_laneSetOf, inSet_single]
      exact decide_eq_decide.mpr (hone m))
    have hstop {r : Part} (hr : q.softStop l .linkLoss = r) : expires r := hexpires (by
      rw [hstall h, hlanes]
      simp only [forLanes, lanesOf_single, List.foldl_cons, List.foldl_nil]
      exact hr)
    have hleft : q.leaveBarriers l = left := Part.leaveBarriers_map q l
    have hnow {r : Part} (hs : x.state = .armed ∨ x.state = .waiting ∨ (x.state = .starved ∧ x.starve = .safe))
        (hend : left.endCurrent l = r) : expires (told (r.setLane l stopped)) :=
      hstop ((Part.softStop_now (p := q) _ hs).trans ((Part.stopNow_eq _).trans (by rw [hleft, hend]; rfl)))
    refine ⟨fun d hs hd hp => hstop (Part.softStop_period (p := q) _ hs hd hp), fun hs => ?idle, fun hs hp hc => ?waiting,
      fun hs => hstop (Part.softStop_other (p := q) _ hs)⟩
    case idle => exact hnow (hs.imp id .inr) (Part.endCurrent_idle (p := left) (hs.imp id And.left))
    case waiting => exact hnow (.inr (.inl hs)) (Part.endCurrent_waiting (p := left) hs hp hc)

/-! ## A qualification to active -/

section FaultActs

variable {p : Part} {i : Fin 4} {g : FaultInput}

/-- The part with the sticky flag of input `i` set and the first-fault record made (R136): what CYCLE and LATCH have in
common. -/
def Part.flagged (p : Part) (i : Fin 4) (g : FaultInput) : Part :=
  { p.setFault i { g with sticky := true } with
    firstFault := if p.stickySet = 0 then some { input := i, stamp := p.timebase.count } else p.firstFault }

/-- The sticky set reads the sticky flags alone. -/
theorem Part.stickySet_setFault (h : g.sticky = (p.fault i).sticky) : (p.setFault i g).stickySet = p.stickySet := by
  unfold Part.stickySet
  congr 1
  funext j
  by_cases hj : j = i
  · rw [hj, Part.setFault_fault_self, h]
  · rw [Part.setFault_fault_of_ne _ _ hj]

/-- The first two steps of a qualification to active (R136). -/
theorem Part.recordFirstFault_flagged (h : g.sticky = (p.fault i).sticky) :
    ((p.setFault i g).recordFirstFault i).setFault i
      { ((p.setFault i g).recordFirstFault i).fault i with sticky := true } = p.flagged i g := by
  have hrecord : (p.setFault i g).recordFirstFault i =
      { p.setFault i g with
        firstFault := if p.stickySet = 0 then some { input := i, stamp := p.timebase.count } else p.firstFault } := by
    unfold Part.recordFirstFault
    rw [Part.stickySet_setFault h]
    split <;> rfl
  rw [hrecord]
  have hfault : Part.fault { p.setFault i g with
      firstFault := if p.stickySet = 0 then some { input := i, stamp := p.timebase.count } else p.firstFault } i = g :=
    Part.setFault_fault_self p i g
  rw [hfault]
  exact congrArg (fun q : Part => { q with
    firstFault := if p.stickySet = 0 then some { input := i, stamp := p.timebase.count } else p.firstFault })
    (Part.setFault_setFault p i g _)

theorem Part.faultActs_off (hm : g.mode = .off) : (p.setFault i g).faultActs i = p.setFault i g := by
  simp only [Part.faultActs, Part.setFault_fault_self, hm]

theorem Part.faultActs_cycle (h : g.sticky = (p.fault i).sticky) (hm : g.mode = .cycle) :
    (p.setFault i g).faultActs i = forLanes ((p.flagged i g).effectiveMap i) (fun l r => r.suppressLane l)
      ((p.flagged i g).notify (.fault i .cycle ((p.flagged i g).effectiveMap i))) := by
  simp only [Part.faultActs, Part.recordFirstFault_flagged h]
  rw [Part.setFault_fault_self, hm]

theorem Part.faultActs_latch (h : g.sticky = (p.fault i).sticky) (hm : g.mode = .latch) :
    (p.setFault i g).faultActs i = forLanes ((p.flagged i g).effectiveMap i) (fun l r => r.latchLane i l)
      ((p.flagged i g).notify (.fault i .latch ((p.flagged i g).effectiveMap i))) := by
  simp only [Part.faultActs, Part.recordFirstFault_flagged h]
  rw [Part.setFault_fault_self, hm]

theorem Part.flagged_fault_lanes : ((p.flagged i g).fault i).lanes = g.lanes := by
  have hfault : (p.flagged i g).fault i = { g with sticky := true } := Part.setFault_fault_self p i _
  rw [hfault]

/-- With no lane in its effective map an input reports FAULT and does nothing more. -/
theorem Part.faultActs_no_lane (h : g.sticky = (p.fault i).sticky) (hm : g.mode ≠ .off)
    (hmap : (p.flagged i g).effectiveMap i = 0) :
    (p.setFault i g).faultActs i = (p.flagged i g).notify (.fault i g.mode 0) := by
  cases hmode : g.mode with
  | off => exact absurd hmode hm
  | cycle =>
    rw [Part.faultActs_cycle h hmode, hmap]
    rfl
  | latch =>
    rw [Part.faultActs_latch h hmode, hmap]
    rfl

/-- A halt as one change of the lane (R83). -/
theorem Part.halt_eq (p : Part) (l : Fin 6) (i : Fin 4) : p.halt l i = ((p.leaveBarriers l).endCurrent l).setLane l
    { (p.lane l).toStopped with state := .halted, haltSources := single i } := by
  simp only [Part.halt, Part.updLane, Part.endCurrent_lane, Part.leaveBarriers_lane]

/-- LATCH halts a lane that plays (R139). -/
theorem Part.latchLane_playing {l : Fin 6} (h : (p.lane l).state.isPlaying = true) : p.latchLane i l = p.halt l i := by
  cases hs : (p.lane l).state <;> simp only [Part.latchLane, hs]
  all_goals exact absurd (hs ▸ h) (by decide)

end FaultActs

/-- Settles O44, by the mode of the input and, for LATCH, by what the lane does. -/
theorem faultsActOnTheirLanes : Obligations.FaultsActOnTheirLanes := by
  intro s i hphase hdue p f g flag q acts maps
  have hq : p.flagged i g = q := rfl
  have hdue' : f.due = true := hdue
  have hacts {r : Part} (hlevel : f.sample = f.activeLevel) (hr : (p.setFault i g).faultActs i = r) : acts r := by
    have hactive : f.activeDue = true := by simp [FaultInput.activeDue, hdue', hlevel]
    exact does_of_due (f := fun q => q.qualifyActive i) rfl hphase hactive hr
  have hmaps : ∀ m, (inSet (q.fault i).lanes m = true ∧ (q.lane m).state ≠ .merged) ↔ maps m := fun m => by
    rw [← hq, Part.flagged_fault_lanes]
    exact Iff.rfl
  refine ⟨fun hlevel => ?inactive, fun hlevel hm => hacts hlevel (Part.faultActs_off (g := g) hm), fun hlevel hm hnone => ?none,
    fun l hlevel hone => ⟨fun hm => ?cycle, fun hm => ?latch⟩⟩
  case inactive =>
    have hinactive : f.inactiveDue = true := by simp [FaultInput.inactiveDue, hdue', hlevel]
    exact does_of_due (f := fun q => q.qualifyFault i) rfl hphase hinactive rfl
  case none =>
    have hmap : q.effectiveMap i = 0 := Part.effectiveMap_eq_zero q (fun m hm => hnone m ((hmaps m).mp hm))
    exact hacts hlevel (Part.faultActs_no_lane (g := g) rfl hm hmap)
  case cycle =>
    have hmap : q.effectiveMap i = single l := Part.effectiveMap_eq_single q (fun m => (hmaps m).trans (hone m))
    refine hacts hlevel ((Part.faultActs_cycle (g := g) rfl hm).trans ?_)
    rw [hq, hmap]
    simp only [forLanes, lanesOf_single, List.foldl_cons, List.foldl_nil]
    rfl
  case latch =>
    intro told left halts
    have hmap : q.effectiveMap i = single l := Part.effectiveMap_eq_single q (fun m => (hmaps m).trans (hone m))
    have hlatch {r : Part} (hr : told.latchLane i l = r) : acts r := hacts hlevel (by
      rw [Part.faultActs_latch (g := g) rfl hm, hq, hmap]
      simp only [forLanes, lanesOf_single, List.foldl_cons, List.foldl_nil]
      exact hr)
    have hleft : told.leaveBarriers l = left := Part.leaveBarriers_map told l
    have hhalts {r : Part} (hplays : (p.lane l).state.isPlaying = true) (hend : left.endCurrent l = r) : halts r :=
      hlatch ((Part.latchLane_playing (p := told) hplays).trans ((Part.halt_eq told l i).trans (by
        rw [hleft, hend]; rfl)))
    refine ⟨fun hs => ?idle, fun hs hp hc => ?waiting, fun d hs hd => ?playing, fun hs => ?halted, fun hs => ?quiet⟩
    case idle =>
      exact hhalts (by obtain hs | hs := hs <;> rw [hs] <;> rfl) (Part.endCurrent_idle (p := left) hs)
    case waiting => exact hhalts (by rw [hs]; rfl) (Part.endCurrent_waiting (p := left) hs hp hc)
    case playing =>
      have hplays : (p.lane l).state.isPlaying = true := by obtain hs | hs := hs <;> rw [hs] <;> rfl
      refine ⟨fun hh => hhalts hplays (Part.endCurrent_held (p := left) hs hd hh),
        fun hh hc => hhalts hplays (Part.endCurrent_queue (p := left) hs hd hh hc), fun c h hh hc hg => ?call⟩
      intro ended last spoken r
      have hr : left.callEnded l c h (if ended then .completed else .abandoned) = r := by
        simp only [r, spoken, Part.callEnded, Part.reportTag]
        cases h.tag <;> rfl
      obtain ⟨hcompleted, habandoned⟩ := Part.endCurrent_call_cases (p := left) hs hd hh hc hg
      rw [hr] at hcompleted habandoned
      exact ⟨fun he hplays' hlast => hhalts hplays (hcompleted he hplays' hlast),
        fun hnot => hhalts hplays (habandoned hnot)⟩
    case halted =>
      have hs' : (told.lane l).state = .halted := hs
      exact hlatch (by simp only [Part.latchLane, hs']; rfl)
    case quiet =>
      obtain hs | hs := hs
      · have hs' : (told.lane l).state = .stopped := hs
        exact hlatch (by simp only [Part.latchLane, hs'])
      · have hs' : (told.lane l).state = .unbound := hs
        exact hlatch (by simp only [Part.latchLane, hs'])

end Sys2Proof.Machine
end

section
/-! # SET_FAULT, CLEAR_FAULT and the releases of a barrier (R125, R128 to R131, R145 to R149) -/

namespace Sys2Proof.Machine

/-! ## SET_FAULT -/

/-- SET_FAULT with valid values (R148, R149). -/
theorem doSetFault_valid {i : Fin 4} {level : Level} {filter : Byte} {mode : FaultMode} {lanes : LaneSet} {p : Part}
    (hmin : 1 ≤ filter.toNat) (hmax : filter.toNat ≤ 15) :
    doSetFault (byteOf i.val) (levelByte level) filter mode.byte (setByte lanes) p =
      configureFault i level filter.toNat mode lanes p := by
  have hfilter : ¬(decide (filter.toNat < 1) || decide (15 < filter.toNat)) = true := by
    simp
    omega
  simp only [doSetFault, finOfByte_four, levelOfByte_levelByte, FaultMode.ofByte_byte, setOfByte_lanes,
    if_neg hfilter]

section ConfigureFault

variable {p : Part} {i : Fin 4} {level : Level} {filter : Nat} {mode : FaultMode} {lanes : LaneSet}

theorem configureFault_sticky (h : (p.fault i).sticky = true) :
    configureFault i level filter mode lanes p = p.refuse .wrongState 0 := if_pos h

/-- An input that is not live ACTIVE in CYCLE or LATCH mode after SET_FAULT does not act. -/
theorem configureFault_quiet (h : (p.fault i).sticky = false) (hq : (p.fault i).qualified ≠ level ∨ mode = .off) :
    configureFault i level filter mode lanes p =
      (p.setFault i ((p.fault i).configure level filter mode lanes)).done := by
  have hlive : ¬(((p.setFault i ((p.fault i).configure level filter mode lanes)).fault i).live &&
      decide (mode ≠ .off)) = true := by
    rw [Part.setFault_fault_self, Bool.and_eq_true, decide_eq_true_eq]
    rintro ⟨hlive, hmode⟩
    obtain hq | hq := hq
    · exact hq (of_decide_eq_true hlive)
    · exact hmode hq
  simp only [configureFault, h, Bool.false_eq_true, if_false, if_neg hlive]

/-- One that is acts at once (R149). -/
theorem configureFault_acts (h : (p.fault i).sticky = false) (hq : (p.fault i).qualified = level) (hm : mode ≠ .off) :
    configureFault i level filter mode lanes p =
      ((p.setFault i ((p.fault i).configure level filter mode lanes)).faultActs i).done := by
  have hlive : (((p.setFault i ((p.fault i).configure level filter mode lanes)).fault i).live &&
      decide (mode ≠ .off)) = true := by
    rw [Part.setFault_fault_self, Bool.and_eq_true, decide_eq_true_eq]
    exact ⟨decide_eq_true hq, hm⟩
  simp only [configureFault, h, Bool.false_eq_true, if_false, if_pos hlive]

end ConfigureFault

/-- Settles O34, by the sticky flag and by whether the input is live ACTIVE. -/
theorem setFaultReplacesItsSettings : Obligations.SetFaultReplacesItsSettings := by
  intro s seq i level filter mode lanes hready p f c f' flag q hmin hmax
  have hrun : runRequest .setFault [byteOf i.val, levelByte level, filter, mode.byte, setByte lanes] p =
      configureFault i level filter.toNat mode lanes p := doSetFault_valid hmin hmax
  have htakes {r : Part} (hlink : r.link = p.link)
      (h : configureFault i level filter.toNat mode lanes p = r.done) : Takes c s r (okWith []) :=
    takes_of_ready hready rfl (hrun.trans h) (congrArg Link.buffer hlink) nofun
  refine ⟨fun hs => ?sticky, fun hs hq => htakes rfl (configureFault_quiet hs hq), fun hs hq hm hmap => ?acts⟩
  case sticky => exact refuses_of_ready hready rfl (hrun.trans (configureFault_sticky hs)) nofun
  case acts =>
    have hflag : p.flagged i f' = q := rfl
    have hempty : (p.flagged i f').effectiveMap i = 0 := by
      unfold Part.effectiveMap
      rw [Part.flagged_fault_lanes]
      exact hmap
    refine htakes rfl ((configureFault_acts hs hq hm).trans (congrArg Part.done ?_))
    exact (Part.faultActs_no_lane (p := p) (g := f') rfl hm hempty).trans (by rw [hflag])

/-! ## CLEAR_FAULT -/

section ClearFaults

/-- The part `r` differs from `p` in faults, lanes and first-fault record alone. -/
def Part.ClearedFrom (p r : Part) : Prop := r = { p with faults := r.faults, lanes := r.lanes, firstFault := r.firstFault }

/-- The first part of a clear: the named sticky flags (R146). -/
def Part.clearSticky (p : Part) (named : InputSet) : Part :=
  allFour.foldl (fun r i => if inSet named i then r.setFault i { r.fault i with sticky := false } else r) p

/-- The second part of a clear: the halt sources of every lane (R146). -/
def Part.clearHalts (p : Part) (named : InputSet) : Part :=
  allLanes.foldl (fun r l => r.updLane l (fun x => x.clearSources named)) p

/-- The third part of a clear: the first-fault record goes with the last sticky flag (R146). -/
theorem Part.clearFaults_eq (p : Part) (named : InputSet) : p.clearFaults named =
    if ((p.clearSticky named).clearHalts named).stickySet = 0 then
      { (p.clearSticky named).clearHalts named with firstFault := none }
    else (p.clearSticky named).clearHalts named := rfl

variable (p : Part) (named : InputSet)

/-- The first two parts of a clear leave the first-fault record and every other block alone. -/
theorem Part.clearHalts_clearedFrom : p.ClearedFrom ((p.clearSticky named).clearHalts named) ∧
    ((p.clearSticky named).clearHalts named).firstFault = p.firstFault := by
  have hsticky : p.ClearedFrom (p.clearSticky named) ∧ (p.clearSticky named).firstFault = p.firstFault := by
    refine Part.LaneLaws.foldl_keeps (fun r => p.ClearedFrom r ∧ r.firstFault = p.firstFault) _ _ (fun i _ r hr => ?_) p
      ⟨rfl, rfl⟩
    split
    · obtain ⟨hframe, hfirst⟩ := hr
      exact ⟨by rw [hframe]; rfl, hfirst⟩
    · exact hr
  refine Part.LaneLaws.foldl_keeps (fun r => p.ClearedFrom r ∧ r.firstFault = p.firstFault) _ _ (fun l _ r hr => ?_) _
    hsticky
  obtain ⟨hframe, hfirst⟩ := hr
  exact ⟨by rw [hframe]; rfl, hfirst⟩

theorem Part.clearSticky_fault (j : Fin 4) :
    (p.clearSticky named).fault j = { p.fault j with sticky := (p.fault j).sticky && !inSet named j } := by
  have hstep : ∀ (r : Part) (i : Fin 4),
      (if inSet named i = true then r.setFault i { r.fault i with sticky := false } else r).fault j =
        if j = i then { r.fault j with sticky := (r.fault j).sticky && !inSet named j } else r.fault j := by
    intro r i
    by_cases hj : j = i
    · subst hj
      cases hn : inSet named j <;> simp
    · rw [if_neg hj]
      split
      · exact Part.setFault_fault_of_ne _ _ hj
      · rfl
  have hcases : ∀ k : Fin 4, k = 0 ∨ k = 1 ∨ k = 2 ∨ k = 3 := by decide
  simp only [Part.clearSticky, allFour, List.foldl_cons, List.foldl_nil, hstep]
  obtain rfl | rfl | rfl | rfl := hcases j <;> simp

theorem Part.clearSticky_lane (l : Fin 6) : (p.clearSticky named).lane l = p.lane l := by
  refine Part.LaneLaws.foldl_keeps (fun r => r.lane l = p.lane l) _ _ (fun i _ r hr => ?_) p rfl
  split
  · exact hr
  · exact hr

theorem Part.clearHalts_fault (i : Fin 4) : (p.clearHalts named).fault i = p.fault i := by
  refine Part.LaneLaws.foldl_keeps (fun r => r.fault i = p.fault i) _ _ (fun l _ r hr => ?_) p rfl
  exact hr

theorem Part.clearHalts_lane (l : Fin 6) : (p.clearHalts named).lane l = (p.lane l).clearSources named := by
  have hfold := (Part.LaneLaws.fold_fresh (fun x => x.clearSources named) allLanes p).1 l
  rwa [if_pos ⟨mem_allLanes l, by decide⟩] at hfold

theorem Part.clearFaults_fault (i : Fin 4) : (p.clearFaults named).fault i =
    { p.fault i with sticky := (p.fault i).sticky && !inSet named i } := by
  have hfault := (Part.clearHalts_fault (p.clearSticky named) named i).trans (Part.clearSticky_fault p named i)
  rw [Part.clearFaults_eq]
  split
  · exact hfault
  · exact hfault

theorem Part.clearFaults_lane (l : Fin 6) : (p.clearFaults named).lane l = (p.lane l).clearSources named := by
  have hlane := (Part.clearHalts_lane (p.clearSticky named) named l).trans
    (congrArg (Lane.clearSources · named) (Part.clearSticky_lane p named l))
  rw [Part.clearFaults_eq]
  split
  · exact hlane
  · exact hlane

/-- A clear changes nothing but faults, lanes and the first-fault record, which goes with the last sticky flag. -/
theorem Part.clearFaults_clearedFrom : p.ClearedFrom (p.clearFaults named) ∧
    (p.clearFaults named).firstFault = if (p.clearFaults named).stickySet = 0 then none else p.firstFault := by
  obtain ⟨hframe, hfirst⟩ := Part.clearHalts_clearedFrom p named
  rw [Part.clearFaults_eq]
  split
  case isTrue h =>
    refine ⟨?_, (if_pos h).symm⟩
    rw [hframe]
    rfl
  case isFalse => exact ⟨hframe, hfirst⟩

end ClearFaults

/-- Settles O35: the lowest input still active, or the clear in its three parts. -/
theorem clearFaultFreesTheLanes : Obligations.ClearFaultFreesTheLanes := by
  intro s seq named hready hne p active
  have hsome : someInputs (setByte named) = some named := by simp only [someInputs, setOfByte_inputs, if_neg hne]
  have hactive : ∀ i, (inSet named i && (p.fault i).stillActive) = true ↔ active i := fun i => by
    simp only [active, FaultInput.stillActive, Bool.and_eq_true, decide_eq_true_eq]
  have hnot : ∀ i, ¬active i → (inSet named i && (p.fault i).stillActive) = false := fun i h =>
    eq_false_of_ne_true (fun ht => h ((hactive i).mp ht))
  refine ⟨fun i hi hlow => ?refused, fun hnone => ?cleared⟩
  case refused =>
    have hfind := find?_allFour ((hactive i).mpr hi) (fun m hm => hnot m (hlow m hm))
    have hrun : runRequest .clearFault [setByte named] p = p.refuse .stillActive (byteOf i.val) := by
      simp only [runRequest, withOne, doClearFault, hsome, hfind]
    exact refuses_of_ready hready rfl hrun nofun
  case cleared =>
    have hfind : allFour.find? (fun i => inSet named i && (p.fault i).stillActive) = none :=
      List.find?_eq_none.mpr (fun i _ => Bool.eq_false_iff.mp (hnot i (hnone i)))
    have hrun : runRequest .clearFault [setByte named] p =
        (p.clearFaults named, okWith [setByte (p.clearFaults named).stickySet, setByte (p.freedBy named)]) := by
      simp only [runRequest, withOne, doClearFault, hsome, hfind]
      rfl
    obtain ⟨hframe, hfirst⟩ := Part.clearFaults_clearedFrom p named
    have hlink : (p.clearFaults named).link = p.link := by rw [hframe]
    refine ⟨p.clearFaults named, takes_of_ready hready rfl hrun (congrArg Link.buffer hlink) nofun, hframe,
      Part.clearFaults_fault p named, fun l => ?_, hfirst⟩
    rw [Part.clearFaults_lane]
    simp only [Lane.clearSources, Bool.and_eq_true, decide_eq_true_eq]

/-! ## Releases of a barrier at which one lane waits -/

/-- The release of the one lane that waits: it retires its BARRIER and starts its next timed segment (R125). -/
theorem Part.releaseBarrier_single {p : Part} {b : Fin 4} {l : Fin 6} {g : Segment} (cause : ReleaseCause)
    (ha : (p.barrier b).arrived = single l) :
    let q := (((p.notify (.barrierReleased b cause (single l))).setBarrier b
      { p.barrier b with arrived := 0, counter := none }).setLane l
        { p.lane l with state := .running }).retireHead l .completed
    q.queueHead l = some g → g.isTimed = true → p.releaseBarrier b cause = q.startTimed l g.body := by
  intro q hq ht
  unfold Part.releaseBarrier Part.perform Config.joinFuel
  rw [ha]
  exact (runTasks_release_single _ b cause l [] p ha hq ht).trans (runTasks_nil _ _)

/-- Settles O33, by the arrived set. -/
theorem releaseBarrierLetsTheLaneGo : Obligations.ReleaseBarrierLetsTheLaneGo := by
  intro s seq b hready p tick
  refine ⟨fun ha => ?empty, fun l g ha => ?single⟩
  case empty =>
    have hrun : runRequest .releaseBarrier [byteOf b.val] p = (p, okWith (tick ++ [0])) := by
      simp only [runRequest, withOne, doReleaseBarrier, finOfByte_four, ha, if_true]
      rfl
    exact takes_of_ready hready rfl hrun rfl nofun
  case single =>
    intro q hq ht
    have hrun : runRequest .releaseBarrier [byteOf b.val] p =
        (q.startTimed l g.body, okWith (tick ++ [setByte (single l)])) := by
      simp only [runRequest, withOne, doReleaseBarrier, finOfByte_four, ha, if_neg (single_ne_zero l),
        Part.releaseBarrier_single .request ha hq ht]
      rfl
    have hlink : (q.startTimed l g.body).link = p.link := by
      rw [Part.startTimed_link, Part.retireHead_link]
      rfl
    exact takes_of_ready hready rfl hrun (congrArg Link.buffer hlink) nofun

/-- Settles O45, by the timeout action. -/
theorem barrierTimeoutActs : Obligations.BarrierTimeoutActs := by
  intro s b l f g hphase p x hcounter htimeout helapsed ha
  have hdue : x.timeoutDue p.now = true := by
    have hle : Config.timeoutUnit * x.timeout ≤ (p.now - f).toNat := helapsed
    simp only [Barrier.timeoutDue, Barrier.elapsed, hcounter, htimeout, hle, decide_true, Option.isSome_some,
      Bool.and_self]
  have htimes {q : Part} (hq : p.timeOutBarrier b = q) : Does (.barrierTimeout b) s q :=
    does_of_due (f := fun q => q.timeOutBarrier b) rfl hphase hdue hq
  refine ⟨fun haction => ?release, fun haction hs hc hp => ?stop⟩
  case release =>
    intro q hq ht
    refine htimes (Eq.trans ?_ (Part.releaseBarrier_single (p := p) .timeout ha hq ht))
    simp only [Part.timeOutBarrier, show (p.barrier b).action = _ from haction]
  case stop =>
    intro told left q
    have hleft : told.leaveBarriers l = left := Part.leaveBarriers_map told l
    have hend : left.endCurrent l = left.retireHead l .abandoned := Part.endCurrent_waiting (p := left) hs hp hc
    have hstop : told.hardStop l = q := by
      refine (Part.hardStop_playing (p := told) ?_).trans (by rw [hleft, hend]; rfl)
      show (p.lane l).state.isPlaying = true
      rw [hs]
      rfl
    refine htimes ?_
    simp only [Part.timeOutBarrier, show (p.barrier b).action = _ from haction, Part.stopBarrier,
      show (p.barrier b).arrived = _ from ha, forLanes, lanesOf_single, List.foldl_cons, List.foldl_nil]
    show (told.hardStop l).reportStopped l .barrierTimeout = _
    rw [hstop]
    rfl

end Sys2Proof.Machine
end

section
/-! # The tasks of a join (R29 to R32, R107 to R110, R123 to R127)

What the look at the head of a queue and at the position of a CALL do, kind by kind, as runs of tasks with enough fuel;
and that tasks leave the link alone. -/

namespace Sys2Proof.Machine

/-! ## Tasks leave the link alone -/

section TaskLink

variable (p : Part) (l : Fin 6)

@[simp] theorem Part.beginHeld_link : (p.beginHeld l).link = p.link := by
  unfold Part.beginHeld
  split
  · rfl
  · rw [Part.beginPeriod_link, Part.updLane_link]
  · rw [Part.beginPeriod_link, Part.updLane_link]

theorem Part.enterStarved_link : (p.enterStarved l).link = p.link := by
  unfold Part.enterStarved
  simp only [Part.notify_link]
  split
  · rw [Part.beginHeld_link, Part.updLane_link]
  · rfl

theorem Part.processHead_link : (p.processHead l).1.link = p.link := by
  unfold Part.processHead
  split
  case h_1 => exact Part.enterStarved_link p l
  case h_2 g _ =>
    cases g.body with
    | pulse => exact Part.startTimed_link ..
    | level => exact Part.startTimed_link ..
    | barrier b =>
      simp only
      split
      · rfl
      · exact Part.retireHead_link ..
    | call k plays =>
      simp only
      split
      · rfl
      · exact Part.retireHead_link ..
    | mark => exact Part.retireHead_link ..

theorem Part.processPattern_link : (p.processPattern l).1.link = p.link := by
  unfold Part.processPattern
  split
  case h_1 => rfl
  case h_2 c _ =>
    split
    case isTrue =>
      cases p.patternSegment c.pattern c.index with
      | none => rfl
      | some g =>
        obtain ⟨tag, body⟩ := g
        cases body with
        | pulse => exact Part.startTimed_link ..
        | level => exact Part.startTimed_link ..
        | mark => exact Part.reportTag_link ..
        | barrier b => rfl
        | call k plays => rfl
    case isFalse =>
      split
      · rfl
      · exact Part.retireHead_link ..

theorem Task.run_link (t : Task) : (t.run p).1.link = p.link := by
  cases t with
  | begin l => rfl
  | head l => exact Part.processHead_link p l
  | pattern l => exact Part.processPattern_link p l
  | release b cause lanes =>
    refine Part.LaneLaws.foldl_keeps (fun q => q.link = p.link) _ _ (fun _ _ _ hq => ?_) _ ?_
    · exact hq
    · rfl
  | released l => exact Part.retireHead_link ..

/-- Tasks leave the link alone. -/
theorem runTasks_link (n : Nat) (ts : List Task) (p : Part) : (runTasks n ts p).link = p.link := by
  induction n generalizing ts p with
  | zero => rfl
  | succ n ih =>
    cases ts with
    | nil => rfl
    | cons t rest => rw [runTasks_cons, ih, Task.run_link]

end TaskLink

/-! ## Queues and patterns under the operations -/

section Reads

variable {p : Part} {l : Fin 6}

@[simp] theorem Part.retireHead_pattern (p : Part) (l : Fin 6) (o : Retirement) (k : Fin 8) :
    (p.retireHead l o).pattern k = p.pattern k := by
  rw [Part.retireHead_eq]
  rfl

/-- A pattern segment that stands lies below the loaded length. -/
theorem Part.lt_loadedLength {k : Fin 8} {i : Nat} {g : Segment} (h : p.patternSegment k i = some g) :
    i < p.loadedLength k := by
  unfold Part.patternSegment at h
  unfold Part.loadedLength
  cases hr : p.patternRegion k with
  | none => simp [hr] at h
  | some r =>
    simp only [hr] at h ⊢
    exact (Option.ite_none_right_eq_some.mp h).1

/-- A lane with a queue element 0 has a queue that is not empty. -/
theorem Part.queueCount_pos {g : Segment} (h : p.queueHead l = some g) : 0 < p.queueCount l := by
  unfold Part.queueHead at h
  unfold Part.queueCount
  cases hr : p.laneRegion l with
  | none => simp [hr] at h
  | some r =>
    simp only [hr] at h ⊢
    exact Nat.pos_of_ne_zero (fun hc => by simp [hc] at h)

end Reads

/-! ## The head of the queue by its kind -/

section Head

variable {q : Part} {l : Fin 6} {g h : Segment}

theorem runTasks_head_timed (n : Nat) (hq : q.queueHead l = some g) (ht : g.isTimed = true) :
    runTasks (n + 1) [.head l] q = q.startTimed l g.body := by
  rw [runTasks_cons]
  simp only [Task.run, Part.processHead_timed hq ht, List.append_nil, runTasks_nil]

theorem runTasks_head_empty (n : Nat) (hq : q.queueHead l = none) :
    runTasks (n + 1) [.head l] q = q.enterStarved l := by
  rw [runTasks_cons]
  simp only [Task.run, Part.processHead, hq, List.append_nil, runTasks_nil]

/-- A segment that is passed at once: the next one, timed, starts at the same tick (R30). -/
theorem runTasks_head_passed (n : Nat) {r : Part} (hpass : q.processHead l = (r, [.head l]))
    (hr : r.queueHead l = some h) (ht : h.isTimed = true) :
    runTasks (n + 2) [.head l] q = r.startTimed l h.body := by
  rw [runTasks_cons]
  simp only [Task.run, hpass, List.append_nil]
  exact runTasks_head_timed n hr ht

/-- A MARK (R31). -/
theorem Part.processHead_mark {t : Byte} (hq : q.queueHead l = some g) (htag : g.tag = some t) (hb : g.body = .mark) :
    q.processHead l = ((q.notify (.markReached l t none)).retireHead l .completed, [.head l]) := by
  simp only [Part.processHead, hq, hb, htag, Option.getD_some]

/-- A BARRIER that the lane is no member of (R124). -/
theorem Part.processHead_pass {b : Fin 4} (hq : q.queueHead l = some g) (hb : g.body = .barrier b)
    (hm : inSet (q.barrier b).members l = false) :
    q.processHead l = ((q.notify (.barrierPass l b)).retireHead l .completed, [.head l]) := by
  simp only [Part.processHead, hq, hb, hm, Bool.false_eq_true, if_false]

/-- A CALL to a pattern that is not READY (R110). -/
theorem Part.processHead_missed {k : Fin 8} {plays : Nat} (hq : q.queueHead l = some g) (hb : g.body = .call k plays)
    (hk : (q.pattern k).state ≠ .ready) :
    q.processHead l = ((q.notify (.patternMissing l k)).retireHead l .missed, [.head l]) := by
  simp only [Part.processHead, hq, hb, if_neg hk]

/-- A BARRIER at which the lane's arrival does not complete the set in mode ALL (R123). -/
theorem runTasks_head_waits (n : Nat) {b : Fin 4} (hq : q.queueHead l = some g) (hb : g.body = .barrier b)
    (hm : inSet (q.barrier b).members l = true)
    (hw : (q.barrier b).mode ≠ .all ∨ (q.barrier b).arrived ||| single l ≠ (q.barrier b).members) :
    runTasks (n + 1) [.head l] q = (q.setLane l { (q.lane l).idle with state := .waiting }).setBarrier b
      { q.barrier b with
        arrived := (q.barrier b).arrived ||| single l
        counter := if (q.barrier b).arrived ≠ 0 then (q.barrier b).counter
                   else if (q.barrier b).timeout = 0 then none else some q.timebase.count } := by
  have hnot : ¬(decide ((q.barrier b).mode = .all) &&
      decide (withMember (q.barrier b).arrived l = (q.barrier b).members)) = true := by
    rw [Bool.and_eq_true, decide_eq_true_eq, decide_eq_true_eq]
    rintro ⟨hall, hset⟩
    exact hw.elim (fun h => h hall) (fun h => h hset)
  rw [runTasks_cons]
  simp only [Task.run, Part.processHead, hq, hb, hm, if_true, Part.arrive, if_neg hnot, List.append_nil, runTasks_nil,
    ite_not]
  rfl

/-- The pattern segment at the call position, timed (R32). -/
theorem Part.processPattern_timed {c : CallPosition} (hc : (q.lane l).call = some c)
    (hg : q.patternSegment c.pattern c.index = some g) (ht : g.isTimed = true) :
    q.processPattern l = (q.startTimed l g.body, []) := by
  obtain ⟨tag, body⟩ := g
  cases body <;> simp [Segment.isTimed] at ht <;>
    simp only [Part.processPattern, hc, if_pos (Part.lt_loadedLength hg), hg]

theorem runTasks_pattern_timed (n : Nat) {c : CallPosition} (hc : (q.lane l).call = some c)
    (hg : q.patternSegment c.pattern c.index = some g) (ht : g.isTimed = true) :
    runTasks (n + 1) [.pattern l] q = q.startTimed l g.body := by
  rw [runTasks_cons]
  simp only [Task.run, Part.processPattern_timed hc hg ht, List.append_nil, runTasks_nil]

/-- A CALL to a READY pattern whose first segment is timed (R107). -/
theorem runTasks_head_call (n : Nat) {k : Fin 8} {plays : Nat} (hq : q.queueHead l = some g)
    (hb : g.body = .call k plays) (hk : (q.pattern k).state = .ready) (hg : q.patternSegment k 0 = some h)
    (ht : h.isTimed = true) : runTasks (n + 2) [.head l] q =
      ((q.setPattern k { q.pattern k with useCount := (q.pattern k).useCount + 1 }).setLane l
        { q.lane l with call := some { pattern := k, plays := plays, index := 0, remaining := 0 } }).startTimed l
          h.body := by
  rw [runTasks_cons]
  simp only [Task.run, Part.processHead, hq, hb, if_pos hk, List.append_nil]
  exact runTasks_pattern_timed n (congrArg Lane.call (Part.updLane_lane_self _ _ _)) hg ht

end Head

end Sys2Proof.Machine
end

section
/-! # APPEND and START (R50, R51, R58 to R60, R69, R70) -/

namespace Sys2Proof.Machine

/-! ## APPEND -/

section Append

variable {p : Part} {l : Fin 6} {raws : List RawSegment} {segs : List Segment}

theorem doAppend_bad_lane {lane : Byte} (h : 6 ≤ lane.toNat) : doAppend lane raws p = p.refuse .badValue 255 := by
  simp only [doAppend, finOfByte_none h]

theorem doAppend_bad_segment {i : Nat} (h : decodeSegments (p.admitsInQueue l) 0 raws = .error i) :
    doAppend (byteOf l.val) raws p = p.refuse .badValue (byteOf i) := by
  simp only [doAppend, finOfByte_lane, h]

theorem doAppend_unbound (h : decodeSegments (p.admitsInQueue l) 0 raws = .ok segs)
    (hs : (p.lane l).state = .unbound) : doAppend (byteOf l.val) raws p = p.refuse .notBound (byteOf l.val) := by
  simp only [doAppend, finOfByte_lane, h, if_pos hs]

theorem doAppend_merged (h : decodeSegments (p.admitsInQueue l) 0 raws = .ok segs)
    (hs : (p.lane l).state = .merged) : doAppend (byteOf l.val) raws p = p.refuse .unavailable (byteOf l.val) := by
  have hu : (p.lane l).state ≠ .unbound := by simp [hs]
  simp only [doAppend, finOfByte_lane, h, if_neg hu, if_pos hs]

/-- A lane with a region takes the segments where they fit (R50, R51). -/
theorem doAppend_bound {r : Fin 16} (h : decodeSegments (p.admitsInQueue l) 0 raws = .ok segs)
    (hu : (p.lane l).state ≠ .unbound) (hm : (p.lane l).state ≠ .merged) (hr : p.laneRegion l = some r) :
    doAppend (byteOf l.val) raws p =
      if (p.region r).size < (p.region r).count + segs.length then
        p.refuse .noRoom (byteOf ((p.region r).size - (p.region r).count))
      else ((p.enqueue r segs).resumeStarved l, answerOk (natBytes16 ((p.region r).count + segs.length))) := by
  simp only [doAppend, finOfByte_lane, h, if_neg hu, if_neg hm, hr]

theorem Part.resumeStarved_other (h : (p.lane l).state ≠ .starved) : p.resumeStarved l = p := if_neg h

theorem Part.resumeStarved_safe (h : (p.lane l).state = .starved) (hs : (p.lane l).starve = .safe) :
    p.resumeStarved l = p.perform [.begin l] := by
  simp only [Part.resumeStarved, h, hs, if_true]

theorem Part.resumeStarved_hold (h : (p.lane l).state = .starved) (hs : (p.lane l).starve = .hold) :
    p.resumeStarved l =
      (if (p.lane l).heldDue then p.beginHeld l else p).updLane l (fun x => { x with state := .running }) := by
  simp only [Part.resumeStarved, h, hs, if_true]

theorem Part.resumeStarved_link (p : Part) (l : Fin 6) : (p.resumeStarved l).link = p.link := by
  by_cases h : (p.lane l).state = .starved
  · cases hs : (p.lane l).starve with
    | safe => rw [Part.resumeStarved_safe h hs, Part.perform, runTasks_link]
    | hold =>
      rw [Part.resumeStarved_hold h hs, Part.updLane_link]
      split
      · exact Part.beginHeld_link p l
      · rfl
  · rw [Part.resumeStarved_other h]

end Append

/-- Settles O18, by the checks of APPEND in order and then by what a STARVED lane does. -/
theorem appendJoinsTheTail : Obligations.AppendJoinsTheTail := by
  intro s seq l raws hready p x c
  refine ⟨fun lane hlen => ?length, fun hmin hmax => ?_⟩
  case length =>
    exact refuses_of_ready (k := .append) hready rfl (withSegments_badLength hlen lane doAppend p) nofun
  have hrun (lane : Byte) : runRequest .append (segmentsPayload lane raws) p = doAppend lane raws p :=
    withSegments_payload hmin hmax lane doAppend p
  have hrefuse {lane : Byte} {st : Status} {d : Byte} (h : doAppend lane raws p = p.refuse st d) :
      Refuses (.append seq lane raws) s st d := refuses_of_ready hready rfl ((hrun lane).trans h) nofun
  refine ⟨fun lane hl => hrefuse (doAppend_bad_lane hl), fun i hi => hrefuse (doAppend_bad_segment hi),
    fun segs hsegs => ⟨fun hs => hrefuse (doAppend_unbound hsegs hs), fun hs => hrefuse (doAppend_merged hsegs hs),
      fun r hu hm hr => ?_⟩⟩
  intro g q reply
  have hbound := doAppend_bound hsegs hu hm hr
  refine ⟨fun hroom => hrefuse (hbound.trans (if_pos hroom)), fun hroom => ?_⟩
  have htakes {t : Part} (ht : q.resumeStarved l = t) : Takes c s t reply := by
    subst ht
    exact takes_of_ready hready rfl ((hrun _).trans (hbound.trans (if_neg (Nat.not_lt.mpr hroom))))
      (congrArg Link.buffer (Part.resumeStarved_link q l)) nofun
  refine ⟨fun hs => htakes (Part.resumeStarved_other (p := q) hs), fun h hs hsafe hq ht => ?safe, fun d hs hhold hd =>
    ⟨fun hp => ?inHeld, fun hp => ?heldOver⟩⟩
  case safe => exact htakes ((Part.resumeStarved_safe (p := q) hs hsafe).trans (Part.perform_begin_timed (p := q) hq ht))
  case inHeld =>
    have hdue : x.heldDue = false := by
      simp [Lane.heldDue, Lane.periodOver, Period.over, hd, hp]
    refine htakes ((Part.resumeStarved_hold (p := q) hs hhold).trans ?_)
    rw [show (q.lane l).heldDue = false from hdue]
    rfl
  case heldOver =>
    have hdue : x.heldDue = true := by
      simp [Lane.heldDue, Lane.periodOver, Period.over, hs, hhold, hd, hp]
    refine htakes ((Part.resumeStarved_hold (p := q) hs hhold).trans ?_)
    rw [show (q.lane l).heldDue = true from hdue]
    rfl

/-! ## START -/

/-- The lowest lane of a set that fails gives the answer. -/
theorem findSome?_lanesOf {α : Type} {f : Fin 6 → Option α} {lanes : LaneSet} {l : Fin 6} {a : α}
    (hl : inSet lanes l = true) (ha : f l = some a) (hlow : ∀ m < l, inSet lanes m = true → f m = none) :
    (lanesOf lanes).findSome? f = some a := by
  obtain ⟨below, above, hsplit⟩ := List.append_of_mem ((mem_lanesOf lanes l).mpr hl)
  refine List.findSome?_eq_some_iff.mpr ⟨below, l, above, hsplit, ha, fun m hm => ?_⟩
  have hascending := lanesOf_ascending lanes
  rw [hsplit, List.pairwise_append] at hascending
  obtain ⟨-, -, hbelow⟩ := hascending
  have hmem : m ∈ lanesOf lanes := hsplit ▸ List.mem_append_left _ hm
  exact hlow m (hbelow m hm l List.mem_cons_self) ((mem_lanesOf lanes m).mp hmem)

section StartRefusal

variable {p : Part} {l : Fin 6}

theorem Part.startRefusal_unplayable {a : Answer} (h : p.unplayable l = some a) : p.startRefusal l = some a := by
  simp only [Part.startRefusal, h]

theorem Part.startRefusal_state (hu : (p.lane l).state ≠ .unbound) (hm : (p.lane l).state ≠ .merged)
    (hs : (p.lane l).state ≠ .stopped) : p.startRefusal l = some (answerRefuse .wrongState (byteOf l.val)) := by
  simp only [Part.startRefusal, Part.unplayable_none hu hm, if_pos hs]

/-- A STOPPED lane needs a queue and no sticky LATCH input that maps it (R58). -/
theorem Part.startRefusal_stopped (hs : (p.lane l).state = .stopped) : p.startRefusal l =
    if p.queueCount l = 0 then some (answerRefuse .queueEmpty (byteOf l.val))
    else if p.faultLatched l then some (answerRefuse .faultLatched (byteOf l.val)) else none := by
  have hu : (p.lane l).state ≠ .unbound := by simp [hs]
  have hm : (p.lane l).state ≠ .merged := by simp [hs]
  simp only [Part.startRefusal, Part.unplayable_none hu hm, if_neg (not_not_intro hs)]

/-- A sticky LATCH input that maps a STOPPED lane latches it, which is not MERGED. -/
theorem Part.faultLatched_stopped (hs : (p.lane l).state = .stopped) : p.faultLatched l = true ↔
    ∃ i, (p.fault i).mode = .latch ∧ (p.fault i).sticky = true ∧ inSet (p.fault i).lanes l = true :=
  (Part.faultLatched_iff p l).trans (and_iff_right (by simp [hs]))

/-- A lane passes START where it is STOPPED with a queue and nothing latches it (R58). -/
theorem Part.startRefusal_passes (hs : (p.lane l).state = .stopped) (hq : 0 < p.queueCount l)
    (hl : ¬∃ i, (p.fault i).mode = .latch ∧ (p.fault i).sticky = true ∧ inSet (p.fault i).lanes l = true) :
    p.startRefusal l = none := by
  have hlatched : ¬p.faultLatched l = true := fun h => hl ((Part.faultLatched_stopped hs).mp h)
  rw [Part.startRefusal_stopped hs, if_neg (Nat.ne_of_gt hq), if_neg hlatched]

end StartRefusal

section Start

variable {s : State} {seq : Byte} {lanes : LaneSet}

/-- START is refused with the answer of the lowest lane that fails (R58). -/
theorem start_refuses {l : Fin 6} {source : Byte} {st : Status} {d : Byte} (h : s.part.Ready seq) (hne : lanes ≠ 0)
    (hsource : source.toNat ≤ 4) (hl : inSet lanes l = true) (ha : s.part.startRefusal l = some (answerRefuse st d))
    (hlow : ∀ m < l, inSet lanes m = true → s.part.startRefusal m = none) :
    Refuses (.start seq (setByte lanes) source) s st d := by
  obtain ⟨src, hsrc⟩ := exists_of_eq_none_iff sourceOfByte_eq_none (Nat.not_lt.mpr hsource)
  have hrun : doStart (setByte lanes) source s.part = s.part.refuse st d := by
    simp only [doStart, someLanes_setByte hne, hsrc, findSome?_lanesOf hl ha hlow]
    rfl
  exact refuses_of_ready (k := .start) (payload := [setByte lanes, source]) h rfl hrun nofun

theorem Part.startLanes_link (p : Part) (lanes : LaneSet) (source : Option (Fin 4)) :
    (p.startLanes lanes source).link = p.link := by
  cases source with
  | none =>
    refine (runTasks_link _ _ _).trans (Part.LaneLaws.foldl_keeps (fun r => r.link = p.link) _ _ (fun _ _ _ hr => ?_) _ rfl)
    exact hr
  | some i =>
    refine Part.LaneLaws.foldl_keeps (fun r => r.link = p.link) _ _ (fun _ _ _ hr => ?_) _ rfl
    exact hr

/-- START is taken where every lane of the set passes (R59, R60). -/
theorem start_takes {source : Byte} {src : Option (Fin 4)} {q : Part} (h : s.part.Ready seq) (hne : lanes ≠ 0)
    (hsource : sourceOfByte source = some src)
    (hpass : ∀ l, inSet lanes l = true → s.part.startRefusal l = none) (hq : s.part.startLanes lanes src = q) :
    Takes (.start seq (setByte lanes) source) s q (okWith (bytes32 s.part.timebase.count)) := by
  have hnone : (lanesOf lanes).findSome? s.part.startRefusal = none :=
    List.findSome?_eq_none_iff.mpr (fun l hl => hpass l ((mem_lanesOf lanes l).mp hl))
  have hrun : doStart (setByte lanes) source s.part = (q, okWith (bytes32 s.part.timebase.count)) := by
    simp only [doStart, someLanes_setByte hne, hsource, hnone, hq]
    rfl
  exact takes_of_ready (k := .start) (payload := [setByte lanes, source]) h rfl hrun
    (congrArg Link.buffer (hq ▸ Part.startLanes_link s.part lanes src)) nofun

/-- START IMMEDIATE of one lane: it becomes RUNNING and looks at its queue (R31, R59). -/
theorem start_takes_single {l : Fin 6} {q : Part} (h : s.part.Ready seq) (hpass : s.part.startRefusal l = none)
    (hq : runTasks 65535 [.head l] (s.part.setLane l
      { s.part.lane l with record := none, trim := none, state := .running, armed := none }) = q) :
    Takes (.start seq (setByte (single l)) 0) s q (okWith (bytes32 s.part.timebase.count)) := by
  refine start_takes (src := none) h (single_ne_zero l) rfl (fun m hm => ?_) ?_
  · rw [inSet_single, decide_eq_true_eq] at hm
    rw [hm]
    exact hpass
  · simp only [Part.startLanes, forLanes, lanesOf_single, List.foldl_cons, List.foldl_nil, List.map_cons, List.map_nil,
      Part.perform]
    unfold Config.joinFuel
    rw [runTasks_cons]
    simp only [Task.run, Part.updLane, Part.setLane_lane_self, Part.setLane_setLane, List.append_nil]
    exact hq

end Start

/-- The lanes of a set armed on an input, and nothing else (R60). -/
theorem forLanes_arm (p : Part) (lanes : LaneSet) (i : Fin 4) :
    let q := forLanes lanes (fun l r => r.updLane l (fun x => x.arm i)) p
    q = { p with lanes := q.lanes } ∧
      ∀ l, q.lane l = if inSet lanes l = true then (p.lane l).arm i else p.lane l := by
  intro q
  refine ⟨?_, fun l => ?_⟩
  · refine Part.LaneLaws.foldl_keeps (fun r => r = { p with lanes := r.lanes }) _ _ (fun l _ r hr => ?_) p rfl
    rw [hr]
    rfl
  · obtain ⟨hin, hout⟩ := Part.LaneLaws.fold_fresh (fun x => x.arm i) (lanesOf lanes) p
    by_cases hl : inSet lanes l = true
    · rw [if_pos hl]
      have h := hin l
      rwa [if_pos ⟨(mem_lanesOf lanes l).mpr hl, lanesOf_nodup lanes⟩] at h
    · rw [if_neg hl]
      exact hout l (fun h => hl ((mem_lanesOf lanes l).mp h))

/-- Settles O20: the refusals by the lowest lane that fails, the arming, and the start of one lane. -/
theorem startBeginsOrArmsTheLanes : Obligations.StartBeginsOrArmsTheLanes := by
  intro s seq lanes hready hne p latched passes
  have hpasses : ∀ l, passes l → p.startRefusal l = none := fun l ⟨hs, hq, hl⟩ => Part.startRefusal_passes hs hq hl
  refine ⟨fun source l hsource hl hlow => ?refused, fun i hall => ?armed, fun l g hsingle hl hq ht => ?started⟩
  case refused =>
    intro x c
    have hrefuse {st : Status} {d : Byte} (ha : p.startRefusal l = some (answerRefuse st d)) : Refuses c s st d :=
      start_refuses hready hne hsource hl ha (fun m hm hin => hpasses m (hlow m hm hin))
    refine ⟨fun hs => hrefuse (Part.startRefusal_unplayable (Part.unplayable_unbound hs)),
      fun hs => hrefuse (Part.startRefusal_unplayable (Part.unplayable_merged hs)),
      fun hu hm hs => hrefuse (Part.startRefusal_state hu hm hs),
      fun hs hq => hrefuse ((Part.startRefusal_stopped hs).trans (if_pos hq)), fun hs hq hlat => hrefuse ?_⟩
    rw [Part.startRefusal_stopped hs, if_neg (Nat.ne_of_gt hq), if_pos ((Part.faultLatched_stopped hs).mpr hlat)]
  case armed =>
    obtain ⟨hframe, hlanes⟩ := forLanes_arm p lanes i
    exact ⟨_, start_takes (src := some i) hready hne (sourceOfByte_trigger i) (fun l hl => hpasses l (hall l hl)) rfl,
      hframe, hlanes⟩
  case started =>
    subst hsingle
    exact start_takes_single hready (hpasses l hl) (runTasks_head_timed 65534 hq ht)

/-! ## The head of the queue at a START -/

/-- A lane set before a notification and a change of a barrier, and set again after them. -/
theorem Part.setLane_around (p : Part) (l : Fin 6) (n : Notification) (b : Fin 4) (y z : Lane) (x : Barrier) :
    (((p.setLane l y).notify n).setBarrier b x).setLane l z = ((p.setLane l z).notify n).setBarrier b x := by
  simp only [Part.setLane, Part.notify, Part.setBarrier, Vector.set_set]
  rfl

/-- Changes of different lanes commute. -/
theorem Part.setLane_comm (p : Part) {l m : Fin 6} (h : l ≠ m) (x y : Lane) :
    (p.setLane l x).setLane m y = (p.setLane m y).setLane l x := by
  simp only [Part.setLane]
  rw [Vector.set_comm _ _ (fun e => h (Fin.ext e))]

theorem Part.updLane_comm (p : Part) {l m : Fin 6} (h : l ≠ m) (f g : Lane → Lane) :
    (p.updLane l f).updLane m g = (p.updLane m g).updLane l f := by
  unfold Part.updLane
  rw [Part.setLane_lane_of_ne p _ h.symm, Part.setLane_lane_of_ne p _ h, Part.setLane_comm p h]

/-- Two lanes released together, each with a timed segment next: they go on in ascending number (R125). -/
theorem runTasks_released_two (n : Nat) {first second : Fin 6} {p : Part} {h k : Segment} :
    let r := p.retireHead first .completed
    let t := (r.startTimed first h.body).retireHead second .completed
    r.queueHead first = some h → h.isTimed = true → t.queueHead second = some k → k.isTimed = true →
    runTasks (n + 4) [.released first, .released second] p = t.startTimed second k.body := by
  intro r t hr hh ht hk
  rw [runTasks_released (n + 2) first _ p hr hh, runTasks_released n second [] _ ht hk, runTasks_nil]

/-- Settles O21, by the kind of queue element 0. -/
theorem queueHeadIsProcessedByItsKind : Obligations.QueueHeadIsProcessedByItsKind := by
  intro s seq l g hready p x arrived q begins met hs hg hlatch
  have hqueue : q.queueHead l = some g := hg
  have hlane : q.lane l = x := Part.setLane_lane_self p l x
  have hpass : p.startRefusal l = none :=
    Part.startRefusal_passes hs (Part.queueCount_pos hg) (fun ⟨i, hm, hst, hin⟩ => by simp [hlatch i hm hst] at hin)
  have hbegins {r : Part} (hr : runTasks 65535 [.head l] q = r) : begins r := start_takes_single hready hpass hr
  have hpassed {r : Part} {h : Segment} (hp : q.processHead l = (r, [.head l])) (hr : r.queueHead l = some h)
      (ht : h.isTimed = true) : begins (r.startTimed l h.body) := hbegins (runTasks_head_passed 65533 hp hr ht)
  have hmet (b : Fin 4) (set : LaneSet) :
      (((q.setLane l { (q.lane l).idle with state := .waiting }).notify (.barrierReleased b .all set)).setBarrier b
        { q.barrier b with arrived := 0, counter := none }).updLane l (fun y => { y with state := .running }) =
      met b set := by
    rw [hlane]
    simp only [Part.updLane, q, Part.setLane_setLane, Part.setLane_around]
    simp only [Part.setBarrier_lane, Part.notify_lane, Part.setLane_lane_self]
    rfl
  refine ⟨fun t h htag hb => ?mark, fun b h hb hm => ?pass, fun b hb hm hw => hbegins ?waits,
    fun b h hb hm ha hset => ?one, fun b m first second h k hb hm ha hset hlt horder => ?two,
    fun k plays h hb hk hp ht => hbegins ?call, fun k plays h hb hk => ?missed⟩
  case mark =>
    intro r hr ht
    exact hpassed (Part.processHead_mark hqueue htag hb) hr ht
  case pass =>
    intro r hr ht
    exact hpassed (Part.processHead_pass hqueue hb hm) hr ht
  case missed =>
    intro r hr ht
    exact hpassed (Part.processHead_missed hqueue hb hk) hr ht
  case waits =>
    rw [runTasks_head_waits 65534 hqueue hb hm hw, hlane]
    simp only [q, Part.setLane_setLane]
    rfl
  case call =>
    rw [runTasks_head_call 65533 hqueue hb hk hp ht, hlane]
    rfl
  case one =>
    intro r hr ht
    refine hbegins ((runTasks_arrive_all 65533 hqueue hb hm ?_).trans ?_)
    · rw [show (q.barrier b).arrived = 0 from ha, show (q.barrier b).members = _ from hset]
      exact BitVec.zero_or
    · rw [show (q.barrier b).members = single l from hset, lanesOf_single, forLanes, lanesOf_single]
      exact (congrArg _ (hmet b (single l))).trans
        ((runTasks_released 65531 l [] (met b (single l)) hr ht).trans (runTasks_nil _ _))
  case two =>
    intro r t hr ht hk hkt
    have hne : l ≠ m := by
      obtain ⟨rfl, rfl⟩ | ⟨rfl, rfl⟩ := horder
      · exact Fin.ne_of_lt hlt
      · exact Fin.ne_of_gt hlt
    have hlanes : lanesOf (single m ||| single l) = [first, second] := by
      rw [← lanesOf_two hlt]
      obtain ⟨rfl, rfl⟩ | ⟨rfl, rfl⟩ := horder
      · rw [BitVec.or_comm]
      · rfl
    have hmetm : (met b (single m ||| single l)).lane m = p.lane m :=
      Part.setLane_lane_of_ne p arrived (Ne.symm hne)
    have hgo : (met b (single m ||| single l)).updLane m (fun y => { y with state := .running }) =
        (met b (single m ||| single l)).setLane m { p.lane m with state := .running } := by
      rw [Part.updLane, hmetm]
    refine hbegins ((runTasks_arrive_all 65533 hqueue hb hm ?_).trans ?_)
    · rw [show (q.barrier b).arrived = single m from ha, show (q.barrier b).members = _ from hset]
    · rw [show (q.barrier b).members = _ from hset, forLanes, hlanes]
      refine Eq.trans (congrArg _ ?_) (runTasks_released_two 65529 hr ht hk hkt)
      rw [← hgo, ← hmet]
      obtain ⟨rfl, rfl⟩ | ⟨rfl, rfl⟩ := horder
      · rfl
      · rw [List.foldl_cons, List.foldl_cons, List.foldl_nil, Part.updLane_comm _ hne.symm]

end Sys2Proof.Machine
end

section
/-! # JOIN (R29, R30, R32, R66, R70, R93, R109) -/

namespace Sys2Proof.Machine

/-! ## What a join begins with -/

section JoinTasks

variable {p : Part} {l : Fin 6}

@[simp] theorem Part.reportTag_patternSegment (p : Part) (l : Fin 6) (t : Option Byte) (o : Retirement)
    (k : Option (Fin 8)) (j : Fin 8) (i : Nat) : (p.reportTag l t o k).patternSegment j i = p.patternSegment j i := by
  rw [Part.reportTag_eq]
  rfl

@[simp] theorem Part.reportTag_loadedLength (p : Part) (l : Fin 6) (t : Option Byte) (o : Retirement)
    (k : Option (Fin 8)) (j : Fin 8) : (p.reportTag l t o k).loadedLength j = p.loadedLength j := by
  rw [Part.reportTag_eq]
  rfl

@[simp] theorem Part.dropTrim_barrier (p : Part) (l : Fin 6) (b : Fin 4) : (p.dropTrim l).barrier b = p.barrier b := by
  rw [Part.dropTrim_eq]
  rfl

@[simp] theorem Part.dropTrim_timebase (p : Part) (l : Fin 6) : (p.dropTrim l).timebase = p.timebase := by
  rw [Part.dropTrim_eq]

@[simp] theorem Part.retireHead_timebase (p : Part) (l : Fin 6) (o : Retirement) :
    (p.retireHead l o).timebase = p.timebase := by
  rw [Part.retireHead_eq]

theorem Part.join_eq {q : Part} {tasks : List Task} (h : p.joinTasks l = (q, tasks)) :
    p.join l = runTasks 65536 tasks q := by
  simp only [Part.join, h]
  rfl

/-- The lane left idle by a join; a trim still staged has gone with `dropTrim`. -/
theorem Part.dropTrim_idle : (p.dropTrim l).updLane l Lane.idle = (p.dropTrim l).setLane l (p.lane l).idle := by
  rw [Part.updLane, Part.dropTrim_lane_self]
  rfl

/-- A join after a held period retires nothing (R70). -/
theorem Part.joinTasks_held (hh : (p.lane l).playsHeld = true) :
    p.joinTasks l = ((p.dropTrim l).setLane l (p.lane l).idle, [.head l]) := by
  have hlane : ((p.dropTrim l).lane l).playsHeld = true := by rwa [Part.dropTrim_lane_self]
  simp only [Part.joinTasks, hlane, if_true, Part.dropTrim_idle]

/-- A join after a queue segment retires it COMPLETED (R29). -/
theorem Part.joinTasks_queue (hh : (p.lane l).playsHeld = false) (hc : (p.lane l).call = none) :
    p.joinTasks l = (((p.dropTrim l).setLane l (p.lane l).idle).retireHead l .completed, [.head l]) := by
  have hlane : ((p.dropTrim l).lane l).playsHeld = false := by rwa [Part.dropTrim_lane_self]
  have hcall : ((p.dropTrim l).lane l).call = none := by rwa [Part.dropTrim_lane_self]
  simp only [Part.joinTasks, hlane, Bool.false_eq_true, if_false, hcall, Part.dropTrim_idle]

/-- A join after a pattern segment reports it and moves the call position on (R32). -/
theorem Part.joinTasks_call {c : CallPosition} {g : Segment} (hh : (p.lane l).playsHeld = false)
    (hc : (p.lane l).call = some c) (hg : p.patternSegment c.pattern c.index = some g) :
    p.joinTasks l = (((p.dropTrim l).reportTag l g.tag .completed (some c.pattern)).setLane l
      { (p.lane l).idle with call := some { c with index := c.index + 1, remaining := 0 } }, [.pattern l]) := by
  have hlane : ((p.dropTrim l).lane l).playsHeld = false := by rwa [Part.dropTrim_lane_self]
  have hcall : ((p.dropTrim l).lane l).call = some c := by rwa [Part.dropTrim_lane_self]
  simp only [Part.joinTasks, hlane, Bool.false_eq_true, if_false, hcall, Part.dropTrim_patternSegment, hg]
  rw [Part.updLane, Part.reportTag_lane, Part.dropTrim_lane_self]
  rfl

end JoinTasks

/-! ## STARVED -/

section Starved

variable {q : Part} {l : Fin 6}

theorem Part.enterStarved_safe (h : (q.lane l).policy = .safe ∨ (q.lane l).record = none) : q.enterStarved l =
    (q.setLane l { (q.lane l).idle with state := .starved, starve := .safe }).notify (.underrun l .safe) := by
  have hb : (q.lane l).starveBehaviour = .safe := by
    obtain h | h := h <;> simp [Lane.starveBehaviour, h]
  simp only [Part.enterStarved, hb]
  rfl

theorem Part.enterStarved_hold (hp : (q.lane l).policy = .holdLast) (hr : (q.lane l).record.isSome = true) :
    q.enterStarved l = ((q.setLane l { (q.lane l).idle with state := .starved, starve := .hold }).beginHeld l).notify
      (.underrun l .hold) := by
  have hb : (q.lane l).starveBehaviour = .hold := by simp [Lane.starveBehaviour, hp, hr]
  simp only [Part.enterStarved, hb]
  rfl

end Starved

/-! ## The position of a CALL -/

section CallPosition

variable {q : Part} {l : Fin 6} {c : CallPosition}

/-- A MARK of the pattern, then a timed segment (R32). -/
theorem runTasks_pattern_mark (n : Nat) {m g : Segment} {t : Byte} (hc : (q.lane l).call = some c)
    (hm : q.patternSegment c.pattern c.index = some m) (htag : m.tag = some t) (hb : m.body = .mark)
    (hg : q.patternSegment c.pattern (c.index + 1) = some g) (ht : g.isTimed = true) :
    runTasks (n + 2) [.pattern l] q =
      (((q.notify (.markReached l t (some c.pattern))).notify
        (.segmentTag l t .completed (some c.pattern))).setLane l
          { q.lane l with call := some { c with index := c.index + 1 } }).startTimed l g.body := by
  have hcall := congrArg Lane.call (Part.setLane_lane_self ((q.notify (.markReached l t (some c.pattern))).notify
    (.segmentTag l t .completed (some c.pattern))) l { q.lane l with call := some { c with index := c.index + 1 } })
  rw [runTasks_cons]
  simp only [Task.run, Part.processPattern, hc, if_pos (Part.lt_loadedLength hm), hm, hb, htag, Option.getD_some,
    Part.reportTag, List.append_nil]
  exact runTasks_pattern_timed n hcall hg ht

/-- The last segment of a play that is not the last one (R109). -/
theorem runTasks_pattern_again (n : Nat) {g : Segment} (hc : (q.lane l).call = some c)
    (hend : q.loadedLength c.pattern ≤ c.index) (hplays : 1 < c.plays) (hg : q.patternSegment c.pattern 0 = some g)
    (ht : g.isTimed = true) : runTasks (n + 2) [.pattern l] q =
      (q.setLane l { q.lane l with call := some { c with plays := c.plays - 1, index := 0 } }).startTimed l g.body := by
  have hcall := congrArg Lane.call (Part.setLane_lane_self q l
    { q.lane l with call := some { c with plays := c.plays - 1, index := 0 } })
  rw [runTasks_cons]
  simp only [Task.run, Part.processPattern, hc, if_neg (Nat.not_lt.mpr hend), if_pos hplays, List.append_nil]
  exact runTasks_pattern_timed n hcall hg ht

/-- The last segment of the last play: the CALL is retired (R109). -/
theorem runTasks_pattern_done (n : Nat) {g : Segment} (hc : (q.lane l).call = some c)
    (hend : q.loadedLength c.pattern ≤ c.index) (hplays : c.plays ≤ 1) :
    let r := ((q.setLane l { q.lane l with call := none }).setPattern c.pattern
      { q.pattern c.pattern with useCount := (q.pattern c.pattern).useCount - 1 }).retireHead l .completed
    r.queueHead l = some g → g.isTimed = true → runTasks (n + 2) [.pattern l] q = r.startTimed l g.body := by
  intro r hr ht
  rw [runTasks_cons]
  simp only [Task.run, Part.processPattern, hc, if_neg (Nat.not_lt.mpr hend), if_neg (Nat.not_lt.mpr hplays),
    List.append_nil]
  exact runTasks_head_timed n hr ht

end CallPosition

/-- Settles O47: the join's first part, then the head of the queue or the position of the CALL by its kind. -/
theorem joinGoesOnOrStarves : Obligations.JoinGoesOnOrStarves := by
  intro s l d hphase p x joins p0 y hs hd hover
  have hp0 : p.dropTrim l = p0 := rfl
  have hover' : x.periodOver = true := by simp [Lane.periodOver, Period.over, hd, hover]
  have hheld : x.playsHeld = d.held := by simp [Lane.playsHeld, hd]
  have hjoins {r : Part} (hleft : x.playsHeld = true ∨ x.repeatsLeft ≤ 1) (hr : p.join l = r) : joins r := by
    have hdue : x.joinDue = true := by simp [Lane.joinDue, hs, hover', hleft]
    exact does_of_due (f := fun q => q.join l) rfl hphase hdue hr
  refine ⟨fun q hqueue hheldq => ?queue, fun c h hc hr hh hg => ?call⟩
  case queue =>
    intro starved
    have hstart : q.lane l = x.idle ∧ (∀ b, q.barrier b = p.barrier b) ∧ (∀ k, q.pattern k = p.pattern k) ∧
        q.timebase = p.timebase ∧ ∀ r, runTasks 65536 [.head l] q = r → joins r := by
      cases hh : d.held with
      | true =>
        have hq : q = (p.dropTrim l).setLane l x.idle := hheldq hh
        subst hq
        refine ⟨Part.setLane_lane_self _ _ _, Part.dropTrim_barrier p l, Part.dropTrim_pattern p l,
          Part.dropTrim_timebase p l, fun r hr => hjoins (.inl (hheld.trans hh)) ?_⟩
        rw [Part.join_eq (Part.joinTasks_held (hheld.trans hh))]
        exact hr
      | false =>
        obtain ⟨hc, hr, hq⟩ := hqueue hh
        have hy : y = x.idle := by simp only [y, Lane.idle, hc]
        rw [hy] at hq
        have hleft : x.repeatsLeft ≤ 1 := by simpa only [Lane.repeatsLeft, hc] using hr
        subst hq
        refine ⟨by rw [Part.retireHead_lane, Part.setLane_lane_self], fun b => ?_, fun k => ?_, ?_,
          fun r hr => hjoins (.inr hleft) ?_⟩
        · rw [Part.retireHead_barrier]
          exact Part.dropTrim_barrier p l b
        · rw [Part.retireHead_pattern]
          exact Part.dropTrim_pattern p l k
        · rw [Part.retireHead_timebase]
          exact Part.dropTrim_timebase p l
        · rw [Part.join_eq (Part.joinTasks_queue (hheld.trans hh) hc)]
          exact hr
    obtain ⟨hlane, hbarrier, hpattern, htimebase, hrun⟩ := hstart
    have hpassed {r : Part} {h : Segment} (hp : q.processHead l = (r, [.head l])) (hr : r.queueHead l = some h)
        (ht : h.isTimed = true) : joins (r.startTimed l h.body) := hrun _ (runTasks_head_passed 65534 hp hr ht)
    refine ⟨fun g hg ht => hrun _ (runTasks_head_timed 65535 hg ht), fun hg hsafe => hrun _ ?safe,
      fun hg hpolicy hrecord => hrun _ ?hold, fun g hg => ⟨fun t h htag hb => ?mark, fun b h hb hm => ?pass,
        fun b hb hm hw => hrun _ ?waits, fun k plays h hb hk hp ht => hrun _ ?enters, fun k plays h hb hk => ?missed⟩⟩
    case safe =>
      have hsafe' : (q.lane l).policy = .safe ∨ (q.lane l).record = none := by rwa [hlane]
      rw [runTasks_head_empty 65535 hg, Part.enterStarved_safe hsafe', hlane]
      rfl
    case hold =>
      have hpolicy' : (q.lane l).policy = .holdLast := by rwa [hlane]
      have hrecord' : (q.lane l).record.isSome = true := by rwa [hlane]
      rw [runTasks_head_empty 65535 hg, Part.enterStarved_hold hpolicy' hrecord', hlane]
      rfl
    case mark =>
      intro r hr ht
      exact hpassed (Part.processHead_mark hg htag hb) hr ht
    case pass =>
      intro r hr ht
      exact hpassed (Part.processHead_pass hg hb (hbarrier b ▸ hm)) hr ht
    case missed =>
      intro r hr ht
      exact hpassed (Part.processHead_missed hg hb (hpattern k ▸ hk)) hr ht
    case waits =>
      rw [← hbarrier b] at hm hw ⊢
      rw [runTasks_head_waits 65535 hg hb hm hw, hlane, htimebase]
      rfl
    case enters =>
      rw [← hpattern k] at hk ⊢
      rw [runTasks_head_call 65534 hg hb hk hp ht, hlane]
      rfl
  case call =>
    intro told stands
    have htold : (p.dropTrim l).reportTag l h.tag .completed (some c.pattern) = told := by
      cases ht : h.tag <;> simp only [told, ht, Part.reportTag, hp0]
    have hsegment : ∀ i, told.patternSegment c.pattern i = p.patternSegment c.pattern i := fun i => by
      rw [← htold, Part.reportTag_patternSegment, Part.dropTrim_patternSegment]
    have hlength : told.loadedLength c.pattern = p.loadedLength c.pattern := by
      rw [← htold, Part.reportTag_loadedLength, Part.dropTrim_loadedLength]
    have hpattern : told.pattern c.pattern = p.pattern c.pattern := by
      rw [← htold, Part.reportTag_pattern, Part.dropTrim_pattern]
    have hlane : ∀ plays index, (told.setLane l (stands plays index)).lane l = stands plays index :=
      fun _ _ => Part.setLane_lane_self _ _ _
    have hleft : x.repeatsLeft ≤ 1 := by simpa only [Lane.repeatsLeft, hc] using hr
    have hrun {r : Part} (hr : runTasks 65536 [.pattern l] (told.setLane l (stands c.plays (c.index + 1))) = r) :
        joins r := by
      refine hjoins (.inr hleft) ?_
      rw [Part.join_eq (Part.joinTasks_call (hheld.trans hh) hc hg), htold]
      exact hr
    have hcall := congrArg Lane.call (hlane c.plays (c.index + 1))
    refine ⟨fun g _ hg' ht => ?next, fun m t g _ hm htag hb hg' ht => ?mark, fun g hend hplays hg' ht => ?again,
      fun hend hplays => ?done⟩
    case next => exact hrun (runTasks_pattern_timed 65535 hcall ((hsegment _).trans hg') ht)
    case mark =>
      intro marked
      refine hrun ((runTasks_pattern_mark 65534 hcall ((hsegment _).trans hm) htag hb ((hsegment _).trans hg')
        ht).trans ?_)
      rw [hlane]
      refine congrArg (Part.startTimed · l g.body) ?_
      exact Part.setLane_setLane marked l (stands c.plays (c.index + 1)) (stands c.plays (c.index + 2))
    case again =>
      refine hrun ((runTasks_pattern_again 65534 hcall (hlength ▸ hend) hplays ((hsegment _).trans hg') ht).trans ?_)
      rw [hlane]
      exact congrArg (Part.startTimed · l g.body) (Part.setLane_setLane told l _ (stands (c.plays - 1) 0))
    case done =>
      intro q g hq ht
      have heq : (((told.setLane l (stands c.plays (c.index + 1))).setLane l
          { (told.setLane l (stands c.plays (c.index + 1))).lane l with call := none }).setPattern c.pattern
            { told.pattern c.pattern with useCount := (told.pattern c.pattern).useCount - 1 }).retireHead l .completed =
          q := by
        rw [hlane, Part.setLane_setLane, hpattern]
      have hdone := runTasks_pattern_done 65534 (g := g) hcall (hlength ▸ hend) hplays
      rw [← heq] at hq ⊢
      exact hrun (hdone hq ht)

end Sys2Proof.Machine
end

section
/-! # The link, requests before their own checks, and the resets (O36 to O40, O42, O43) -/

namespace Sys2Proof.Machine

/-! ## Resets -/

/-- After a reset nothing waits, and every line is at its safe level already. -/
theorem Part.settle_atReset (cause : ResetCause) (straps : Straps) (first : Pins) (phase : ResetPhase) (pin : Level) :
    (Part.atReset cause straps first phase pin).settle = Part.atReset cause straps first phase pin := rfl

/-- Settles O42: each reset is one change of the part, and its condition decides the branch. -/
theorem resetsBeginAndEnd : Obligations.ResetsBeginAndEnd := by
  intro s straps first sent p
  have hact {c : Instr} {f : Part → Part} {q : Part} (hx : exec c s = s.act f) (hq : f p = q) : Becomes c s q := by
    rw [Becomes, hx, State.act, hq]
  refine ⟨rfl, fun hp => ?_, fun hp => ?_, fun hp ht hr => ?_, fun hp => ?_⟩
  · exact hact (f := Part.pinLow) rfl (by simp [Part.pinLow, Part.isRunning, hp, Part.beginReset])
  · exact hact (f := Part.pinLow) rfl (by simp [Part.pinLow, Part.isRunning, hp])
  · have hfinish : p.finishFrame = Part.atReset .request p.link.straps Pins.allLow (.held 1024) p.resetPin := by
      simp only [Part.finishFrame, ht, hr, if_true]
      rfl
    refine hact (f := fun q => q.event Part.finishFrame) rfl ?_
    rw [Part.event_ended hp, hfinish]
    exact Part.settle_atReset _ _ _ _ _
  · exact hact (f := fun q => q.endReset straps first) rfl (if_pos hp)

theorem Part.atReset_line (cause : ResetCause) (straps : Straps) (first : Pins) (phase : ResetPhase) (pin : Level)
    (o : Fin 6) : (Part.atReset cause straps first phase pin).line o = Line.reset := by
  rw [Part.line, Part.atReset_pair]
  exact ite_self _

/-- Settles O43, by the reset value of each block. -/
theorem resetValuesAreThoseOfTheTables : Obligations.ResetValuesAreThoseOfTheTables := by
  intro cause straps first phase pin p
  have hline (o : Fin 6) : p.line o = Line.reset := Part.atReset_line cause straps first phase pin o
  have hfree : p.freeSlots = 2048 := by
    simp only [p, Part.freeSlots, Part.atReset_region]
    rfl
  refine ⟨rfl, rfl, fun k => ?_, fun o => ?_, rfl, hfree, Part.atReset_region _ _ _ _ _, Part.atReset_lane _ _ _ _ _,
    Part.atReset_pattern _ _ _ _ _, fun i => ?_, Part.atReset_barrier _ _ _ _ _, fun i => ?_, rfl, rfl, rfl, rfl, rfl,
    rfl, rfl, rfl, rfl, rfl, rfl, rfl, rfl, rfl⟩
  · simp only [p, Part.atReset_pair]
    exact ⟨rfl, rfl, rfl⟩
  · simp only [Part.out, hline]
    exact ⟨rfl, rfl, rfl, rfl, rfl⟩
  · simp only [p, Part.atReset_trigger]
    exact ⟨rfl, rfl, rfl, rfl⟩
  · simp only [p, Part.atReset_fault]
    exact ⟨rfl, rfl, rfl, rfl, rfl, rfl, rfl⟩

end Sys2Proof.Machine
end

section
/-! # The receiver, acknowledgements, and requests before their own checks (O36 to O40) -/

namespace Sys2Proof.Machine

/-! ## Acknowledgements -/

section Acknowledge

variable {older newer queue : List Entry} {e : Entry} {n : Byte}

theorem Entry.not_hasNumber {e : Entry} {m : Byte} {mark : Bool} (he : e.status = .inFlight m mark) (h : m ≠ n) :
    e.hasNumber n = false := by
  simp [Entry.hasNumber, he, h]

/-- The acknowledged entry leaves with the entries before it, which are all IN_FLIGHT (R178). -/
theorem removeThrough_acknowledged (he : e.hasNumber n = true)
    (hold : ∀ d ∈ older, ∃ m b, d.status = .inFlight m b ∧ m ≠ n) : removeThrough n (older ++ e :: newer) = some newer := by
  induction older with
  | nil => exact if_pos he
  | cons d rest ih =>
    obtain ⟨m, b, hd, hm⟩ := hold d List.mem_cons_self
    have hrest := ih (fun d' hd' => hold d' (List.mem_cons_of_mem _ hd'))
    simp [removeThrough, Entry.not_hasNumber hd hm, hrest, Entry.inFlight, hd]

/-- A number that no entry is IN_FLIGHT under is stray (R179). -/
theorem removeThrough_stray (h : ∀ d ∈ queue, d.hasNumber n = false) : removeThrough n queue = none := by
  induction queue with
  | nil => rfl
  | cons d rest ih =>
    simp [removeThrough, h d List.mem_cons_self, ih (fun d' hd' => h d' (List.mem_cons_of_mem _ hd'))]

theorem inFlightCount_pos : 0 < inFlightCount queue ↔ ∃ d ∈ queue, d.inFlight = true := by
  rw [inFlightCount, List.countP_pos_iff]

end Acknowledge

/-- Settles O39: what leaves the queue, then whether the LOST entry joins. -/
theorem acknowledgementIsCumulative : Obligations.AcknowledgementIsCumulative := by
  intro u older newer e number mark interval stamp hq he hold timer
  have hnumber : e.hasNumber number = true := Entry.hasNumber_iff.mpr (Entry.number_eq_some.mpr ⟨mark, he⟩)
  have htimer : (if 0 < inFlightCount newer then some (intervalClocks interval) else none) = timer :=
    ite_congr (propext inFlightCount_pos) (fun _ => congrArg some (Nat.mul_comm interval 80000)) (fun _ => rfl)
  have hack : u.acknowledge number interval stamp = some (NotificationUnit.appendLost
      { u with queue := newer, expiries := 0, channel := .running, timer := timer } stamp) := by
    rw [NotificationUnit.acknowledge, hq, removeThrough_acknowledged hnumber hold, ← htimer]
    rfl
  refine ⟨fun hroom htally => ?told, fun hkept => ?kept, fun other hstray => ?stray⟩
  case told =>
    rw [hack]
    refine congrArg some (if_pos ?_)
    have hcapacity : newer.length < Config.queueCapacity := hroom
    have htold : u.tallyEmpty = false := by
      obtain h | h := htally
      · rw [NotificationUnit.tallyEmpty, decide_eq_false h, Bool.false_and]
      · rw [NotificationUnit.tallyEmpty, decide_eq_false h, Bool.and_false]
    have htold' : ({ u with queue := newer, expiries := 0, channel := .running, timer := timer } :
      NotificationUnit).tallyEmpty = false := htold
    rw [htold']
    exact Bool.and_eq_true_iff.mpr ⟨decide_eq_true hcapacity, rfl⟩
  case kept =>
    rw [hack]
    refine congrArg some (if_neg ?_)
    obtain h | ⟨hcount, hkinds⟩ := hkept
    · have hfull : ¬newer.length < Config.queueCapacity := Nat.not_lt.mpr h
      rw [decide_eq_false hfull, Bool.false_and]
      exact Bool.false_ne_true
    · have hempty : ({ u with queue := newer, expiries := 0, channel := .running, timer := timer } :
          NotificationUnit).tallyEmpty = true := Bool.and_eq_true_iff.mpr ⟨decide_eq_true hcount, decide_eq_true hkinds⟩
      rw [hempty, Bool.not_true, Bool.and_false]
      exact Bool.false_ne_true
  case stray =>
    have hnone : removeThrough other u.queue = none := removeThrough_stray (fun d hd => by
      cases hs : d.status with
      | pending => simp [Entry.hasNumber, hs]
      | inFlight m b => exact Entry.not_hasNumber hs (fun h => hstray d hd b (h ▸ hs)))
    rw [NotificationUnit.acknowledge, hnone]
    rfl

/-! ## Complete frames -/

section CompleteFrame

variable {p : Part} {len type seq code high low : Byte} {payload : List Byte}

/-- LEN + 3 bytes after SOF the frame is complete (R153). -/
theorem Link.frameDue_of_complete {k : Link} (hrx : k.rx = .inFrame (len :: type :: seq :: code :: (payload ++ [high, low])))
    (hlen : len.toNat = payload.length + 3) : k.frameDue = true := by
  simp [Link.frameDue, Link.lengthDue, hrx, hlen]

/-- A complete frame: its CRC decides whether it is sorted or counted (R156, R157). -/
theorem Part.completeFrame_eq (hrx : p.link.rx = .inFrame (len :: type :: seq :: code :: (payload ++ [high, low])))
    (hlen : len.toNat = payload.length + 3) : p.completeFrame =
      if crc16 (len :: type :: seq :: code :: payload) = high ++ low then
        p.toHunting.sortFrame len type seq code payload (high ++ low)
      else p.toHunting.countCrc := by
  have hsub : len.toNat - 3 = payload.length := by omega
  simp only [Part.completeFrame, hrx, hsub, List.drop_left, List.take_left]
  rfl

end CompleteFrame

/-- Settles O38: the CRC, then the TYPE, then for an acknowledgement its length and its number. -/
theorem completeFramesAreSorted : Obligations.CompleteFramesAreSorted := by
  intro s len type seq code payload high low hphase p k q crc up hrx hlen _
  have hdue : p.link.frameDue = true := Link.frameDue_of_complete hrx hlen
  have hdoes {r : Part} (hr : p.completeFrame = r) : Does .frameComplete s r :=
    does_of_due (f := Part.completeFrame) rfl hphase hdue hr
  rw [show p.completeFrame = _ from Part.completeFrame_eq hrx hlen] at hdoes
  have hup (b : Byte) : countUp b = up b := countUp_eq b
  refine ⟨fun hcrc => hdoes ?_, fun hcrc => ?_⟩
  · rw [if_neg hcrc, Part.countCrc, hup]
    rfl
  rw [if_pos hcrc] at hdoes
  refine ⟨fun ht hroom => hdoes ?_, fun ht hl u hu => hdoes ?_, fun ht hl hu => hdoes ?_, fun ht hl => hdoes ?_,
    fun h1 h4 => hdoes ?_⟩
  · subst ht
    exact Part.bufferRequest_room (p := p.toHunting) _ hroom
  · subst ht hl
    have hack : p.toHunting.acknowledge seq = { q with notif := u } := by
      have hu' : p.toHunting.notif.acknowledge seq p.toHunting.link.interval p.toHunting.now = some u := hu
      simp only [Part.acknowledge, hu']
      rfl
    exact hack
  · subst ht hl
    have hack : p.toHunting.acknowledge seq = p.toHunting.countStray := by
      have hu' : p.toHunting.notif.acknowledge seq p.toHunting.link.interval p.toHunting.now = none := hu
      simp only [Part.acknowledge, hu']
    refine Eq.trans hack ?_
    rw [Part.countStray, hup]
    rfl
  · subst ht
    have hcount : p.toHunting.sortFrame len 4 seq code payload (high ++ low) = p.toHunting.countLength := if_neg hl
    rw [hcount, Part.countLength, hup]
    rfl
  · have hcount : p.toHunting.sortFrame len type seq code payload (high ++ low) = p.toHunting.countType :=
      (if_neg h1).trans (if_neg h4)
    rw [hcount, Part.countType, hup]
    rfl

/-! ## Bytes -/

/-- An event command that is always due does what its change says. -/
theorem does_of_event {c : Instr} {s : State} {f : Part → Part} {q : Part}
    (hx : exec c s = s.act (fun p => p.event f)) (h : s.part.resetPhase = .ended) (hq : f s.part = q) : Does c s q := by
  rw [Does, Becomes, hx, State.act, Part.event_ended h, hq]

/-- A byte is taken: where neither end of a frame is due, only the framer and the state of the receiver change (R152). -/
theorem Part.receiveByte_taken {p : Part} {idle : Bool} (hl : p.link.lengthDue = false) (hf : p.link.frameDue = false)
    (h : p.link.receiving = true ∨ p.link.awaitsIdle = false ∨ idle = true) (data : Byte) (stopBit : Level) :
    p.receiveByte data stopBit idle =
      { p.takeByte data with link := { (p.takeByte data).link with
          receiving := false, awaitsIdle := decide (stopBit = .low) } } := by
  have htaken : (p.link.receiving || p.link.accepts idle) = true := by
    obtain h | h | h := h <;> simp [Link.accepts, h]
  have hlength : p.lengthEvent = p := Part.eventWhen_not_due hl _
  have hframe : p.frameEvent = p := Part.eventWhen_not_due hf _
  rw [Part.receiveByte, if_pos htaken, hlength, hframe]

/-- Settles O40: a byte by the state of the framer, then the two ways in which a partial frame is dropped. -/
theorem bytesAreHuntedJoinedOrDropped : Obligations.BytesAreHuntedJoinedOrDropped := by
  intro s hphase p k up
  have hup (b : Byte) : countUp b = up b := countUp_eq b
  refine ⟨fun data stopBit idle => ?byte, fun len hrx hlen => ?length, fun bytes n hrx hgap hn => ?gap⟩
  case byte =>
    intro taken
    refine ⟨fun hr ha hi => ?_, fun h => ?_⟩
    · have hskipped : ¬(p.link.receiving || p.link.accepts idle) = true := by simp [Link.accepts, hr, ha, hi]
      exact does_of_event (f := fun q => q.receiveByte data stopBit idle) rfl hphase (if_neg hskipped)
    have hdoes {r : Part} (hl : p.link.lengthDue = false) (hf : p.link.frameDue = false)
        (hr : ({ p.takeByte data with link := { (p.takeByte data).link with
          receiving := false, awaitsIdle := decide (stopBit = .low) } } : Part) = r) :
        Does (.byteReceived data stopBit idle) s r :=
      does_of_event (f := fun q => q.receiveByte data stopBit idle) rfl hphase
        ((Part.receiveByte_taken hl hf h data stopBit).trans hr)
    have hhunting (hrx : p.link.rx = .hunting) : p.link.lengthDue = false ∧ p.link.frameDue = false := by
      simp [Link.lengthDue, Link.frameDue, hrx]
    refine ⟨fun hrx hd => ?_, fun hrx hd => ?_, fun bytes hrx hl hf => hdoes hl hf ?_⟩
    · refine hdoes (hhunting hrx).1 (hhunting hrx).2 ?_
      have htake : p.takeByte data = p := by
        simp only [Part.takeByte, hrx]
        exact if_neg hd
      rw [htake]
    · refine hdoes (hhunting hrx).1 (hhunting hrx).2 ?_
      have htake : p.takeByte data = { p with link := { p.link with rx := .inFrame [], gap := some 0 } } := by
        simp only [Part.takeByte, hrx]
        exact if_pos hd
      rw [htake]
    · have htake : p.takeByte data = { p with link := { p.link with rx := .inFrame (bytes ++ [data]), gap := some 0 } } := by
        simp only [Part.takeByte, hrx]
      rw [htake]
  case length =>
    have hdue : p.link.lengthDue = true := by simpa [Link.lengthDue, hrx] using hlen
    refine does_of_due (f := Part.dropLength) rfl hphase hdue ?_
    rw [Part.dropLength, Part.countLength, hup]
    rfl
  case gap =>
    have hdue : p.link.gapDue = true := by
      have hclocks : Config.gapClocks = 160000 := rfl
      simp [Link.gapDue, hgap, hrx, hclocks, hn]
    refine does_of_due (f := Part.dropGap) rfl hphase hdue ?_
    rw [Part.dropGap, Part.countGap, hup]
    rfl

/-! ## The checks before those of a request -/

/-- A request that the free dispatcher takes and answers outside the cache. -/
theorem becomes_answered {c : Instr} {s : State} {f : RequestFrame} {r : Reply} (hphase : s.part.resetPhase = .ended)
    (hc : requestOf c = some f) (hs : s.part.link.dispatchStopped = false) (hb : s.part.link.buffer = [])
    (hl : s.part.link.slot = none) (hx : s.part.execute f = s.part.placeReply r) :
    Becomes c s (Part.driveLines (s.part.answered r)) := by
  refine becomes_of_arrival hc hphase (congrArg Part.driveLines ?_)
  rw [Part.pump, dispatch_buffered hs hb hl, hx, placeReply_pump hb]

theorem Part.execute_unsynced {p : Part} {f : RequestFrame} (hs : p.link.synced = false) (hf : f.code ≠ 0x01) :
    p.execute f = p.placeReply (f.reply { status := .notSynced, detail := 0, body := [] } false) := by
  have hcode : ¬((p.link.synced || decide (f.code = requestCode .sync)) = true) := by
    have hne : f.code ≠ requestCode .sync := hf
    simp [hs, hne]
  exact if_neg hcode

/-- On a SYNCED link the SEQ of the cached request is answered from the cache, or refused (R162). -/
theorem Part.execute_cached {p : Part} {f : RequestFrame} {e : CacheEntry} (hs : p.link.synced = true)
    (hc : p.link.cache = some e) (he : e.seq = f.seq) : p.execute f =
      if e.crc = f.crc then p.placeReply e.reply
      else p.placeReply (f.reply { status := .seqReused, detail := e.reply.code, body := [] } false) := by
  simp only [Part.execute, hs, Bool.true_or, if_true, Part.executeSynced, hc, he]
  rfl

/-- Settles O37: by the check that answers. -/
theorem requestsPassTheFirstChecks : Obligations.RequestsPassTheFirstChecks := by
  intro s c f hphase hc p placed overrun
  refine ⟨fun hstop hb hl => ⟨fun hs hf => ?_, fun e hs he hseq => ⟨fun hcrc => ?_, fun hcrc => ?_⟩⟩,
    fun hb hl ht => ?_⟩
  · exact becomes_answered hphase hc hstop hb hl (Part.execute_unsynced hs hf)
  · exact becomes_answered hphase hc hstop hb hl ((Part.execute_cached hs he hseq).trans (if_pos hcrc))
  · exact becomes_answered hphase hc hstop hb hl ((Part.execute_cached hs he hseq).trans (if_neg hcrc))
  · refine becomes_of_arrival hc hphase ?_
    rw [Part.bufferRequest_full f (Nat.le_of_eq hb.symm)]
    exact Part.settle_busy ht hl

end Sys2Proof.Machine
end

section
/-! # Payload lengths (O36) -/

namespace Sys2Proof.Machine

/-! ## Segments in a payload -/

theorem splitSegments_cons (a b c d e f g h i j k l : Byte) (rest : List Byte) :
    splitSegments (a :: b :: c :: d :: e :: f :: g :: h :: i :: j :: k :: l :: rest) =
      (splitSegments rest).map (fun rs => #v[a, b, c, d, e, f, g, h, i, j, k, l] :: rs) := by
  rw [splitSegments]

/-- Only whole segments are split off (R192). -/
theorem length_of_splitSegments {bytes : List Byte} {raws : List RawSegment} (h : splitSegments bytes = some raws) :
    bytes.length = 12 * raws.length := by
  induction raws generalizing bytes with
  | nil =>
    unfold splitSegments at h
    split at h
    · rfl
    · obtain ⟨rs, -, hrs⟩ := Option.map_eq_some_iff.mp h
      cases hrs
    · cases h
  | cons raw rest ih =>
    unfold splitSegments at h
    split at h
    · cases h
    · obtain ⟨rs, hrs, heq⟩ := Option.map_eq_some_iff.mp h
      cases heq
      simp only [List.length_cons, ih hrs]
      omega
    · cases h

theorem withSegments_wrongLength {payload : List Byte} {f : Byte → List RawSegment → Part → Answered} {p : Part}
    (h : ∀ n, 1 ≤ n → n ≤ 16 → payload.length ≠ 1 + 12 * n) : withSegments payload f p = p.badLength := by
  unfold withSegments
  split
  · rfl
  · next a rest =>
    split
    · next raws hraws =>
      refine if_neg (fun hn => ?_)
      obtain ⟨hmin, hmax⟩ : 1 ≤ raws.length ∧ raws.length ≤ 16 := by simpa using hn
      exact h raws.length hmin hmax (by rw [List.length_cons, length_of_splitSegments hraws, Nat.add_comm])
    · rfl

/-! ## Requests with a fixed length -/

section FixedLength

variable {payload : List Byte} {p : Part}

theorem withNone_wrongLength {f : Part → Answered} (h : payload.length ≠ 0) : withNone payload f p = p.badLength := by
  unfold withNone
  split
  · exact absurd rfl h
  · rfl

theorem withOne_wrongLength {f : Byte → Part → Answered} (h : payload.length ≠ 1) :
    withOne payload f p = p.badLength := by
  unfold withOne
  split
  · exact absurd rfl h
  · rfl

theorem withTwo_wrongLength {f : Byte → Byte → Part → Answered} (h : payload.length ≠ 2) :
    withTwo payload f p = p.badLength := by
  unfold withTwo
  split
  · exact absurd rfl h
  · rfl

theorem withThree_wrongLength {f : Byte → Byte → Byte → Part → Answered} (h : payload.length ≠ 3) :
    withThree payload f p = p.badLength := by
  unfold withThree
  split
  · exact absurd rfl h
  · rfl

theorem runSetPair_wrongLength (h : payload.length ≠ 8) : runSetPair payload p = p.badLength := by
  unfold runSetPair
  split
  · exact absurd rfl h
  · rfl

theorem runDefineRegion_wrongLength (h : payload.length ≠ 5) : runDefineRegion payload p = p.badLength := by
  unfold runDefineRegion
  split
  · exact absurd rfl h
  · rfl

theorem runSetLane_wrongLength (h : payload.length ≠ 5) : runSetLane payload p = p.badLength := by
  unfold runSetLane
  split
  · exact absurd rfl h
  · rfl

theorem runTrim_wrongLength (h : payload.length ≠ 6) : runTrim payload p = p.badLength := by
  unfold runTrim
  split
  · exact absurd rfl h
  · rfl

theorem runSetBarrier_wrongLength (h : payload.length ≠ 7) : runSetBarrier payload p = p.badLength := by
  unfold runSetBarrier
  split
  · exact absurd rfl h
  · rfl

theorem runSetFault_wrongLength (h : payload.length ≠ 5) : runSetFault payload p = p.badLength := by
  unfold runSetFault
  split
  · exact absurd rfl h
  · rfl

/-- The payload lengths of the requests that have one (R192). -/
def fixedLength : RequestKind → Option Nat
  | .append | .patternData => none
  | .sync | .reset | .getStatus | .getRegions | .getPatterns | .getTriggers | .getFaults => some 0
  | .getLinkStats | .setTimebase | .deleteRegion | .unbindRegion | .clearRegion | .getLane | .patternBegin
  | .patternEnd | .patternDiscard | .fireTrigger | .releaseBarrier | .getBarrier | .clearFault => some 1
  | .setLinkTiming | .start | .stop => some 2
  | .bindRegion | .setTrigger => some 3
  | .defineRegion | .setLane | .setFault => some 5
  | .trim => some 6
  | .setBarrier => some 7
  | .setPair => some 8

/-- A payload of another length than its code's is BAD_LENGTH (R192). -/
theorem runRequest_wrongLength {k : RequestKind} {n : Nat} (hk : fixedLength k = some n) (h : payload.length ≠ n) :
    runRequest k payload p = p.badLength := by
  match k, hk with
  | .sync, rfl | .reset, rfl | .getStatus, rfl | .getRegions, rfl | .getPatterns, rfl | .getTriggers, rfl
  | .getFaults, rfl => exact withNone_wrongLength h
  | .getLinkStats, rfl | .setTimebase, rfl | .deleteRegion, rfl | .unbindRegion, rfl | .clearRegion, rfl
  | .getLane, rfl | .patternBegin, rfl | .patternEnd, rfl | .patternDiscard, rfl | .fireTrigger, rfl
  | .releaseBarrier, rfl | .getBarrier, rfl | .clearFault, rfl => exact withOne_wrongLength h
  | .setLinkTiming, rfl | .start, rfl | .stop, rfl => exact withTwo_wrongLength h
  | .bindRegion, rfl | .setTrigger, rfl => exact withThree_wrongLength h
  | .defineRegion, rfl => exact runDefineRegion_wrongLength h
  | .setLane, rfl => exact runSetLane_wrongLength h
  | .setFault, rfl => exact runSetFault_wrongLength h
  | .trim, rfl => exact runTrim_wrongLength h
  | .setBarrier, rfl => exact runSetBarrier_wrongLength h
  | .setPair, rfl => exact runSetPair_wrongLength h

end FixedLength

/-! ## A request as it comes at its FRAME_COMPLETE -/

/-- A request of a known code that the free dispatcher takes from the buffer and turns away. -/
theorem Part.settle_refused {q : Part} {f : RequestFrame} {k : RequestKind} {st : Status} {d : Byte}
    (hready : q.Ready f.seq) (hk : requestKind f.code = some k) (hrun : runRequest k f.payload q = q.refuse st d)
    (hst : st ≠ .ok) :
    (q.bufferRequest f).settle = (q.replied f { status := st, detail := d, body := [] }).driveLines := by
  obtain ⟨⟨-, hstop, hbuf, hslot, hcache⟩, hsynced⟩ := hready
  have hnew : q.executeNew f = q.placeCached f (f.reply { status := st, detail := d, body := [] } false) := by
    simp [Part.executeNew, hk, hrun, Part.refuse, answerRefuse, hst]
  rw [Part.settle, Part.pump, dispatch_buffered hstop hbuf hslot, Part.execute_fresh (.inl hsynced) hcache, hnew,
    placed_pump hbuf]

/-- The codes with a fixed payload length (R192). -/
def fixedLengths : List (Byte × Nat) :=
  [(0x01, 0), (0x02, 0), (0x03, 0), (0x04, 1), (0x05, 2), (0x10, 1), (0x11, 8), (0x20, 5), (0x21, 1), (0x22, 3),
   (0x23, 1), (0x24, 1), (0x25, 0), (0x31, 2), (0x32, 2), (0x33, 5), (0x34, 1), (0x35, 6), (0x40, 1), (0x42, 1),
   (0x43, 1), (0x44, 0), (0x50, 3), (0x51, 1), (0x52, 0), (0x60, 7), (0x61, 1), (0x62, 1), (0x70, 5), (0x71, 1),
   (0x72, 0)]

theorem fixedLength_of_mem : ∀ x ∈ fixedLengths, (requestKind x.1).bind fixedLength = some x.2 := by decide

/-- A payload without the length of its code, which is fixed or that of a run of segments. -/
theorem runRequest_badLength {code : Byte} {payload : List Byte} {p : Part}
    (h : (∃ n, (code, n) ∈ fixedLengths ∧ payload.length ≠ n) ∨
      ((code = 0x30 ∨ code = 0x41) ∧ ∀ n, 1 ≤ n → n ≤ 16 → payload.length ≠ 1 + 12 * n)) :
    ∃ k, requestKind code = some k ∧ runRequest k payload p = p.badLength := by
  obtain ⟨n, hmem, hn⟩ | ⟨rfl | rfl, hn⟩ := h
  · obtain ⟨k, hk, hfixed⟩ := Option.bind_eq_some_iff.mp (fixedLength_of_mem _ hmem)
    exact ⟨k, hk, runRequest_wrongLength hfixed hn⟩
  · exact ⟨.append, rfl, withSegments_wrongLength hn⟩
  · exact ⟨.patternData, rfl, withSegments_wrongLength hn⟩

/-- Settles O36: a code outside the table, and a payload of the wrong length for its code. -/
theorem unknownRequestsAreAnswered : Obligations.UnknownRequestsAreAnswered := by
  refine ⟨fun s seq code payload hready hwf => ?unknown, fun s seq code high low payload hready => ?badLength⟩
  case unknown =>
    have hcode : requestKind code = none := by
      simp only [Instr.wf, Bool.and_eq_true, Option.isNone_iff_eq_none] at hwf
      exact hwf.1
    refine takes_of_executeNew (f := requestFrame seq code payload) rfl hready.1 (.inl hready.2) ?_ hready.1.2.2.1
    have hcode' : requestKind (requestFrame seq code payload).code = none := hcode
    simp only [Part.executeNew, hcode']
    rfl
  case badLength =>
    intro p len q lengths hrx hmax hcrc hlength
    have hlen : len.toNat = payload.length + 3 :=
      (BitVec.toNat_ofNat (payload.length + 3) 8).trans (Nat.mod_eq_of_lt (by omega))
    have hcomplete : p.completeFrame =
        q.bufferRequest { seq := seq, code := code, payload := payload, crc := high ++ low } :=
      (Part.completeFrame_eq hrx hlen).trans (if_pos hcrc)
    obtain ⟨k, hk, hrun⟩ := runRequest_badLength (p := q) hlength
    have hsettle := Part.settle_refused (f := { seq := seq, code := code, payload := payload, crc := high ++ low })
      (q := q) hready hk hrun nofun
    have hdoes : Does .frameComplete s _ :=
      does_of_due (f := Part.completeFrame) rfl hready.1.1 (Link.frameDue_of_complete hrx hlen) hcomplete
    rwa [Does, hsettle] at hdoes

end Sys2Proof.Machine
end

section
/-! # Output stages and the tick (O50 to O52) -/

namespace Sys2Proof.Machine

/-! ## The demand of a period -/

theorem inRun_iff {period onTime t : Nat} {a : Alignment} : inRun period onTime a t = true ↔
    runStart period onTime a ≤ t ∧ t < runStart period onTime a + onTime := by
  simp [inRun]

theorem Shape.demand_pulse_top {period onTime t : Nat} {a : Alignment} :
    (Shape.pulse period a).demand onTime t = .top ↔ inRun period onTime a t = true := by
  simp only [Shape.demand]
  split <;> simp [*]

theorem Shape.demand_pulse (period onTime t : Nat) (a : Alignment) :
    (Shape.pulse period a).demand onTime t = .top ∨ (Shape.pulse period a).demand onTime t = .bottom := by
  simp only [Shape.demand]
  split
  · exact .inl rfl
  · exact .inr rfl

/-- The demand of a lane, by the conditions under which it drives (R9). -/
theorem Lane.demand_eq (x : Lane) : x.demand =
    match x.period with
    | some d =>
      if x.suppressed = false ∧ (x.state = .running ∨ x.state = .stopping ∨ (x.state = .starved ∧ x.starve = .hold))
      then some (d.shape.demand d.onTime (min d.phase (d.shape.length - 1)))
      else none
    | none => none := by
  cases hd : x.period with
  | none => simp [Lane.demand, hd]
  | some d =>
    simp only [Lane.demand, Lane.drives, hd, Option.isSome_some, Bool.and_true, Bool.and_eq_true, Bool.or_eq_true,
      Bool.not_eq_true', decide_eq_true_eq, Option.map_some, or_assoc]
    rfl

/-! ## A line of a complementary pair -/

section Complementary

variable {x : Line} {requested : Bool} {dead n : Nat}

theorem Line.driveComplementary_level : (x.driveComplementary requested dead).level =
    x.polarity.level (requested && Line.delayOver { x with requested := requested } dead) := rfl

theorem Line.delayOver_zero : Line.delayOver { x with requested := requested } 0 = true := rfl

/-- An activation at this tick waits for the deadtime (R10). -/
theorem Line.delayOver_new (hd : dead ≠ 0) (hw : x.wasRequested = false) :
    Line.delayOver { x with requested := true } dead = false := by
  simp [Line.delayOver, Line.sinceNow, hd, hw, hd.symm]

/-- `n + 1` ticks after its activation a line still requested waits, has its delayed activation, or is active (R10). -/
theorem Line.delayOver_since (hd : dead ≠ 0) (hw : x.wasRequested = true) (hs : x.since = some n) :
    Line.delayOver { x with requested := true } dead =
      (decide (dead ≤ n) || (x.activationTaken && decide (n + 1 = dead))) := by
  simp [Line.delayOver, Line.sinceNow, hd, hw, hs]

end Complementary

/-- Settles O50: the runs of a PULSE, the two modes of a pair, and the demands of the lanes. -/
theorem linesFollowTheirDemands : Obligations.LinesFollowTheirDemands := by
  refine ⟨fun period onTime t unit hon ht => ?runs, fun x even odd => ?pair, fun p => ?lanes⟩
  case runs =>
    refine ⟨?_, ?_, Shape.demand_pulse period onTime t, rfl, rfl, rfl⟩
    · simp [Shape.demand_pulse_top, inRun_iff, runStart]
    · simp only [Shape.demand_pulse_top, inRun_iff, runStart]
  case pair =>
    intro y follows
    have hfollows (z : Line) (P : Prop) [Decidable P] (dead : Nat) :
        follows z (z.driveComplementary (decide P) dead) P dead := by
      refine ⟨fun hr => ?_, fun hr hd => ?_, fun hr hd hw => ?_, fun n hr hd hw hs => ?_⟩
      · rw [Line.driveComplementary_level, decide_eq_false hr, Bool.false_and]
      · rw [Line.driveComplementary_level, decide_eq_true hr, hd, Line.delayOver_zero, Bool.and_self]
      · rw [Line.driveComplementary_level, decide_eq_true hr, Line.delayOver_new hd hw, Bool.and_false]
      · rw [Line.driveComplementary_level, decide_eq_true hr, Line.delayOver_since hd hw hs, Bool.true_and]
        refine ⟨fun hlt => congrArg z.polarity.level ?_, fun heq => congrArg z.polarity.level ?_,
          fun hle => congrArg z.polarity.level ?_⟩
        · have h1 : ¬dead ≤ n := by omega
          have h2 : n + 1 ≠ dead := by omega
          simp [h1, h2]
        · have h1 : ¬dead ≤ n := by omega
          simp [h1, heq]
        · simp [hle]
    refine ⟨fun hmode => ?_, fun hmode => ?_⟩
    · have hy : y = { x with top := x.top.driveIndependent even, bottom := x.bottom.driveIndependent odd } := by
        simp only [y, Pair.drive, hmode]
      rw [hy]
      exact ⟨by cases even <;> rfl, by cases odd <;> rfl⟩
    · have hy : y = { x with
          top := x.top.driveComplementary (decide (even = some .top)) x.deadA.toNat
          bottom := x.bottom.driveComplementary (decide (even = some .bottom)) x.deadB.toNat } := by
        simp only [y, Pair.drive, hmode]
      rw [hy]
      exact ⟨hfollows _ _ _, hfollows _ _ _⟩
  case lanes =>
    intro hands
    have hhands (l : Fin 6) : hands l = (p.lane l).demand := (Lane.demand_eq (p.lane l)).symm
    refine ⟨rfl, fun k => ?_⟩
    rw [hhands, hhands, Part.driveLines_pair]
    rfl

/-! ## Delayed activation -/

theorem isTopLine_evenLane : ∀ k : Fin 3, isTopLine (evenLane k) = true := by decide

theorem isTopLine_oddLane : ∀ k : Fin 3, isTopLine (oddLane k) = false := by decide

theorem linePair_evenLane : ∀ k : Fin 3, linePair (evenLane k) = k := by decide

theorem linePair_oddLane : ∀ k : Fin 3, linePair (oddLane k) = k := by decide

/-- A line requested for its whole deadtime has its activation due (R10). -/
theorem Line.activationDue_of {x : Line} {dead : Nat} (hr : x.requested = true) (hw : x.wasRequested = true)
    (ht : x.activationTaken = false) (hd : 0 < dead) (hs : x.since = some (dead - 1)) : x.activationDue dead = true := by
  simp [Line.activationDue, Line.sinceNow, hr, hw, ht, hd, hs, Nat.sub_add_cancel hd]

/-- Settles O51, for the top and the bottom line. -/
theorem delayedActivationIsTaken : Obligations.DelayedActivationIsTaken := by
  intro s k hphase p x hmode hany
  have hdoes {o : Fin 6} {q : Part} (hdue : p.delayedActivationDue o = true) (hq : p.takeActivation o = q) :
      Does (.delayedActivation o) s q :=
    does_of_due (f := fun r => r.takeActivation o) rfl hphase hdue hq
  refine ⟨fun hr hw ht hd hs => hdoes ?_ ?_, fun hr hw ht hd hs => hdoes ?_ ?_⟩
  · have hdue : (p.line (evenLane k)).activationDue ((p.pair k).deadOf true) = true := by
      rw [Part.line, isTopLine_evenLane, linePair_evenLane]
      exact Line.activationDue_of hr hw ht hd hs
    have hmode' : (p.pair k).mode = .complementary := hmode
    simp [Part.delayedActivationDue, isTopLine_evenLane, linePair_evenLane, hdue, hmode', hany]
  · simp only [Part.takeActivation, isTopLine_evenLane, linePair_evenLane, if_true]
    rfl
  · have hdue : (p.line (oddLane k)).activationDue ((p.pair k).deadOf false) = true := by
      rw [Part.line, isTopLine_oddLane, linePair_oddLane]
      exact Line.activationDue_of hr hw ht hd hs
    have hmode' : (p.pair k).mode = .complementary := hmode
    simp [Part.delayedActivationDue, isTopLine_oddLane, linePair_oddLane, hdue, hmode', hany]
  · simp only [Part.takeActivation, isTopLine_oddLane, linePair_oddLane, Bool.false_eq_true, if_false]
    rfl

/-! ## The tick -/

/-- Primitive moves do not touch the tick counter. -/
theorem Part.Move.count {p q : Part} (m : Part.Move p q) : q.timebase.count = p.timebase.count := by
  cases m with
  | inner _ _ _ _ _ _ ht => exact ht
  | _ => rfl

theorem Part.Moves.count {p q : Part} (h : Part.Moves p q) : q.timebase.count = p.timebase.count := by
  refine h.keeps (P := fun r => r.timebase.count = p.timebase.count) (fun a b m ha => ?_) rfl
  rw [m.count, ha]

theorem Part.nextTick_count (p : Part) (s : Pins) : (p.nextTick s).timebase.count = p.timebase.count + 1 := rfl

/-- The tick counter advances by 1, whatever is due (R2). -/
theorem Part.tick_count {p : Part} (h : p.resetPhase = .ended) (s : Pins) (start : StartBit) :
    (p.tick s start).timebase.count = p.timebase.count + 1 := by
  have hrunning : p.isRunning = true := decide_eq_true h
  have hdue := (Part.Moves.takeDue decodesInRange (Part.Moves.acceptStart (.refl p) start)).count
  rw [Part.tick, if_pos hrunning, (Part.Moves.settle decodesInRange (.refl _)).count, Part.nextTick_count, hdue]

theorem FaultInput.takeSample_eq (f : FaultInput) (level : Level) : f.takeSample level = { f with
    sample := level
    run := if level = f.qualified then 0 else f.run + 1
    due := decide (level ≠ f.qualified ∧ f.filter ≤ f.run + 1) } := by
  unfold FaultInput.takeSample
  split
  case isTrue h => simp [h]
  case isFalse h => simp [h]

/-- A start bit outside a byte is accepted unless the receiver awaits an idle line that has not come (R152). -/
theorem Part.acceptStart_begins (p : Part) (idle : Bool) : p.acceptStart (.begins idle) = { p with link :=
    if p.link.receiving = false ∧ (p.link.awaitsIdle = false ∨ idle = true) then
      { p.link with receiving := true, awaitsIdle := false, gap := none }
    else p.link } := by
  simp only [Part.acceptStart, Link.accepts, Bool.and_eq_true, Bool.or_eq_true, Bool.not_eq_true']
  split
  · rfl
  · rfl

/-- Settles O52: the counter by what every move keeps; with nothing due, block by block. -/
theorem tickAdvancesTime : Obligations.TickAdvancesTime := by
  intro s x hphase p next k begun closed
  have hbegun : p.acceptStart x.start = begun := by
    cases hx : x.start with
    | none =>
      simp only [begun, k, hx]
      rfl
    | begins idle =>
      simp only [begun, k, hx]
      exact Part.acceptStart_begins p idle
  refine ⟨⟨p.tick next x.start, rfl, Part.tick_count hphase _ _⟩, fun hdue => ?_⟩
  have htick : p.tick next x.start = (begun.nextTick next).settle := by
    have hrunning : p.isRunning = true := decide_eq_true hphase
    rw [Part.tick, if_pos hrunning, hbegun, hdue]
  refine ⟨begun.nextTick next, ?_, rfl, rfl, fun j => ?_, fun l => ?_, fun i => ?_, fun i => ?_, rfl, rfl⟩
  · exact congrArg (fun q => Host.Outcome.next { s with part := q }) htick
  · exact Part.nextTick_pair begun next j
  · exact Part.nextTick_lane begun next l
  · exact Part.nextTick_trigger begun next i
  · exact (Part.nextTick_fault begun next i).trans (FaultInput.takeSample_eq _ _)

end Sys2Proof.Machine
end

section
/-! # The transmitter (O41) -/

namespace Sys2Proof.Machine

/-! ## Which entry is sent -/

section SendNext

variable {older newer queue : List Entry} {e : Entry} {n : Byte}

/-- An entry without a resend mark is passed over. -/
theorem resendOldest_cons (h : ∀ m, e.status ≠ .inFlight m true) :
    resendOldest (e :: queue) = (resendOldest queue).map (fun r => (r.1, e :: r.2)) := by
  rw [resendOldest]
  split
  · next m hm => exact absurd hm (h m)
  · rfl

/-- The oldest entry marked for resend is sent under its number (R175). -/
theorem resendOldest_marked (he : e.status = .inFlight n true) (hold : ∀ d ∈ older, ∀ m, d.status ≠ .inFlight m true) :
    resendOldest (older ++ e :: newer) = some (e.frame n, older ++ { e with status := .inFlight n false } :: newer) := by
  induction older with
  | nil => simp only [List.nil_append, resendOldest, he]
  | cons d rest ih =>
    rw [List.cons_append, resendOldest_cons (hold d List.mem_cons_self),
      ih (fun d' hd' => hold d' (List.mem_cons_of_mem _ hd'))]
    rfl

theorem resendOldest_none (h : ∀ d ∈ queue, ∀ m, d.status ≠ .inFlight m true) : resendOldest queue = none := by
  induction queue with
  | nil => rfl
  | cons d rest ih =>
    rw [resendOldest_cons (h d List.mem_cons_self), ih (fun d' hd' => h d' (List.mem_cons_of_mem _ hd'))]
    rfl

/-- The oldest PENDING entry takes the next number (R175). -/
theorem sendOldestPending_first (he : e.status = .pending) (hold : ∀ d ∈ older, d.inFlight = true) :
    sendOldestPending n (older ++ e :: newer) =
      some (e.frame n, older ++ { e with status := .inFlight n false } :: newer) := by
  induction older with
  | nil => simp only [List.nil_append, sendOldestPending, he]
  | cons d rest ih =>
    have hrest := ih (fun d' hd' => hold d' (List.mem_cons_of_mem _ hd'))
    have hd := hold d List.mem_cons_self
    cases hs : d.status with
    | pending => simp [Entry.inFlight, hs] at hd
    | inFlight m b => simp only [List.cons_append, sendOldestPending, hs, hrest, Option.map_some]

theorem inFlightCount_append (hold : ∀ d ∈ older, d.inFlight = true) (hnew : ∀ d ∈ newer, d.inFlight = false) :
    inFlightCount (older ++ newer) = older.length := by
  have hnone : newer.countP Entry.inFlight = 0 := List.countP_eq_zero.mpr (fun d hd => by simp [hnew d hd])
  rw [inFlightCount, List.countP_append, List.countP_eq_length.mpr hold, hnone, Nat.add_zero]

end SendNext

/-! ## The arbiter -/

section Arbiter

variable {q : Part}

theorem Part.dispatch_empty (hb : q.link.buffer = []) : q.dispatch = q := by
  rw [Part.dispatch, hb]
  exact ite_self q

/-- With no request waiting, the end of a frame leaves the arbiter to act. -/
theorem becomes_of_frameSent {s : State} {sent : TxFrame} {r : Part} (hphase : s.part.resetPhase = .ended)
    (htx : s.part.link.tx = some sent) (hresets : sent.resets = false) (hb : s.part.link.buffer = [])
    (hr : Part.arbitrate { s.part with link := { s.part.link with tx := none } } = r) (hrb : r.link.buffer = []) :
    Becomes .frameSent s r.driveLines := by
  have hfinish : s.part.finishFrame = { s.part with link := { s.part.link with tx := none } } := by
    simp only [Part.finishFrame, htx, hresets, Bool.false_eq_true, if_false]
  have hpump : s.part.finishFrame.pump = r := by
    rw [hfinish, Part.pump, Part.dispatch_empty (q := { s.part with link := { s.part.link with tx := none } }) hb, hr,
      Part.dispatch_empty hrb]
  show Host.Outcome.next { s with part := s.part.event Part.finishFrame } = _
  rw [Part.event_ended hphase, Part.settle, hpump]

theorem Part.arbitrate_reply {r : Reply} (ht : q.link.tx = none) (hs : q.link.slot = some r) :
    q.arbitrate = { q with link := { q.link with tx := some r.frame, slot := none } } := by
  simp only [Part.arbitrate, ht, hs]

theorem Part.arbitrate_idle (ht : q.link.tx = none) (hs : q.link.slot = none)
    (h : q.link.synced = false ∨ q.notif.channel = .stalled) : q.arbitrate = q := by
  have hno : (q.link.synced && decide (q.notif.channel = .running)) = false := by
    obtain h | h := h <;> simp [h]
  simp only [Part.arbitrate, ht, hs, Part.beginNotify, hno, Bool.false_eq_true, if_false]

theorem Part.arbitrate_notify {r : TxFrame × NotificationUnit} (ht : q.link.tx = none) (hs : q.link.slot = none)
    (hsync : q.link.synced = true) (hrun : q.notif.channel = .running) (hr : q.notif.sendNext q.link.interval = some r) :
    q.arbitrate = { q with notif := r.2, link := { q.link with tx := some r.1 } } := by
  simp only [Part.arbitrate, ht, hs, Part.beginNotify, hsync, hrun, decide_true, Bool.and_self, if_true, hr]

end Arbiter

/-! ## The frames -/

/-- The NOTIFY frame of an entry, field by field (R177, R196). -/
theorem Entry.frame_bytes (e : Entry) (number : Byte) : (e.frame number).bytes =
    frameBytes 3 number e.what.code (e.what.subject :: [byteOf (e.stamp.toNat / 16777216), byteOf (e.stamp.toNat / 65536),
      byteOf (e.stamp.toNat / 256), byteOf e.stamp.toNat] ++ e.what.fields) := by
  rw [← bytes32_eq]
  rfl

theorem fromPatternBytes_eq (k : Option (Fin 8)) :
    fromPatternBytes k = match k with | some k => [1, byteOf k.val] | none => [0, 0] := by
  cases k <;> rfl

/-- Settles O41: the frames by their fields, then what the arbiter begins. -/
theorem transmitterPassesToTheNextFrame : Obligations.TransmitterPassesToTheNextFrame := by
  refine ⟨?frames, fun s sent hphase => ?next⟩
  case frames =>
    intro frame two origin
    refine ⟨fun r => frameBytes_eq 2 r.seq r.code r.payload, fun e number => ?_⟩
    obtain ⟨what, stamp, status⟩ := e
    intro t holds
    have hholds (code subject : Byte) (fields : List Byte) (hc : what.code = code) (hs : what.subject = subject)
        (hf : what.fields = fields) : holds code subject fields := by
      subst hc hs hf
      exact (Entry.frame_bytes _ number).trans (frameBytes_eq _ _ _ _)
    cases what with
    | segmentTag l tag outcome k =>
      exact hholds _ _ _ rfl rfl (congrArg ([tag, outcome.byte] ++ ·) (fromPatternBytes_eq k))
    | markReached l tag k => exact hholds _ _ _ rfl rfl (congrArg (tag :: ·) (fromPatternBytes_eq k))
    | underrun l b => exact hholds _ _ _ rfl rfl rfl
    | watermark l n => exact hholds _ _ _ rfl rfl (natBytes16_eq n)
    | laneStopped l cause n => exact hholds _ _ _ rfl rfl (congrArg (cause.byte :: ·) (natBytes16_eq n))
    | fault i mode lanes => exact hholds _ _ _ rfl rfl rfl
    | barrierReleased b cause lanes => exact hholds _ _ _ rfl rfl rfl
    | barrierPass l b => exact hholds _ _ _ rfl rfl rfl
    | trimDropped l => exact hholds _ _ _ rfl rfl rfl
    | capture i d synthetic => exact hholds _ _ _ rfl rfl rfl
    | patternMissing l k => exact hholds _ _ _ rfl rfl rfl
    | lost n kinds => exact hholds _ _ _ rfl rfl (congr (congrArg (· ++ ·) (natBytes16_eq n)) (bytes16_eq kinds))
  case next =>
    intro p htx hresets hb
    refine ⟨fun r hs => ?_, fun hs hno => ?_, fun hs hsync hrun => ⟨fun older e newer n hq he hold => ?_,
      fun older e newer hq he hlen hold hnew => ?_⟩⟩
    · exact becomes_of_frameSent hphase htx hresets hb (Part.arbitrate_reply rfl hs) hb
    · exact becomes_of_frameSent hphase htx hresets hb (Part.arbitrate_idle rfl hs hno) hb
    · have hsend : p.notif.sendNext p.link.interval = some (e.frame n,
          { p.notif with queue := older ++ { e with status := .inFlight n false } :: newer }) := by
        simp only [NotificationUnit.sendNext, hq, resendOldest_marked he hold]
      exact becomes_of_frameSent hphase htx hresets hb
        (Part.arbitrate_notify (q := { p with link := { p.link with tx := none } }) rfl hs hsync hrun hsend) hb
    · have hsent : ∀ d ∈ older, d.inFlight = true := fun d hd => by
        obtain ⟨m, hm⟩ := hold d hd
        simp [Entry.inFlight, hm]
      have hwaits : ∀ d ∈ e :: newer, d.status = .pending := List.forall_mem_cons.mpr ⟨he, hnew⟩
      have hcount : inFlightCount (older ++ e :: newer) < Config.window := by
        rw [inFlightCount_append hsent (fun d hd => by simp [Entry.inFlight, hwaits d hd])]
        exact hlen
      have hresend : resendOldest (older ++ e :: newer) = none := resendOldest_none (fun d hd m hm => by
        obtain hd | hd := List.mem_append.mp hd
        · obtain ⟨m', hm'⟩ := hold d hd
          exact nomatch hm'.symm.trans hm
        · exact nomatch (hwaits d hd).symm.trans hm)
      have hsend : p.notif.sendNext p.link.interval = some (e.frame p.notif.nextNumber, { p.notif with
          queue := older ++ { e with status := .inFlight p.notif.nextNumber false } :: newer
          nextNumber := p.notif.nextNumber + 1
          timer := if p.notif.timer.isSome then p.notif.timer else some (p.link.interval * 80000) }) := by
        simp only [NotificationUnit.sendNext, hq, hresend, if_pos hcount, sendOldestPending_first he hsent]
        rfl
      exact becomes_of_frameSent hphase htx hresets hb
        (Part.arbitrate_notify (q := { p with link := { p.link with tx := none } }) rfl hs hsync hrun hsend) hb

end Sys2Proof.Machine
end

section
/-! # The queries (O5) -/

namespace Sys2Proof.Machine

/-- A request that changes nothing and answers with these bytes. -/
theorem takes_of_query {c : Instr} {s : State} {seq : Byte} {k : RequestKind} {payload body reported : List Byte}
    (h : s.part.Ready seq) (hc : requestOf c = some (requestFrame seq (requestCode k) payload))
    (hrun : runRequest k payload s.part = (s.part, answerOk reported)) (hk : k ≠ .reset) (hbody : reported = body) :
    Takes c s s.part (okWith body) :=
  takes_of_ready h hc (hrun.trans (congrArg (fun b => (s.part, answerOk b)) hbody)) rfl hk

/-! ## The entries of the regions, patterns and barriers -/

theorem Binding.bytes_eq (b : Binding) : b.bytes =
    match b with
    | .none => [0, 0]
    | .lane l => [1, byteOf l.val]
    | .pattern k => [2, byteOf k.val] := by
  cases b <;> rfl

theorem Region.bytes_eq (g : Region) : g.bytes =
    if g.defined then
      [1] ++ [byteOf (g.start / 256), byteOf g.start] ++ [byteOf (g.size / 256), byteOf g.size] ++ g.binding.bytes ++
        [byteOf (g.head / 256), byteOf g.head] ++ [byteOf (g.count / 256), byteOf g.count] ++
        [byteOf (g.loaded / 256), byteOf g.loaded]
    else List.replicate 13 0 := by
  simp only [Region.bytes, natBytes16_eq]
  rfl

theorem Barrier.elapsed_eq (x : Barrier) (now : Tick) :
    x.elapsed now = match x.counter with | some f => (now - f).toNat | none => 0 := by
  cases hx : x.counter <;> simp only [Barrier.elapsed, hx]

theorem Barrier.waitsForEdge_eq (x : Barrier) : x.waitsForEdge =
    match x.mode with
    | .all => false
    | .trigger => decide (x.arrived ≠ 0)
    | .allThenTrigger => decide (x.arrived = x.members) := by
  cases hx : x.mode <;> simp only [Barrier.waitsForEdge, hx]

/-! ## What a lane reports -/

section LaneReport

variable (p : Part) (l : Fin 6) (x : Lane)

/-- The current segment, by the states in which a lane has one (R48, R56). -/
theorem Part.currentSegment_eq : p.currentSegment l =
    if (p.lane l).state = .waiting ∨ (((p.lane l).state = .running ∨ (p.lane l).state = .stopping) ∧
        (p.lane l).playsHeld = false ∧ ((p.lane l).period.isSome = true ∨ (p.lane l).call.isSome = true))
    then p.queueHead l else none := by
  refine ite_congr (propext ?_) (fun _ => rfl) (fun _ => rfl)
  cases hs : (p.lane l).state <;> simp [Lane.hasCurrent, hs]

theorem optBytes_eq (o : Option Nat) :
    optBytes o = match o with | some n => 1 :: [byteOf (n / 256), byteOf n] | none => [0, 0, 0] := by
  cases o with
  | none => rfl
  | some n => exact congrArg (1 :: ·) (natBytes16_eq n)

end LaneReport

/-- Settles O5, query by query. -/
theorem queriesReportAndChangeNothing : Obligations.QueriesReportAndChangeNothing := by
  intro s seq hready p two four optional elapsed
  have htwo : natBytes16 = two := funext natBytes16_eq
  have hfour : natBytes32 = four := funext natBytes32_eq
  have hoptional : optBytes = optional := funext optBytes_eq
  refine ⟨takes_of_query (k := .getStatus) hready rfl rfl nofun ?status,
    takes_of_query (k := .getLinkStats) hready rfl rfl nofun rfl,
    takes_of_query (k := .getRegions) hready rfl rfl nofun ?regions, fun l => ?lane,
    takes_of_query (k := .getPatterns) hready rfl rfl nofun ?patterns,
    takes_of_query (k := .getTriggers) hready rfl rfl nofun rfl, fun b => ?barrier,
    takes_of_query (k := .getFaults) hready rfl rfl nofun ?faults⟩
  case status =>
    rw [Part.statusBytes, bytes32_eq]
    rfl
  case regions =>
    simp only [Region.bytes_eq, Binding.bytes_eq, natBytes16_eq]
    rfl
  case patterns =>
    show allPatterns.flatMap p.patternBytes = _
    refine congrArg (fun f => allPatterns.flatMap f) (funext fun k => ?_)
    rw [Part.patternBytes, htwo]
    rfl
  case faults =>
    have hrecord : p.firstFaultBytes = match p.firstFault with
        | some r => [1, byteOf r.input.val] ++ four r.stamp.toNat
        | none => [0, 0, 0, 0, 0, 0] := by
      cases hr : p.firstFault with
      | none => simp only [Part.firstFaultBytes, hr]
      | some r => simp only [Part.firstFaultBytes, hr, bytes32_eq, four]
    rw [hrecord]
    rfl
  case barrier =>
    intro x waits
    have hrun : runRequest .getBarrier [byteOf b.val] p = (p, answerOk (p.barrierBytes b)) := by
      simp only [runRequest, withOne, doGetBarrier, finOfByte_four]
    refine takes_of_query (k := .getBarrier) hready rfl hrun nofun ?_
    have helapsed : x.elapsed p.now = elapsed x := Barrier.elapsed_eq x _
    have hwaits : x.waitsForEdge = waits := Barrier.waitsForEdge_eq x
    rw [← hwaits, ← helapsed, ← htwo, ← hfour]
    rfl
  case lane =>
    intro x segment kind number call onTimes trim record
    have hrun : runRequest .getLane [byteOf l.val] p = (p, answerOk (p.laneBytes l)) := by
      simp only [runRequest, withOne, doGetLane, finOfByte_lane]
    refine takes_of_query (k := .getLane) hready rfl hrun nofun ?_
    have hsegment : p.currentSegment l = segment := Part.currentSegment_eq p l
    have hkind : p.currentKindByte l = kind := by
      simp only [Part.currentKindByte, hsegment]
      rfl
    have hnumber : p.currentIdByte l = number := by
      simp only [Part.currentIdByte, hsegment]
      rfl
    have hcall : p.callBytes l = call := by
      simp only [Part.callBytes, htwo]
      rfl
    have honTimes : x.onTimeBytes = onTimes := by
      simp only [Lane.onTimeBytes, htwo, hoptional]
      rfl
    have htrim : x.trimBytes = trim := by
      simp only [Lane.trimBytes, hoptional]
      rfl
    have hrecord : x.recordBytes = record := by
      simp only [Lane.recordBytes, htwo, hoptional, Bool.or_eq_true, decide_eq_true_eq]
      rfl
    rw [Part.laneBytes, hkind, hnumber, hcall, honTimes, htrim, hrecord, Lane.remainingBytes, htwo]
    rfl

end Sys2Proof.Machine
end

section
/-! # The delivery of an edge (O31) -/

namespace Sys2Proof.Machine

/-! ## The consumers -/

section Consumers

variable {p : Part} {i : Fin 4}

/-- Barrier `b` does not wait for an edge on input `i` (R117, R126, R127). -/
def Part.NotConsumer (p : Part) (i b : Fin 4) : Prop :=
  (p.barrier b).trigger ≠ i ∨ (p.barrier b).mode = .all ∨
    ((p.barrier b).mode = .trigger ∧ (p.barrier b).arrived = 0) ∨
    ((p.barrier b).mode = .allThenTrigger ∧ (p.barrier b).arrived ≠ (p.barrier b).members)

theorem Part.NotConsumer.eq_false {b : Fin 4} (h : p.NotConsumer i b) :
    (decide ((p.barrier b).trigger = i) && (p.barrier b).waitsForEdge) = false := by
  obtain h | h | ⟨h, ha⟩ | ⟨h, ha⟩ := h
  · rw [decide_eq_false h, Bool.false_and]
  · simp [Barrier.waitsForEdge, h]
  · simp [Barrier.waitsForEdge, h, ha]
  · simp [Barrier.waitsForEdge, h, ha]

theorem Barrier.waitsForEdge_of {x : Barrier} (h : (x.mode = .trigger ∧ x.arrived ≠ 0) ∨
    (x.mode = .allThenTrigger ∧ x.arrived = x.members)) : x.waitsForEdge = true := by
  obtain ⟨hmode, ha⟩ | ⟨hmode, ha⟩ := h
  · simp only [Barrier.waitsForEdge, hmode]
    exact decide_eq_true ha
  · simp only [Barrier.waitsForEdge, hmode]
    exact decide_eq_true ha

theorem Part.consumerBarriers_none (h : ∀ b, p.NotConsumer i b) : p.consumerBarriers i = [] := by
  rw [Part.consumerBarriers, List.filter_eq_nil_iff.mpr (fun b _ => by simp [(h b).eq_false]), List.map_nil]

theorem allFour_filter_eq : ∀ b : Fin 4, allFour.filter (fun c => decide (c = b)) = [b] := by decide

/-- The one consumer barrier of an edge is released with the lanes that wait at it (R117). -/
theorem Part.consumerBarriers_one {b : Fin 4} (hother : ∀ c, c ≠ b → p.NotConsumer i c)
    (hi : (p.barrier b).trigger = i) (hw : (p.barrier b).waitsForEdge = true) :
    p.consumerBarriers i = [.release b .trigger (p.barrier b).arrived] := by
  have hfilter : allFour.filter (fun c => decide ((p.barrier c).trigger = i) && (p.barrier c).waitsForEdge) = [b] := by
    rw [← allFour_filter_eq b]
    refine List.filter_congr (fun c _ => ?_)
    by_cases hc : c = b
    · rw [hc, hw, decide_eq_true hi, decide_eq_true rfl, Bool.and_self]
    · rw [(hother c hc).eq_false, decide_eq_false hc]
  rw [Part.consumerBarriers, hfilter]
  rfl

theorem Part.consumerLanes_none (h : p.armedOn i = 0) : p.consumerLanes i = [] := by
  rw [Part.consumerLanes, h]
  rfl

theorem Part.consumerLanes_one {l : Fin 6} (h : p.armedOn i = single l) : p.consumerLanes i = [.begin l] := by
  rw [Part.consumerLanes, h, lanesOf_single]
  rfl

/-- The release of an empty set tells it and lets no lane go (R127, Log 13). -/
theorem runTasks_release_none (n : Nat) (b : Fin 4) (cause : ReleaseCause) (rest : List Task) (r : Part)
    (h : (r.barrier b).arrived = 0) : runTasks (n + 1) (.release b cause 0 :: rest) r = runTasks n rest
      ((r.notify (.barrierReleased b cause 0)).setBarrier b { r.barrier b with arrived := 0, counter := none }) := by
  rw [runTasks_cons, Task.run_release_all cause h]
  rfl

theorem Part.deliverEdge_link (d : Direction) (synthetic : Bool) : (p.deliverEdge i d synthetic).link = p.link := by
  unfold Part.deliverEdge
  refine (runTasks_link _ _ _).trans ?_
  split
  · rfl
  · rfl

end Consumers

/-- The start of a segment touches no other lane. -/
theorem Part.startTimed_lane_of_ne (p : Part) {l m : Fin 6} (h : m ≠ l) (body : SegmentBody) :
    (p.startTimed l body).lane m = p.lane m := by
  cases body with
  | pulse period onTime alternate a repeats => rw [Part.startTimed_pulse, Part.setLane_lane_of_ne _ _ h]
  | level code unit repeats => rw [Part.startTimed_level, Part.setLane_lane_of_ne _ _ h]
  | barrier b => rfl
  | call k plays => rfl
  | mark => rfl

/-- Settles O31: the tasks of the delivery by its consumers, each run on the part with its CAPTURE. -/
theorem edgesAreDeliveredToTheirConsumers : Obligations.EdgesAreDeliveredToTheirConsumers := by
  intro s i p t pin forced q captured due delivers stays started emptied freed
  have hself : q.trigger i = { t with qualified := t.sample } := Part.setTrigger_trigger_self _ _ _
  have hcapture : (q.trigger i).capture = t.capture := by rw [hself]
  have htake : p.takeEdge i = if t.edges.admits pin then q.deliverEdge i pin false else q := by
    have hpin : edgeTo t.sample = pin := by cases ht : t.sample <;> simp [pin, ht, edgeTo]
    rw [Part.takeEdge, ← hpin]
  have hedge {r : Part} (hdue : due) (hr : p.takeEdge i = r) : Does (.triggerEdge i) s r := by
    obtain ⟨hphase, hne, heq⟩ := hdue
    refine does_of_due (f := fun q => q.takeEdge i) rfl hphase ?_ hr
    exact Bool.and_eq_true_iff.mpr ⟨decide_eq_true hne, decide_eq_true heq⟩
  have hdelivers {tasks : List Task} {reached : Part → Part} (htasks : p.consumerBarriers i ++ p.consumerLanes i = tasks)
      (hrun : ∀ u ts, let r := { p with notif := u, triggers := ts }
        runTasks 65536 tasks r = reached r) : delivers reached := by
    have hcaptured {r : Part} (ts : Vector TriggerInput 4) (d : Direction) (synthetic : Bool)
        (hr : r = { p with triggers := ts }) (hkept : (r.trigger i).capture = t.capture) :
        r.deliverEdge i d synthetic = reached (captured r d synthetic) := by
      subst hr
      unfold Part.deliverEdge
      rw [hkept]
      show runTasks 65536 (p.consumerBarriers i ++ p.consumerLanes i) _ = _
      rw [htasks]
      simp only [captured]
      split
      · exact hrun (p.notif.create p.now (.capture i d synthetic)) ts
      · exact hrun p.notif ts
    refine ⟨fun hdue hadmits => hedge hdue ?_, fun seq hready => ?_⟩
    · exact htake.trans ((if_pos hadmits).trans (hcaptured q.triggers pin false rfl hcapture))
    · have hforced : t.syntheticDirection = forced := by
        cases ht : t.qualified <;> simp [TriggerInput.syntheticDirection, forced, ht]
      have hrun : runRequest .fireTrigger [byteOf i.val] p =
          (p.deliverEdge i forced true, okWith (bytes32 p.timebase.count)) := by
        rw [← hforced]
        simp only [runRequest, withOne, doFireTrigger, finOfByte_four]
        rfl
      rw [← hcaptured p.triggers forced true rfl rfl]
      exact takes_of_ready (k := .fireTrigger) hready rfl hrun (congrArg Link.buffer (Part.deliverEdge_link _ _)) nofun
  have hconsumer (b : Fin 4) (hother : ∀ c, c ≠ b → stays c) (hi : (p.barrier b).trigger = i)
      (h : ((p.barrier b).mode = .trigger ∧ (p.barrier b).arrived ≠ 0) ∨
        ((p.barrier b).mode = .allThenTrigger ∧ (p.barrier b).arrived = (p.barrier b).members)) :
      p.consumerBarriers i = [.release b .trigger (p.barrier b).arrived] :=
    Part.consumerBarriers_one hother hi (Barrier.waitsForEdge_of h)
  have hwaiting (b : Fin 4) (m : Fin 6) (hother : ∀ c, c ≠ b → stays c) (hi : (p.barrier b).trigger = i)
      (ha : (p.barrier b).arrived = single m)
      (hmode : (p.barrier b).mode = .trigger ∨ ((p.barrier b).mode = .allThenTrigger ∧ (p.barrier b).members = single m)) :
      p.consumerBarriers i = [.release b .trigger (single m)] := by
    rw [← ha]
    refine hconsumer b hother hi (hmode.imp (fun h => ⟨h, ha ▸ single_ne_zero m⟩) (fun ⟨h, hm⟩ => ⟨h, ha.trans hm.symm⟩))
  have hfreed (b : Fin 4) (m : Fin 6) (u : NotificationUnit) (ts : Vector TriggerInput 4) :
      (freed b m { p with notif := u, triggers := ts }).store = (freed b m p).store ∧
        (freed b m { p with notif := u, triggers := ts }).regions = (freed b m p).regions :=
    Part.retireHead_congr (p := (emptied b (single m) p).setLane m { p.lane m with state := .running })
      (q := (emptied b (single m) { p with notif := u, triggers := ts }).setLane m { p.lane m with state := .running })
      m .completed rfl rfl
  refine ⟨fun hdue hadmits => hedge hdue ?_, fun hstays => ⟨fun ha => ?_, fun l g ha hg ht => ?_⟩,
    fun b hother hi hmode hmembers harrived => ⟨fun ha => ?_, fun l g ha hg ht => ?_⟩,
    fun b m h hother hi harrived hmode hh hth => ⟨fun ha => ?_, fun l g ha hlm hg ht => ?_⟩⟩
  · rw [htake, if_neg (Bool.eq_false_iff.mp hadmits)]
  · refine hdelivers (tasks := []) (reached := fun r => r) ?_ (fun u ts => runTasks_nil 65536 _)
    rw [Part.consumerBarriers_none hstays, Part.consumerLanes_none ha, List.append_nil]
  · refine hdelivers (tasks := [.begin l]) (reached := started l g) ?_ (fun u ts => ?_)
    · rw [Part.consumerBarriers_none hstays, Part.consumerLanes_one ha, List.nil_append]
    · intro r
      exact (runTasks_begin 65534 l [] r hg ht).trans (runTasks_nil _ _)
  · have hempty := hconsumer b hother hi (.inr ⟨hmode, harrived.trans hmembers.symm⟩)
    refine hdelivers (tasks := [.release b .trigger 0]) (reached := emptied b 0) ?_ (fun u ts => ?_)
    · rw [hempty, Part.consumerLanes_none ha, List.append_nil, harrived]
    · intro r
      exact (runTasks_release_none 65535 b .trigger [] r harrived).trans (runTasks_nil _ _)
  · have hempty := hconsumer b hother hi (.inr ⟨hmode, harrived.trans hmembers.symm⟩)
    refine hdelivers (tasks := [.release b .trigger 0, .begin l])
      (reached := fun r => started l g (emptied b 0 r)) ?_ (fun u ts => ?_)
    · rw [hempty, Part.consumerLanes_one ha, harrived]
      rfl
    · intro r
      exact (runTasks_release_none 65535 b .trigger [.begin l] r harrived).trans
        ((runTasks_begin 65533 l [] (emptied b 0 r) hg ht).trans (runTasks_nil _ _))
  · refine hdelivers (tasks := [.release b .trigger (single m)])
      (reached := fun r => (freed b m r).startTimed m h.body) ?_ (fun u ts => ?_)
    · rw [hwaiting b m hother hi harrived hmode, Part.consumerLanes_none ha, List.append_nil]
    · intro r
      obtain ⟨hstore, hregions⟩ := hfreed b m u ts
      have hhead : (freed b m r).queueHead m = some h := (Part.queueHead_congr m hstore hregions).trans hh
      exact (runTasks_release_single 65533 b .trigger m [] r harrived hhead hth).trans (runTasks_nil _ _)
  · refine hdelivers (tasks := [.release b .trigger (single m), .begin l])
      (reached := fun r => started l g ((freed b m r).startTimed m h.body)) ?_ (fun u ts => ?_)
    · rw [hwaiting b m hother hi harrived hmode, Part.consumerLanes_one ha]
      rfl
    · intro r
      obtain ⟨hstore, hregions⟩ := hfreed b m u ts
      have hhead : (freed b m r).queueHead m = some h := (Part.queueHead_congr m hstore hregions).trans hh
      have hnext : ((freed b m r).startTimed m h.body).queueHead l = some g := by
        refine (Part.queueHead_congr l ?_ ?_).trans hg
        · rw [Part.startTimed_store, Part.startTimed_store, hstore]
        · rw [Part.startTimed_regions, Part.startTimed_regions, hregions]
      have hlane : ((freed b m r).startTimed m h.body).lane l = p.lane l := by
        rw [Part.startTimed_lane_of_ne _ hlm, Part.retireHead_lane, Part.setLane_lane_of_ne _ _ hlm]
        rfl
      have hbegin := runTasks_begin 65531 l [] ((freed b m r).startTimed m h.body) hnext ht
      rw [hlane] at hbegin
      exact (runTasks_release_single 65533 b .trigger m [.begin l] r harrived hhead hth).trans
        (hbegin.trans (runTasks_nil _ _))

end Sys2Proof.Machine
end
